-- ==== Sys2Proof/Word.lean ====
section
/-! DEFINITION. The word types of the Sengbor 6210 model: bytes, serials and tree numbers. -/

namespace Sys2Proof

/-- One byte of an SPI frame, a report record, an activation message or a burst payload. -/
abbrev Byte := BitVec 8

/-- One of the four trees, numbered 0..3 (spec/00_scope.md, section 7). -/
abbrev TreeId := Fin 4

/-- A terminal's serial: the vendor code, four bytes compared byte for byte, and the unit number (R24, R42). -/
structure Serial where
  vendor : BitVec 32
  unit   : BitVec 32
  deriving DecidableEq, Repr

end Sys2Proof
end

