-- ==== Sys2Proof/Config.lean ====
section
/-! DEFINITION. The constants of the part that the manual fixes once, and the free values that it leaves open. -/

namespace Sys2Proof.Config

/-- One epoch in sx (R7). -/
abbrev epochSx : Nat := 10000000

/-- One epoch in bt (R7). -/
abbrev epochBt : Nat := 625000

/-- One bt in sx (R7). -/
abbrev btSx : Nat := 16

/-- Slots of one terminal table (R34). -/
abbrev tableSlots : Nat := 120

/-- Room of the downstream queue for gated messages (R14, R26). -/
abbrev gatedLimit : Nat := 24

/-- Room of the downstream queue for must-deliver messages (R14, R26). -/
abbrev queueLimit : Nat := 32

/-- Messages one tree may dispatch in one epoch (R28). -/
abbrev dispatchLimit : Nat := 4

/-- Places of a tree's task queue (R137). -/
abbrev taskLimit : Nat := 16

/-- Records of one pending-admission list (R69). -/
abbrev pendingLimit : Nat := 8

/-- Serials of one window's heard set (R85). -/
abbrev heardLimit : Nat := 128

/-- Contexts of one context queue (R77). -/
abbrev contextLimit : Nat := 4

/-- Records of the report queue (R191). -/
abbrev reportLimit : Nat := 64

/-- FREE VALUE (notes/assumptions/2.md): what the 64-bit count holds once a realignment or an epoch start
takes it past its span (R1 states the span and no value beyond it). -/
opaque countPastSpan : Nat → BitVec 64

/-- FREE VALUE (notes/assumptions/3.md): what a stale interval count of 255 becomes when it is raised (R80, R104
and R162 state the range 0..255 and no result for a raise at its top). -/
opaque staleCountPastTop : Nat → BitVec 8

/-- FREE VALUE (notes/assumptions/4.md): what a signed numeric field of `bytes` bytes carries for a value below
the least it can hold (R188 states the field's largest value for one beyond it, and arises it nowhere else). -/
opaque fieldBelowLeast : Nat → Int → Nat

end Sys2Proof.Config
end

