-- ==== Sys2Proof/Syntax.lean ====
section
/-! DEFINITION. The commands of the block: one constructor of `Instr` for each row of spec/opcode_table.json, with the
operands that the event or the request frame brings. Numbers of a request body stand at the width R188 gives their
field, so that an out-of-range byte can be written and is judged by the request's own rule. -/

namespace Sys2Proof

/-- The three channels of a grant link, in tag order 0, 1, 2 (chapter 9). -/
inductive Tag where
  | window
  | probe
  | silence
  deriving DecidableEq, Repr

/-- The quality a burst-mode receiver gives a quiet-interval burst (R20). -/
inductive Quality where
  | clean
  | garbled
  deriving DecidableEq, Repr

/-- One delivery of an epoch start to one block of one tree (R3, and the table below it): each is a row of the
opcode table, and each is taken once for each epoch start. -/
inductive EpochAction where
  | activationDeadline (t : TreeId)
  | lostHoldDeadline (t : TreeId)
  | pendingHoldDeadline (t : TreeId)
  | spacingEnd (t : TreeId)
  | probeWaitExpiry (t : TreeId)
  | auditSweep (t : TreeId)
  | heldRecheck (t : TreeId)
  | responseDeadline (t : TreeId) (tag : Tag)
  | resendEpoch (t : TreeId) (tag : Tag)
  | nextCheckEpoch (t : TreeId)
  | huntCheckEpoch (t : TreeId)
  | loopMarkerEpoch (t : TreeId)
  deriving DecidableEq, Repr

/-- The 17 entry bytes of a CAT_WRITE body (R66, R188). -/
structure RawCatEntry where
  valid  : Byte
  vendor : BitVec 32
  model  : BitVec 16
  refuse : Byte
  rn     : BitVec 24
  rtol   : BitVec 16
  la     : Byte
  bp     : BitVec 16
  pre    : Byte
  deriving DecidableEq, Repr

/-- The 13 range bytes of a BAR_WRITE body (R61, R188). -/
structure RawBarRange where
  valid  : Byte
  vendor : BitVec 32
  low    : BitVec 32
  high   : BitVec 32
  deriving DecidableEq, Repr

/-- The 56 parameter bytes of a TREE_CONFIG body, in the numbering of R176. -/
structure RawParams where
  art          : BitVec 24
  frtMin       : BitVec 24
  frtMax       : BitVec 24
  arMin        : BitVec 24
  arSpread     : BitVec 16
  bla          : BitVec 16
  u            : BitVec 16
  k            : Byte
  n            : Byte
  win          : BitVec 16
  wout         : BitVec 16
  wgross       : BitVec 16
  missLimit    : Byte
  lostHold     : BitVec 16
  budget       : BitVec 16
  askHold      : BitVec 16
  probeRetries : Byte
  probeWait    : BitVec 16
  sweepPeriod  : BitVec 16
  batch        : Byte
  strikeLimit  : Byte
  silenceLen   : BitVec 24
  huntPause    : BitVec 16
  calSpread    : Byte
  queueMode    : Byte
  defRn        : BitVec 24
  defRtol      : BitVec 16
  defLa        : Byte
  defBp        : BitVec 16
  defPre       : Byte
  deriving DecidableEq, Repr

/-- The four fields of a CTX_PUSH body behind the tree (R77, R194). -/
structure RawContext where
  dspan   : BitVec 16
  mode    : Byte
  repeats : Byte
  spacing : BitVec 16
  deriving DecidableEq, Repr

/-- The commands of the Sengbor 6210, in the order of spec/opcode_table.json. -/
inductive Instr where
  /-- POWER_ON, with the level on the maintenance strap pin (R60, R190). -/
  | powerOn (strap : Bool)
  /-- RESET_PIN_ASSERT (R190). -/
  | resetPinAssert
  /-- RESET_PIN_RELEASE, with the level on the maintenance strap pin (R60, R190). -/
  | resetPinRelease (strap : Bool)
  /-- EPOCH_MARKER, taken `offset` sx into the current epoch (R2, R4, R5); `early` lists the deliveries of a forward
  realignment's epoch start that reach their block before the slip event (R6: either order). -/
  | epochMarker (offset : Fin 10000000) (early : List EpochAction)
  /-- EPOCH_START: the count reaches the next whole multiple of 10,000,000 sx (R3). -/
  | epochStart
  | activationDeadline (t : TreeId)
  | lostHoldDeadline (t : TreeId)
  | pendingHoldDeadline (t : TreeId)
  | spacingEnd (t : TreeId)
  | probeWaitExpiry (t : TreeId)
  | auditSweep (t : TreeId)
  | heldRecheck (t : TreeId)
  | responseDeadline (t : TreeId) (tag : Tag)
  | resendEpoch (t : TreeId) (tag : Tag)
  | nextCheckEpoch (t : TreeId)
  | huntCheckEpoch (t : TreeId)
  | loopMarkerEpoch (t : TreeId)
  /-- SLOT_CALL of the tree's framer (R28). -/
  | slotCall (t : TreeId)
  /-- QUIET_INTERVAL_BURST: tag, raw time A in sx, quality and the payload passed on (R20, R21). -/
  | quietIntervalBurst (t : TreeId) (tag : Tag) (arrival : BitVec 64) (quality : Quality) (payload : List Byte)
  /-- INTERVAL_END of one tag (R21). -/
  | intervalEnd (t : TreeId) (tag : Tag)
  /-- GRANTED_BURST: TN, grant reference time g in bt and raw time A in sx (R21). -/
  | grantedBurst (t : TreeId) (tn : Byte) (g : BitVec 60) (arrival : BitVec 64)
  /-- MISS: TN and grant reference time in bt, which is not used (R21, R133). -/
  | miss (t : TreeId) (tn : Byte) (g : BitVec 60)
  /-- UNGRANTED_LIGHT with its raw time (R21). -/
  | ungrantedLight (t : TreeId) (arrival : BitVec 64)
  /-- CONTINUOUS_LIGHT with its raw time (R21). -/
  | continuousLight (t : TreeId) (arrival : BitVec 64)
  /-- LOOP record with its raw time (R21, R179). -/
  | loop (t : TreeId) (arrival : BitVec 64)
  /-- GRANT: tag, request number and granted start Qs in bt on the receiver timeline (R154). -/
  | grant (t : TreeId) (tag : Tag) (number : Byte) (start : BitVec 60)
  /-- DEFER: tag, request number and not-before epoch E (R156). -/
  | defer (t : TreeId) (tag : Tag) (number : Byte) (notBefore : Nat)
  /-- REFUSE of the grant scheduler: tag and request number (R157). -/
  | schedulerRefuse (t : TreeId) (tag : Tag) (number : Byte)
  /-- A request transaction that is malformed (R186). -/
  | malformedFrame
  /-- A read transaction that clocks `clocked` bytes behind its kind byte 0FH (R187). -/
  | readTransaction (clocked : Nat)
  | identify (tag : Byte)
  /-- PART_SETUP with an empty body, or with the overflow policy and the watermark (R189). -/
  | partSetup (tag : Byte) (settings : Option (Byte × Byte))
  | partReset (tag : Byte)
  | fetchReports (tag : Byte) (n : Byte)
  | catWrite (tag : Byte) (index : Byte) (entry : RawCatEntry)
  | catRead (tag : Byte) (index : Byte)
  | catLock (tag : Byte)
  | barWrite (tag : Byte) (index : Byte) (range : RawBarRange)
  | barRead (tag : Byte) (index : Byte)
  | treeConfig (tag : Byte) (tree : Byte) (params : RawParams)
  | treeReadConfig (tag : Byte) (tree : Byte)
  | treeOpen (tag : Byte) (tree : Byte)
  | treeClose (tag : Byte) (tree : Byte)
  | treeStatus (tag : Byte) (tree : Byte)
  | ctxPush (tag : Byte) (tree : Byte) (ctx : RawContext)
  | ctxFlush (tag : Byte) (tree : Byte)
  | treeSuspend (tag : Byte) (tree : Byte)
  | treeResume (tag : Byte) (tree : Byte)
  | forceQuiet (tag : Byte) (tree : Byte)
  | admitSerial (tag : Byte) (tree : Byte) (serial : Serial)
  | refuse (tag : Byte) (tree : Byte) (serial : Serial)
  | rangeNow (tag : Byte) (tree : Byte) (tn : Byte)
  | retireTn (tag : Byte) (tree : Byte) (tn : Byte)
  | muteTn (tag : Byte) (tree : Byte) (tn : Byte)
  | unmuteTn (tag : Byte) (tree : Byte) (tn : Byte)
  | readEntry (tag : Byte) (tree : Byte) (tn : Byte)
  | findSerial (tag : Byte) (serial : Serial)
  deriving DecidableEq, Repr

end Sys2Proof
end

