-- ==== Sys2Proof/WellFormed.lean ====
section
/-! DEFINITION. Which commands can reach the part as the manual describes its links. Every other bound on an operand is
in its type (a tree, a tag, a byte), or is judged by the command's own rule and answered with a reply code. -/

namespace Sys2Proof

/-- Longest payload a burst-mode receiver passes on (R20). -/
abbrev maxPayload : Nat := 64

/-- Well-formed: a receiver passes on at most 64 payload bytes, and none for a GARBLED burst (R20), and each delivery of
one epoch start reaches its block once (R3). -/
def Instr.wellFormed : Instr → Bool
  | .quietIntervalBurst _ _ _ .clean payload => decide (payload.length ≤ maxPayload)
  | .quietIntervalBurst _ _ _ .garbled payload => payload.isEmpty
  | .epochMarker _ early => decide early.Nodup
  | _ => true

end Sys2Proof
end

