-- ==== Sys2Proof/Decode.lean ====
section
/-! DEFINITION. Reading commands from bits. The opcode table gives no row any bits, so `decodeTableWord` answers none. The
host processor's commands do come as bytes, in SPI transactions (R186, R187, R194): `decodeFrame` reads the command that
the bytes of one transaction spell, and `encodeFrame` writes a request's frame. -/

namespace Sys2Proof

/-- No row of spec/opcode_table.json has bits, so no word spells a command by the table. -/
def decodeTableWord (_nbits _w : Nat) : Option Instr := none

/-- Byte `i` of a body, most significant byte first in each field (R188). -/
def byteAt (body : List Byte) (i : Nat) : Byte := body.getD i 0

/-- The two-byte field that begins at byte `i` (R188). -/
def field16 (body : List Byte) (i : Nat) : BitVec 16 := byteAt body i ++ byteAt body (i + 1)

/-- The three-byte field that begins at byte `i` (R188). -/
def field24 (body : List Byte) (i : Nat) : BitVec 24 := byteAt body i ++ field16 body (i + 1)

/-- The four-byte field that begins at byte `i` (R188). -/
def field32 (body : List Byte) (i : Nat) : BitVec 32 := byteAt body i ++ field24 body (i + 1)

/-- The bytes of a two-byte field, most significant first (R188). -/
def bytes16 (v : BitVec 16) : List Byte := [v.extractLsb' 8 8, v.extractLsb' 0 8]

/-- The bytes of a three-byte field, most significant first (R188). -/
def bytes24 (v : BitVec 24) : List Byte := [v.extractLsb' 16 8, v.extractLsb' 8 8, v.extractLsb' 0 8]

/-- The bytes of a four-byte field, most significant first (R188). -/
def bytes32 (v : BitVec 32) : List Byte :=
  [v.extractLsb' 24 8, v.extractLsb' 16 8, v.extractLsb' 8 8, v.extractLsb' 0 8]

/-- A serial in a body: the vendor code, then the unit number (R188). -/
def serialField (body : List Byte) (i : Nat) : Serial := ⟨field32 body i, field32 body (i + 4)⟩

/-- The bytes of a serial (R188). -/
def serialBytes (s : Serial) : List Byte := bytes32 s.vendor ++ bytes32 s.unit

/-- The sync byte of a request frame (R186). -/
abbrev syncByte : Byte := 0xA5#8

/-- The first byte of a read transaction (R186). -/
abbrev readByte : Byte := 0x0F#8

/-- The entry fields of a CAT_WRITE body, behind its index byte (R66). -/
def catEntryField (b : List Byte) : RawCatEntry :=
  { valid := byteAt b 1, vendor := field32 b 2, model := field16 b 6, refuse := byteAt b 8, rn := field24 b 9,
    rtol := field16 b 12, la := byteAt b 14, bp := field16 b 15, pre := byteAt b 17 }

/-- The bytes of a catalogue entry (R66). -/
def catEntryBytes (e : RawCatEntry) : List Byte :=
  e.valid :: bytes32 e.vendor ++ bytes16 e.model ++ e.refuse :: bytes24 e.rn ++ bytes16 e.rtol ++ e.la :: bytes16 e.bp ++
    [e.pre]

/-- The range fields of a BAR_WRITE body, behind its index byte (R61). -/
def barRangeField (b : List Byte) : RawBarRange :=
  { valid := byteAt b 1, vendor := field32 b 2, low := field32 b 6, high := field32 b 10 }

/-- The bytes of a barred range (R61). -/
def barRangeBytes (r : RawBarRange) : List Byte :=
  r.valid :: bytes32 r.vendor ++ bytes32 r.low ++ bytes32 r.high

/-- The parameter fields of a TREE_CONFIG body, behind its tree byte (R176). -/
def paramsField (b : List Byte) : RawParams :=
  { art := field24 b 1, frtMin := field24 b 4, frtMax := field24 b 7, arMin := field24 b 10, arSpread := field16 b 13,
    bla := field16 b 15, u := field16 b 17, k := byteAt b 19, n := byteAt b 20, win := field16 b 21,
    wout := field16 b 23, wgross := field16 b 25, missLimit := byteAt b 27, lostHold := field16 b 28,
    budget := field16 b 30, askHold := field16 b 32, probeRetries := byteAt b 34, probeWait := field16 b 35,
    sweepPeriod := field16 b 37, batch := byteAt b 39, strikeLimit := byteAt b 40, silenceLen := field24 b 41,
    huntPause := field16 b 44, calSpread := byteAt b 46, queueMode := byteAt b 47, defRn := field24 b 48,
    defRtol := field16 b 51, defLa := byteAt b 53, defBp := field16 b 54, defPre := byteAt b 56 }

/-- The bytes of a parameter set, in the numbering of R176. -/
def paramsBytes (p : RawParams) : List Byte :=
  bytes24 p.art ++ bytes24 p.frtMin ++ bytes24 p.frtMax ++ bytes24 p.arMin ++ bytes16 p.arSpread ++ bytes16 p.bla ++
    bytes16 p.u ++ [p.k, p.n] ++ bytes16 p.win ++ bytes16 p.wout ++ bytes16 p.wgross ++ [p.missLimit] ++
    bytes16 p.lostHold ++ bytes16 p.budget ++ bytes16 p.askHold ++ [p.probeRetries] ++ bytes16 p.probeWait ++
    bytes16 p.sweepPeriod ++ [p.batch, p.strikeLimit] ++ bytes24 p.silenceLen ++ bytes16 p.huntPause ++
    [p.calSpread, p.queueMode] ++ bytes24 p.defRn ++ bytes16 p.defRtol ++ [p.defLa] ++ bytes16 p.defBp ++ [p.defPre]

/-- The context fields of a CTX_PUSH body, behind its tree byte (R77). -/
def contextField (b : List Byte) : RawContext :=
  { dspan := field16 b 1, mode := byteAt b 3, repeats := byteAt b 4, spacing := field16 b 5 }

/-- The bytes of a context (R77). -/
def contextBytes (c : RawContext) : List Byte :=
  bytes16 c.dspan ++ [c.mode, c.repeats] ++ bytes16 c.spacing

/-- The body lengths that a request kind accepts (R194); none for a kind outside the 27. -/
def bodyLengths (kind : Nat) : List Nat :=
  match kind with
  | 0x01 | 0x03 | 0x07 => [0]
  | 0x02 => [0, 2]
  | 0x04 | 0x06 | 0x09 | 0x11 | 0x12 | 0x13 | 0x14 | 0x16 | 0x17 | 0x18 | 0x19 => [1]
  | 0x05 => [18]
  | 0x08 => [14]
  | 0x10 => [57]
  | 0x15 => [7]
  | 0x20 | 0x21 => [9]
  | 0x22 | 0x23 | 0x24 | 0x25 | 0x26 => [2]
  | 0x27 => [8]
  | _ => []

/-- The request of a frame whose kind accepts its body's length (R194). -/
def decodeRequest (kind : Nat) (tag : Byte) (b : List Byte) : Instr :=
  match kind with
  | 0x01 => .identify tag
  | 0x02 => .partSetup tag (if b.isEmpty then none else some (byteAt b 0, byteAt b 1))
  | 0x03 => .partReset tag
  | 0x04 => .fetchReports tag (byteAt b 0)
  | 0x05 => .catWrite tag (byteAt b 0) (catEntryField b)
  | 0x06 => .catRead tag (byteAt b 0)
  | 0x07 => .catLock tag
  | 0x08 => .barWrite tag (byteAt b 0) (barRangeField b)
  | 0x09 => .barRead tag (byteAt b 0)
  | 0x10 => .treeConfig tag (byteAt b 0) (paramsField b)
  | 0x11 => .treeReadConfig tag (byteAt b 0)
  | 0x12 => .treeOpen tag (byteAt b 0)
  | 0x13 => .treeClose tag (byteAt b 0)
  | 0x14 => .treeStatus tag (byteAt b 0)
  | 0x15 => .ctxPush tag (byteAt b 0) (contextField b)
  | 0x16 => .ctxFlush tag (byteAt b 0)
  | 0x17 => .treeSuspend tag (byteAt b 0)
  | 0x18 => .treeResume tag (byteAt b 0)
  | 0x19 => .forceQuiet tag (byteAt b 0)
  | 0x20 => .admitSerial tag (byteAt b 0) (serialField b 1)
  | 0x21 => .refuse tag (byteAt b 0) (serialField b 1)
  | 0x22 => .rangeNow tag (byteAt b 0) (byteAt b 1)
  | 0x23 => .retireTn tag (byteAt b 0) (byteAt b 1)
  | 0x24 => .muteTn tag (byteAt b 0) (byteAt b 1)
  | 0x25 => .unmuteTn tag (byteAt b 0) (byteAt b 1)
  | 0x26 => .readEntry tag (byteAt b 0) (byteAt b 1)
  | 0x27 => .findSerial tag (serialField b 0)
  | _ => .malformedFrame

/-- The command that one SPI transaction spells (R186): a read, a well-formed request, or a malformed frame. A length
byte above 60 meets no accepted length. -/
def decodeFrame : List Byte → Instr
  | [] => .malformedFrame
  | first :: rest =>
    if first = readByte then .readTransaction rest.length
    else if first = syncByte then
      match rest with
      | kind :: tag :: len :: body =>
        if body.length = len.toNat ∧ len.toNat ≤ 60 ∧ body.length ∈ bodyLengths kind.toNat then
          decodeRequest kind.toNat tag body
        else .malformedFrame
      | _ => .malformedFrame
    else .malformedFrame

/-- A request frame: sync byte, kind, tag, body length, body (R186). -/
def requestFrame (kind tag : Byte) (body : List Byte) : List Byte :=
  syncByte :: kind :: tag :: BitVec.ofNat 8 body.length :: body

/-- The frame by which the host processor sends a request, and the bytes of a read transaction; none for a command that
does not come over the SPI link, and for a malformed frame, which no one frame stands for. -/
def encodeFrame : Instr → Option (List Byte)
  | .readTransaction n => some (readByte :: List.replicate n 0)
  | .identify tag => some (requestFrame 0x01 tag [])
  | .partSetup tag none => some (requestFrame 0x02 tag [])
  | .partSetup tag (some (policy, mark)) => some (requestFrame 0x02 tag [policy, mark])
  | .partReset tag => some (requestFrame 0x03 tag [])
  | .fetchReports tag n => some (requestFrame 0x04 tag [n])
  | .catWrite tag i e => some (requestFrame 0x05 tag (i :: catEntryBytes e))
  | .catRead tag i => some (requestFrame 0x06 tag [i])
  | .catLock tag => some (requestFrame 0x07 tag [])
  | .barWrite tag i r => some (requestFrame 0x08 tag (i :: barRangeBytes r))
  | .barRead tag i => some (requestFrame 0x09 tag [i])
  | .treeConfig tag t p => some (requestFrame 0x10 tag (t :: paramsBytes p))
  | .treeReadConfig tag t => some (requestFrame 0x11 tag [t])
  | .treeOpen tag t => some (requestFrame 0x12 tag [t])
  | .treeClose tag t => some (requestFrame 0x13 tag [t])
  | .treeStatus tag t => some (requestFrame 0x14 tag [t])
  | .ctxPush tag t c => some (requestFrame 0x15 tag (t :: contextBytes c))
  | .ctxFlush tag t => some (requestFrame 0x16 tag [t])
  | .treeSuspend tag t => some (requestFrame 0x17 tag [t])
  | .treeResume tag t => some (requestFrame 0x18 tag [t])
  | .forceQuiet tag t => some (requestFrame 0x19 tag [t])
  | .admitSerial tag t s => some (requestFrame 0x20 tag (t :: serialBytes s))
  | .refuse tag t s => some (requestFrame 0x21 tag (t :: serialBytes s))
  | .rangeNow tag t tn => some (requestFrame 0x22 tag [t, tn])
  | .retireTn tag t tn => some (requestFrame 0x23 tag [t, tn])
  | .muteTn tag t tn => some (requestFrame 0x24 tag [t, tn])
  | .unmuteTn tag t tn => some (requestFrame 0x25 tag [t, tn])
  | .readEntry tag t tn => some (requestFrame 0x26 tag [t, tn])
  | .findSerial tag s => some (requestFrame 0x27 tag (serialBytes s))
  | .powerOn _ | .resetPinAssert | .resetPinRelease _ | .epochMarker _ _ | .epochStart | .activationDeadline _
  | .lostHoldDeadline _ | .pendingHoldDeadline _ | .spacingEnd _ | .probeWaitExpiry _ | .auditSweep _ | .heldRecheck _
  | .responseDeadline _ _ | .resendEpoch _ _ | .nextCheckEpoch _ | .huntCheckEpoch _ | .loopMarkerEpoch _ | .slotCall _
  | .quietIntervalBurst _ _ _ _ _ | .intervalEnd _ _ | .grantedBurst _ _ _ _ | .miss _ _ _ | .ungrantedLight _ _
  | .continuousLight _ _ | .loop _ _ | .grant _ _ _ _ | .defer _ _ _ _ | .schedulerRefuse _ _ _ | .malformedFrame => none

end Sys2Proof
end

