-- ==== Sys2Proof/Machine/State.lean ====
section
/-! DEFINITION. The state of the Sengbor 6210 as plain data: every register, table, queue, list, counter and condition
that the manual names, with the values of power-on (`State.reset`), and the reasons a step can stop. -/

namespace Sys2Proof.Machine

/-! ### Timebase (chapter 1) -/

/-- Status of the Timebase (R1). -/
inductive TimeStatus where
  | waiting
  | running
  deriving DecidableEq, Repr

/-- The Timebase (R1, R5, R13). `count` is the 64-bit sx count as the last marker or epoch start left it; the time that
has passed since within the epoch comes with EPOCH_MARKER's operand (notes/assumptions/5.md). -/
structure Timebase where
  status    : TimeStatus
  count     : BitVec 64
  slipCount : Nat
  deriving DecidableEq, Repr

/-! ### Downstream messages and the downstream queue (chapter 2) -/

/-- The eight downstream messages (R14..R19), and the broadcast RETIRE. Reference times are held at full width (R9). -/
inductive Message where
  | invite (window : Byte) (span : Nat) (gw : Int)
  | assign (tn : Nat) (serial : Serial)
  | probe (tn : Nat) (g : Int)
  | delay (tn : Nat) (ld : Nat)
  | nudge (tn : Nat) (change : Int)
  | mute (tn : Nat)
  | unmute (tn : Nat)
  | retire (tn : Nat)
  | retireAll
  deriving DecidableEq, Repr

/-- The posters of a downstream queue (section 2.5). -/
inductive Issuer where
  | registry
  | drift
  | sequencer
  | discovery
  | controller
  deriving DecidableEq, Repr

/-- A queued item (R25): the message, its poster, the instance its notice names (R50, R114, R130, R138), and, for INVITE
and PROBE, the dispatch deadline (R11). -/
structure Item where
  msg      : Message
  issuer   : Issuer
  inst     : BitVec 16
  deadline : Option Int
  deriving DecidableEq, Repr

/-- A tree's Downstream Message Queue (R25): the list, oldest first, the owed-broadcast holder, and the dispatch count
with its epoch. -/
structure MsgQueue where
  items         : List Item
  owedBroadcast : Bool
  count         : Nat
  countEpoch    : Nat
  deriving DecidableEq, Repr

/-- An owed message of an entry (R27), with its poster. -/
structure OwedMsg where
  msg    : Message
  issuer : Issuer
  deriving DecidableEq, Repr

/-! ### Terminal Registry (chapter 3) and profiles (chapter 4) -/

/-- Where a profile field comes from (R64). -/
inductive Origin where
  | declared
  | catalogue
  | default
  deriving DecidableEq, Repr

/-- One resolved profile field (R33, R64). -/
structure ProfileField where
  value  : Nat
  origin : Origin
  deriving DecidableEq, Repr

/-- A resolved profile (R33, R64). -/
structure Profile where
  rn   : ProfileField
  rtol : ProfileField
  la   : ProfileField
  bp   : ProfileField
  pre  : ProfileField
  deriving DecidableEq, Repr

/-- settle-until: an epoch number or "not yet" (R122). -/
inductive Settle where
  | epoch (e : Nat)
  | notYet
  deriving DecidableEq, Repr

/-- The drift fields of an OPERATING entry (R33, R122). -/
structure Drift where
  sum    : Int
  n      : Nat
  settle : Settle
  misses : Nat
  deriving DecidableEq, Repr

/-- The mute cause of a MUTED entry; the release mark stands with cause HUNT alone (R33, R170). -/
inductive MuteCause where
  | host
  | hunt (releaseMark : Bool)
  deriving DecidableEq, Repr

/-- The state of an entry, with the fields R33 gives that state and no other. -/
inductive EntryState where
  | assigning (deadline : Nat)
  | ranging (deadline : Nat)
  | verifying (deadline : Nat)
  | operating (drift : Drift)
  | muted (cause : MuteCause)
  | lost (holdDeadline : Nat)
  | retiring
  deriving DecidableEq, Repr

/-- The names of the entry states (R33). -/
inductive StateName where
  | assigning
  | ranging
  | verifying
  | operating
  | muted
  | lost
  | retiring
  deriving DecidableEq, Repr

/-- The name of an entry state. -/
def EntryState.name : EntryState → StateName
  | .assigning _ => .assigning
  | .ranging _ => .ranging
  | .verifying _ => .verifying
  | .operating _ => .operating
  | .muted _ => .muted
  | .lost _ => .lost
  | .retiring => .retiring

/-- An entry of a terminal table (R33); its TN is the slot that holds it (R40). -/
structure Entry where
  inst     : BitVec 16
  state    : EntryState
  serial   : Serial
  model    : BitVec 16
  profile  : Profile
  c        : Int
  rrt      : Option Int
  ld       : Nat
  r        : Option Int
  ever     : Bool
  attempts : Option Nat
  waiting  : Bool
  owed     : Option OwedMsg
  resend   : Bool
  deriving DecidableEq, Repr

/-- A slot of a terminal table: the instance number it keeps, FREE or not, and its entry (R34). -/
structure Slot where
  inst  : BitVec 16
  entry : Option Entry
  deriving DecidableEq, Repr

/-- An item of the serial directory (R42). -/
structure DirItem where
  serial : Serial
  tree   : TreeId
  tn     : Nat
  deriving DecidableEq, Repr

/-! ### Admission Unit (chapter 4) -/

/-- A barred range (R61). -/
structure BarRange where
  valid  : Bool
  vendor : BitVec 32
  low    : BitVec 32
  high   : BitVec 32
  deriving DecidableEq, Repr

/-- A catalogue entry (R66). -/
structure CatEntry where
  valid  : Bool
  vendor : BitVec 32
  model  : BitVec 16
  refuse : Bool
  rn     : Nat
  rtol   : Nat
  la     : Nat
  bp     : Nat
  pre    : Nat
  deriving DecidableEq, Repr

/-- A pending-admission record (R69). -/
structure PendingRec where
  serial   : Serial
  model    : BitVec 16
  c        : Int
  profile  : Profile
  deadline : Nat
  deriving DecidableEq, Repr

/-- The part-wide state of the Admission Unit (R60). -/
structure Admission where
  bars  : Vector BarRange 8
  cat   : Vector CatEntry 64
  lock  : Bool
  strap : Bool
  deriving DecidableEq, Repr

/-! ### Discovery Unit (chapter 5) -/

/-- Admission mode of a context (R77). -/
inductive AdmitMode where
  | openMode
  | ask
  deriving DecidableEq, Repr

/-- A discovery context (R77). -/
structure Context where
  dspan   : Nat
  mode    : AdmitMode
  repeats : Nat
  spacing : Nat
  deriving DecidableEq, Repr

/-- A context of the queue; the held mark is the head's (R77). -/
structure QueuedContext where
  ctx  : Context
  held : Bool
  deriving DecidableEq, Repr

/-- The collection state of a window (R85). -/
structure Collection where
  heard      : List Serial
  announces  : Nat
  duplicates : Nat
  malformed  : Nat
  outOfReach : Nat
  excess     : Nat
  collisions : Nat
  deriving DecidableEq, Repr

/-- The discovery state, with the items R80 gives each state: the window copy, the spacing end, the request figures,
the grant figures, the window's number, its dispatch epoch and the collection. -/
inductive DiscState where
  | stopped
  | spacing (endEpoch : Nat)
  | due (copy : Option Context)
  | requesting (copy : Context) (qe : Int)
  | posted (copy : Context) (number : Byte) (qs gw : Int)
  | collecting (copy : Context) (number : Byte) (qs gw : Int) (dispatch : Nat) (coll : Collection)
  deriving DecidableEq, Repr

/-- A tree's Discovery Unit (R77, R80). -/
structure Discovery where
  contexts    : List QueuedContext
  state       : DiscState
  repeatIndex : Nat
  flushed     : Bool
  nextWindow  : Byte
  stale       : Byte
  deriving DecidableEq, Repr

/-! ### Task Sequencer (chapters 6 and 8) -/

/-- The kinds of a task; all but AUDIT are of class URGENT (R137). -/
inductive TaskKind where
  | range
  | rerange
  | unmute
  | rangeNow
  | audit
  deriving DecidableEq, Repr

/-- A queued task (R137). -/
structure Task where
  tn   : Nat
  inst : BitVec 16
  kind : TaskKind
  deriving DecidableEq, Repr

/-- The kinds of a probe operation (R104). -/
inductive OpKind where
  | range
  | audit
  deriving DecidableEq, Repr

/-- The entry state an operation expects (R104). -/
inductive Expected where
  | ranging
  | verifying
  | operating
  deriving DecidableEq, Repr

/-- The stage of an operation; VERIFY holds the delay dispatch epoch, awaited or received (R104). -/
inductive Stage where
  | measure
  | verify (delayDispatch : Option Nat)
  deriving DecidableEq, Repr

/-- The reference floor F and the placement figures of an attempt, fixed at its first sending (R104..R106). -/
structure Placement where
  floor  : Int
  ldp    : Nat
  cp     : Int
  half   : Int
  length : Int
  deriving DecidableEq, Repr

/-- The collection of a probe interval (R104, R111). -/
structure Echoes where
  matching : Nat
  first    : Int
  foreign  : Nat
  garbled  : Nat
  deriving DecidableEq, Repr

/-- The phase of an operation, with the figures R104 gives each phase: the placement figures, `qe` of the latest sending among
them, from the first sending on; the grant figures Qs and G in POSTED and LISTENING; the collection in LISTENING. -/
inductive OpPhase where
  | held
  | waitDelay
  | requesting (pl : Placement) (qe : Int)
  | posted (pl : Placement) (qe qs g : Int)
  | listening (pl : Placement) (qe qs g : Int) (echoes : Echoes)
  deriving DecidableEq, Repr

/-- A probe operation (R104). -/
structure ProbeOp where
  tn        : Nat
  inst      : BitVec 16
  serial    : Serial
  kind      : OpKind
  expected  : Expected
  stage     : Stage
  phase     : OpPhase
  waitStart : Nat
  deriving DecidableEq, Repr

/-- A tree's Task Sequencer (R104, R137, R148). -/
structure Sequencer where
  tasks     : List Task
  op        : Option ProbeOp
  stale     : Byte
  sweepPtr  : Nat
  nextSweep : Option Nat
  deriving DecidableEq, Repr

/-! ### Grant Link (chapter 9) -/

/-- The kind of a requested interval (R152). -/
inductive IntervalKind where
  | quiet
  | silence
  deriving DecidableEq, Repr

/-- A request record (R151). -/
structure Request where
  kind     : IntervalKind
  length   : Int
  earliest : Int
  deriving DecidableEq, Repr

/-- The phase of a channel, with the items R151 gives each phase. -/
inductive ChannelPhase where
  | idle
  | awaiting (req : Request) (deadline : Nat)
  | deferred (req : Request) (resend : Nat)
  | backingOff (req : Request) (resend : Nat)
  | granted (number : Byte) (start : Int)
  deriving DecidableEq, Repr

/-- A channel of a grant link (R151). -/
structure Channel where
  phase  : ChannelPhase
  number : Byte
  deriving DecidableEq, Repr

/-- A message of the part on a grant link (R152, R159). -/
inductive GrantMsg where
  | request (tag : Tag) (number : Byte) (kind : IntervalKind) (length earliest : Int)
  | release (tag : Tag) (number : Byte)
  | terminalOn (tn : Nat) (pre : Nat) (bp : Nat)
  | terminalOff (tn : Nat)
  | allOff
  deriving DecidableEq, Repr

/-! ### Light Monitor (chapter 10) -/

/-- The light condition (R162). -/
inductive Light where
  | unknown
  | quiet
  | suspect
  deriving DecidableEq, Repr

/-- The purpose of a silence check (R162). -/
inductive Purpose where
  | opening
  | strike
  | hunt
  | pause
  deriving DecidableEq, Repr

/-- The phase of a silence check, with the granted start and the burst count in LISTENING (R162). -/
inductive CheckPhase where
  | requesting
  | listening (qs : Int) (bursts : Nat)
  deriving DecidableEq, Repr

/-- A silence check in flight (R162); `qe` is the earliest start of the latest sending, in either phase. -/
structure Check where
  purpose : Purpose
  qe      : Int
  phase   : CheckPhase
  deriving DecidableEq, Repr

/-- The phase of a hunt step (R169). -/
inductive HuntStep where
  | muting
  | settling (checkEpoch : Nat)
  | checking
  deriving DecidableEq, Repr

/-- A hunt candidate: TN and instance (R168). -/
structure Candidate where
  tn   : Nat
  inst : BitVec 16
  deriving DecidableEq, Repr

/-- A hunt in progress (R162, R168): the candidate list, the candidates not yet offered a step, the current candidate,
its step phase, and the counts. -/
structure Hunt where
  candidates : List Candidate
  rest       : List Candidate
  current    : Candidate
  step       : HuntStep
  checked    : Nat
  skipped    : Nat
  deriving DecidableEq, Repr

/-- A tree's Light Monitor (R162). -/
structure LightMonitor where
  light     : Light
  strikes   : Nat
  check     : Option Check
  nextCheck : Option Nat
  stale     : Byte
  hunt      : Option Hunt
  pause     : Bool
  deriving DecidableEq, Repr

/-! ### Tree Controller (chapter 11) -/

/-- Queue mode of the context queue (R92, R176). -/
inductive QueueMode where
  | hold
  | drain
  deriving DecidableEq, Repr

/-- The 30 tree parameters, in the numbering of R176. -/
structure Params where
  art          : Nat
  frtMin       : Nat
  frtMax       : Nat
  arMin        : Nat
  arSpread     : Nat
  bla          : Nat
  u            : Nat
  k            : Nat
  n            : Nat
  win          : Nat
  wout         : Nat
  wgross       : Nat
  missLimit    : Nat
  lostHold     : Nat
  budget       : Nat
  askHold      : Nat
  probeRetries : Nat
  probeWait    : Nat
  sweepPeriod  : Nat
  batch        : Nat
  strikeLimit  : Nat
  silenceLen   : Nat
  huntPause    : Nat
  calSpread    : Nat
  queueMode    : QueueMode
  defRn        : Nat
  defRtol      : Nat
  defLa        : Nat
  defBp        : Nat
  defPre       : Nat
  deriving DecidableEq, Repr

/-- Why a calibration run fails, in the order of R184. -/
inductive CalFailure where
  | missing
  | spread
  | range
  deriving DecidableEq, Repr

/-- A calibration run (R175): run number 1 or 2, start epoch s, the epochs of the markers placed, the Pi taken in marker
order, the restart count, and the reason run 1 failed, which the TREE report of run 2 carries (R184). -/
structure CalRun where
  run      : Nat
  start    : Nat
  markers  : List Nat
  pis      : List Int
  restarts : Nat
  first    : Option CalFailure
  deriving DecidableEq, Repr

/-- The tree state; the calibration run stands in CALIBRATING alone (R175). -/
inductive TreeState where
  | closed
  | calibrating (run : CalRun)
  | active
  | closing
  deriving DecidableEq, Repr

/-- The names of the tree states (R175). -/
inductive TreeName where
  | closed
  | calibrating
  | active
  | closing
  deriving DecidableEq, Repr

/-- The name of a tree state. -/
def TreeState.name : TreeState → TreeName
  | .closed => .closed
  | .calibrating _ => .calibrating
  | .active => .active
  | .closing => .closing

/-- A tree's Tree Controller (R175). -/
structure Controller where
  state      : TreeState
  configured : Bool
  params     : Params
  p          : Nat
  suspended  : Bool
  deriving DecidableEq, Repr

/-! ### One tree -/

/-- What has left the part on the links of one tree, oldest first: the control-slot messages of the insertion link with
their dispatch epochs, encoded as R24 states; the epochs of the loop markers; and the grant-link messages in the order
of R159. A field of the model's own (notes/assumptions/6.md). -/
structure LinkOut where
  slots : List (Nat × List Byte)
  loops : List Nat
  grant : List GrantMsg
  deriving DecidableEq, Repr

/-- The eight per-tree blocks, the tree's share of the part-wide blocks, and what has left on its links. -/
structure Tree where
  ctl         : Controller
  slots       : Vector Slot 120
  onAir       : List Nat
  pendingList : List PendingRec
  msgq        : MsgQueue
  chanWindow  : Channel
  chanProbe   : Channel
  chanSilence : Channel
  disc        : Discovery
  seq         : Sequencer
  light       : LightMonitor
  out         : LinkOut
  deriving DecidableEq, Repr

/-! ### Reports and the Command Port (chapter 12) -/

/-- The causes of a TERMINAL report, in the order of R39. -/
inductive Cause where
  | admitted
  | reactivated
  | assignSent
  | ranged
  | verified
  | verifyDeviation
  | auditStep
  | driftWindow
  | driftGross
  | driftNegative
  | rangeNow
  | misses
  | attempts
  | noGrant
  | budget
  | hostRetire
  | hostMute
  | hostUnmute
  | huntMute
  | huntClear
  | retireSent
  | holdExpired
  | moved
  | closed
  deriving DecidableEq, Repr

/-- The action of a RANGED report (R119). -/
inductive RangedAction where
  | delay
  | nudge
  | residual
  deriving DecidableEq, Repr

/-- The action of a NUDGED report (R132). -/
inductive NudgedAction where
  | nudge
  | residual
  deriving DecidableEq, Repr

/-- How the queue took a NUDGE (R132). -/
inductive Delivery where
  | queued
  | owed
  | merged
  deriving DecidableEq, Repr

/-- The outcomes of an ADMISSION report, in the order of R76. -/
inductive AdmitOutcome where
  | admitted
  | reactivated
  | clash
  | backlog
  | barred
  | stillPending
  | modelRefused
  | ask
  | askFull
  | tableFull
  | refused
  | timedOut
  | superseded
  | closed
  | malformed
  | outOfReach
  deriving DecidableEq, Repr

/-- The source of an ADMISSION report (R76). -/
inductive AdmitSource where
  | announce
  | host
  | hold
  | close
  deriving DecidableEq, Repr

/-- How a window ended (R94). -/
inductive WindowEnd where
  | completed
  | slip
  | close
  deriving DecidableEq, Repr

/-- What follows a window (R94); NONE is none. -/
inductive WindowNext where
  | repeated
  | spacing
  | stopped
  | rerun
  deriving DecidableEq, Repr

/-- The cause of a LIGHT report (R174). -/
inductive LightCause where
  | opened
  | checkPassed
  | strikes
  | continuous
  | found
  | pausePassed
  | forced
  deriving DecidableEq, Repr

/-- The outcome of a HUNT report (R174). -/
inductive HuntOutcome where
  | started
  | found
  | unresolved
  | aborted
  deriving DecidableEq, Repr

/-- The cause of a TREE report (R184). -/
inductive TreeCause where
  | opened
  | calibrated
  | calFailed
  | hostClose
  | closeDone
  deriving DecidableEq, Repr

/-- The five profile origins of an ADMISSION report, in the order Rn, Rtol, La, Bp, preamble class (R76). -/
structure Origins where
  rn   : Origin
  rtol : Origin
  la   : Origin
  bp   : Origin
  pre  : Origin
  deriving DecidableEq, Repr

/-- The report bodies, field by field as their rules list them: TERMINAL (R39; `none` is FREE), RANGED (R119), NUDGED
(R132), ADMISSION (R76; `otherTree` `none` is 7), WINDOW (R94), LIGHT and HUNT (R174), TREE (R184), TIME_SLIP (R6). -/
inductive ReportBody where
  | terminal (tn : Nat) (inst : BitVec 16) (serial : Serial) (old new : Option StateName) (cause : Cause)
  | ranged (tn : Nat) (inst : BitVec 16) (kind : OpKind) (action : RangedAction) (rrt c : Int) (ld : Nat) (r change : Int)
      (attempts : Nat)
  | nudged (tn : Nat) (inst : BitVec 16) (action : NudgedAction) (average : Int) (samples : Nat) (change : Int) (ld : Nat)
      (r : Int) (delivery : Option Delivery)
  | admission (outcome : AdmitOutcome) (source : AdmitSource) (window : Byte) (serial : Serial) (model : BitVec 16)
      (c : Int) (origins : Option Origins) (tn : Nat) (otherTree : Option TreeId)
  | window (number : Byte) (repeatIndex : Nat) (ended : WindowEnd) (next : Option WindowNext) (dspan : Nat)
      (mode : AdmitMode) (dispatch : Nat) (coll : Collection)
  | light (old new : Light) (cause : LightCause) (strikes : Nat) (raw : Int)
  | hunt (outcome : HuntOutcome) (candidates checked skipped tn : Nat) (inst : BitVec 16)
  | tree (old new : TreeName) (cause : TreeCause) (p runs restarts : Nat) (reason : Option CalFailure) (spread : Int)
      (entries : Nat)
  | timeSlip (markerCount : BitVec 64) (offset : Nat) (correction : Int) (slipCount : Nat)
  deriving DecidableEq, Repr

/-- A poster (R191): trees 0..3, then the part-wide poster, in the arbiter's cycle order. -/
abbrev Poster := Fin 5

/-- The part-wide poster (R191). -/
abbrev partWide : Poster := 4

/-- A report record before its bytes are laid out (R191): the body, the poster, the low 32 bits of the epoch, and the
lost-before count, 0 until the record is entered. -/
structure Record where
  body       : ReportBody
  poster     : Poster
  epoch      : Nat
  lostBefore : Nat
  deriving DecidableEq, Repr

/-- Overflow policy of the report queue (R192). -/
inductive Policy where
  | keepOldest
  | keepNewest
  deriving DecidableEq, Repr

/-- The reply codes (R187). -/
inductive ReplyCode where
  | ok
  | malformed
  | badParam
  | wrongState
  | busy
  | notFound
  | notPending
  | locked
  | barred
  | tableFull
  deriving DecidableEq, Repr

/-- A reply: the request's tag, the code and the body (R187). -/
structure Reply where
  tag  : Byte
  code : ReplyCode
  body : List Byte
  deriving DecidableEq, Repr

/-- What the part drove on MISO in the last transaction: nothing since reset, FFH on every byte, or, in a read, these
bytes from the second byte on (R186, R187). -/
inductive Miso where
  | undriven
  | allOnes
  | frame (bytes : List Byte)
  deriving DecidableEq, Repr

/-- The Command Port (R187, R190..R193): the reply holder, the report queue, the records each poster has delivered and
the arbiter has not entered, the last-served poster, the pending-lost counter, the two settings, the attention line, and
what was last driven on MISO. -/
structure Port where
  holder     : Option Reply
  queue      : List Record
  delivered  : Vector (List Record) 5
  lastServed : Poster
  lost       : Nat
  policy     : Policy
  watermark  : Nat
  attention  : Bool
  miso       : Miso
  deriving DecidableEq, Repr

/-! ### The part -/

/-- The state of the part. `resetPin` is set while the reset pin is asserted (R190). `due` holds the deliveries of the
current epoch start that their blocks have not yet taken, and `freeIndex` counts the free values used: both are the
model's own (notes/assumptions/1.md, 3.md). `pending` is the queue of waiting commands, first in, first out. -/
structure State where
  pending   : List Instr
  resetPin  : Bool
  timebase  : Timebase
  due       : List EpochAction
  port      : Port
  admission : Admission
  directory : List DirItem
  trees     : Vector Tree 4
  freeIndex : Nat
  deriving DecidableEq, Repr

/-- Why the part stops with a fault. The manual describes no event that stops the part, so the type has no constructor:
no step ends in a fault (safe: nothing is hidden behind one). -/
inductive Fault where
  deriving DecidableEq, Repr

/-- Why a step has no meaning. -/
inductive Refusal where
  /-- Raised by `exec` alone, for a command whose meaning is not written yet; none is left (safe: nothing can be
  proved of such a step). -/
  | notModelled (mnemonic : String)
  deriving DecidableEq, Repr

/-! ### Values after the resets -/

/-- The Timebase after every reset (R13). -/
def Timebase.reset : Timebase := { status := .waiting, count := 0, slipCount := 0 }

/-- A channel after every reset (R151). -/
def Channel.reset : Channel := { phase := .idle, number := 0 }

/-- The downstream queue after every reset (R25). The epoch of the dispatch count is 0 (notes/assumptions/7.md). -/
def MsgQueue.reset : MsgQueue := { items := [], owedBroadcast := false, count := 0, countEpoch := 0 }

/-- The Discovery Unit after every reset (R77, R80). -/
def Discovery.reset : Discovery :=
  { contexts := [], state := .stopped, repeatIndex := 0, flushed := false, nextWindow := 0, stale := 0 }

/-- The Task Sequencer after every reset (R104, R137, R148). -/
def Sequencer.reset : Sequencer := { tasks := [], op := none, stale := 0, sweepPtr := 0, nextSweep := none }

/-- The Light Monitor after every reset, and of a tree that is CLOSED or CALIBRATING (R162). -/
def LightMonitor.reset : LightMonitor :=
  { light := .unknown, strikes := 0, check := none, nextCheck := none, stale := 0, hunt := none, pause := false }

/-- The parameter set after every reset: zeros, queue mode HOLD, default Bp 64 (R175). -/
def Params.reset : Params :=
  { art := 0, frtMin := 0, frtMax := 0, arMin := 0, arSpread := 0, bla := 0, u := 0, k := 0, n := 0, win := 0, wout := 0,
    wgross := 0, missLimit := 0, lostHold := 0, budget := 0, askHold := 0, probeRetries := 0, probeWait := 0,
    sweepPeriod := 0, batch := 0, strikeLimit := 0, silenceLen := 0, huntPause := 0, calSpread := 0, queueMode := .hold,
    defRn := 0, defRtol := 0, defLa := 0, defBp := 64, defPre := 0 }

/-- The Tree Controller after every reset (R175). -/
def Controller.reset : Controller :=
  { state := .closed, configured := false, params := Params.reset, p := 0, suspended := false }

/-- A slot after every reset: FREE, instance number 0 (R34). -/
def Slot.reset : Slot := { inst := 0, entry := none }

/-- A tree after a part reset, with what had left on its links before and the ALL_OFF of the reset (R161). -/
def Tree.resetWith (out : LinkOut) : Tree :=
  { ctl := Controller.reset, slots := Vector.replicate 120 Slot.reset, onAir := [], pendingList := [],
    msgq := MsgQueue.reset, chanWindow := Channel.reset, chanProbe := Channel.reset, chanSilence := Channel.reset,
    disc := Discovery.reset, seq := Sequencer.reset, light := LightMonitor.reset,
    out := { out with grant := out.grant ++ [.allOff] } }

/-- A barred range after power-on and the reset pin (R60). -/
def BarRange.reset : BarRange := { valid := false, vendor := 0, low := 0, high := 0 }

/-- A catalogue entry after power-on and the reset pin (R60). -/
def CatEntry.reset : CatEntry :=
  { valid := false, vendor := 0, model := 0, refuse := false, rn := 0, rtol := 0, la := 0, bp := 64, pre := 0 }

/-- The Admission Unit after power-on and the reset pin, with the strap as sampled (R60). -/
def Admission.reset (strap : Bool) : Admission :=
  { bars := Vector.replicate 8 BarRange.reset, cat := Vector.replicate 64 CatEntry.reset, lock := false, strap := strap }

/-- The Command Port after every reset, its holder empty (R190). -/
def Port.reset : Port :=
  { holder := none, queue := [], delivered := Vector.replicate 5 [], lastServed := partWide, lost := 0,
    policy := .keepOldest, watermark := 1, attention := false, miso := .undriven }

/-- The links before anything has left on them. -/
def LinkOut.empty : LinkOut := { slots := [], loops := [], grant := [] }

/-- The machine right after power-on with the reset pin released and the maintenance strap low (the level is the
model's choice, notes/assumptions/8.md); ALL_OFF has been sent once on each grant link (R161), and no command waits. -/
def State.reset : State :=
  { pending := [], resetPin := false, timebase := Timebase.reset, due := [], port := Port.reset,
    admission := Admission.reset false, directory := [], trees := Vector.replicate 4 (Tree.resetWith LinkOut.empty),
    freeIndex := 0 }

end Sys2Proof.Machine
end

