-- ==== Sys2Proof/Machine/Arith.lean ====
section
/-! DEFINITION. The Delay Arithmetic Unit (R98..R103): exact integers, half-up rounding, no state of its own. `/` on `Int`
with a positive divisor is the floor. -/

namespace Sys2Proof.Machine

/-- Half-up rounding of an sx value to bt (R98). -/
def roundBt (x : Int) : Int := (x + 8) / 16

/-- Half-up average of the sum of 2^k samples (R98). -/
def average (k : Nat) (sum : Int) : Int := if k = 0 then sum else (sum + 2 ^ (k - 1)) / 2 ^ k

/-- The round trip in sx of an arrival `a` on reference time `g` with launch delay `ld` (R99). -/
def roundTrip (a g ld p : Int) : Int := a - 16 * (g + ld) - p

/-- The least valid round trip in sx (R99). -/
def reachLow (pr : Params) (prof : Profile) : Int :=
  16 * max 0 ((pr.frtMin : Int) + prof.rn.value - prof.rtol.value)

/-- The greatest valid round trip in sx (R99). -/
def reachHigh (pr : Params) (prof : Profile) : Int :=
  16 * ((pr.frtMax : Int) + prof.rn.value + prof.rtol.value)

/-- A round trip is valid within the reach of the terminal's own profile (R99). -/
def validTrip (pr : Params) (prof : Profile) (rrt : Int) : Bool :=
  decide (reachLow pr prof ≤ rrt ∧ rrt ≤ reachHigh pr prof)

/-- What one matching ECHO of a MEASURE attempt gives (R99, R100). -/
inductive Measured where
  | outOfReach
  | beyondTarget
  | value (rrt : Int) (ld : Nat) (r : Int)
  deriving DecidableEq, Repr

/-- Launch delay and residual of a round trip (R99, R100). -/
def measure (pr : Params) (prof : Profile) (rrt : Int) : Measured :=
  if validTrip pr prof rrt then
    let ldSx := 16 * (pr.art : Int) - rrt
    if ldSx < -8 then .beyondTarget else .value rrt (roundBt ldSx).toNat (ldSx - 16 * roundBt ldSx)
  else .outOfReach

/-- The deviation of an arrival from the expected arrival of an equalised terminal (R101). -/
def deviation (art p r g a : Int) : Int := a - (16 * (g + art) + p - r)

/-- The figures of a correction (R102). -/
structure Correction where
  ld     : Int
  r      : Int
  change : Int
  deriving DecidableEq, Repr

/-- The correction of a launch delay and residual by an average deviation (R102). -/
def correct (ld r a : Int) : Correction :=
  let sx := 16 * ld + r - a
  { ld := roundBt sx, r := sx - 16 * roundBt sx, change := roundBt sx - ld }

/-- The offset of a loop record from the start of its marker's epoch (R103). -/
def loopOffset (a : Int) (m : Nat) : Int := a - 16 * 625000 * (m : Int)

/-- The spread of a calibration run (R103). -/
def spreadOf (pis : List Int) : Int :=
  match pis with
  | [] => 0
  | x :: rest => rest.foldl max x - rest.foldl min x

/-- Every Pi lies in 0..65,535 (R103). -/
def pisInRange (pis : List Int) : Bool := pis.all fun x => decide (0 ≤ x ∧ x ≤ 65535)

/-- Why the sixteen records of a run fail it, RANGE before SPREAD where both hold (R103, R180). -/
def judgePis (calSpread : Nat) (pis : List Int) : Option CalFailure :=
  if !pisInRange pis then some .range
  else if (calSpread : Int) < spreadOf pis then some .spread
  else none

/-- The path offset of a passed run: the half-up rounding of the sixteen-sample sum (R103). -/
def pathOffset (pis : List Int) : Nat := (roundBt pis.sum).toNat

end Sys2Proof.Machine
end

