-- ==== Sys2Proof/Machine/Ops.lean ====
section
/-! DEFINITION. The named operations over the state: reading and updating one tree, one block of it, one slot of its
table; the current epoch; delivering a report; the free values. -/

namespace Sys2Proof.Machine

/-! ### Trees and their blocks -/

/-- The state of tree `t`. -/
def State.tree (s : State) (t : TreeId) : Tree := s.trees[t]

/-- Update tree `t`. -/
def State.modTree (s : State) (t : TreeId) (f : Tree → Tree) : State :=
  { s with trees := s.trees.set t (f s.trees[t]) }

/-- Update the Tree Controller of tree `t`. -/
def State.modCtl (s : State) (t : TreeId) (f : Controller → Controller) : State :=
  s.modTree t fun T => { T with ctl := f T.ctl }

/-- Update the downstream queue of tree `t`. -/
def State.modMsgq (s : State) (t : TreeId) (f : MsgQueue → MsgQueue) : State :=
  s.modTree t fun T => { T with msgq := f T.msgq }

/-- Update the Discovery Unit of tree `t`. -/
def State.modDisc (s : State) (t : TreeId) (f : Discovery → Discovery) : State :=
  s.modTree t fun T => { T with disc := f T.disc }

/-- Update the Task Sequencer of tree `t`. -/
def State.modSeq (s : State) (t : TreeId) (f : Sequencer → Sequencer) : State :=
  s.modTree t fun T => { T with seq := f T.seq }

/-- Update the Light Monitor of tree `t`. -/
def State.modLight (s : State) (t : TreeId) (f : LightMonitor → LightMonitor) : State :=
  s.modTree t fun T => { T with light := f T.light }

/-- Update the pending list of tree `t`. -/
def State.modPending (s : State) (t : TreeId) (f : List PendingRec → List PendingRec) : State :=
  s.modTree t fun T => { T with pendingList := f T.pendingList }

/-- Update the on-air set of tree `t`. -/
def State.modAir (s : State) (t : TreeId) (f : List Nat → List Nat) : State :=
  s.modTree t fun T => { T with onAir := f T.onAir }

/-- Update what has left on the links of tree `t`. -/
def State.modOut (s : State) (t : TreeId) (f : LinkOut → LinkOut) : State :=
  s.modTree t fun T => { T with out := f T.out }

/-- The parameter set of tree `t`. -/
def State.params (s : State) (t : TreeId) : Params := (s.tree t).ctl.params

/-- All trees, in order. -/
def allTrees : List TreeId := [0, 1, 2, 3]

/-! ### Channels -/

/-- The channel of a tag (R151). -/
def Tree.chan (T : Tree) : Tag → Channel
  | .window => T.chanWindow
  | .probe => T.chanProbe
  | .silence => T.chanSilence

/-- Replace the channel of a tag. -/
def Tree.setChan (T : Tree) (tag : Tag) (c : Channel) : Tree :=
  match tag with
  | .window => { T with chanWindow := c }
  | .probe => { T with chanProbe := c }
  | .silence => { T with chanSilence := c }

/-- Replace the channel of a tag of tree `t`. -/
def State.setChan (s : State) (t : TreeId) (tag : Tag) (c : Channel) : State :=
  s.modTree t fun T => T.setChan tag c

/-! ### Slots and entries -/

/-- The slot of a TN; none outside 1..120 (R34, R40). -/
def slotIndex (tn : Nat) : Option (Fin 120) :=
  if h : 1 ≤ tn ∧ tn ≤ 120 then some ⟨tn - 1, by omega⟩ else none

/-- The TNs 1..120 in ascending order. -/
def allTns : List Nat := (List.range 120).map (· + 1)

/-- The entry that holds a TN, if any. -/
def Tree.entry? (T : Tree) (tn : Nat) : Option Entry :=
  match slotIndex tn with
  | some i => T.slots[i].entry
  | none => none

/-- The instance number a TN's slot keeps (R34); 0 for a TN that has no slot. -/
def Tree.slotInst (T : Tree) (tn : Nat) : BitVec 16 :=
  match slotIndex tn with
  | some i => T.slots[i].inst
  | none => 0

/-- Replace a TN's slot. -/
def Tree.setSlot (T : Tree) (tn : Nat) (sl : Slot) : Tree :=
  match slotIndex tn with
  | some i => { T with slots := T.slots.set i sl }
  | none => T

/-- Update the entry that holds a TN; a FREE slot is left as it is. -/
def Tree.modEntry (T : Tree) (tn : Nat) (f : Entry → Entry) : Tree :=
  match slotIndex tn with
  | some i => { T with slots := T.slots.set i { T.slots[i] with entry := T.slots[i].entry.map f } }
  | none => T

/-- Every slot of a table, updated alike. -/
def mapSlots (f : Slot → Slot) (v : Vector Slot 120) : Vector Slot 120 := ⟨⟨v.toList.map f⟩, by simp⟩

/-- Every entry of a tree, updated alike. -/
def Tree.mapEntries (T : Tree) (f : Entry → Entry) : Tree :=
  { T with slots := mapSlots (fun sl => { sl with entry := sl.entry.map f }) T.slots }

/-- The entries of a tree with their TNs, in ascending TN order. -/
def Tree.entries (T : Tree) : List (Nat × Entry) :=
  allTns.filterMap fun tn => (T.entry? tn).map fun e => (tn, e)

/-- The TNs whose entry meets a condition, ascending. -/
def Tree.tnsWith (T : Tree) (p : Entry → Bool) : List Nat :=
  (T.entries.filter fun x => p x.2).map (·.1)

/-- The lowest FREE slot's TN (R40). -/
def Tree.lowestFree (T : Tree) : Option Nat := allTns.find? fun tn => (T.entry? tn).isNone

/-- The entry that holds a TN of tree `t`. -/
def State.entry? (s : State) (t : TreeId) (tn : Nat) : Option Entry := (s.tree t).entry? tn

/-- Update the entry that holds a TN of tree `t`. -/
def State.modEntry (s : State) (t : TreeId) (tn : Nat) (f : Entry → Entry) : State :=
  s.modTree t fun T => T.modEntry tn f

/-- The entry is in OPERATING. -/
def Entry.operating (e : Entry) : Bool :=
  match e.state with
  | .operating _ => true
  | _ => false

/-- The drift fields, in OPERATING alone (R33). -/
def Entry.drift? (e : Entry) : Option Drift :=
  match e.state with
  | .operating d => some d
  | _ => none

/-- Update the drift fields of an OPERATING entry. -/
def Entry.modDrift (e : Entry) (f : Drift → Drift) : Entry :=
  match e.state with
  | .operating d => { e with state := .operating (f d) }
  | _ => e

/-- The activation deadline, in ASSIGNING, RANGING and VERIFYING alone (R33). -/
def Entry.activation? (e : Entry) : Option Nat :=
  match e.state with
  | .assigning d | .ranging d | .verifying d => some d
  | _ => none

/-- The activation deadline of an entry that moves among ASSIGNING, RANGING and VERIFYING, kept, or, from another state,
set to `fresh` (R37). -/
def Entry.deadlineOr (e : Entry) (fresh : Nat) : Nat := e.activation?.getD fresh

/-! ### Time -/

/-- The current epoch number (R1). -/
def State.epoch (s : State) : Nat := s.timebase.count.toNat / Config.epochSx

/-- The current bt time (R1), of the count as the last marker or epoch start left it (notes/assumptions/5.md). -/
def State.btTime (s : State) : Nat := s.timebase.count.toNat / Config.btSx

/-- The current epoch as an integer, for comparison with epochs of reference times. -/
def State.epochInt (s : State) : Int := (s.epoch : Int)

/-- The epoch of a bt time (R7). -/
def epochOfBt (x : Int) : Int := x / 625000

/-- The dispatch deadline of a reference time (R11). -/
def dispatchDeadline (x : Int) : Int := epochOfBt x - 2

/-! ### Reports -/

/-- The poster of a tree (R191). -/
def treePoster (t : TreeId) : Poster := t.castSucc

/-- A record delivered by a poster in epoch `e` (R3, R191). -/
def newRecord (p : Poster) (e : Nat) (b : ReportBody) : Record :=
  { body := b, poster := p, epoch := e % 2 ^ 32, lostBefore := 0 }

/-- A block delivers a record to a poster (R191). -/
def State.deliver (s : State) (p : Poster) (b : ReportBody) : State :=
  { s with port := { s.port with
      delivered := s.port.delivered.set p (s.port.delivered[p] ++ [newRecord p s.epoch b]) } }

/-- A block of tree `t` delivers a record to its tree's poster. -/
def State.report (s : State) (t : TreeId) (b : ReportBody) : State := s.deliver (treePoster t) b

/-! ### Counters -/

/-- Raise a count that stops at `top`. -/
def raiseTo (top n : Nat) : Nat := min top (n + 1)

/-- A stale interval count of 0..255 raised by one; at 255 a free value (R80, R104, R162). -/
def State.raisedStale (s : State) (n : Byte) : Byte :=
  if n.toNat < 255 then n + 1 else Config.staleCountPastTop s.freeIndex

/-- The free values used once a stale count has been raised. -/
def State.freeAfterStale (s : State) (n : Byte) : Nat :=
  if n.toNat < 255 then s.freeIndex else s.freeIndex + 1

/-- Raise the stale interval count of the Discovery Unit of tree `t` (R84, R96). -/
def State.raiseDiscStale (s : State) (t : TreeId) : State :=
  { s.modDisc t (fun d => { d with stale := s.raisedStale d.stale }) with
    freeIndex := s.freeAfterStale (s.tree t).disc.stale }

/-- Raise the stale probe interval count of tree `t` (R107, R110, R120). -/
def State.raiseSeqStale (s : State) (t : TreeId) : State :=
  { s.modSeq t (fun q => { q with stale := s.raisedStale q.stale }) with
    freeIndex := s.freeAfterStale (s.tree t).seq.stale }

/-- Raise the stale silence interval count of tree `t` (R164). -/
def State.raiseLightStale (s : State) (t : TreeId) : State :=
  { s.modLight t (fun l => { l with stale := s.raisedStale l.stale }) with
    freeIndex := s.freeAfterStale (s.tree t).light.stale }

/-- Set the sx count to `n`; past the 64-bit span the count is a free value (R1). -/
def State.setCount (s : State) (n : Nat) : State :=
  if n < 2 ^ 64 then { s with timebase := { s.timebase with count := BitVec.ofNat 64 n } }
  else { s with timebase := { s.timebase with count := Config.countPastSpan s.freeIndex }, freeIndex := s.freeIndex + 1 }

end Sys2Proof.Machine
end

