-- ==== Sys2Proof/Machine/Flags.lean ====
section
/-! DEFINITION. The conditions computed from the state: the gates of the Discovery Unit and the Task Sequencer, what
stands in a downstream queue, the barred test, the attention line. -/

namespace Sys2Proof.Machine

/-- The tree is ACTIVE. -/
def Tree.isActive (T : Tree) : Bool := T.ctl.state == .active

/-- The tree is CLOSING. -/
def Tree.isClosing (T : Tree) : Bool := T.ctl.state == .closing

/-- The tree routes its burst records other than loop records (R21). -/
def Tree.routesBursts (T : Tree) : Bool := T.isActive || T.isClosing

/-- The gate of a tree is open: ACTIVE, not suspended, light condition QUIET (R81). -/
def Tree.gateOpen (T : Tree) : Bool := T.isActive && !T.ctl.suspended && T.light.light == .quiet

/-- A task may be taken: no operation in flight, a task stands, and the gate is open (R143). -/
def Tree.mayTake (T : Tree) : Bool := T.seq.op.isNone && !T.seq.tasks.isEmpty && T.gateOpen

/-- The class of a task kind (R137). -/
def TaskKind.urgent : TaskKind → Bool
  | .range | .rerange | .unmute | .rangeNow => true
  | .audit => false

/-- A task of class URGENT (R137). -/
def Task.urgent (k : Task) : Bool := k.kind.urgent

/-- The broadcast RETIRE. -/
def Message.isBroadcast : Message → Bool
  | .retireAll => true
  | _ => false

/-- A gated message: INVITE, ASSIGN or PROBE (R14). -/
def Message.isGated : Message → Bool
  | .invite _ _ _ | .assign _ _ | .probe _ _ => true
  | _ => false

/-- A DELAY or a NUDGE. -/
def Message.setsDelay : Message → Bool
  | .delay _ _ | .nudge _ _ => true
  | _ => false

/-- A DELAY. -/
def Message.isDelay : Message → Bool
  | .delay _ _ => true
  | _ => false

/-- A NUDGE. -/
def Message.isNudge : Message → Bool
  | .nudge _ _ => true
  | _ => false

/-- A MUTE or an UNMUTE. -/
def Message.isMuting : Message → Bool
  | .mute _ | .unmute _ => true
  | _ => false

/-- A RETIRE for one TN. -/
def Message.isRetire : Message → Bool
  | .retire _ => true
  | _ => false

/-- A DELAY or NUDGE for one TN. -/
def Message.delaysTn (m : Message) (tn : Nat) : Bool :=
  match m with
  | .delay x _ | .nudge x _ => x == tn
  | _ => false

/-- A broadcast RETIRE is queued or owed (R30). -/
def MsgQueue.broadcastStands (q : MsgQueue) : Bool := q.owedBroadcast || q.items.any (·.msg.isBroadcast)

/-- A delay message for the TN stands in the list, or the entry owes one, or its resend mark is set (R105). -/
def Tree.delayStands (T : Tree) (tn : Nat) (e : Entry) : Bool :=
  T.msgq.items.any (·.msg.delaysTn tn) || (e.owed.map (·.msg.setsDelay)).getD false || e.resend

/-- A barred range matches a serial (R61). -/
def BarRange.covers (b : BarRange) (s : Serial) : Bool :=
  b.valid && b.vendor == s.vendor && decide (b.low.toNat ≤ s.unit.toNat ∧ s.unit.toNat ≤ b.high.toNat)

/-- A serial is barred (R61). -/
def Admission.barred (a : Admission) (s : Serial) : Bool := a.bars.toList.any (·.covers s)

/-- The attention line of a queue and a watermark (R193). -/
def attentionOf (queue : List Record) (watermark : Nat) : Bool := decide (watermark ≤ queue.length)

/-- The expected entry state of an operation (R104). -/
def Expected.name : Expected → StateName
  | .ranging => .ranging
  | .verifying => .verifying
  | .operating => .operating

end Sys2Proof.Machine
end

