-- ==== Sys2Proof/Machine/Operands.lean ====
section
/-! DEFINITION. The operand forms: how a number, a flag or an enumeration is carried in a body (R188), the byte layouts of
the activation messages and replies (R20..R24), and the range checks of the request bodies (R66, R77, R176, R188). -/

namespace Sys2Proof.Machine

/-! ### Fields of a body (R188) -/

/-- The low `n` bytes of a number, most significant first. -/
def lowBytes : Nat → Nat → List Byte
  | 0, _ => []
  | n + 1, v => BitVec.ofNat 8 (v / 256 ^ n) :: lowBytes n v

/-- An unsigned field of `n` bytes; a value beyond it is carried as the largest value (R188). -/
def natField (n v : Nat) : List Byte := lowBytes n (min v (256 ^ n - 1))

/-- A signed field of `n` bytes, two's complement; a value beyond it is carried as the largest value (R188), and one
below its least as a free value (notes/assumptions/4.md). -/
def intField (n : Nat) (v : Int) : List Byte :=
  if v < -(256 ^ n / 2) then lowBytes n (Config.fieldBelowLeast n v)
  else lowBytes n ((min v (256 ^ n / 2 - 1)) % 256 ^ n).toNat

/-- A flag (R188). -/
def flagField (b : Bool) : List Byte := [if b then 1 else 0]

/-- An epoch number, its low 32 bits (R188). -/
def epochField (e : Nat) : List Byte := lowBytes 4 e

/-- A 16-bit value as it stands: an instance number or a model code. -/
def wordField (v : BitVec 16) : List Byte := bytes16 v

/-- An enumeration byte, or 0 for absent (R188). -/
def enumField {α : Type} (code : α → Byte) (x : Option α) : List Byte := [(x.map code).getD 0]

/-- The tree field of an ADMISSION report: 7 for none (R76). -/
def otherTreeField (t : Option TreeId) : List Byte := [(t.map fun i => BitVec.ofNat 8 i.val).getD 7]

/-- Position of an entry state in R33's list. -/
def StateName.code : StateName → Byte
  | .assigning => 1
  | .ranging => 2
  | .verifying => 3
  | .operating => 4
  | .muted => 5
  | .lost => 6
  | .retiring => 7

/-- Position of a mute cause in R33's list. -/
def MuteCause.code : MuteCause → Byte
  | .host => 1
  | .hunt _ => 2

/-- Position of an origin in R33's list. -/
def Origin.code : Origin → Byte
  | .declared => 1
  | .catalogue => 2
  | .default => 3

/-- Position of a cause in R39's table. -/
def Cause.code : Cause → Byte
  | .admitted => 1
  | .reactivated => 2
  | .assignSent => 3
  | .ranged => 4
  | .verified => 5
  | .verifyDeviation => 6
  | .auditStep => 7
  | .driftWindow => 8
  | .driftGross => 9
  | .driftNegative => 10
  | .rangeNow => 11
  | .misses => 12
  | .attempts => 13
  | .noGrant => 14
  | .budget => 15
  | .hostRetire => 16
  | .hostMute => 17
  | .hostUnmute => 18
  | .huntMute => 19
  | .huntClear => 20
  | .retireSent => 21
  | .holdExpired => 22
  | .moved => 23
  | .closed => 24

/-- Position of an operation kind in R119's list. -/
def OpKind.code : OpKind → Byte
  | .range => 1
  | .audit => 2

/-- Position of an action in R119's list. -/
def RangedAction.code : RangedAction → Byte
  | .delay => 1
  | .nudge => 2
  | .residual => 3

/-- Position of an action in R132's list. -/
def NudgedAction.code : NudgedAction → Byte
  | .nudge => 1
  | .residual => 2

/-- Position of a delivery in R132's list. -/
def Delivery.code : Delivery → Byte
  | .queued => 1
  | .owed => 2
  | .merged => 3

/-- Position of an outcome in R76's table. -/
def AdmitOutcome.code : AdmitOutcome → Byte
  | .admitted => 1
  | .reactivated => 2
  | .clash => 3
  | .backlog => 4
  | .barred => 5
  | .stillPending => 6
  | .modelRefused => 7
  | .ask => 8
  | .askFull => 9
  | .tableFull => 10
  | .refused => 11
  | .timedOut => 12
  | .superseded => 13
  | .closed => 14
  | .malformed => 15
  | .outOfReach => 16

/-- Position of a source in R76's list. -/
def AdmitSource.code : AdmitSource → Byte
  | .announce => 1
  | .host => 2
  | .hold => 3
  | .close => 4

/-- Position of a window's end in R94's list. -/
def WindowEnd.code : WindowEnd → Byte
  | .completed => 1
  | .slip => 2
  | .close => 3

/-- Position of what follows a window in R94's list. -/
def WindowNext.code : WindowNext → Byte
  | .repeated => 1
  | .spacing => 2
  | .stopped => 3
  | .rerun => 4

/-- Position of an admission mode in R77's list. -/
def AdmitMode.code : AdmitMode → Byte
  | .openMode => 1
  | .ask => 2

/-- Position of a light condition in R162's list. -/
def Light.code : Light → Byte
  | .unknown => 1
  | .quiet => 2
  | .suspect => 3

/-- Position of a cause in R174's list. -/
def LightCause.code : LightCause → Byte
  | .opened => 1
  | .checkPassed => 2
  | .strikes => 3
  | .continuous => 4
  | .found => 5
  | .pausePassed => 6
  | .forced => 7

/-- Position of an outcome in R174's list. -/
def HuntOutcome.code : HuntOutcome → Byte
  | .started => 1
  | .found => 2
  | .unresolved => 3
  | .aborted => 4

/-- Position of a tree state in R175's list. -/
def TreeName.code : TreeName → Byte
  | .closed => 1
  | .calibrating => 2
  | .active => 3
  | .closing => 4

/-- Position of a cause in R184's list. -/
def TreeCause.code : TreeCause → Byte
  | .opened => 1
  | .calibrated => 2
  | .calFailed => 3
  | .hostClose => 4
  | .closeDone => 5

/-- Position of a failure reason in R184's list. -/
def CalFailure.code : CalFailure → Byte
  | .missing => 1
  | .spread => 2
  | .range => 3

/-- Position of a purpose in R162's list. -/
def Purpose.code : Purpose → Byte
  | .opening => 1
  | .strike => 2
  | .hunt => 3
  | .pause => 4

/-- Position of a check's phase in R162's list. -/
def CheckPhase.code : CheckPhase → Byte
  | .requesting => 1
  | .listening _ _ => 2

/-- Position of a hunt step's phase in R169's list. -/
def HuntStep.code : HuntStep → Byte
  | .muting => 1
  | .settling _ => 2
  | .checking => 3

/-- Position of a channel's phase in R151's list. -/
def ChannelPhase.code : ChannelPhase → Byte
  | .idle => 1
  | .awaiting _ _ => 2
  | .deferred _ _ => 3
  | .backingOff _ _ => 4
  | .granted _ _ => 5

/-- Position of a discovery state in R80's list. -/
def DiscState.code : DiscState → Byte
  | .stopped => 1
  | .spacing _ => 2
  | .due _ => 3
  | .requesting _ _ => 4
  | .posted _ _ _ _ => 5
  | .collecting _ _ _ _ _ _ => 6

/-- Position of an operation's phase in R104's list. -/
def OpPhase.code : OpPhase → Byte
  | .held => 1
  | .waitDelay => 2
  | .requesting _ _ => 3
  | .posted _ _ _ _ => 4
  | .listening _ _ _ _ _ => 5

/-- Position of a queue mode in R176's list. -/
def QueueMode.code : QueueMode → Byte
  | .hold => 1
  | .drain => 2

/-- Position of a policy (R189). -/
def Policy.code : Policy → Byte
  | .keepOldest => 1
  | .keepNewest => 2

/-- The kind of an owed message: its position among the must-deliver messages of R14 (notes/assumptions/9.md); 0 for a
message that is never owed. -/
def Message.owedCode : Message → Byte
  | .delay _ _ => 1
  | .nudge _ _ => 2
  | .mute _ => 3
  | .unmute _ => 4
  | .retire _ => 5
  | .invite _ _ _ | .assign _ _ | .probe _ _ | .retireAll => 0

/-- The reply codes (R187). -/
def ReplyCode.code : ReplyCode → Byte
  | .ok => 0x00
  | .malformed => 0x01
  | .badParam => 0x02
  | .wrongState => 0x03
  | .busy => 0x04
  | .notFound => 0x05
  | .notPending => 0x06
  | .locked => 0x07
  | .barred => 0x08
  | .tableFull => 0x09

/-! ### Activation messages (R24) -/

/-- The low 48 bits of a reference time, six bytes (R9, R24). -/
def referenceField (x : Int) : List Byte := lowBytes 6 (x % 2 ^ 48).toNat

/-- The bytes of a downstream message (R24). -/
def Message.encode : Message → List Byte
  | .invite window span gw => [0x41, 0xFF, window] ++ lowBytes 2 span ++ referenceField gw
  | .assign tn serial => [0x42, BitVec.ofNat 8 tn] ++ serialBytes serial
  | .probe tn g => [0x43, BitVec.ofNat 8 tn] ++ referenceField g
  | .delay tn ld => [0x44, BitVec.ofNat 8 tn] ++ lowBytes 3 ld
  | .nudge tn change => [0x45, BitVec.ofNat 8 tn, BitVec.ofInt 8 change]
  | .mute tn => [0x46, BitVec.ofNat 8 tn]
  | .unmute tn => [0x47, BitVec.ofNat 8 tn]
  | .retire tn => [0x48, BitVec.ofNat 8 tn]
  | .retireAll => [0x48, 0xFF]

/-! ### Upstream replies and the capability record (R20, R22..R24) -/

/-- The declared fields of an announce: each present only where the record is valid, marks the field and holds a value in
its range (R23). -/
structure Declared where
  rn   : Option Nat
  rtol : Option Nat
  la   : Option Nat
  bp   : Option Nat
  pre  : Option Nat
  deriving DecidableEq, Repr

/-- No field declared. -/
def Declared.none : Declared := { rn := .none, rtol := .none, la := .none, bp := .none, pre := .none }

/-- An ANNOUNCE as read (R20, R24). -/
structure Announce where
  serial   : Serial
  model    : BitVec 16
  d        : Nat
  window   : Byte
  declared : Declared
  deriving DecidableEq, Repr

/-- An ECHO as read (R20, R24). -/
structure Echo where
  tn     : Nat
  serial : Serial
  deriving DecidableEq, Repr

/-- Bit `i` of a presence mask (R24). -/
def maskBit (mask : Byte) (i : Nat) : Bool := mask.getLsbD i

/-- The bytes a marked field adds, and none for one not marked (R22). -/
def markedSize (mask : Byte) (i size : Nat) : Nat := if maskBit mask i then size else 0

/-- Offsets of the five fields in a capability record, then the length of the whole record (R22, R24). -/
def capabilityOffsets (mask : Byte) : Nat × Nat × Nat × Nat × Nat × Nat :=
  let o1 := 3
  let o2 := o1 + markedSize mask 0 3
  let o3 := o2 + markedSize mask 1 2
  let o4 := o3 + markedSize mask 2 1
  let o5 := o4 + markedSize mask 3 2
  (o1, o2, o3, o4, o5, o5 + markedSize mask 4 1 + 1)

/-- The sum of all bytes of a record (R22). -/
def byteSum (l : List Byte) : Nat := (l.map BitVec.toNat).sum

/-- A capability tail is a valid capability record (R22). -/
def validCapability (tail : List Byte) : Bool :=
  byteAt tail 0 == 0x5A && byteAt tail 1 == 0xC3 &&
    decide (tail.length = (capabilityOffsets (byteAt tail 2)).2.2.2.2.2) && decide (byteSum tail % 256 = 0)

/-- A marked field whose value lies in its range (R23). -/
def declaredField (mask : Byte) (i lo hi v : Nat) : Option Nat :=
  if maskBit mask i ∧ lo ≤ v ∧ v ≤ hi then some v else none

/-- The declared fields of an announce's tail (R20, R22, R23). -/
def declaredOf (tail : List Byte) : Declared :=
  if tail.isEmpty || !validCapability tail then Declared.none
  else
    let m := byteAt tail 2
    let o := capabilityOffsets m
    { rn := declaredField m 0 0 131071 (field24 tail o.1).toNat
      rtol := declaredField m 1 0 8191 (field16 tail o.2.1).toNat
      la := declaredField m 2 0 7 (byteAt tail o.2.2.1).toNat
      bp := declaredField m 3 64 4096 (field16 tail o.2.2.2.1).toNat
      pre := declaredField m 4 0 3 (byteAt tail o.2.2.2.2.1).toNat }

/-- The ANNOUNCE of a tag-0 payload: first byte 61H, 14 bytes or more (R20, R24). -/
def parseAnnounce (payload : List Byte) : Option Announce :=
  if byteAt payload 0 = 0x61 ∧ 14 ≤ payload.length then
    some
      { serial := serialField payload 1
        model := field16 payload 9
        d := (field16 payload 11).toNat
        window := byteAt payload 13
        declared := declaredOf (payload.drop 14) }
  else none

/-- The ECHO of a tag-1 payload: first byte 62H, exactly 10 bytes (R20, R24). -/
def parseEcho (payload : List Byte) : Option Echo :=
  if byteAt payload 0 = 0x62 ∧ payload.length = 10 then
    some { tn := (byteAt payload 1).toNat, serial := serialField payload 2 }
  else none

/-! ### Range checks of the request bodies -/

/-- A flag byte: 00H or 01H (R188). -/
def parseFlag (b : Byte) : Option Bool :=
  if b = 0 then some false else if b = 1 then some true else none

/-- A tree byte: 0..3. -/
def parseTree (b : Byte) : Option TreeId := if h : b.toNat < 4 then some ⟨b.toNat, h⟩ else none

/-- A TN byte: 1..120. -/
def parseTn (b : Byte) : Option Nat := if 1 ≤ b.toNat ∧ b.toNat ≤ 120 then some b.toNat else none

/-- A queue mode byte (R176, R188). -/
def parseQueueMode (b : Byte) : Option QueueMode :=
  if b = 1 then some .hold else if b = 2 then some .drain else none

/-- An admission mode byte (R77, R188). -/
def parseMode (b : Byte) : Option AdmitMode :=
  if b = 1 then some .openMode else if b = 2 then some .ask else none

/-- An overflow policy byte (R189). -/
def parsePolicy (b : Byte) : Option Policy :=
  if b = 1 then some .keepOldest else if b = 2 then some .keepNewest else none

/-- A catalogue entry whose fields lie in their ranges (R66), and whose flags are flags (R188). -/
def parseCatEntry (e : RawCatEntry) : Option CatEntry :=
  match parseFlag e.valid, parseFlag e.refuse with
  | some v, some rf =>
    if e.rn.toNat ≤ 131071 ∧ e.rtol.toNat ≤ 8191 ∧ e.la.toNat ≤ 7 ∧ 64 ≤ e.bp.toNat ∧ e.bp.toNat ≤ 4096 ∧ e.pre.toNat ≤ 3 then
      some
        { valid := v, vendor := e.vendor, model := e.model, refuse := rf, rn := e.rn.toNat, rtol := e.rtol.toNat,
          la := e.la.toNat, bp := e.bp.toNat, pre := e.pre.toNat }
    else none
  | _, _ => none

/-- A barred range with low not above high (R62), and whose flag is a flag (R188). -/
def parseBarRange (r : RawBarRange) : Option BarRange :=
  if r.high.toNat < r.low.toNat then none
  else (parseFlag r.valid).map fun v => { valid := v, vendor := r.vendor, low := r.low, high := r.high }

/-- A context whose fields lie in their ranges (R77, R78). -/
def parseContext (c : RawContext) : Option Context :=
  match parseMode c.mode with
  | some m =>
    if 1 ≤ c.dspan.toNat ∧ c.repeats.toNat ≤ 7 ∧ 1 ≤ c.spacing.toNat ∧ c.spacing.toNat ≤ 4096 then
      some { dspan := c.dspan.toNat, mode := m, repeats := c.repeats.toNat, spacing := c.spacing.toNat }
    else none
  | none => none

/-- The checks of the 30 fields, in the order of R176's table; each range that names an earlier field reads it from the
same request. -/
def paramChecks (p : RawParams) : List Bool :=
  let inRange := fun (lo hi v : Nat) => decide (lo ≤ v ∧ v ≤ hi)
  [ inRange 100000 2000000 p.art.toNat,
    inRange 0 1750000 p.frtMin.toNat,
    inRange p.frtMin.toNat 1750000 p.frtMax.toNat && decide (p.frtMax.toNat ≤ p.frtMin.toNat + 1000000),
    inRange 0 131071 p.arMin.toNat,
    inRange 0 8191 p.arSpread.toNat,
    inRange 64 4096 p.bla.toNat,
    inRange 16 1024 p.u.toNat,
    inRange 0 6 p.k.toNat,
    inRange 1 64 p.n.toNat,
    inRange 0 1023 p.win.toNat,
    decide (p.win.toNat + 1 ≤ p.wout.toNat ∧ p.wout.toNat + 8 ≤ 16 * p.n.toNat),
    inRange (p.wout.toNat + 1) 65535 p.wgross.toNat,
    inRange 1 255 p.missLimit.toNat,
    inRange 1 65535 p.lostHold.toNat,
    inRange 16 65535 p.budget.toNat,
    inRange 1 4096 p.askHold.toNat,
    inRange 0 7 p.probeRetries.toNat,
    inRange 8 4096 p.probeWait.toNat,
    inRange 0 65535 p.sweepPeriod.toNat,
    inRange 1 8 p.batch.toNat,
    inRange 1 15 p.strikeLimit.toNat,
    inRange 1000 625000 p.silenceLen.toNat,
    inRange 16 4096 p.huntPause.toNat,
    inRange 1 255 p.calSpread.toNat,
    (parseQueueMode p.queueMode).isSome,
    inRange 0 131071 p.defRn.toNat,
    inRange 0 8191 p.defRtol.toNat,
    inRange 0 7 p.defLa.toNat,
    inRange 64 4096 p.defBp.toNat,
    inRange 0 3 p.defPre.toNat ]

/-- The number of the first field of a parameter set that fails, 1 (ART) when the ART cross-check alone fails, or none
(R176). -/
def failingParam (p : RawParams) : Option Nat :=
  match (paramChecks p).findIdx? (!·) with
  | some i => some (i + 1)
  | none => if p.art.toNat < p.frtMax.toNat + p.arMin.toNat + p.arSpread.toNat then some 1 else none

/-- The parameter set that a TREE_CONFIG body gives (R176). -/
def paramsOf (p : RawParams) : Params :=
  { art := p.art.toNat, frtMin := p.frtMin.toNat, frtMax := p.frtMax.toNat, arMin := p.arMin.toNat,
    arSpread := p.arSpread.toNat, bla := p.bla.toNat, u := p.u.toNat, k := p.k.toNat, n := p.n.toNat, win := p.win.toNat,
    wout := p.wout.toNat, wgross := p.wgross.toNat, missLimit := p.missLimit.toNat, lostHold := p.lostHold.toNat,
    budget := p.budget.toNat, askHold := p.askHold.toNat, probeRetries := p.probeRetries.toNat,
    probeWait := p.probeWait.toNat, sweepPeriod := p.sweepPeriod.toNat, batch := p.batch.toNat,
    strikeLimit := p.strikeLimit.toNat, silenceLen := p.silenceLen.toNat, huntPause := p.huntPause.toNat,
    calSpread := p.calSpread.toNat, queueMode := (parseQueueMode p.queueMode).getD .hold, defRn := p.defRn.toNat,
    defRtol := p.defRtol.toNat, defLa := p.defLa.toNat, defBp := p.defBp.toNat, defPre := p.defPre.toNat }

end Sys2Proof.Machine
end

