-- ==== Sys2Proof/Machine/Reports.lean ====
section
/-! DEFINITION. Reports: the bytes of a record (R188, R191), the entry arbiter (R191), the overflow policy (R192) and the
attention line (R193). -/

namespace Sys2Proof.Machine

/-- The kind byte of a record (R191). -/
def ReportBody.kindCode : ReportBody → Byte
  | .terminal _ _ _ _ _ _ => 0x01
  | .ranged _ _ _ _ _ _ _ _ _ _ => 0x02
  | .nudged _ _ _ _ _ _ _ _ _ => 0x03
  | .admission _ _ _ _ _ _ _ _ _ => 0x04
  | .window _ _ _ _ _ _ _ _ => 0x05
  | .light _ _ _ _ _ => 0x06
  | .hunt _ _ _ _ _ _ => 0x07
  | .tree _ _ _ _ _ _ _ _ _ => 0x08
  | .timeSlip _ _ _ _ => 0x09

/-- The five origin bytes of an ADMISSION report, zeros for none (R76, R188). -/
def originsField (o : Option Origins) : List Byte :=
  match o with
  | some o => [o.rn.code, o.rtol.code, o.la.code, o.bp.code, o.pre.code]
  | none => [0, 0, 0, 0, 0]

/-- The body bytes of a record, in the order its rule lists the fields (R188). -/
def ReportBody.bytes : ReportBody → List Byte
  | .terminal tn inst serial old new cause =>
    natField 1 tn ++ wordField inst ++ serialBytes serial ++ enumField StateName.code old ++
      enumField StateName.code new ++ [cause.code]
  | .ranged tn inst kind action rrt c ld r change attempts =>
    natField 1 tn ++ wordField inst ++ [kind.code, action.code] ++ intField 4 rrt ++ intField 4 c ++ natField 3 ld ++
      intField 1 r ++ intField 3 change ++ natField 1 attempts
  | .nudged tn inst action average samples change ld r delivery =>
    natField 1 tn ++ wordField inst ++ [action.code] ++ intField 2 average ++ natField 1 samples ++ intField 1 change ++
      natField 3 ld ++ intField 1 r ++ enumField Delivery.code delivery
  | .admission outcome source win serial model c origins tn otherTree =>
    [outcome.code, source.code, win] ++ serialBytes serial ++ wordField model ++ intField 4 c ++
      originsField origins ++ natField 1 tn ++ otherTreeField otherTree
  | .window number reps ended follow dspan mode dispatch coll =>
    [number] ++ natField 1 reps ++ [ended.code] ++ enumField WindowNext.code follow ++ natField 2 dspan ++
      [mode.code] ++ epochField dispatch ++ natField 1 coll.announces ++ natField 2 coll.duplicates ++
      natField 2 coll.malformed ++ natField 2 coll.outOfReach ++ natField 2 coll.excess ++ natField 2 coll.collisions
  | .light old new cause strikes raw =>
    [old.code, new.code, cause.code] ++ natField 1 strikes ++ lowBytes 8 raw.toNat
  | .hunt outcome candidates checked skipped tn inst =>
    [outcome.code] ++ natField 1 candidates ++ natField 1 checked ++ natField 1 skipped ++ natField 1 tn ++ wordField inst
  | .tree old new cause p runs restarts reason spread entries =>
    [old.code, new.code, cause.code] ++ natField 2 p ++ natField 1 runs ++ natField 1 restarts ++
      enumField CalFailure.code reason ++ natField 2 spread.toNat ++ natField 1 entries
  | .timeSlip markerCount offset correction slipCount =>
    lowBytes 8 markerCount.toNat ++ natField 3 offset ++ intField 3 correction ++ natField 1 slipCount

/-- The tree byte of a record: 0..3, or 7 for the part-wide poster (R191). -/
def posterCode (p : Poster) : Byte := if p = partWide then 7 else BitVec.ofNat 8 p.val

/-- The 32 bytes of a record (R191). -/
def Record.bytes (r : Record) : List Byte :=
  let body := r.body.bytes
  [r.body.kindCode, posterCode r.poster] ++ epochField r.epoch ++ natField 1 r.lostBefore ++ natField 1 body.length ++
    body ++ List.replicate (24 - body.length) 0

/-- A record that the arbiter enters: it joins the tail with the pending-lost count, or meets a full queue and the policy
(R191, R192); the attention line is judged (R193). -/
def Port.enterRecord (p : Port) (r : Record) : Port :=
  if p.queue.length < Config.reportLimit then
    let q := p.queue ++ [{ r with lostBefore := p.lost }]
    { p with queue := q, lost := 0, attention := attentionOf q p.watermark }
  else
    match p.policy with
    | .keepOldest => { p with lost := raiseTo 255 p.lost, attention := attentionOf p.queue p.watermark }
    | .keepNewest =>
      let q := p.queue.tail ++ [{ r with lostBefore := raiseTo 255 p.lost }]
      { p with queue := q, lost := 0, attention := attentionOf q p.watermark }

/-- The posters in cycle order, beginning after the last-served one (R191). -/
def cycleAfter (last : Poster) : List Poster := [last + 1, last + 2, last + 3, last + 4, last]

/-- The first poster after the last-served one that holds a record (R191). -/
def Port.nextPoster (p : Port) : Option Poster := (cycleAfter p.lastServed).find? fun i => !p.delivered[i].isEmpty

/-- The arbiter enters the oldest record of poster `i`, which becomes last served (R191). -/
def Port.enterFrom (p : Port) (i : Poster) : Port :=
  match p.delivered[i] with
  | [] => p
  | r :: rest => { p with delivered := p.delivered.set i rest, lastServed := i }.enterRecord r

/-- The arbiter enters up to `n` records (R191). -/
def Port.enterUpTo : Nat → Port → Port
  | 0, p => p
  | n + 1, p =>
    match p.nextPoster with
    | none => p
    | some i => Port.enterUpTo n (p.enterFrom i)

/-- How many records the posters hold. -/
def Port.deliveredCount (p : Port) : Nat := (p.delivered.toList.map List.length).sum

/-- At the end of an event the arbiter enters records while any poster holds one (R191). -/
def State.settle (s : State) : State := { s with port := Port.enterUpTo s.port.deliveredCount s.port }

/-- An event that the part takes: nothing is taken while the reset pin is asserted (R190), and the event ends with the
entry of the records it delivered (R191). -/
def State.event (s : State) (f : State → State) : State := if s.resetPin then s else (f s).settle

/-- The outcome of an event. -/
def State.take (s : State) (f : State → State) : Host.Outcome State Fault Refusal := .next (s.event f)

/-- What a request leaves: the state, the reply code and the reply body. -/
structure Answer where
  state : State
  code  : ReplyCode
  body  : List Byte
  deriving DecidableEq, Repr

/-- A refusal: nothing changes, and the body is empty (R187). -/
def refuse (s : State) (code : ReplyCode) : Answer := { state := s, code := code, body := [] }

/-- An answer OK with a body. -/
def okWith (s : State) (body : List Byte) : Answer := { state := s, code := .ok, body := body }

/-- An answer OK with an empty body. -/
def ok (s : State) : Answer := okWith s []

/-- The reply holder filled, replacing any reply in it; the transaction drove FFH on every byte (R186, R187). -/
def State.reply (s : State) (tag : Byte) (code : ReplyCode) (body : List Byte) : State :=
  { s with port := { s.port with holder := some { tag := tag, code := code, body := body }, miso := .allOnes } }

/-- A judged request: the owner answers within the event, its records are entered, and the reply is placed (R186, R187).
The port ignores the link while the reset pin is asserted (R190). -/
def State.request (s : State) (tag : Byte) (f : State → Answer) : Host.Outcome State Fault Refusal :=
  .next (if s.resetPin then s else (f s).state.settle.reply tag (f s).code (f s).body)

end Sys2Proof.Machine
end

