-- ==== Sys2Proof/Machine/GrantLink.lean ====
section
/-! DEFINITION. The Grant Link's shared operations (chapter 9): sending, withdrawing and releasing on a channel, the
terminal notices with the on-air set (R38), and ALL_OFF. -/

namespace Sys2Proof.Machine

/-- A message leaves on the grant link of tree `t`, behind those handed before it (R159). -/
def sendLink (t : TreeId) (m : GrantMsg) (s : State) : State :=
  s.modOut t fun o => { o with grant := o.grant ++ [m] }

/-- The channel of a tag of tree `t`. -/
def State.chan (s : State) (t : TreeId) (tag : Tag) : Channel := (s.tree t).chan tag

/-- An owner sends a request: the number is raised, the request is sent, the response deadline is eight epochs on, and the
channel is AWAITING. A held grant is given up without RELEASE and a standing request is withdrawn, both by the phase's
replacement (R152). -/
def chanSend (t : TreeId) (tag : Tag) (req : Request) (s : State) : State :=
  let number := (s.chan t tag).number + 1
  sendLink t (.request tag number req.kind req.length req.earliest)
    (s.setChan t tag { phase := .awaiting req (s.epoch + 8), number := number })

/-- A channel's phase once its request is withdrawn: IDLE from AWAITING, DEFERRED and BACKING_OFF (R153). In GRANTED nothing
changes, as R153 says; R155 counts a withdrawal among the ends of a held grant (DESIGN CHOICE, notes/assumptions/43.md). -/
def ChannelPhase.withdrawn : ChannelPhase → ChannelPhase
  | .awaiting _ _ | .deferred _ _ | .backingOff _ _ => .idle
  | .idle => .idle
  | .granted number start => .granted number start

/-- An owner withdraws its request; the request number is kept and nothing is sent (R153). -/
def chanWithdraw (t : TreeId) (tag : Tag) (s : State) : State :=
  s.setChan t tag { s.chan t tag with phase := (s.chan t tag).phase.withdrawn }

/-- An owner hands RELEASE: in GRANTED the held grant is returned and the channel is IDLE; otherwise nothing (R155). -/
def chanRelease (t : TreeId) (tag : Tag) (s : State) : State :=
  match (s.chan t tag).phase with
  | .granted number _ => sendLink t (.release tag number) (s.setChan t tag { s.chan t tag with phase := .idle })
  | .idle | .awaiting _ _ | .deferred _ _ | .backingOff _ _ => s

/-- Insert a TN into an ascending list that holds it at most once. -/
def insertTn (tn : Nat) : List Nat → List Nat
  | [] => [tn]
  | x :: rest => if tn < x then tn :: x :: rest else if tn = x then x :: rest else x :: insertTn tn rest

/-- TERMINAL_ON: the TN joins the on-air set, and the notice carries the entry's preamble class and Bp (R38, R159). -/
def terminalOn (t : TreeId) (tn : Nat) (prof : Profile) (s : State) : State :=
  sendLink t (.terminalOn tn prof.pre.value prof.bp.value) (s.modAir t (insertTn tn))

/-- TERMINAL_OFF: the TN leaves the on-air set (R38, R159). -/
def terminalOff (t : TreeId) (tn : Nat) (s : State) : State :=
  sendLink t (.terminalOff tn) (s.modAir t fun l => l.filter (· ≠ tn))

/-- ALL_OFF: every channel of the tree is IDLE with its number kept, and the on-air set is empty (R161). -/
def allOff (t : TreeId) (s : State) : State :=
  sendLink t .allOff
    (s.modTree t fun T =>
      { T with
        onAir := []
        chanWindow := { T.chanWindow with phase := .idle }
        chanProbe := { T.chanProbe with phase := .idle }
        chanSilence := { T.chanSilence with phase := .idle } })

end Sys2Proof.Machine
end

