-- ==== Sys2Proof/Machine/MsgQueue.lean ====
section
/-! DEFINITION. The Downstream Message Queue's shared operations (section 2.5): posting, owed messages and their merging,
withdrawal, and the close. A poster told EXPIRED for a must-deliver message takes no action (R32, R50, R56, R130), so that
notice leaves no mark on the state. -/

namespace Sys2Proof.Machine

/-- What the queue answers a poster at once (R26, R27, R30). -/
inductive PostAnswer where
  | accepted
  | full
  | owed
  | merged
  | discarded
  deriving DecidableEq, Repr

/-- The state after a posting, and the answer. -/
structure Posted where
  state  : State
  answer : PostAnswer
  deriving DecidableEq, Repr

/-- An item joins the tail of the list (R26). -/
def enqueue (t : TreeId) (it : Item) (s : State) : State :=
  s.modMsgq t fun q => { q with items := q.items ++ [it] }

/-- Post an INVITE, ASSIGN or PROBE: discarded while a broadcast RETIRE stands (R30), added below the gated limit, refused
otherwise (R26). -/
def postGated (t : TreeId) (it : Item) (s : State) : Posted :=
  if (s.tree t).msgq.broadcastStands then { state := s, answer := .discarded }
  else if (s.tree t).msgq.items.length < Config.gatedLimit then { state := enqueue t it s, answer := .accepted }
  else { state := s, answer := .full }

/-- What becomes of an entry's owed message when a later must-deliver message is posted (R27). -/
structure Merge where
  owed   : OwedMsg
  resend : Bool
  answer : PostAnswer
  deriving DecidableEq, Repr

/-- The table of R27, for an entry with launch delay `ld` and resend mark `mark` that owes `o`. -/
def mergeOwed (o : OwedMsg) (tn ld : Nat) (mark : Bool) (m : Message) (by_ : Issuer) : Merge :=
  if o.msg.isRetire then { owed := o, resend := mark, answer := .discarded }
  else if o.msg.setsDelay && m.isNudge then { owed := ⟨.delay tn ld, by_⟩, resend := mark, answer := .merged }
  else if o.msg.setsDelay && m.isMuting then { owed := ⟨m, by_⟩, resend := true, answer := .owed }
  else { owed := ⟨m, by_⟩, resend := mark, answer := .owed }

/-- Post a must-deliver message for one TN (R26, R27, R30). A DELAY clears the entry's resend mark (R27). -/
def postMust (t : TreeId) (tn : Nat) (m : Message) (by_ : Issuer) (s : State) : Posted :=
  if (s.tree t).msgq.broadcastStands then { state := s, answer := .discarded }
  else
    match s.entry? t tn with
    | none => { state := s, answer := .discarded }
    | some e =>
      let mark := e.resend && !m.isDelay
      match e.owed with
      | some o =>
        let g := mergeOwed o tn e.ld mark m by_
        { state := s.modEntry t tn fun e => { e with owed := some g.owed, resend := g.resend }, answer := g.answer }
      | none =>
        if (s.tree t).msgq.items.length < Config.queueLimit then
          { state := enqueue t { msg := m, issuer := by_, inst := e.inst, deadline := none }
              (s.modEntry t tn fun e => { e with resend := mark }), answer := .accepted }
        else { state := s.modEntry t tn fun e => { e with owed := some ⟨m, by_⟩, resend := mark }, answer := .owed }

/-- The item of a broadcast RETIRE (R30). -/
def broadcastItem : Item := { msg := .retireAll, issuer := .controller, inst := 0, deadline := none }

/-- Post the broadcast RETIRE: queued, or owed in its holder (R26). -/
def postBroadcast (t : TreeId) (s : State) : State :=
  if (s.tree t).msgq.items.length < Config.queueLimit then enqueue t broadcastItem s
  else s.modMsgq t fun q => { q with owedBroadcast := true }

/-- A poster withdraws its queued items: the Discovery Unit's INVITE, the Task Sequencer's PROBE (R29). -/
def withdrawItems (t : TreeId) (by_ : Issuer) (s : State) : State :=
  s.modMsgq t fun q => { q with items := q.items.filter fun it => !(it.issuer == by_) }

/-- The close request: every INVITE, ASSIGN and PROBE leaves without notice, and the broadcast RETIRE is posted (R30). -/
def closeQueue (t : TreeId) (s : State) : State :=
  postBroadcast t (s.modMsgq t fun q => { q with items := q.items.filter fun it => !it.msg.isGated })

end Sys2Proof.Machine
end

