-- ==== Sys2Proof/Machine/Sequencer.lean ====
section
/-! DEFINITION. The Task Sequencer's shared operations: the attempts of a probe operation (R105..R107), the task queue and
its crowding (R137..R142), and the taking of tasks (R143, R144). -/

namespace Sys2Proof.Machine

/-! ### The probe operation -/

/-- Replace the operation of tree `t`. -/
def State.setOp (s : State) (t : TreeId) (o : Option ProbeOp) : State := s.modSeq t fun q => { q with op := o }

/-- The wait start of an operation that enters HELD or REQUESTING in epoch `e`: kept between those two phases, fresh from
any other (R145). -/
def ProbeOp.waitFrom (o : ProbeOp) (e : Nat) : Nat :=
  match o.phase with
  | .held | .requesting _ _ => o.waitStart
  | .waitDelay | .posted _ _ _ _ | .listening _ _ _ _ _ => e

/-- The earliest start of a probe interval sent in epoch `e` (R106). -/
def probeEarliest (e : Int) (pl : Placement) : Int :=
  (e + 3 + max 0 (pl.floor - e - 3)) * 625000 + pl.ldp + pl.cp - pl.half

/-- The tag-1 request of an attempt is sent, or sent again by its owner, and the operation is REQUESTING (R106). -/
def sendProbe (t : TreeId) (o : ProbeOp) (pl : Placement) (s : State) : State :=
  let qe := probeEarliest s.epochInt pl
  (chanSend t .probe { kind := .quiet, length := pl.length, earliest := qe } s).setOp t
    (some { o with phase := .requesting pl qe, waitStart := o.waitFrom s.epoch })

/-- The placement figures of an attempt with reference floor `f`, copied at its first sending (R106). -/
def placementOf (pr : Params) (e : Entry) (f : Int) : Placement :=
  { floor := f, ldp := e.ld, cp := e.c, half := pr.u + e.profile.rtol.value,
    length := 2 * ((pr.u : Int) + e.profile.rtol.value) + e.profile.bp.value }

/-- An attempt begins: it fixes its reference floor and is requested at once, or enters HELD while a delay message stands
(R105). -/
def beginAttempt (t : TreeId) (o : ProbeOp) (s : State) : State :=
  match s.entry? t o.tn with
  | none => s.setOp t (some o)
  | some e =>
    match o.stage with
    | .verify (some d) => sendProbe t o (placementOf (s.params t) e ((d : Int) + e.profile.la.value + 2)) s
    | .verify none => s.setOp t (some o)
    | .measure =>
      if e.rrt.isNone then sendProbe t o (placementOf (s.params t) e (s.epochInt + 3)) s
      else if (s.tree t).delayStands o.tn e then
        s.setOp t (some { o with phase := .held, waitStart := o.waitFrom s.epoch })
      else sendProbe t o (placementOf (s.params t) e (s.epochInt + e.profile.la.value + 2)) s

/-- An operation gives up the interval work of its phase (R107). -/
def giveUpProbe (t : TreeId) (o : ProbeOp) (s : State) : State :=
  match o.phase with
  | .held | .waitDelay => s
  | .requesting _ _ => chanWithdraw t .probe s
  | .posted _ _ _ _ => chanRelease t .probe (withdrawItems t .sequencer s)
  | .listening _ _ _ _ _ => s.raiseSeqStale t

/-- The operation is discarded, and its entry's attempts field with it (R33, R104). -/
def discardOp (t : TreeId) (s : State) : State :=
  match (s.tree t).seq.op with
  | none => s
  | some o =>
    (s.modEntry t o.tn fun e => if e.inst = o.inst then { e with attempts := none } else e).setOp t none

/-- The operation in flight is abandoned: its phase's work given up, then discarded (R107). -/
def abandonOp (t : TreeId) (s : State) : State :=
  match (s.tree t).seq.op with
  | none => s
  | some o => discardOp t (giveUpProbe t o s)

/-- The operation kind a task starts (R105, R137). -/
def TaskKind.opKind : TaskKind → OpKind
  | .range | .rerange | .unmute | .rangeNow => .range
  | .audit => .audit

/-- The entry state an operation kind expects at its start (R105). -/
def OpKind.expected : OpKind → Expected
  | .range => .ranging
  | .audit => .operating

/-- An operation starts for a task's entry: the attempts field is created at 0 and the first attempt begins (R105, R144). -/
def startOp (t : TreeId) (k : Task) (e : Entry) (s : State) : State :=
  beginAttempt t
    { tn := k.tn, inst := k.inst, serial := e.serial, kind := k.kind.opKind, expected := k.kind.opKind.expected,
      stage := .measure, phase := .waitDelay, waitStart := s.epoch }
    (s.modEntry t k.tn fun e => { e with attempts := some 0 })

/-! ### The task queue -/

/-- Place a task at the tail of the URGENT class (R137, R139). -/
def placeUrgent (k : Task) (l : List Task) : List Task :=
  l.filter Task.urgent ++ k :: l.filter fun x => !x.urgent

/-- Replace the task list of tree `t`. -/
def State.setTasks (s : State) (t : TreeId) (l : List Task) : State := s.modSeq t fun q => { q with tasks := l }

/-- The kind of the task that queues a waiting entry (R141). -/
def refillKind (e : Entry) : TaskKind := if e.ever then .rerange else .range

/-- A waiting entry is queued while fewer than 16 tasks stand (R141). -/
def refillOne (t : TreeId) (s : State) (tn : Nat) : State :=
  if (s.tree t).seq.tasks.length < Config.taskLimit then
    match (s.entry? t tn).filter (·.waiting) with
    | some e =>
      (s.modEntry t tn fun e => { e with waiting := false }).setTasks t
        (placeUrgent { tn := tn, inst := e.inst, kind := refillKind e } (s.tree t).seq.tasks)
    | none => s
  else s

/-- After a removal, waiting entries are queued in ascending TN order while there is room (R141). -/
def refill (t : TreeId) (s : State) : State := ((s.tree t).tnsWith (·.waiting)).foldl (refillOne t) s

/-- The entry a task needs: its instance in RANGING for an URGENT task, in OPERATING for an AUDIT (R144). -/
def taskFits (k : Task) (e : Entry) : Bool :=
  e.inst == k.inst && e.state.name == (if k.urgent then .ranging else .operating)

/-- Take head tasks, each removal followed by the refill, until an operation starts or taking is not allowed (R143, R144). -/
def takeLoop (t : TreeId) : Nat → State → State
  | 0, s => s
  | n + 1, s =>
    if (s.tree t).mayTake then
      match (s.tree t).seq.tasks with
      | [] => s
      | k :: rest =>
        let s1 := refill t (s.setTasks t rest)
        match (s1.entry? t k.tn).filter (taskFits k) with
        | some e => startOp t k e s1
        | none => takeLoop t n s1
    else s

/-- Bound on the tasks one event can take: 16 queued, 120 waiting. -/
abbrev takeBound : Nat := 137

/-- The judgement of task taking (R143). -/
def takeTasks (t : TreeId) (s : State) : State := takeLoop t takeBound s

/-- The Task Sequencer is told that an entry was withdrawn: its task is removed, a probe operation in flight for it is
abandoned, then the refill and the judgement of taking (R142). -/
def withdrawn (t : TreeId) (tn : Nat) (inst : BitVec 16) (s : State) : State :=
  let s1 := s.setTasks t ((s.tree t).seq.tasks.filter fun k => k.tn ≠ tn)
  let s2 :=
    match (s1.tree t).seq.op with
    | some o => if o.tn = tn ∧ o.inst = inst then abandonOp t s1 else s1
    | none => s1
  takeTasks t (refill t s2)

/-- The answers to a task request (R139). -/
inductive TaskAnswer where
  | added
  | upgraded
  | displaced
  | waiting
  | present
  | refused
  deriving DecidableEq, Repr

/-- What a task request does to the list and the entry, before taking is judged. -/
structure TaskJudged where
  state  : State
  answer : TaskAnswer
  deriving DecidableEq, Repr

/-- A task request is judged by the first line that applies (R139, R140). -/
def judgeTask (t : TreeId) (k : Task) (s : State) : TaskJudged :=
  let tasks := (s.tree t).seq.tasks
  if (s.tree t).isClosing then { state := s, answer := .refused }
  else if ((s.entry? t k.tn).map (·.waiting)).getD false then { state := s, answer := .present }
  else
    match tasks.find? fun x => x.tn = k.tn with
    | some old =>
      if k.urgent && !old.urgent then
        { state := s.setTasks t (placeUrgent k (tasks.filter fun x => x.tn ≠ k.tn)), answer := .upgraded }
      else { state := s, answer := .present }
    | none =>
      if tasks.length < Config.taskLimit then
        { state := s.setTasks t (if k.urgent then placeUrgent k tasks else tasks ++ [k]), answer := .added }
      else if k.urgent then
        if tasks.all Task.urgent then
          { state := s.modEntry t k.tn fun e => { e with waiting := true }, answer := .waiting }
        else { state := refill t (s.setTasks t (placeUrgent k tasks.dropLast)), answer := .displaced }
      else { state := s, answer := .refused }

/-- A block asks for a task; every addition is followed by the judgement of taking (R139). -/
def addTask (t : TreeId) (k : Task) (s : State) : TaskJudged :=
  { judgeTask t k s with state := takeTasks t (judgeTask t k s).state }

/-- The Task Sequencer gives up its work when its tree enters CLOSING (R121, R150); the PROBE of a POSTED operation leaves
with the queue's close (R30). -/
def closeSequencer (t : TreeId) (s : State) : State :=
  let s1 :=
    match (s.tree t).seq.op with
    | some o =>
      match o.phase with
      | .posted _ _ _ _ => discardOp t (chanRelease t .probe s)
      | .held | .waitDelay | .requesting _ _ | .listening _ _ _ _ _ => abandonOp t s
    | none => s
  let s2 := s1.modSeq t fun q => { q with tasks := [], stale := 0, sweepPtr := 0, nextSweep := none }
  s2.modTree t fun T => T.mapEntries fun e => { e with waiting := false }

end Sys2Proof.Machine
end

