-- ==== Sys2Proof/Machine/Discovery.lean ====
section
/-! DEFINITION. The Discovery Unit's shared operations (chapter 5): sizing and requesting a window, starting one behind
the gate, the end of a cycle, and the interruptions. -/

namespace Sys2Proof.Machine

/-- Set the discovery state of tree `t`. -/
def State.setDisc (s : State) (t : TreeId) (d : DiscState) : State := s.modDisc t fun x => { x with state := d }

/-- The length of a window (R82). -/
def windowLength (pr : Params) (w : Context) : Int :=
  (w.dspan : Int) + ((pr.frtMax : Int) - pr.frtMin) + pr.arSpread + pr.bla

/-- The earliest start of a window sent in epoch `e` (R82). -/
def windowEarliest (pr : Params) (e : Int) : Int := (e + 3) * 625000 + pr.frtMin + pr.arMin

/-- The tag-0 request of a window is sent, or sent again by the unit, and the unit is REQUESTING (R82). -/
def sendWindow (t : TreeId) (w : Context) (s : State) : State :=
  let qe := windowEarliest (s.params t) s.epochInt
  (chanSend t .window { kind := .quiet, length := windowLength (s.params t) w, earliest := qe } s).setDisc t
    (.requesting w qe)

/-- The queue from which a cycle starts: in HOLD mode a held head leaves when another context stands behind it (R81). -/
def cycleQueue (m : QueueMode) (l : List QueuedContext) : List QueuedContext :=
  match m, l with
  | .hold, h :: next :: rest => if h.held then next :: rest else h :: next :: rest
  | _, l => l

/-- The unit starts a window if it is DUE and the gate is open: it starts a cycle where it holds no window copy, and sends
the tag-0 request (R81). -/
def startWindow (t : TreeId) (s : State) : State :=
  if (s.tree t).gateOpen then
    match (s.tree t).disc.state with
    | .due (some w) => sendWindow t w s
    | .due none =>
      match cycleQueue (s.params t).queueMode (s.tree t).disc.contexts with
      | [] => s
      | h :: rest =>
        sendWindow t h.ctx
          (s.modDisc t fun d =>
            { d with contexts := { h with held := false } :: rest, repeatIndex := 0, flushed := false })
    | .stopped | .spacing _ | .requesting _ _ | .posted _ _ _ _ | .collecting _ _ _ _ _ _ => s
  else s

/-- The queue action at the end of a cycle (R92). -/
def queueAction (m : QueueMode) (l : List QueuedContext) : List QueuedContext :=
  match m, l with
  | .drain, l => l.drop 1
  | .hold, [] => []
  | .hold, [h] => [{ h with held := true }]
  | .hold, _ :: rest => rest

/-- The contexts that stand once a cycle has ended (R92). -/
def Discovery.afterCycle (d : Discovery) (m : QueueMode) : List QueuedContext :=
  if d.flushed then d.contexts else queueAction m d.contexts

/-- The cycle on copy `w` ends (R92). The repeat index, which R80 defines for the current cycle alone, keeps its value until
the next cycle sets it to 0 (R81), and TREE_STATUS shows it (DESIGN CHOICE, notes/assumptions/41.md). -/
def endCycle (t : TreeId) (w : Context) (s : State) : State :=
  let queue := (s.tree t).disc.afterCycle (s.params t).queueMode
  s.modDisc t fun d =>
    { d with
      contexts := queue
      flushed := false
      state := if queue.isEmpty then .stopped else .spacing (s.epoch + w.spacing) }

/-- A WINDOW report with the counts reached (R94). -/
def windowReport (t : TreeId) (number : Byte) (reps : Nat) (ended : WindowEnd) (follow : Option WindowNext) (w : Context)
    (dispatch : Nat) (coll : Collection) (s : State) : State :=
  s.report t (.window number reps ended follow w.dspan w.mode dispatch coll)

/-- A window given up before its INVITE was dispatched waits in DUE on its copy, or, flushed, ends its cycle (R95). -/
def deferWindow (t : TreeId) (w : Context) (s : State) : State :=
  if (s.tree t).disc.flushed then endCycle t w s else s.setDisc t (.due (some w))

/-- The light condition has left QUIET (R95). -/
def discLeavesQuiet (t : TreeId) (s : State) : State :=
  match (s.tree t).disc.state with
  | .requesting w _ => deferWindow t w (chanWithdraw t .window s)
  | .posted w _ _ _ => deferWindow t w (chanRelease t .window (withdrawItems t .discovery s))
  | .collecting _ _ _ _ _ _ | .stopped | .spacing _ | .due _ => s

/-- The Discovery Unit on a time slip (R96). -/
def discSlip (t : TreeId) (s : State) : State :=
  match (s.tree t).disc.state with
  | .requesting w _ => sendWindow t w (chanWithdraw t .window s)
  | .posted w _ _ _ => sendWindow t w (chanRelease t .window (withdrawItems t .discovery s))
  | .collecting w number _ _ dispatch coll =>
    let s1 := windowReport t number (s.tree t).disc.repeatIndex .slip (some .rerun) w dispatch coll (s.raiseDiscStale t)
    if (s.tree t).light.light = .quiet then sendWindow t w s1 else s1.setDisc t (.due (some w))
  | .stopped | .spacing _ | .due _ => s

/-- The values of a Discovery Unit that has given up everything but its window numbering (R97). -/
def Discovery.closed (d : Discovery) : Discovery :=
  { contexts := [], state := .stopped, repeatIndex := 0, flushed := false, nextWindow := d.nextWindow, stale := 0 }

/-- The Discovery Unit gives up its work when its tree enters CLOSING, or returns from CALIBRATING to CLOSED (R97); the
INVITE of a POSTED window leaves with the queue's close (R30). -/
def closeDiscovery (t : TreeId) (s : State) : State :=
  let s1 :=
    match (s.tree t).disc.state with
    | .requesting _ _ => chanWithdraw t .window s
    | .posted _ _ _ _ => chanRelease t .window s
    | .collecting w number _ _ dispatch coll =>
      windowReport t number (s.tree t).disc.repeatIndex .close none w dispatch coll s
    | .stopped | .spacing _ | .due _ => s
  s1.modDisc t Discovery.closed

/-- The collection state of a window that has just been dispatched (R85). -/
def Collection.empty : Collection :=
  { heard := [], announces := 0, duplicates := 0, malformed := 0, outOfReach := 0, excess := 0, collisions := 0 }

/-- The INVITE was handed to the framer in epoch `d` (R84). -/
def inviteDispatched (t : TreeId) (d : Nat) (s : State) : State :=
  match (s.tree t).disc.state with
  | .posted w number qs gw => s.setDisc t (.collecting w number qs gw d Collection.empty)
  | .stopped | .spacing _ | .due _ | .requesting _ _ | .collecting _ _ _ _ _ _ => s

/-- The INVITE left past its deadline: the spent interval is counted stale and a new request is sent (R84). -/
def inviteExpired (t : TreeId) (s : State) : State :=
  match (s.tree t).disc.state with
  | .posted w _ _ _ => sendWindow t w (s.raiseDiscStale t)
  | .stopped | .spacing _ | .due _ | .requesting _ _ | .collecting _ _ _ _ _ _ => s

/-- A GRANT handed to the Discovery Unit: it posts its INVITE, or releases the grant and requests again (R83). -/
def windowGranted (t : TreeId) (qs : Int) (s : State) : State :=
  match (s.tree t).disc.state with
  | .requesting w qe =>
    let again := sendWindow t w (chanRelease t .window s)
    let gw := qs - (s.params t).frtMin - (s.params t).arMin
    if qs < qe ∨ qe + 32 * 625000 < qs then again
    else if dispatchDeadline gw < s.epochInt then again
    else
      let number := (s.tree t).disc.nextWindow
      let posted := postGated t
        { msg := .invite number w.dspan gw, issuer := .discovery, inst := 0, deadline := some (dispatchDeadline gw) } s
      match posted.answer with
      | .accepted =>
        posted.state.modDisc t fun d => { d with state := .posted w number qs gw, nextWindow := number + 1 }
      | .full | .owed | .merged | .discarded => again
  | .stopped | .spacing _ | .due _ | .posted _ _ _ _ | .collecting _ _ _ _ _ _ => s

end Sys2Proof.Machine
end

