-- ==== Sys2Proof/Machine/Registry.lean ====
section
/-! DEFINITION. The Terminal Registry's shared operations (chapter 3): taking a transition (R36..R39), going to RETIRING,
LOST or FREE (R44, R49, R51), creating and reactivating entries (R41, R45), the serial check (R43), and the hunt's mute and
release (R168, R170). -/

namespace Sys2Proof.Machine

/-! ### Transitions -/

/-- The slot of a TN holds the named instance in the named state (R36). -/
def Entry.isIn (e : Entry) (inst : BitVec 16) (n : StateName) : Bool := e.inst == inst && e.state.name == n

/-- A transition of the entry that holds a TN is taken: TERMINAL_OFF or TERMINAL_ON is handed as it leaves or enters
OPERATING (R38), the entry becomes what `f` makes of it, and one TERMINAL report is posted (R39). -/
def transit (t : TreeId) (tn : Nat) (cause : Cause) (f : Entry → Entry) (s : State) : State :=
  match s.entry? t tn with
  | none => s
  | some e =>
    let s1 := if e.operating && !(f e).operating then terminalOff t tn s else s
    let s2 := s1.modEntry t tn f
    let s3 := if !e.operating && (f e).operating then terminalOn t tn (f e).profile s2 else s2
    s3.report t (.terminal tn (f e).inst e.serial (some e.state.name) (some (f e).state.name) cause)

/-- The entry in RETIRING (R33, R37, R49). -/
def Entry.toRetiring (e : Entry) : Entry :=
  { e with state := .retiring, attempts := none, waiting := false, resend := false }

/-- The entry in LOST until `hold` (R33, R37, R44). -/
def Entry.toLost (hold : Nat) (e : Entry) : Entry :=
  { e with state := .lost hold, attempts := none, waiting := false }

/-- The entry in MUTED (R33, R37, R54, R168). -/
def Entry.toMuted (cause : MuteCause) (e : Entry) : Entry :=
  { e with state := .muted cause, attempts := none, waiting := false }

/-- The entry in RANGING; the deadline is `fresh` unless one is running (R37). -/
def Entry.toRanging (fresh : Nat) (e : Entry) : Entry := { e with state := .ranging (e.deadlineOr fresh) }

/-- The entry in VERIFYING; the deadline is `fresh` unless one is running (R37). -/
def Entry.toVerifying (fresh : Nat) (e : Entry) : Entry := { e with state := .verifying (e.deadlineOr fresh) }

/-- The drift fields of an entry that enters OPERATING (R115, R170). -/
def Drift.fresh (settle : Nat) : Drift := { sum := 0, n := 0, settle := .epoch settle, misses := 0 }

/-- The entry in OPERATING with fresh drift fields (R33, R37, R115, R170). -/
def Entry.toOperating (settle : Nat) (e : Entry) : Entry :=
  { e with state := .operating (Drift.fresh settle), ever := true, attempts := none }

/-- The activation deadline set in the current epoch (R37). -/
def State.budgetEnd (s : State) (t : TreeId) : Nat := s.epoch + (s.params t).budget

/-- An entry goes to RETIRING: off the air, its work withdrawn, its RETIRE posted (R49). -/
def enterRetiring (t : TreeId) (tn : Nat) (cause : Cause) (s : State) : State :=
  match s.entry? t tn with
  | none => s
  | some e =>
    (postMust t tn (.retire tn) .registry (withdrawn t tn e.inst (transit t tn cause Entry.toRetiring s))).state

/-- An entry goes to LOST: off the air, its lost hold set, its work withdrawn; nothing is posted downstream (R44). -/
def enterLost (t : TreeId) (tn : Nat) (cause : Cause) (s : State) : State :=
  match s.entry? t tn with
  | none => s
  | some e => withdrawn t tn e.inst (transit t tn cause (Entry.toLost (s.epoch + (s.params t).lostHold)) s)

/-- An entry whose probe work failed goes to LOST when it has ever operated, and to RETIRING otherwise (R118, R145). -/
def loseOrRetire (t : TreeId) (tn : Nat) (cause : Cause) (s : State) : State :=
  match s.entry? t tn with
  | none => s
  | some e => if e.ever then enterLost t tn cause s else enterRetiring t tn cause s

/-- An entry is freed: its report, its slot FREE with the instance number kept, its directory item removed, its owed message
gone with it, its work withdrawn (R51). -/
def freeEntry (t : TreeId) (tn : Nat) (cause : Cause) (s : State) : State :=
  match s.entry? t tn with
  | none => s
  | some e =>
    let s1 := s.report t (.terminal tn e.inst e.serial (some e.state.name) none cause)
    let s2 := s1.modTree t fun T => T.setSlot tn { inst := T.slotInst tn, entry := none }
    withdrawn t tn e.inst { s2 with directory := s2.directory.filter fun d => d.serial ≠ e.serial }

/-! ### Creation and the serial check -/

/-- The serial's item in the directory (R42). -/
def State.lookup (s : State) (serial : Serial) : Option DirItem := s.directory.find? fun d => d.serial = serial

/-- The answers to a creation request (R41). -/
inductive CreateAnswer where
  | created (tn : Nat)
  | tableFull
  | backlog
  | clash (tree : TreeId) (tn : Nat)
  | ignored
  deriving DecidableEq, Repr

/-- The state after a creation request, and its answer. -/
structure Created where
  state  : State
  answer : CreateAnswer
  deriving DecidableEq, Repr

/-- The item of an ASSIGN (R41, R45). -/
def assignItem (tn : Nat) (serial : Serial) (inst : BitVec 16) : Item :=
  { msg := .assign tn serial, issuer := .registry, inst := inst, deadline := none }

/-- A new entry in ASSIGNING (R33, R41). -/
def newEntry (inst : BitVec 16) (deadline : Nat) (serial : Serial) (model : BitVec 16) (c : Int) (prof : Profile) : Entry :=
  { inst := inst, state := .assigning deadline, serial := serial, model := model, profile := prof, c := c, rrt := none,
    ld := 0, r := none, ever := false, attempts := none, waiting := false, owed := none, resend := false }

/-- A creation request (R40, R41). -/
def createEntry (t : TreeId) (serial : Serial) (model : BitVec 16) (c : Int) (prof : Profile) (s : State) : Created :=
  if !(s.tree t).isActive then { state := s, answer := .ignored }
  else
    match s.lookup serial with
    | some d => { state := s, answer := .clash d.tree d.tn }
    | none =>
      match (s.tree t).lowestFree with
      | none => { state := s, answer := .tableFull }
      | some tn =>
        let inst := (s.tree t).slotInst tn + 1
        let posted := postGated t (assignItem tn serial inst) s
        match posted.answer with
        | .accepted =>
          let e := newEntry inst (s.budgetEnd t) serial model c prof
          let s1 := posted.state.modTree t fun T => T.setSlot tn { inst := inst, entry := some e }
          let s2 := { s1 with directory := s1.directory ++ [(⟨serial, t, tn⟩ : DirItem)] }
          { state := s2.report t (.terminal tn inst serial none (some .assigning) .admitted), answer := .created tn }
        | .full | .owed | .merged | .discarded => { state := s, answer := .backlog }

/-- The entry reactivated under a raised instance (R33, R37, R45). -/
def Entry.reactivated (inst : BitVec 16) (deadline : Nat) (c : Int) (e : Entry) : Entry :=
  { e with
    inst := inst, state := .assigning deadline, c := c, ld := 0, rrt := none, r := none, owed := none, resend := false }

/-- The answers to a serial check (R43). -/
inductive CheckAnswer where
  | new
  | reactivated (tn : Nat)
  | backlog
  | clash (tree : TreeId) (tn : Nat)
  deriving DecidableEq, Repr

/-- The state after a serial check, and its answer. -/
structure Checked where
  state  : State
  answer : CheckAnswer
  deriving DecidableEq, Repr

/-- A LOST entry is reactivated on its tree, keeping its TN (R45). -/
def reactivate (t : TreeId) (tn : Nat) (serial : Serial) (c : Int) (s : State) : Checked :=
  let inst := (s.tree t).slotInst tn + 1
  let posted := postGated t (assignItem tn serial inst) s
  match posted.answer with
  | .accepted =>
    let s1 := transit t tn .reactivated (Entry.reactivated inst (s.budgetEnd t) c) posted.state
    { state := s1.modTree t fun T => T.setSlot tn { inst := inst, entry := T.entry? tn }, answer := .reactivated tn }
  | .full | .owed | .merged | .discarded => { state := s, answer := .backlog }

/-- The serial check of an announce with coarse estimate `c` (R43, R45, R46). -/
def serialCheck (t : TreeId) (serial : Serial) (c : Int) (s : State) : Checked :=
  match s.lookup serial with
  | none => { state := s, answer := .new }
  | some d =>
    match (s.entry? d.tree d.tn).map fun e => e.state.name with
    | some StateName.lost =>
      if d.tree = t then reactivate t d.tn serial c s
      else { state := freeEntry d.tree d.tn .moved s, answer := .new }
    | _ => { state := s, answer := .clash d.tree d.tn }

/-! ### The hunt's mute and release -/

/-- The hunt takes a candidate from OPERATING to MUTED and posts its MUTE (R168). -/
def huntMute (t : TreeId) (c : Candidate) (s : State) : State :=
  (postMust t c.tn (.mute c.tn) .registry
    (withdrawn t c.tn c.inst (transit t c.tn .huntMute (Entry.toMuted (.hunt false)) s))).state

/-- The entry is MUTED with cause HUNT and this release mark (R170). -/
def Entry.huntMuted (e : Entry) (mark : Bool) : Bool := e.state == .muted (.hunt mark)

/-- A release asked by the Light Monitor: the mark is set and an UNMUTE is posted (R170). -/
def huntRelease (t : TreeId) (c : Candidate) (s : State) : State :=
  match s.entry? t c.tn with
  | none => s
  | some e =>
    if e.inst = c.inst ∧ e.huntMuted false then
      (postMust t c.tn (.unmute c.tn) .registry
        (s.modEntry t c.tn fun e => { e with state := .muted (.hunt true) })).state
    else s

/-- The UNMUTE of a released candidate was dispatched in epoch `d`: it returns to OPERATING (R170). Settle-until is R170's
`d + 2` whatever La is, where R18 has drift samples ignored until La + 2 epochs behind any DELAY or NUDGE: one dispatched with
the UNMUTE does not put it off (DESIGN CHOICE, notes/assumptions/42.md). -/
def huntClear (t : TreeId) (tn : Nat) (inst : BitVec 16) (d : Nat) (s : State) : State :=
  match s.entry? t tn with
  | none => s
  | some e =>
    if e.inst = inst ∧ e.huntMuted true then transit t tn .huntClear (Entry.toOperating (d + 2)) s else s

end Sys2Proof.Machine
end

