-- ==== Sys2Proof/Machine/LightMonitor.lean ====
section
/-! DEFINITION. The Light Monitor's shared operations (chapter 10): the silence check (R164, R165), strikes (R166), the
move to SUSPECT (R167), the hunt (R168..R171), slips and the close (R173). -/

namespace Sys2Proof.Machine

/-- The earliest start of a silence check sent in epoch `e` (R164). -/
def silenceEarliest (e : Int) : Int := (e + 3) * 625000

/-- A silence check of a purpose is sent (R164). -/
def sendCheck (t : TreeId) (p : Purpose) (s : State) : State :=
  let qe := silenceEarliest s.epochInt
  (chanSend t .silence { kind := .silence, length := (s.params t).silenceLen, earliest := qe } s).modLight t fun l =>
    { l with check := some { purpose := p, qe := qe, phase := .requesting } }

/-- A check in flight is given up (R164). -/
def giveUpCheck (t : TreeId) (s : State) : State :=
  match (s.tree t).light.check with
  | none => s
  | some c =>
    let s1 :=
      match c.phase with
      | .requesting => chanWithdraw t .silence s
      | .listening _ _ => s.raiseLightStale t
    s1.modLight t fun l => { l with check := none }

/-- The condition changes: the Discovery Unit and the Task Sequencer are told within the event (R95, R81, R143), and the
LIGHT report is posted with the strike count after the change (R162, R174). Entering QUIET, the Discovery Unit judges its gate
before the Task Sequencer, in no order that the manual gives (DESIGN CHOICE, notes/assumptions/38.md). -/
def setLight (t : TreeId) (new : Light) (strikes : Nat) (cause : LightCause) (raw : Int) (s : State) : State :=
  let old := (s.tree t).light.light
  let s1 := s.modLight t fun l => { l with light := new, strikes := strikes }
  let s2 :=
    if old = .quiet ∧ new ≠ .quiet then discLeavesQuiet t s1
    else if old ≠ .quiet ∧ new = .quiet then takeTasks t (startWindow t s1)
    else s1
  s2.report t (.light old new cause strikes raw)

/-- A HUNT report (R174). -/
def huntReport (t : TreeId) (o : HuntOutcome) (h : Hunt) (tn : Nat) (inst : BitVec 16) (s : State) : State :=
  s.report t (.hunt o h.candidates.length h.checked h.skipped tn inst)

/-- The hunt ends with no candidate left (R171). -/
def huntUnresolved (t : TreeId) (h : Hunt) (s : State) : State :=
  huntReport t .unresolved h 0 0
    (s.modLight t fun l => { l with hunt := none, pause := true, nextCheck := some (s.epoch + (s.params t).huntPause) })

/-- The steps of the candidates left are offered in order: the first that is still OPERATING is muted, those before it are
skipped, and with none left the hunt ends UNRESOLVED (R168, R171). -/
def huntNext (t : TreeId) (h : Hunt) : List Candidate → State → State
  | [], s => huntUnresolved t h s
  | c :: rest, s =>
    if ((s.entry? t c.tn).map (·.isIn c.inst .operating)).getD false then
      huntMute t c (s.modLight t fun l => { l with hunt := some { h with rest := rest, current := c, step := .muting } })
    else huntNext t { h with skipped := h.skipped + 1 } rest s

/-- The candidate list: the OPERATING entries in ascending TN order (R168). -/
def Tree.candidates (T : Tree) : List Candidate :=
  (T.entries.filter fun x => x.2.operating).map fun x => { tn := x.1, inst := x.2.inst }

/-- A hunt starts (R168). -/
def startHunt (t : TreeId) (s : State) : State :=
  let cs := (s.tree t).candidates
  let h : Hunt := { candidates := cs, rest := cs, current := ⟨0, 0⟩, step := .muting, checked := 0, skipped := 0 }
  huntNext t h cs (huntReport t .started h 0 0 (s.modLight t fun l => { l with pause := false }))

/-- The move from QUIET to SUSPECT (R167). -/
def becomeSuspect (t : TreeId) (strikes : Nat) (cause : LightCause) (raw : Int) (s : State) : State :=
  startHunt t (setLight t .suspect strikes cause raw (giveUpCheck t s))

/-- The strike count raised by one, stopping at 15 (R166). -/
def LightMonitor.struck (l : LightMonitor) : Nat := raiseTo 15 l.strikes

/-- One strike in QUIET, by a record of raw time `raw` (R166). -/
def strike (t : TreeId) (raw : Int) (s : State) : State :=
  let n := (s.tree t).light.struck
  if (s.params t).strikeLimit ≤ n then becomeSuspect t n .strikes raw s
  else
    let s1 := s.modLight t fun l => { l with strikes := n }
    if (s.tree t).light.check.isNone then sendCheck t .strike s1 else s1

/-- A record of unexplained light: a strike in QUIET, discarded otherwise (R163, R166). -/
def unexplained (t : TreeId) (raw : Int) (s : State) : State :=
  if (s.tree t).light.light = .quiet then strike t raw s else s

/-- A continuous-light record: SUSPECT from QUIET, discarded otherwise (R167). -/
def continuous (t : TreeId) (raw : Int) (s : State) : State :=
  if (s.tree t).light.light = .quiet then becomeSuspect t (s.tree t).light.strikes .continuous raw s else s

/-- The condition becomes QUIET with strike count 0 (R166). -/
def becomeQuiet (t : TreeId) (cause : LightCause) (s : State) : State := setLight t .quiet 0 cause 0 s

/-- A check of purpose STRIKE has failed (R166). -/
def strikeFailed (t : TreeId) (s : State) : State :=
  let n := (s.tree t).light.struck
  if (s.params t).strikeLimit ≤ n then becomeSuspect t n .strikes 0 s
  else s.modLight t fun l => { l with strikes := n }

/-- The hunt's check has passed: the candidate is the source (R169). -/
def huntFound (t : TreeId) (h : Hunt) (s : State) : State :=
  becomeQuiet t .found
    (huntReport t .found h h.current.tn h.current.inst (s.modLight t fun l => { l with hunt := none }))

/-- The hunt's check has failed: the candidate is released and the next one's step begins (R169). -/
def huntNotThis (t : TreeId) (h : Hunt) (s : State) : State :=
  huntNext t { h with checked := h.checked + 1 } h.rest (huntRelease t h.current s)

/-- A check that has ended is acted on by its purpose (R163, R166, R169, R171). -/
def checkEnded (t : TreeId) (p : Purpose) (passed : Bool) (s : State) : State :=
  match p, passed with
  | .opening, true => becomeQuiet t .checkPassed s
  | .opening, false => s.modLight t fun l => { l with nextCheck := some (s.epoch + 16) }
  | .strike, true => s.modLight t fun l => { l with strikes := 0 }
  | .strike, false => strikeFailed t s
  | .hunt, b =>
    match (s.tree t).light.hunt with
    | some h => if b then huntFound t h s else huntNotThis t h s
    | none => s
  | .pause, true => becomeQuiet t .pausePassed (s.modLight t fun l => { l with pause := false })
  | .pause, false => s.modLight t fun l => { l with nextCheck := some (s.epoch + (s.params t).huntPause) }

/-- A tag-2 burst: absorbed as stale, counted by a listening check, or discarded (R165). -/
def silenceBurst (t : TreeId) (s : State) : State :=
  let l := (s.tree t).light
  if l.stale ≠ 0 then s
  else
    match l.check with
    | some { purpose := p, qe := qe, phase := .listening qs n } =>
      s.modLight t fun l =>
        { l with check := some { purpose := p, qe := qe, phase := .listening qs (raiseTo 255 n) } }
    | _ => s

/-- A tag-2 interval end: absorbed as stale, or the end of a listening check (R165). -/
def silenceEnd (t : TreeId) (s : State) : State :=
  let l := (s.tree t).light
  if l.stale ≠ 0 then s.modLight t fun l => { l with stale := l.stale - 1 }
  else
    match l.check with
    | some { purpose := p, qe := _, phase := .listening _ n } =>
      checkEnded t p (n == 0) (s.modLight t fun l => { l with check := none })
    | _ => s

/-- A GRANT handed to the Light Monitor (R164). -/
def silenceGranted (t : TreeId) (qs : Int) (s : State) : State :=
  match (s.tree t).light.check with
  | some { purpose := p, qe := qe, phase := .requesting } =>
    if qs < qe ∨ qe + 32 * 625000 < qs then sendCheck t p (chanRelease t .silence s)
    else s.modLight t fun l => { l with check := some { purpose := p, qe := qe, phase := .listening qs 0 } }
  | _ => s

/-- The candidate's MUTE was dispatched in epoch `d` (R169). -/
def huntMuteDispatched (t : TreeId) (tn : Nat) (inst : BitVec 16) (d : Nat) (s : State) : State :=
  match (s.tree t).light.hunt with
  | some h =>
    if h.current = ⟨tn, inst⟩ ∧ h.step = .muting then
      s.modLight t fun l => { l with hunt := some { h with step := .settling (d + 2) } }
    else s
  | none => s

/-- A check of purpose HUNT in flight is given up (R171). -/
def giveUpHuntCheck (t : TreeId) (s : State) : State :=
  match (s.tree t).light.check with
  | some c => if c.purpose = .hunt then giveUpCheck t s else s
  | none => s

/-- The Registry tells that an entry has left MUTED: if it is the current candidate, its step ends as interrupted and the
next one begins (R171). -/
def candidateLeft (t : TreeId) (tn : Nat) (inst : BitVec 16) (s : State) : State :=
  match (s.tree t).light.hunt with
  | some h =>
    if h.current = ⟨tn, inst⟩ then huntNext t { h with skipped := h.skipped + 1 } h.rest (giveUpHuntCheck t s) else s
  | none => s

/-- The tree has become ACTIVE (R163). -/
def lightOpened (t : TreeId) (s : State) : State :=
  sendCheck t .opening (setLight t .unknown 0 .opened 0 s)

/-- The Light Monitor on a time slip: a check in flight is given up and sent anew (R173). -/
def lightSlip (t : TreeId) (s : State) : State :=
  match (s.tree t).light.check with
  | some c => sendCheck t c.purpose (giveUpCheck t s)
  | none => s

/-- The Light Monitor gives up its work when its tree enters CLOSING (R173). -/
def closeLight (t : TreeId) (s : State) : State :=
  let s1 :=
    match (s.tree t).light.check with
    | some { purpose := _, qe := _, phase := .requesting } => chanWithdraw t .silence s
    | some { purpose := _, qe := _, phase := .listening _ _ } => chanRelease t .silence s
    | none => s
  s1.modLight t fun _ => LightMonitor.reset

end Sys2Proof.Machine
end

