-- ==== Sys2Proof/Machine/AdmissionUnit.lean ====
section
/-! DEFINITION. The Admission Unit (chapter 4): profile resolution (R64, R65), judging an announce (R63, R68..R70), the
host processor's decision (R72..R74), hold deadlines (R71) and the close (R75). -/

namespace Sys2Proof.Machine

/-- The wildcard model code (R65). -/
abbrev wildcardModel : BitVec 16 := 0xFFFF#16

/-- The catalogue entry that matches a vendor and a model: the lowest exact one, else the lowest wildcard (R65). -/
def Admission.matching (a : Admission) (vendor : BitVec 32) (model : BitVec 16) : Option CatEntry :=
  let valid := a.cat.toList.filter fun e => e.valid && e.vendor == vendor
  match valid.find? fun e => e.model = model with
  | some e => some e
  | none => valid.find? fun e => e.model = wildcardModel

/-- One profile field from the first source that supplies it (R64). -/
def resolveField (declared catalogue : Option Nat) (dflt : Nat) : ProfileField :=
  match declared, catalogue with
  | some v, _ => { value := v, origin := .declared }
  | none, some v => { value := v, origin := .catalogue }
  | none, none => { value := dflt, origin := .default }

/-- The profile of an announce, resolved field by field (R64). -/
def resolveProfile (d : Declared) (cat : Option CatEntry) (pr : Params) : Profile :=
  { rn := resolveField d.rn (cat.map (·.rn)) pr.defRn
    rtol := resolveField d.rtol (cat.map (·.rtol)) pr.defRtol
    la := resolveField d.la (cat.map (·.la)) pr.defLa
    bp := resolveField d.bp (cat.map (·.bp)) pr.defBp
    pre := resolveField d.pre (cat.map (·.pre)) pr.defPre }

/-- The origins of a profile (R76). -/
def Profile.origins (p : Profile) : Origins :=
  { rn := p.rn.origin, rtol := p.rtol.origin, la := p.la.origin, bp := p.bp.origin, pre := p.pre.origin }

/-- The serial's record in a tree's pending list (R69). -/
def Tree.pendingOf (T : Tree) (serial : Serial) : Option PendingRec := T.pendingList.find? fun r => r.serial = serial

/-- A serial leaves a tree's pending list; the records that remain keep their order (R69). -/
def removePending (t : TreeId) (serial : Serial) (s : State) : State :=
  s.modPending t fun l => l.filter fun r => r.serial ≠ serial

/-- What every ADMISSION report of one event carries alike: its source and, for ANNOUNCE, the window's number (R76). -/
structure AdmitEvent where
  source : AdmitSource
  window : Byte
  deriving DecidableEq, Repr

/-- An ADMISSION report about a serial of tree `t` (R76). -/
def admissionReport (t : TreeId) (ev : AdmitEvent) (o : AdmitOutcome) (serial : Serial) (model : BitVec 16) (c : Int)
    (origins : Option Origins) (tn : Nat) (other : Option TreeId) (s : State) : State :=
  s.report t (.admission o ev.source ev.window serial model c origins tn other)

/-- An ADMISSION report about a pending record (R76). -/
def pendingReport (t : TreeId) (ev : AdmitEvent) (o : AdmitOutcome) (r : PendingRec) (tn : Nat) (other : Option TreeId)
    (s : State) : State :=
  admissionReport t ev o r.serial r.model r.c (some r.profile.origins) tn other s

/-- One other tree loses its record of a serial that has got an entry (R74). R76 has a SUPERSEDED report take model code, c and
origins 'from the announce, or from the pending record' without saying which: they are the removed record's, whatever the
event's source (DEDUCED, notes/assumptions/22.md). -/
def supersedeOne (ev : AdmitEvent) (t : TreeId) (tn : Nat) (serial : Serial) (s : State) (o : TreeId) : State :=
  if o = t then s
  else
    match (s.tree o).pendingOf serial with
    | some r => pendingReport o ev .superseded r tn (some t) (removePending o serial s)
    | none => s

/-- Every other tree loses its record of a serial that has got an entry on tree `t` (R74). -/
def supersede (ev : AdmitEvent) (t : TreeId) (tn : Nat) (serial : Serial) (s : State) : State :=
  allTrees.foldl (supersedeOne ev t tn serial) s

/-- What the Discovery Unit hands over with an announce (section 4.3, R90). -/
structure Handed where
  window   : Byte
  serial   : Serial
  model    : BitVec 16
  c        : Int
  declared : Declared
  mode     : AdmitMode
  deriving DecidableEq, Repr

/-- The OPEN admission of an announce: the Registry is asked for an entry, and its answer fixes the outcome (R68). -/
def admitOpen (t : TreeId) (a : Handed) (prof : Profile) (s : State) : State :=
  let ev : AdmitEvent := { source := .announce, window := a.window }
  let r := createEntry t a.serial a.model a.c prof s
  let done := fun o tn other => admissionReport t ev o a.serial a.model a.c (some prof.origins) tn other r.state
  match r.answer with
  | .created tn => supersede ev t tn a.serial (done .admitted tn none)
  | .tableFull => done .tableFull 0 none
  | .backlog => done .backlog 0 none
  | .clash tree tn => done .clash tn (some tree)
  | .ignored => r.state

/-- The ASK placement of an announce (R69). -/
def admitAsk (t : TreeId) (a : Handed) (prof : Profile) (s : State) : State :=
  let ev : AdmitEvent := { source := .announce, window := a.window }
  let done := fun o => admissionReport t ev o a.serial a.model a.c (some prof.origins) 0 none
  if Config.pendingLimit ≤ (s.tree t).pendingList.length then done .askFull s
  else
    done .ask
      (s.modPending t fun l =>
        l ++ [{ serial := a.serial, model := a.model, c := a.c, profile := prof,
                deadline := s.epoch + (s.params t).askHold }])

/-- Steps 2 to 5 of the judgement, after the serial check has answered NEW (R63). -/
def judgeNew (t : TreeId) (a : Handed) (s : State) : State :=
  let ev : AdmitEvent := { source := .announce, window := a.window }
  let held := (s.tree t).pendingOf a.serial
  if s.admission.barred a.serial then
    admissionReport t ev .barred a.serial a.model a.c (held.map (·.profile.origins)) 0 none
      (removePending t a.serial s)
  else
    match held with
    | some r =>
      pendingReport t ev .stillPending { r with c := a.c } 0 none
        (s.modPending t fun l => l.map fun x => if x.serial = a.serial then { x with c := a.c } else x)
    | none =>
      let cat := s.admission.matching a.serial.vendor a.model
      let prof := resolveProfile a.declared cat (s.params t)
      if (cat.map (·.refuse)).getD false then
        admissionReport t ev .modelRefused a.serial a.model a.c (some prof.origins) 0 none s
      else
        match a.mode with
        | .openMode => admitOpen t a prof s
        | .ask => admitAsk t a prof s

/-- The Admission Unit judges one announce (R63). -/
def judgeAnnounce (t : TreeId) (a : Handed) (s : State) : State :=
  let ev : AdmitEvent := { source := .announce, window := a.window }
  let r := serialCheck t a.serial a.c s
  let done := fun o tn other => admissionReport t ev o a.serial a.model a.c none tn other r.state
  match r.answer with
  | .reactivated tn => done .reactivated tn none
  | .backlog => done .backlog 0 none
  | .clash tree tn => done .clash tn (some tree)
  | .new => judgeNew t a r.state

/-- The records of a tree whose hold deadline is the current epoch are removed in list order (R71). -/
def pendingHolds (t : TreeId) (s : State) : State :=
  let due := (s.tree t).pendingList.filter fun r => r.deadline = s.epoch
  let ev : AdmitEvent := { source := .hold, window := 0 }
  due.foldl (fun s r => pendingReport t ev .timedOut r 0 none s)
    (s.modPending t fun l => l.filter fun r => r.deadline ≠ s.epoch)

/-- A tree that begins to close loses its pending list, one CLOSED report for each record (R75). -/
def closePending (t : TreeId) (s : State) : State :=
  let ev : AdmitEvent := { source := .close, window := 0 }
  (s.tree t).pendingList.foldl (fun s r => pendingReport t ev .closed r 0 none s) (s.modPending t fun _ => [])

/-- The conditions on the tree that ADMIT, REFUSE and the terminal requests check first (R52, R72): the tree in range,
not CLOSING, ACTIVE. -/
def activeTree (s : State) (tree : Byte) : Except ReplyCode TreeId :=
  match parseTree tree with
  | none => .error .badParam
  | some t =>
    match (s.tree t).ctl.state with
    | .closing => .error .busy
    | .closed | .calibrating _ => .error .wrongState
    | .active => .ok t

/-- ADMIT (R72). A creation request of a pending serial does not answer CLASH or IGNORED; were it to, the record would be
kept and the reply BUSY, as for BACKLOG (notes/assumptions/10.md). -/
def admitRequest (tree : Byte) (serial : Serial) (s : State) : Answer :=
  match activeTree s tree with
  | .error c => Machine.refuse s c
  | .ok t =>
    match (s.tree t).pendingOf serial with
    | none => Machine.refuse s .notPending
    | some r =>
      let ev : AdmitEvent := { source := .host, window := 0 }
      if s.admission.barred serial then
        Machine.refuse (pendingReport t ev .barred r 0 none (removePending t serial s)) .barred
      else
        let created := createEntry t serial r.model r.c r.profile s
        match created.answer with
        | .created tn =>
          okWith
            (supersede ev t tn serial
              (pendingReport t ev .admitted r tn none (removePending t serial created.state)))
            (natField 1 tn)
        | .tableFull =>
          Machine.refuse (pendingReport t ev .tableFull r 0 none (removePending t serial created.state)) .tableFull
        | .backlog | .clash _ _ | .ignored => Machine.refuse s .busy

/-- REFUSE (R73). -/
def refuseRequest (tree : Byte) (serial : Serial) (s : State) : Answer :=
  match activeTree s tree with
  | .error c => Machine.refuse s c
  | .ok t =>
    match (s.tree t).pendingOf serial with
    | none => Machine.refuse s .notPending
    | some r => ok (pendingReport t { source := .host, window := 0 } .refused r 0 none (removePending t serial s))

/-- The index byte of a catalogue request: 0..63 (R66). -/
def catIndex (b : Byte) : Option (Fin 64) := if h : b.toNat < 64 then some ⟨b.toNat, h⟩ else none

/-- The index byte of a barred-list request: 0..7 (R62). -/
def barIndex (b : Byte) : Option (Fin 8) := if h : b.toNat < 8 then some ⟨b.toNat, h⟩ else none

/-- CAT_WRITE (R66, R67). -/
def catWriteRequest (index : Byte) (raw : RawCatEntry) (s : State) : Answer :=
  match catIndex index with
  | none => Machine.refuse s .badParam
  | some i =>
    if s.admission.lock && !s.admission.strap then Machine.refuse s .locked
    else
      match parseCatEntry raw with
      | none => Machine.refuse s .badParam
      | some e => ok { s with admission := { s.admission with cat := s.admission.cat.set i e } }

/-- The bytes of a catalogue entry in a reply (R66, R188). -/
def CatEntry.bytes (e : CatEntry) : List Byte :=
  flagField e.valid ++ bytes32 e.vendor ++ wordField e.model ++ flagField e.refuse ++ natField 3 e.rn ++
    natField 2 e.rtol ++ natField 1 e.la ++ natField 2 e.bp ++ natField 1 e.pre

/-- CAT_READ (R66). -/
def catReadRequest (index : Byte) (s : State) : Answer :=
  match catIndex index with
  | none => Machine.refuse s .badParam
  | some i => okWith s s.admission.cat[i].bytes

/-- CAT_LOCK (R67). -/
def catLockRequest (s : State) : Answer := ok { s with admission := { s.admission with lock := true } }

/-- BAR_WRITE (R62, R67). -/
def barWriteRequest (index : Byte) (raw : RawBarRange) (s : State) : Answer :=
  match barIndex index with
  | none => Machine.refuse s .badParam
  | some i =>
    if s.admission.lock then Machine.refuse s .locked
    else
      match parseBarRange raw with
      | none => Machine.refuse s .badParam
      | some r => ok { s with admission := { s.admission with bars := s.admission.bars.set i r } }

/-- The bytes of a barred range in a reply (R62, R188). -/
def BarRange.bytes (r : BarRange) : List Byte :=
  flagField r.valid ++ bytes32 r.vendor ++ bytes32 r.low ++ bytes32 r.high

/-- BAR_READ (R62). -/
def barReadRequest (index : Byte) (s : State) : Answer :=
  match barIndex index with
  | none => Machine.refuse s .badParam
  | some i => okWith s s.admission.bars[i].bytes

/-! ### The commands -/

/-- CAT_WRITE. -/
def execCatWrite (tag index : Byte) (entry : RawCatEntry) (s : State) : Host.Outcome State Fault Refusal :=
  s.request tag (catWriteRequest index entry)

/-- CAT_READ. -/
def execCatRead (tag index : Byte) (s : State) : Host.Outcome State Fault Refusal := s.request tag (catReadRequest index)

/-- CAT_LOCK. -/
def execCatLock (tag : Byte) (s : State) : Host.Outcome State Fault Refusal := s.request tag catLockRequest

/-- BAR_WRITE. -/
def execBarWrite (tag index : Byte) (range : RawBarRange) (s : State) : Host.Outcome State Fault Refusal :=
  s.request tag (barWriteRequest index range)

/-- BAR_READ. -/
def execBarRead (tag index : Byte) (s : State) : Host.Outcome State Fault Refusal := s.request tag (barReadRequest index)

/-- ADMIT. -/
def execAdmit (tag tree : Byte) (serial : Serial) (s : State) : Host.Outcome State Fault Refusal :=
  s.request tag (admitRequest tree serial)

/-- REFUSE of the host processor. -/
def execRefuse (tag tree : Byte) (serial : Serial) (s : State) : Host.Outcome State Fault Refusal :=
  s.request tag (refuseRequest tree serial)

end Sys2Proof.Machine
end

