-- ==== Sys2Proof/Machine/Drift.lean ====
section
/-! DEFINITION. The Drift Tracker (chapter 7): samples and averages (R124..R127), corrections (R128), moves to RANGING
(R129), notices (R130), misses (R133) and slips (R135). -/

namespace Sys2Proof.Machine

/-- A move from OPERATING to RANGING with its task (R129, R146): off the air, a fresh activation deadline, the TERMINAL
report, and an URGENT task of a kind. -/
def moveToRanging (t : TreeId) (tn : Nat) (cause : Cause) (kind : TaskKind) (s : State) : State :=
  match s.entry? t tn with
  | none => s
  | some e =>
    (addTask t { tn := tn, inst := e.inst, kind := kind } (transit t tn cause (Entry.toRanging (s.budgetEnd t)) s)).state

/-- A move asked by the Drift Tracker (R129). -/
def driftMove (t : TreeId) (tn : Nat) (cause : Cause) (s : State) : State := moveToRanging t tn cause .rerange s

/-- How the queue took a NUDGE, as a NUDGED report says it (R132). -/
def PostAnswer.delivery : PostAnswer → Option Delivery
  | .accepted => some .queued
  | .owed => some .owed
  | .merged => some .merged
  | .full | .discarded => none

/-- The update of R128, steps 1 to 3, which an audit's change shares (R131): LD and r are set, settle-until becomes "not
yet", and the NUDGE is posted. -/
def postNudge (t : TreeId) (tn ld : Nat) (r change : Int) (s : State) : Posted :=
  postMust t tn (.nudge tn change) .drift
    (s.modEntry t tn fun e =>
      { e with ld := ld, r := some r }.modDrift fun d => { d with settle := .notYet })

/-- A NUDGED report (R132). -/
def nudgedReport (t : TreeId) (tn : Nat) (inst : BitVec 16) (action : NudgedAction) (a : Int) (samples : Nat)
    (change : Int) (ld : Nat) (r : Int) (delivery : Option Delivery) (s : State) : State :=
  s.report t (.nudged tn inst action a samples change ld r delivery)

/-- A correction of an OPERATING entry by an average (R128). -/
def driftCorrection (t : TreeId) (tn : Nat) (e : Entry) (a : Int) (s : State) : State :=
  let c := correct e.ld (e.r.getD 0) a
  let samples := 2 ^ (s.params t).k
  if c.ld < 0 then driftMove t tn .driftNegative s
  else if ((s.params t).art : Int) < c.ld then driftMove t tn .driftWindow s
  else if c.change = 0 then
    nudgedReport t tn e.inst .residual a samples 0 e.ld c.r none (s.modEntry t tn fun e => { e with r := some c.r })
  else
    let posted := postNudge t tn c.ld.toNat c.r c.change s
    nudgedReport t tn e.inst .nudge a samples c.change c.ld.toNat c.r posted.answer.delivery posted.state

/-- An average is judged against the two windows (R127). -/
def judgeAverage (t : TreeId) (tn : Nat) (e : Entry) (a : Int) (s : State) : State :=
  if (a.natAbs : Nat) ≤ (s.params t).win then s
  else if a.natAbs ≤ (s.params t).wout then driftCorrection t tn e a s
  else driftMove t tn .driftWindow s

/-- A record meets the settle conditions (R124). -/
def Drift.settled (d : Drift) (epoch : Nat) (g : Int) : Bool :=
  match d.settle with
  | .epoch e => decide (e ≤ epoch ∧ 625000 * ((e : Int) - 2) ≤ g)
  | .notYet => false

/-- A sample of deviation `x` (R125, R126). -/
def driftSample (t : TreeId) (tn : Nat) (e : Entry) (d : Drift) (x : Int) (s : State) : State :=
  if (s.params t).wgross < x.natAbs then driftMove t tn .driftGross s
  else if d.n + 1 < 2 ^ (s.params t).k then
    s.modEntry t tn fun e => e.modDrift fun d => { d with sum := d.sum + x, n := d.n + 1 }
  else
    judgeAverage t tn e (average (s.params t).k (d.sum + x))
      (s.modEntry t tn fun e => e.modDrift fun d => { d with sum := 0, n := 0 })

/-- The deviation of a granted burst from the entry's figures (R101, R125). -/
def Entry.deviationOf (e : Entry) (c : Controller) (g a : Int) : Int := deviation c.params.art c.p (e.r.getD 0) g a

/-- A granted-burst record for an entry (R123, R124, R136). -/
def driftBurst (t : TreeId) (tn : Nat) (e : Entry) (g a : Int) (s : State) : State :=
  if (s.tree t).isClosing then s
  else
    match e.drift? with
    | none => s
    | some d =>
      let s1 := s.modEntry t tn fun e => e.modDrift fun d => { d with misses := 0 }
      if d.settled s.epoch g then driftSample t tn e d (e.deviationOf (s.tree t).ctl g a) s1 else s1

/-- A miss record for an entry (R123, R133, R136). -/
def driftMiss (t : TreeId) (tn : Nat) (e : Entry) (s : State) : State :=
  if (s.tree t).isClosing then s
  else
    match e.drift? with
    | none => s
    | some d =>
      if (s.params t).missLimit ≤ d.misses + 1 then enterLost t tn .misses s
      else s.modEntry t tn fun e => e.modDrift fun d => { d with misses := d.misses + 1 }

/-- A NUDGE, or a DELAY the Drift Tracker posted by a merge, was dispatched in epoch `d` (R130). -/
def nudgeDispatched (t : TreeId) (tn : Nat) (inst : BitVec 16) (d : Nat) (s : State) : State :=
  match s.entry? t tn with
  | none => s
  | some e =>
    if e.isIn inst .operating then
      s.modEntry t tn fun e => e.modDrift fun x => { x with settle := .epoch (d + e.profile.la.value + 2) }
    else s

/-- The settle-until of an OPERATING entry on a slip in epoch `e` (R135). -/
def Settle.slipped (e : Nat) : Settle → Settle
  | .epoch x => .epoch (max x (e + 2))
  | .notYet => .notYet

/-- The Drift Tracker on a time slip (R135). It acts on a CLOSING tree too, where R136 says the entries keep their drift fields
as they stand (DESIGN CHOICE, notes/assumptions/40.md). -/
def driftSlip (t : TreeId) (s : State) : State :=
  s.modTree t fun T =>
    T.mapEntries fun e => e.modDrift fun d => { d with sum := 0, n := 0, settle := d.settle.slipped s.epoch }

end Sys2Proof.Machine
end

