-- ==== Sys2Proof/Machine/Probe.lean ====
section
/-! DEFINITION. The probe operation in flight (R108..R120): the entry check, the judgement of a grant, the notices of its
PROBE and DELAY, the collection of echoes, the outcome of an attempt and what it does to the entry, ProbeWait (R145) and
slips. -/

namespace Sys2Proof.Machine

/-! ### The entry check and the grant -/

/-- What an operation's entry check finds (R108). -/
inductive EntryCheck where
  | changed
  | ldChanged
  | fine (e : Entry)
  deriving DecidableEq, Repr

/-- The entry check of an operation whose attempt was placed on launch delay `ldp` (R108). -/
def checkEntry (t : TreeId) (o : ProbeOp) (ldp : Nat) (s : State) : EntryCheck :=
  match s.entry? t o.tn with
  | none => .changed
  | some e =>
    if e.isIn o.inst o.expected.name then
      if e.ld = ldp then .fine e else .ldChanged
    else .changed

/-- A grant that has passed the entry check is judged: the PROBE is posted, or the grant released and a new request sent
(R109). -/
def judgeProbeGrant (t : TreeId) (o : ProbeOp) (pl : Placement) (qe qs : Int) (s : State) : State :=
  let again := sendProbe t o pl (chanRelease t .probe s)
  let g := qs + pl.half - pl.ldp - pl.cp
  if qs < qe ∨ qe + 32 * 625000 < qs then again
  else if dispatchDeadline g < s.epochInt then again
  else
    let posted := postGated t
      { msg := .probe o.tn g, issuer := .sequencer, inst := o.inst, deadline := some (dispatchDeadline g) } s
    match posted.answer with
    | .accepted => posted.state.setOp t (some { o with phase := .posted pl qe qs g })
    | .full | .owed | .merged | .discarded => again

/-- A GRANT handed to the Task Sequencer (R108, R109). -/
def probeGranted (t : TreeId) (qs : Int) (s : State) : State :=
  match (s.tree t).seq.op with
  | none => s
  | some o =>
    match o.phase with
    | .requesting pl qe =>
      match checkEntry t o pl.ldp s with
      | .changed => takeTasks t (abandonOp t (chanRelease t .probe s))
      | .ldChanged => beginAttempt t o (chanRelease t .probe s)
      | .fine _ => judgeProbeGrant t o pl qe qs s
    | .held | .waitDelay | .posted _ _ _ _ | .listening _ _ _ _ _ => s

/-! ### Notices -/

/-- An operation is the one a notice names. -/
def ProbeOp.named (o : ProbeOp) (tn : Nat) (inst : BitVec 16) : Bool := o.tn == tn && o.inst == inst

/-- The collection of an interval that has just begun (R110). -/
def Echoes.empty : Echoes := { matching := 0, first := 0, foreign := 0, garbled := 0 }

/-- The PROBE was dispatched (R110). -/
def probeDispatched (t : TreeId) (tn : Nat) (inst : BitVec 16) (s : State) : State :=
  match (s.tree t).seq.op with
  | none => s
  | some o =>
    match o.phase with
    | .posted pl qe qs g =>
      if o.named tn inst then s.setOp t (some { o with phase := .listening pl qe qs g Echoes.empty }) else s
    | .held | .waitDelay | .requesting _ _ | .listening _ _ _ _ _ => s

/-- The PROBE left past its deadline: the spent interval is counted stale and a new request is sent (R110). -/
def probeExpired (t : TreeId) (tn : Nat) (inst : BitVec 16) (s : State) : State :=
  match (s.tree t).seq.op with
  | none => s
  | some o =>
    match o.phase with
    | .posted pl _ _ _ => if o.named tn inst then sendProbe t o pl (s.raiseSeqStale t) else s
    | .held | .waitDelay | .requesting _ _ | .listening _ _ _ _ _ => s

/-- The DELAY that the Registry posted for a VERIFYING entry was dispatched in epoch `d`: the verify begins (R114). For an entry
in another state the notice does nothing: R130 has a DELAY set settle-until only where the Drift Tracker is its poster, and R18
names every DELAY (DESIGN CHOICE, notes/assumptions/42.md). -/
def delayDispatched (t : TreeId) (tn : Nat) (inst : BitVec 16) (d : Nat) (s : State) : State :=
  if ((s.entry? t tn).map (·.isIn inst .verifying)).getD false then
    match (s.tree t).seq.op with
    | none => s
    | some o =>
      match o.phase with
      | .waitDelay => if o.named tn inst then beginAttempt t { o with stage := .verify (some d) } s else s
      | .held | .requesting _ _ | .posted _ _ _ _ | .listening _ _ _ _ _ => s
  else s

/-! ### Echoes -/

/-- A burst sorted into the collection of an operation for this TN and serial (R111). -/
def Echoes.add (ec : Echoes) (tn : Nat) (serial : Serial) (arrival : Int) (echo : Option Echo) : Echoes :=
  match echo with
  | none => { ec with garbled := raiseTo 255 ec.garbled }
  | some x =>
    if x.tn = tn ∧ x.serial = serial then
      { ec with matching := raiseTo 255 ec.matching, first := if ec.matching = 0 then arrival else ec.first }
    else { ec with foreign := raiseTo 255 ec.foreign }

/-- The ECHO of a tag-1 burst, or none for a burst taken as GARBLED (R20). -/
def echoOf (quality : Quality) (payload : List Byte) : Option Echo :=
  match quality with
  | .clean => parseEcho payload
  | .garbled => none

/-- A tag-1 burst: absorbed as stale, collected by a listening operation, or discarded (R111). -/
def probeBurst (t : TreeId) (arrival : Int) (quality : Quality) (payload : List Byte) (s : State) : State :=
  if (s.tree t).seq.stale ≠ 0 then s
  else
    match (s.tree t).seq.op with
    | none => s
    | some o =>
      match o.phase with
      | .listening pl qe qs g ec =>
        s.setOp t
          (some { o with phase := .listening pl qe qs g (ec.add o.tn o.serial arrival (echoOf quality payload)) })
      | .held | .waitDelay | .requesting _ _ | .posted _ _ _ _ => s

/-! ### The outcome of an attempt -/

/-- The outcomes of an attempt (R112). -/
inductive AttemptOutcome where
  | garbled
  | wrongResponder
  | noReply
  | outOfReach
  | beyondTarget
  | measured (rrt : Int) (ld : Nat) (r : Int)
  | verified
  | verifyOff (rrt : Int)
  deriving DecidableEq, Repr

/-- The outcome of an attempt of entry `e`, placed on `ldp` with reference time `g`, from its collection (R112). -/
def attemptOutcome (c : Controller) (e : Entry) (stage : Stage) (ldp : Nat) (g : Int) (ec : Echoes) : AttemptOutcome :=
  if ec.garbled ≠ 0 then .garbled
  else if ec.foreign ≠ 0 ∨ 2 ≤ ec.matching then .wrongResponder
  else if ec.matching = 0 then .noReply
  else
    let rrt := roundTrip ec.first g ldp c.p
    match stage with
    | .measure =>
      match measure c.params e.profile rrt with
      | .outOfReach => .outOfReach
      | .beyondTarget => .beyondTarget
      | .value rrt ld r => .measured rrt ld r
    | .verify _ =>
      if (e.deviationOf c g ec.first).natAbs ≤ c.params.wout then .verified else .verifyOff rrt

/-- The operation ends and the next task may be taken (R115, R117). -/
def finishOp (t : TreeId) (s : State) : State := takeTasks t (discardOp t s)

/-- A counted failure: the attempts field is raised, the operation is exhausted at ProbeRetries + 1, and otherwise `next`
begins the next attempt (R118). -/
def countedFailure (t : TreeId) (o : ProbeOp) (e : Entry) (next : State → State) (s : State) : State :=
  let n := e.attempts.getD 0 + 1
  let s1 := s.modEntry t o.tn fun e => { e with attempts := some n }
  if (s.params t).probeRetries + 1 ≤ n then loseOrRetire t o.tn .attempts (discardOp t s1) else next s1

/-- The figures of a measurement in an entry (R113, R117). -/
def Entry.measuredAs (rrt : Int) (ld : Nat) (r : Int) (e : Entry) : Entry :=
  { e with rrt := some rrt, c := roundBt rrt, ld := ld, r := some r }

/-- A RANGED report (R119). -/
def rangedReport (t : TreeId) (o : ProbeOp) (e : Entry) (action : RangedAction) (rrt : Int) (ld : Nat) (r change : Int)
    (s : State) : State :=
  s.report t (.ranged o.tn o.inst o.kind action rrt (roundBt rrt) ld r change (e.attempts.getD 0))

/-- The operation waits for the DELAY of a VERIFYING entry (R113, R117). -/
def ProbeOp.awaitDelay (o : ProbeOp) : ProbeOp :=
  { o with expected := .verifying, stage := .verify none, phase := .waitDelay }

/-- A measurement takes the entry to VERIFYING with its DELAY posted, reports it, and the operation waits for that DELAY:
RANGED of a RANGING entry, AUDIT_STEP of an audit beyond N (R113, R117). -/
def measuredToVerifying (t : TreeId) (o : ProbeOp) (e : Entry) (cause : Cause) (rrt : Int) (ld : Nat) (r change : Int)
    (s : State) : State :=
  let s1 := transit t o.tn cause (fun e => (e.measuredAs rrt ld r).toVerifying (s.budgetEnd t)) s
  let s2 := (postMust t o.tn (.delay o.tn ld) .registry s1).state
  (rangedReport t o e .delay rrt ld r change s2).setOp t (some o.awaitDelay)

/-- An audit result (R117). -/
def auditResult (t : TreeId) (o : ProbeOp) (e : Entry) (rrt : Int) (ld : Nat) (r : Int) (s : State) : State :=
  let change := (ld : Int) - e.ld
  let s1 := s.modEntry t o.tn fun e =>
    { e with rrt := some rrt, c := roundBt rrt }.modDrift fun d => { d with sum := 0, n := 0 }
  if change = 0 then
    finishOp t
      (rangedReport t o e .residual rrt e.ld r 0 (s1.modEntry t o.tn fun e => { e with r := some r }))
  else if change.natAbs ≤ (s.params t).n then
    finishOp t (rangedReport t o e .nudge rrt ld r change (postNudge t o.tn ld r change s1).state)
  else measuredToVerifying t o e .auditStep rrt ld r change s1

/-- The epoch of the awaited or received DELAY's dispatch; 0 where none is held. -/
def Stage.dispatch : Stage → Nat
  | .verify (some d) => d
  | .verify none => 0
  | .measure => 0

/-- A passed verify takes the entry to OPERATING (R115). -/
def verifiedResult (t : TreeId) (o : ProbeOp) (e : Entry) (s : State) : State :=
  finishOp t (transit t o.tn .verified (Entry.toOperating (o.stage.dispatch + e.profile.la.value + 2)) s)

/-- RRT and c after a verify beyond Wout (R116). -/
def Entry.verifyOffAs (pr : Params) (rrt : Int) (e : Entry) : Entry :=
  if validTrip pr e.profile rrt then { e with rrt := some rrt, c := roundBt rrt }
  else { e with c := (e.rrt.map roundBt).getD e.c }

/-- A verify beyond Wout returns the entry to RANGING, posts its DELAY again, and the operation measures anew (R116). -/
def verifyOffResult (t : TreeId) (o : ProbeOp) (e : Entry) (rrt : Int) (s : State) : State :=
  let s1 :=
    transit t o.tn .verifyDeviation
      (fun e => (e.verifyOffAs (s.params t) rrt).toRanging (s.budgetEnd t)) s
  beginAttempt t { o with expected := .ranging, stage := .measure }
    (postMust t o.tn (.delay o.tn e.ld) .registry s1).state

/-- What an attempt's outcome does (R112..R118). -/
def actOnOutcome (t : TreeId) (o : ProbeOp) (e : Entry) (out : AttemptOutcome) (s : State) : State :=
  match out with
  | .garbled | .wrongResponder | .noReply | .outOfReach | .beyondTarget => countedFailure t o e (beginAttempt t o) s
  | .measured rrt ld r =>
    match o.expected with
    | .operating => auditResult t o e rrt ld r s
    | .ranging | .verifying => measuredToVerifying t o e .ranged rrt ld r 0 s
  | .verified => verifiedResult t o e s
  | .verifyOff rrt => countedFailure t o e (verifyOffResult t o e rrt) s

/-- A tag-1 interval end: absorbed as stale, or the end of an attempt (R108, R111, R112). An operation whose entry has
changed is discarded with nothing left to give up, since its interval has just ended (notes/assumptions/11.md). -/
def probeEnd (t : TreeId) (s : State) : State :=
  if (s.tree t).seq.stale ≠ 0 then s.modSeq t fun q => { q with stale := q.stale - 1 }
  else
    match (s.tree t).seq.op with
    | none => s
    | some o =>
      match o.phase with
      | .listening pl _ _ g ec =>
        match checkEntry t o pl.ldp s with
        | .changed => finishOp t s
        | .ldChanged => beginAttempt t o s
        | .fine e => actOnOutcome t o e (attemptOutcome (s.tree t).ctl e o.stage pl.ldp g ec) s
      | .held | .waitDelay | .requesting _ _ | .posted _ _ _ _ => s

/-! ### Waiting and slips -/

/-- An operation in HELD asks again whether a delay message stands (R105). -/
def heldRecheck (t : TreeId) (s : State) : State :=
  match (s.tree t).seq.op with
  | none => s
  | some o =>
    match o.phase with
    | .held => beginAttempt t o s
    | .waitDelay | .requesting _ _ | .posted _ _ _ _ | .listening _ _ _ _ _ => s

/-- An operation waits for an interval (R145). -/
def ProbeOp.waiting (o : ProbeOp) : Bool :=
  match o.phase with
  | .held | .requesting _ _ => true
  | .waitDelay | .posted _ _ _ _ | .listening _ _ _ _ _ => false

/-- ProbeWait has passed for an operation still in HELD or REQUESTING (R145). The transition is asked of the entry in the
operation's expected state (notes/assumptions/12.md). -/
def probeWaitExpired (t : TreeId) (s : State) : State :=
  match (s.tree t).seq.op with
  | none => s
  | some o =>
    if o.waiting && o.waitStart + (s.params t).probeWait == s.epoch then
      let s1 := abandonOp t s
      if ((s.entry? t o.tn).map (·.isIn o.inst o.expected.name)).getD false then
        takeTasks t (loseOrRetire t o.tn .noGrant s1)
      else takeTasks t s1
    else s

/-- The probe operation on a time slip (R120). -/
def probeSlip (t : TreeId) (s : State) : State :=
  match (s.tree t).seq.op with
  | none => s
  | some o =>
    match o.phase with
    | .held | .waitDelay => s
    | .requesting pl _ => sendProbe t o pl (chanWithdraw t .probe s)
    | .posted pl _ _ _ => sendProbe t o pl (chanRelease t .probe (withdrawItems t .sequencer s))
    | .listening pl _ _ _ _ => sendProbe t o pl (s.raiseSeqStale t)

end Sys2Proof.Machine
end

