-- ==== Sys2Proof/Machine/Responses.lean ====
section
/-! DEFINITION. The Grant Link's responses (R154, R156..R158): what a GRANT, a DEFER, a REFUSE, a lapsed response deadline
and a re-send epoch do to a channel, and the commands that are responses of the grant scheduler. -/

namespace Sys2Proof.Machine

/-- A grant is handed to the channel's owner, who judges it within the event (R154). -/
def handGrant (t : TreeId) (tag : Tag) (qs : Int) (s : State) : State :=
  match tag with
  | .window => windowGranted t qs s
  | .probe => probeGranted t qs s
  | .silence => silenceGranted t qs s

/-- A stray GRANT is returned with its own number; the channel is unchanged (R154). -/
def strayGrant (t : TreeId) (tag : Tag) (number : Byte) (s : State) : State := sendLink t (.release tag number) s

/-- A GRANT is taken by its channel (R154). -/
def grantTaken (t : TreeId) (tag : Tag) (number : Byte) (qs : Int) (s : State) : State :=
  let c := s.chan t tag
  match c.phase with
  | .awaiting _ _ =>
    if number = c.number then handGrant t tag qs (s.setChan t tag { c with phase := .granted number qs })
    else strayGrant t tag number s
  | .idle | .deferred _ _ | .backingOff _ _ | .granted _ _ => strayGrant t tag number s

/-- The earliest start that the owner of a standing request forms anew from the current epoch (R82, R106, R164). -/
def ownerEarliest (t : TreeId) (tag : Tag) (s : State) : Option Int :=
  match tag with
  | .window =>
    match (s.tree t).disc.state with
    | .requesting _ _ => some (windowEarliest (s.params t) s.epochInt)
    | .stopped | .spacing _ | .due _ | .posted _ _ _ _ | .collecting _ _ _ _ _ _ => none
  | .probe =>
    match (s.tree t).seq.op with
    | some { phase := .requesting pl _, .. } => some (probeEarliest s.epochInt pl)
    | _ => none
  | .silence =>
    match (s.tree t).light.check with
    | some { phase := .requesting, .. } => some (silenceEarliest s.epochInt)
    | _ => none

/-- The owner records the earliest start of the latest sending (R80, R104, R162). -/
def recordEarliest (t : TreeId) (tag : Tag) (qe : Int) (s : State) : State :=
  match tag with
  | .window =>
    match (s.tree t).disc.state with
    | .requesting w _ => s.setDisc t (.requesting w qe)
    | .stopped | .spacing _ | .due _ | .posted _ _ _ _ | .collecting _ _ _ _ _ _ => s
  | .probe =>
    match (s.tree t).seq.op with
    | some o =>
      match o.phase with
      | .requesting pl _ => s.setOp t (some { o with phase := .requesting pl qe })
      | .held | .waitDelay | .posted _ _ _ _ | .listening _ _ _ _ _ => s
    | none => s
  | .silence =>
    match (s.tree t).light.check with
    | some c =>
      match c.phase with
      | .requesting => s.modLight t fun l => { l with check := some { c with qe := qe } }
      | .listening _ _ => s
    | none => s

/-- A channel sends its request again, with the owner's figures formed anew and the length kept (R158). -/
def resend (t : TreeId) (tag : Tag) (req : Request) (s : State) : State :=
  let qe := (ownerEarliest t tag s).getD req.earliest
  recordEarliest t tag qe (chanSend t tag { req with earliest := qe } s)

/-- A DEFER is taken by its channel (R156). -/
def deferTaken (t : TreeId) (tag : Tag) (number : Byte) (notBefore : Nat) (s : State) : State :=
  let c := s.chan t tag
  match c.phase with
  | .awaiting req _ =>
    if number = c.number then
      if s.epoch < notBefore then s.setChan t tag { c with phase := .deferred req notBefore } else resend t tag req s
    else s
  | .idle | .deferred _ _ | .backingOff _ _ | .granted _ _ => s

/-- A channel waits four epochs before it sends again (R157). -/
def backOff (t : TreeId) (tag : Tag) (req : Request) (s : State) : State :=
  s.setChan t tag { s.chan t tag with phase := .backingOff req (s.epoch + 4) }

/-- A REFUSE is taken by its channel (R157). -/
def refuseTaken (t : TreeId) (tag : Tag) (number : Byte) (s : State) : State :=
  let c := s.chan t tag
  match c.phase with
  | .awaiting req _ => if number = c.number then backOff t tag req s else s
  | .idle | .deferred _ _ | .backingOff _ _ | .granted _ _ => s

/-- The epoch start of a channel's response deadline (R157). -/
def responseLapsed (t : TreeId) (tag : Tag) (s : State) : State :=
  match (s.chan t tag).phase with
  | .awaiting req deadline => if deadline = s.epoch then backOff t tag req s else s
  | .idle | .deferred _ _ | .backingOff _ _ | .granted _ _ => s

/-- The epoch start of a channel's re-send epoch (R158). -/
def resendDue (t : TreeId) (tag : Tag) (s : State) : State :=
  match (s.chan t tag).phase with
  | .deferred req e | .backingOff req e => if e = s.epoch then resend t tag req s else s
  | .idle | .awaiting _ _ | .granted _ _ => s

/-! ### The commands -/

/-- GRANT (R154). -/
def execGrant (t : TreeId) (tag : Tag) (number : Byte) (start : BitVec 60) (s : State) :
    Host.Outcome State Fault Refusal :=
  s.take (grantTaken t tag number start.toNat)

/-- DEFER (R156). -/
def execDefer (t : TreeId) (tag : Tag) (number : Byte) (notBefore : Nat) (s : State) :
    Host.Outcome State Fault Refusal :=
  s.take (deferTaken t tag number notBefore)

/-- REFUSE of the grant scheduler (R157). -/
def execSchedulerRefuse (t : TreeId) (tag : Tag) (number : Byte) (s : State) : Host.Outcome State Fault Refusal :=
  s.take (refuseTaken t tag number)

end Sys2Proof.Machine
end

