-- ==== Sys2Proof/Machine/TreeController.lean ====
section
/-! DEFINITION. The Tree Controller (chapter 11): TREE_CONFIG and TREE_READ_CONFIG (R176, R177), opening and calibration
(R178..R181), closing (R182, R183), suspension (R147) and TREE_STATUS (R185). -/

namespace Sys2Proof.Machine

/-! ### Configuration -/

/-- Replace the tree state of tree `t`. -/
def State.setTreeState (s : State) (t : TreeId) (x : TreeState) : State := s.modCtl t fun c => { c with state := x }

/-- BAD_PARAM to TREE_CONFIG, whose body is the field number (R176, R187). -/
def badField (s : State) (n : Nat) : Answer := { state := s, code := .badParam, body := natField 1 n }

/-- TREE_CONFIG (R176). -/
def treeConfigRequest (tree : Byte) (raw : RawParams) (s : State) : Answer :=
  match parseTree tree with
  | none => badField s 0
  | some t =>
    match (s.tree t).ctl.state with
    | .closing => Machine.refuse s .busy
    | .calibrating _ | .active => Machine.refuse s .wrongState
    | .closed =>
      match failingParam raw with
      | some n => badField s n
      | none => ok (s.modCtl t fun c => { c with params := paramsOf raw, configured := true })

/-- The 56 bytes of a parameter set, in the numbering of R176 (R177, R188). -/
def Params.bytes (p : Params) : List Byte :=
  natField 3 p.art ++ natField 3 p.frtMin ++ natField 3 p.frtMax ++ natField 3 p.arMin ++ natField 2 p.arSpread ++
    natField 2 p.bla ++ natField 2 p.u ++ natField 1 p.k ++ natField 1 p.n ++ natField 2 p.win ++ natField 2 p.wout ++
    natField 2 p.wgross ++ natField 1 p.missLimit ++ natField 2 p.lostHold ++ natField 2 p.budget ++
    natField 2 p.askHold ++ natField 1 p.probeRetries ++ natField 2 p.probeWait ++ natField 2 p.sweepPeriod ++
    natField 1 p.batch ++ natField 1 p.strikeLimit ++ natField 3 p.silenceLen ++ natField 2 p.huntPause ++
    natField 1 p.calSpread ++ [p.queueMode.code] ++ natField 3 p.defRn ++ natField 2 p.defRtol ++ natField 1 p.defLa ++
    natField 2 p.defBp ++ natField 1 p.defPre

/-- TREE_READ_CONFIG (R177). -/
def treeReadConfigRequest (tree : Byte) (s : State) : Answer :=
  match parseTree tree with
  | none => Machine.refuse s .badParam
  | some t =>
    match (s.tree t).ctl.state with
    | .closing => Machine.refuse s .busy
    | .closed | .calibrating _ | .active =>
      let c := (s.tree t).ctl
      okWith s (flagField c.configured ++ c.params.bytes ++ natField 2 c.p)

/-! ### Opening and calibration -/

/-- A TREE report with the tree's P as it now stands (R184). -/
def treeReport (t : TreeId) (old new : TreeName) (cause : TreeCause) (runs restarts : Nat) (reason : Option CalFailure)
    (spread : Int) (entries : Nat) (s : State) : State :=
  s.report t (.tree old new cause (s.tree t).ctl.p runs restarts reason spread entries)

/-- A run that begins with number `run` at start epoch `start` (R178..R180). -/
def CalRun.fresh (run start restarts : Nat) (first : Option CalFailure) : CalRun :=
  { run := run, start := start, markers := [], pis := [], restarts := restarts, first := first }

/-- TREE_OPEN (R178). -/
def treeOpenRequest (tree : Byte) (s : State) : Answer :=
  match parseTree tree with
  | none => Machine.refuse s .badParam
  | some t =>
    match (s.tree t).ctl.state with
    | .closing => Machine.refuse s .busy
    | .calibrating _ | .active => Machine.refuse s .wrongState
    | .closed =>
      if s.timebase.status = .waiting ∨ (s.tree t).ctl.configured = false then Machine.refuse s .wrongState
      else
        ok (treeReport t .closed .calibrating .opened 0 0 none 0 0
          (s.setTreeState t (.calibrating (CalRun.fresh 1 (s.epoch + 1) 0 none))))

/-- The Task Sequencer's sweep when its tree is not ACTIVE (R148). -/
def sweepOff (t : TreeId) (s : State) : State := s.modSeq t fun q => { q with sweepPtr := 0, nextSweep := none }

/-- The next sweep epoch set in the current epoch (R148). -/
def State.nextSweep (s : State) (t : TreeId) : Option Nat :=
  if (s.params t).sweepPeriod = 0 then none else some (s.epoch + (s.params t).sweepPeriod)

/-- The Task Sequencer's sweep when its tree becomes ACTIVE (R148). -/
def sweepOn (t : TreeId) (s : State) : State :=
  s.modSeq t fun q => { q with sweepPtr := 0, nextSweep := s.nextSweep t }

/-- The spread that a TREE report carries for a deciding run (R184). -/
def CalRun.spread (r : CalRun) (reason : Option CalFailure) : Int :=
  match reason with
  | some .missing => 0
  | some .spread | some .range | none => spreadOf r.pis

/-- The second run has failed: the tree returns to CLOSED (R180). -/
def calFailed (t : TreeId) (r : CalRun) (reason : CalFailure) (s : State) : State :=
  treeReport t .calibrating .closed .calFailed r.run r.restarts (some reason) (r.spread (some reason)) 0
    (sweepOff t (closeDiscovery t (s.modCtl t fun c => { c with state := .closed, suspended := false })))

/-- A run has failed: run 2 begins, or the opening fails (R180). -/
def runFailed (t : TreeId) (r : CalRun) (reason : CalFailure) (s : State) : State :=
  if r.run = 1 then s.setTreeState t (.calibrating (CalRun.fresh 2 (s.epoch + 4) r.restarts (some reason)))
  else calFailed t r reason s

/-- A run has passed: the tree becomes ACTIVE (R181). -/
def runPassed (t : TreeId) (r : CalRun) (s : State) : State :=
  let s1 := allOff t (s.modCtl t fun c => { c with p := pathOffset r.pis })
  let s2 :=
    treeReport t .calibrating .active .calibrated r.run r.restarts r.first (r.spread none) 0 (s1.setTreeState t .active)
  takeTasks t (startWindow t (sweepOn t (lightOpened t s2)))

/-- A run whose sixteen records are taken is judged (R180). -/
def judgeRun (t : TreeId) (r : CalRun) (s : State) : State :=
  match judgePis (s.params t).calSpread r.pis with
  | none => runPassed t r s
  | some reason => runFailed t r reason s

/-- A loop record with raw time `a` is taken by a run (R179). -/
def loopRecord (t : TreeId) (r : CalRun) (a : Int) (s : State) : State :=
  if a < 10000000 * r.start then s
  else
    match r.markers[r.pis.length]? with
    | none => s
    | some m =>
      let r1 := { r with pis := r.pis ++ [loopOffset a m] }
      if r1.pis.length = 16 then judgeRun t r1 s else s.setTreeState t (.calibrating r1)

/-- A loop record is routed to the Tree Controller in CALIBRATING alone (R21, R179). -/
def loopTaken (t : TreeId) (a : Int) (s : State) : State :=
  match (s.tree t).ctl.state with
  | .calibrating r => loopRecord t r a s
  | .closed | .active | .closing => s

/-- A marker placed four epochs ago still has no record (R179). -/
def CalRun.missing (r : CalRun) (e : Nat) : Bool := (r.markers.drop r.pis.length).any fun m => m + 4 == e

/-- A loop marker leaves on the insertion link in the current epoch (R31, R179). -/
def placeMarker (t : TreeId) (r : CalRun) (s : State) : State :=
  (s.setTreeState t (.calibrating { r with markers := r.markers ++ [s.epoch] })).modOut t fun o =>
    { o with loops := o.loops ++ [s.epoch] }

/-- An epoch start of a calibration run: the missing-record check, then a loop marker (R179). -/
def loopMarker (t : TreeId) (s : State) : State :=
  match (s.tree t).ctl.state with
  | .calibrating r =>
    if r.missing s.epoch then runFailed t r .missing s
    else if r.start ≤ s.epoch ∧ r.markers.length < 16 then placeMarker t r s
    else s
  | .closed | .active | .closing => s

/-- A time slip in CALIBRATING discards the run in progress and begins it anew (R179). -/
def calibrationSlip (t : TreeId) (s : State) : State :=
  match (s.tree t).ctl.state with
  | .calibrating r =>
    s.setTreeState t (.calibrating (CalRun.fresh r.run (s.epoch + 4) (raiseTo 255 r.restarts) r.first))
  | .closed | .active | .closing => s

/-! ### Closing -/

/-- A close begins (R182). Step 2 of R182 gives no order among its blocks: the Discovery Unit, the Task Sequencer, the Light
Monitor and the Admission Unit give up their work in that order, which fixes the order of their RELEASEs on the grant link (R159)
and of their reports (DESIGN CHOICE, notes/assumptions/45.md). -/
def beginClose (t : TreeId) (s : State) : State :=
  let s1 :=
    treeReport t .active .closing .hostClose 0 0 none 0 (s.tree t).entries.length (s.setTreeState t .closing)
  closeQueue t (closePending t (closeLight t (closeSequencer t (closeDiscovery t s1))))

/-- TREE_CLOSE (R182). -/
def treeCloseRequest (tree : Byte) (s : State) : Answer :=
  match parseTree tree with
  | none => Machine.refuse s .badParam
  | some t =>
    match (s.tree t).ctl.state with
    | .closing => Machine.refuse s .busy
    | .closed | .calibrating _ => Machine.refuse s .wrongState
    | .active => ok (beginClose t s)

/-- Every entry of a tree is freed in ascending TN order (R59). -/
def freeAll (t : TreeId) (s : State) : State := allTns.foldl (fun s tn => freeEntry t tn .closed s) s

/-- The broadcast RETIRE was dispatched: the close completes (R30, R183). -/
def completeClose (t : TreeId) (s : State) : State :=
  let s1 := allOff t (freeAll t s)
  let s2 := s1.modMsgq t fun q => { q with items := [], owedBroadcast := false, count := 0 }
  treeReport t .closing .closed .closeDone 0 0 none 0 0
    (s2.modCtl t fun c => { c with state := .closed, suspended := false })

/-! ### Suspension -/

/-- The conditions that TREE_SUSPEND and TREE_RESUME check first (R147), and CTX_PUSH and CTX_FLUSH with them (R78, R79):
the tree in range, not CLOSING, not CLOSED. -/
def openTree (s : State) (tree : Byte) : Except ReplyCode TreeId :=
  match parseTree tree with
  | none => .error .badParam
  | some t =>
    match (s.tree t).ctl.state with
    | .closing => .error .busy
    | .closed => .error .wrongState
    | .calibrating _ | .active => .ok t

/-- The suspended flag takes a value (R147). -/
def setSuspended (t : TreeId) (b : Bool) (s : State) : State := s.modCtl t fun c => { c with suspended := b }

/-- TREE_SUSPEND (R147). -/
def treeSuspendRequest (tree : Byte) (s : State) : Answer :=
  match openTree s tree with
  | .error c => Machine.refuse s c
  | .ok t => ok (setSuspended t true s)

/-- TREE_RESUME (R147). Window starting (R81) and task taking (R143) are both judged within the event, in no order that the
manual gives: the Discovery Unit judges first (DESIGN CHOICE, notes/assumptions/38.md). -/
def treeResumeRequest (tree : Byte) (s : State) : Answer :=
  match openTree s tree with
  | .error c => Machine.refuse s c
  | .ok t =>
    if (s.tree t).ctl.suspended then ok (takeTasks t (startWindow t (setSuspended t false s))) else ok s

/-! ### TREE_STATUS (R185) -/

/-- A presence byte and an epoch number (R188). -/
def optionalEpoch (e : Option Nat) : List Byte :=
  match e with
  | some e => 1 :: epochField e
  | none => [0, 0, 0, 0, 0]

/-- The calibration run in a TREE_STATUS reply; zeros outside CALIBRATING (R185, R188). -/
def TreeState.runBytes : TreeState → List Byte
  | .calibrating r =>
    natField 1 r.run ++ epochField r.start ++ natField 1 r.markers.length ++ natField 1 r.pis.length ++
      natField 1 r.restarts
  | .closed | .active | .closing => List.replicate 8 0

/-- The number of entries in a state. -/
def Tree.countIn (T : Tree) (n : StateName) : Nat := (T.tnsWith fun e => e.state.name == n).length

/-- The seven entry states, in R33's order. -/
def allStates : List StateName := [.assigning, .ranging, .verifying, .operating, .muted, .lost, .retiring]

/-- The Discovery Unit in a TREE_STATUS reply. -/
def Discovery.bytes (d : Discovery) : List Byte :=
  natField 1 d.contexts.length ++ [d.state.code, d.nextWindow] ++ natField 1 d.repeatIndex ++ flagField d.flushed

/-- The probe operation in a TREE_STATUS reply: its presence, TN and phase. -/
def opBytes (o : Option ProbeOp) : List Byte :=
  match o with
  | some o => [1] ++ natField 1 o.tn ++ [o.phase.code]
  | none => [0, 0, 0]

/-- The Task Sequencer in a TREE_STATUS reply. -/
def Tree.seqBytes (T : Tree) : List Byte :=
  let q := T.seq
  natField 1 (q.tasks.filter Task.urgent).length ++ natField 1 (q.tasks.filter fun k => !k.urgent).length ++
    natField 1 (T.tnsWith (·.waiting)).length ++ opBytes q.op ++ natField 1 q.sweepPtr ++ optionalEpoch q.nextSweep

/-- A hunt in a TREE_STATUS reply; zeros where none is in progress. -/
def huntBytes (h : Option Hunt) : List Byte :=
  match h with
  | some h =>
    natField 1 h.candidates.length ++ natField 1 h.checked ++ natField 1 h.skipped ++ natField 1 h.current.tn ++
      [h.step.code]
  | none => [0, 0, 0, 0, 0]

/-- The Light Monitor in a TREE_STATUS reply. -/
def LightMonitor.bytes (l : LightMonitor) : List Byte :=
  [l.light.code] ++ natField 1 l.strikes ++ enumField Purpose.code (l.check.map (·.purpose)) ++
    enumField CheckPhase.code (l.check.map (·.phase)) ++ flagField l.pause ++ huntBytes l.hunt

/-- A channel in a TREE_STATUS reply. -/
def Channel.bytes (c : Channel) : List Byte := [c.phase.code, c.number]

/-- The body of a TREE_STATUS reply (R185). -/
def Tree.statusBytes (T : Tree) : List Byte :=
  [T.ctl.state.name.code] ++ flagField T.ctl.configured ++ flagField T.ctl.suspended ++ natField 2 T.ctl.p ++
    T.ctl.state.runBytes ++
    allStates.flatMap (fun n => natField 1 (T.countIn n)) ++ natField 1 T.onAir.length ++
    natField 1 T.pendingList.length ++ T.disc.bytes ++ T.seqBytes ++ T.light.bytes ++
    T.chanWindow.bytes ++ T.chanProbe.bytes ++ T.chanSilence.bytes ++
    natField 1 T.msgq.items.length ++ flagField T.msgq.broadcastStands

/-- TREE_STATUS (R185). -/
def treeStatusRequest (tree : Byte) (s : State) : Answer :=
  match parseTree tree with
  | none => Machine.refuse s .badParam
  | some t => okWith s (s.tree t).statusBytes

/-! ### The commands -/

/-- TREE_CONFIG. -/
def execTreeConfig (tag tree : Byte) (params : RawParams) (s : State) : Host.Outcome State Fault Refusal :=
  s.request tag (treeConfigRequest tree params)

/-- TREE_READ_CONFIG. -/
def execTreeReadConfig (tag tree : Byte) (s : State) : Host.Outcome State Fault Refusal :=
  s.request tag (treeReadConfigRequest tree)

/-- TREE_OPEN. -/
def execTreeOpen (tag tree : Byte) (s : State) : Host.Outcome State Fault Refusal := s.request tag (treeOpenRequest tree)

/-- TREE_CLOSE. -/
def execTreeClose (tag tree : Byte) (s : State) : Host.Outcome State Fault Refusal :=
  s.request tag (treeCloseRequest tree)

/-- TREE_STATUS. -/
def execTreeStatus (tag tree : Byte) (s : State) : Host.Outcome State Fault Refusal :=
  s.request tag (treeStatusRequest tree)

/-- TREE_SUSPEND. -/
def execTreeSuspend (tag tree : Byte) (s : State) : Host.Outcome State Fault Refusal :=
  s.request tag (treeSuspendRequest tree)

/-- TREE_RESUME. -/
def execTreeResume (tag tree : Byte) (s : State) : Host.Outcome State Fault Refusal :=
  s.request tag (treeResumeRequest tree)

/-- LOOP (R21, R179). -/
def execLoop (t : TreeId) (arrival : BitVec 64) (s : State) : Host.Outcome State Fault Refusal :=
  s.take (loopTaken t arrival.toNat)

end Sys2Proof.Machine
end

