-- ==== Sys2Proof/Machine/SlotCall.lean ====
section
/-! DEFINITION. The framer's slot call (R28): expiry, owed entry and dispatch, with the notices to the posters (R50, R84,
R110, R114, R130, R138, R169, R170, R183). -/

namespace Sys2Proof.Machine

/-! ### Expiry -/

/-- An item's dispatch deadline is earlier than epoch `e` (R28). -/
def Item.late (it : Item) (e : Int) : Bool :=
  match it.deadline with
  | some d => decide (d < e)
  | none => false

/-- The poster of an expired item is told (R84, R110). -/
def expiredNotice (t : TreeId) (s : State) (it : Item) : State :=
  match it.msg with
  | .invite _ _ _ => inviteExpired t s
  | .probe tn _ => probeExpired t tn it.inst s
  | .assign _ _ | .delay _ _ | .nudge _ _ | .mute _ | .unmute _ | .retire _ | .retireAll => s

/-- Step 1 of a slot call (R28). R28 gives no order among the posters of items that expire at one slot call: they are told in
list order, which fixes the order of their new requests on the grant link (DESIGN CHOICE, notes/assumptions/37.md). -/
def slotExpiry (t : TreeId) (s : State) : State :=
  let late := (s.tree t).msgq.items.filter fun it => it.late s.epochInt
  late.foldl (expiredNotice t) (s.modMsgq t fun q => { q with items := q.items.filter fun it => !it.late s.epochInt })

/-! ### Owed entry -/

/-- The owed message of a TN enters the list while there is room; a MUTE or UNMUTE of an entry whose resend mark is set is
followed by a DELAY of its LD (R27, R28). -/
def enterOwed (t : TreeId) (s : State) (tn : Nat) : State :=
  match s.entry? t tn with
  | none => s
  | some e =>
    match e.owed with
    | none => s
    | some o =>
      if (s.tree t).msgq.items.length < Config.queueLimit then
        let s1 :=
          enqueue t { msg := o.msg, issuer := o.issuer, inst := e.inst, deadline := none }
            (s.modEntry t tn fun e => { e with owed := none })
        if o.msg.isMuting && e.resend then (postMust t tn (.delay tn e.ld) .registry s1).state else s1
      else s

/-- The owed broadcast RETIRE enters the list while there is room (R28). -/
def enterBroadcast (t : TreeId) (s : State) : State :=
  if (s.tree t).msgq.owedBroadcast && decide ((s.tree t).msgq.items.length < Config.queueLimit) then
    s.modMsgq t fun q => { q with items := q.items ++ [broadcastItem], owedBroadcast := false }
  else s

/-- Step 2 of a slot call (R28). -/
def slotOwed (t : TreeId) (s : State) : State :=
  let s1 := enterBroadcast t s
  if (s1.tree t).msgq.items.any (·.msg.isBroadcast) then s1 else allTns.foldl (enterOwed t) s1

/-! ### Dispatch -/

/-- The ASSIGN of an ASSIGNING entry was dispatched (R138). -/
def assignSent (t : TreeId) (tn : Nat) (inst : BitVec 16) (s : State) : State :=
  if ((s.entry? t tn).map (·.isIn inst .assigning)).getD false then
    (addTask t { tn := tn, inst := inst, kind := .range }
      (transit t tn .assignSent (Entry.toRanging (s.budgetEnd t)) s)).state
  else s

/-- The RETIRE of a RETIRING entry was dispatched (R50). -/
def retireSent (t : TreeId) (tn : Nat) (inst : BitVec 16) (s : State) : State :=
  if ((s.entry? t tn).map (·.isIn inst .retiring)).getD false then freeEntry t tn .retireSent s else s

/-- The poster of a dispatched item is told, with the dispatch epoch `d` (R28). -/
def dispatchedNotice (t : TreeId) (it : Item) (d : Nat) (s : State) : State :=
  match it.msg with
  | .invite _ _ _ => inviteDispatched t d s
  | .assign tn _ => assignSent t tn it.inst s
  | .probe tn _ => probeDispatched t tn it.inst s
  | .delay tn _ =>
    match it.issuer with
    | .drift => nudgeDispatched t tn it.inst d s
    | .registry | .sequencer | .discovery | .controller => delayDispatched t tn it.inst d s
  | .nudge tn _ => nudgeDispatched t tn it.inst d s
  | .mute tn => huntMuteDispatched t tn it.inst d s
  | .unmute tn => huntClear t tn it.inst d s
  | .retire tn => retireSent t tn it.inst s
  | .retireAll => completeClose t s

/-- The head item leaves the list, is counted and is handed to the framer (R14, R28). -/
def handOver (t : TreeId) (it : Item) (rest : List Item) (s : State) : State :=
  s.modTree t fun T =>
    { T with
      msgq := { T.msgq with items := rest, count := T.msgq.count + 1 }
      out := { T.out with slots := T.out.slots ++ [(s.epoch, it.msg.encode)] } }

/-- Up to `n` items are handed over from the head, each poster told in turn (R28). -/
def dispatchLoop (t : TreeId) : Nat → State → State
  | 0, s => s
  | n + 1, s =>
    match (s.tree t).msgq.items with
    | [] => s
    | it :: rest => dispatchLoop t n (dispatchedNotice t it s.epoch (handOver t it rest s))

/-- The dispatch count set to 0 in a new epoch (R28). -/
def freshCount (t : TreeId) (s : State) : State :=
  if (s.tree t).msgq.countEpoch = s.epoch then s
  else s.modMsgq t fun q => { q with count := 0, countEpoch := s.epoch }

/-- Step 3 of a slot call (R28). -/
def slotDispatch (t : TreeId) (s : State) : State :=
  let s1 := freshCount t s
  dispatchLoop t (Config.dispatchLimit - (s1.tree t).msgq.count) s1

/-- A slot call for tree `t` (R28). -/
def slotCall (t : TreeId) (s : State) : State := slotDispatch t (slotOwed t (slotExpiry t s))

/-! ### The command -/

/-- SLOT_CALL (R28). -/
def execSlotCall (t : TreeId) (s : State) : Host.Outcome State Fault Refusal := s.take (slotCall t)

end Sys2Proof.Machine
end

