-- ==== Sys2Proof/Machine/HostRequests.lean ====
section
/-! DEFINITION. The host processor's requests on a terminal (R52..R58, R146), on a context queue (R78, R79) and on the light
condition (R172). -/

namespace Sys2Proof.Machine

/-! ### Terminals -/

/-- The terminal a request names, as it stands (R52). -/
structure Named where
  tree  : TreeId
  tn    : Nat
  entry : Entry
  deriving DecidableEq, Repr

/-- The checks that every request on a terminal makes first, in the order of R52. -/
def namedEntry (s : State) (tree tn : Byte) : Except ReplyCode Named :=
  match parseTree tree, parseTn tn with
  | some t, some n =>
    match (s.tree t).ctl.state with
    | .closing => .error .busy
    | .closed | .calibrating _ => .error .wrongState
    | .active =>
      match s.entry? t n with
      | none => .error .notFound
      | some e => .ok { tree := t, tn := n, entry := e }
  | _, _ => .error .badParam

/-- A request on a terminal is answered: refused by R52, refused in a state it does not accept, or carried out. -/
def terminalRequest (tree tn : Byte) (accepts : EntryState → Bool) (act : Named → State → State) (s : State) : Answer :=
  match namedEntry s tree tn with
  | .error c => Machine.refuse s c
  | .ok x => if accepts x.entry.state then ok (act x s) else Machine.refuse s .wrongState

/-- RETIRE_TN is accepted in every entry state (R53). -/
def acceptsRetire : EntryState → Bool := fun _ => true

/-- MUTE_TN is accepted in OPERATING, RANGING and VERIFYING (R54). -/
def acceptsMute : EntryState → Bool
  | .operating _ | .ranging _ | .verifying _ => true
  | .assigning _ | .muted _ | .lost _ | .retiring => false

/-- UNMUTE_TN is accepted in MUTED (R56). -/
def acceptsUnmute : EntryState → Bool
  | .muted _ => true
  | .assigning _ | .ranging _ | .verifying _ | .operating _ | .lost _ | .retiring => false

/-- RANGE_NOW is accepted in OPERATING (R146). -/
def acceptsRangeNow : EntryState → Bool
  | .operating _ => true
  | .assigning _ | .ranging _ | .verifying _ | .muted _ | .lost _ | .retiring => false

/-- The Light Monitor is told of an entry that has left MUTED (R171). -/
def toldMuted (x : Named) (s : State) : State :=
  if acceptsUnmute x.entry.state then candidateLeft x.tree x.tn x.entry.inst s else s

/-- RETIRE_TN carried out (R50, R53). -/
def retireTn (x : Named) (s : State) : State :=
  if x.entry.state = .retiring then s else toldMuted x (enterRetiring x.tree x.tn .hostRetire s)

/-- MUTE_TN carried out (R54). -/
def muteTn (x : Named) (s : State) : State :=
  (postMust x.tree x.tn (.mute x.tn) .registry
    (withdrawn x.tree x.tn x.entry.inst (transit x.tree x.tn .hostMute (Entry.toMuted .host) s))).state

/-- UNMUTE_TN carried out (R56). -/
def unmuteTn (x : Named) (s : State) : State :=
  let s1 := transit x.tree x.tn .hostUnmute (Entry.toRanging (s.budgetEnd x.tree)) s
  let s2 := (postMust x.tree x.tn (.unmute x.tn) .registry s1).state
  toldMuted x (addTask x.tree { tn := x.tn, inst := x.entry.inst, kind := .unmute } s2).state

/-- RANGE_NOW carried out (R146). -/
def rangeNow (x : Named) (s : State) : State := moveToRanging x.tree x.tn .rangeNow .rangeNow s

/-! ### READ_ENTRY and FIND_SERIAL -/

/-- The mute cause and the release mark, zeros where absent (R57, R188). -/
def EntryState.muteBytes : EntryState → List Byte
  | .muted c => [c.code] ++ flagField (c == .hunt true)
  | .assigning _ | .ranging _ | .verifying _ | .operating _ | .lost _ | .retiring => [0, 0]

/-- A profile field with its origin (R57). -/
def ProfileField.bytes (width : Nat) (f : ProfileField) : List Byte := natField width f.value ++ [f.origin.code]

/-- The five profile fields with their origins (R57). -/
def Profile.bytes (p : Profile) : List Byte :=
  p.rn.bytes 3 ++ p.rtol.bytes 2 ++ p.la.bytes 1 ++ p.bp.bytes 2 ++ p.pre.bytes 1

/-- A signed field of `n` bytes with its presence before it (R57, R188). -/
def optionalInt (n : Nat) (x : Option Int) : List Byte :=
  match x with
  | some v => 1 :: intField n v
  | none => 0 :: List.replicate n 0

/-- The deadline with its kind before it: 1 activation, 2 lost hold, 0 none (R57). -/
def EntryState.deadlineBytes : EntryState → List Byte
  | .assigning d | .ranging d | .verifying d => 1 :: epochField d
  | .lost d => 2 :: epochField d
  | .operating _ | .muted _ | .retiring => [0, 0, 0, 0, 0]

/-- Settle-until with its kind before it: 1 an epoch number, 2 not yet (R57, R188). -/
def Settle.bytes : Settle → List Byte
  | .epoch e => 1 :: epochField e
  | .notYet => [2, 0, 0, 0, 0]

/-- The drift fields, zeros where absent (R57). S takes three bytes (R122). -/
def EntryState.driftBytes : EntryState → List Byte
  | .operating d => intField 3 d.sum ++ natField 1 d.n ++ d.settle.bytes ++ natField 1 d.misses
  | .assigning _ | .ranging _ | .verifying _ | .muted _ | .lost _ | .retiring => List.replicate 10 0

/-- The body of a READ_ENTRY reply (R57). -/
def Entry.bytes (tn : Nat) (e : Entry) : List Byte :=
  natField 1 tn ++ wordField e.inst ++ [e.state.name.code] ++ e.state.muteBytes ++ serialBytes e.serial ++
    wordField e.model ++ e.profile.bytes ++ intField 4 e.c ++ natField 3 e.ld ++ flagField e.ever ++
    optionalInt 4 e.rrt ++ optionalInt 1 e.r ++ e.state.deadlineBytes ++ e.state.driftBytes ++
    natField 1 (e.attempts.getD 0) ++ flagField e.waiting ++ enumField (fun o => o.msg.owedCode) e.owed ++
    flagField e.resend

/-- READ_ENTRY (R57). -/
def readEntryRequest (tree tn : Byte) (s : State) : Answer :=
  match namedEntry s tree tn with
  | .error c => Machine.refuse s c
  | .ok x => okWith s (x.entry.bytes x.tn)

/-- FIND_SERIAL (R58). -/
def findSerialRequest (serial : Serial) (s : State) : Answer :=
  match s.lookup serial with
  | none => Machine.refuse s .notFound
  | some d =>
    match s.entry? d.tree d.tn with
    | none => Machine.refuse s .notFound
    | some e =>
      okWith s (natField 1 d.tree.val ++ natField 1 d.tn ++ wordField e.inst ++ [e.state.name.code])

/-! ### Contexts -/

/-- A context joins the tail of the queue; in STOPPED the unit becomes DUE and its gate is judged (R78, R81). -/
def pushContext (t : TreeId) (c : Context) (s : State) : State :=
  let s1 := s.modDisc t fun d => { d with contexts := d.contexts ++ [{ ctx := c, held := false }] }
  match (s.tree t).disc.state with
  | .stopped => startWindow t (s1.setDisc t (.due none))
  | .spacing _ | .due _ | .requesting _ _ | .posted _ _ _ _ | .collecting _ _ _ _ _ _ => s1

/-- CTX_PUSH (R78). -/
def ctxPushRequest (tree : Byte) (raw : RawContext) (s : State) : Answer :=
  match openTree s tree with
  | .error c => Machine.refuse s c
  | .ok t =>
    match parseContext raw with
    | none => Machine.refuse s .badParam
    | some c =>
      if Config.contextLimit ≤ (s.tree t).disc.contexts.length then Machine.refuse s .busy
      else okWith (pushContext t c s) (natField 1 ((s.tree t).disc.contexts.length + 1))

/-- The Discovery Unit once its queue is flushed (R79). R79 says nothing of a flushed mark that a slip kept in DUE (R96): it is
kept in STOPPED, until the next cycle clears it (DESIGN CHOICE, notes/assumptions/39.md); nor of the repeat index, which is
kept likewise (DESIGN CHOICE, notes/assumptions/41.md). -/
def Discovery.flush (d : Discovery) : Discovery :=
  match d.state with
  | .stopped | .spacing _ | .due _ => { d with contexts := [], state := .stopped }
  | .requesting _ _ | .posted _ _ _ _ | .collecting _ _ _ _ _ _ => { d with contexts := [], flushed := true }

/-- CTX_FLUSH (R79). -/
def ctxFlushRequest (tree : Byte) (s : State) : Answer :=
  match openTree s tree with
  | .error c => Machine.refuse s c
  | .ok t => okWith (s.modDisc t Discovery.flush) (natField 1 (s.tree t).disc.contexts.length)

/-! ### FORCE_QUIET -/

/-- The TN and instance that an aborted hunt's report names: the candidate released, or none (R172, R174). -/
def releasable (t : TreeId) (c : Candidate) (s : State) : Candidate :=
  if ((s.entry? t c.tn).map fun e => e.inst == c.inst && e.huntMuted false).getD false then c else ⟨0, 0⟩

/-- A hunt in progress is aborted and its candidate released (R172). -/
def abortHunt (t : TreeId) (s : State) : State :=
  match (s.tree t).light.hunt with
  | none => s
  | some h =>
    let c := releasable t h.current s
    huntReport t .aborted h c.tn c.inst (huntRelease t h.current (s.modLight t fun l => { l with hunt := none }))

/-- The condition is forced to QUIET (R172). -/
def forceQuiet (t : TreeId) (s : State) : State :=
  let s1 := (giveUpCheck t s).modLight t fun l => { l with nextCheck := none }
  becomeQuiet t .forced ((abortHunt t s1).modLight t fun l => { l with pause := false })

/-- FORCE_QUIET (R172). -/
def forceQuietRequest (tree : Byte) (s : State) : Answer :=
  match activeTree s tree with
  | .error c => Machine.refuse s c
  | .ok t => if (s.tree t).light.light = .quiet then ok s else ok (forceQuiet t s)

/-! ### The commands -/

/-- RETIRE_TN. -/
def execRetireTn (tag tree tn : Byte) (s : State) : Host.Outcome State Fault Refusal :=
  s.request tag (terminalRequest tree tn acceptsRetire retireTn)

/-- MUTE_TN. -/
def execMuteTn (tag tree tn : Byte) (s : State) : Host.Outcome State Fault Refusal :=
  s.request tag (terminalRequest tree tn acceptsMute muteTn)

/-- UNMUTE_TN. -/
def execUnmuteTn (tag tree tn : Byte) (s : State) : Host.Outcome State Fault Refusal :=
  s.request tag (terminalRequest tree tn acceptsUnmute unmuteTn)

/-- RANGE_NOW. -/
def execRangeNow (tag tree tn : Byte) (s : State) : Host.Outcome State Fault Refusal :=
  s.request tag (terminalRequest tree tn acceptsRangeNow rangeNow)

/-- READ_ENTRY. -/
def execReadEntry (tag tree tn : Byte) (s : State) : Host.Outcome State Fault Refusal :=
  s.request tag (readEntryRequest tree tn)

/-- FIND_SERIAL. -/
def execFindSerial (tag : Byte) (serial : Serial) (s : State) : Host.Outcome State Fault Refusal :=
  s.request tag (findSerialRequest serial)

/-- CTX_PUSH. -/
def execCtxPush (tag tree : Byte) (ctx : RawContext) (s : State) : Host.Outcome State Fault Refusal :=
  s.request tag (ctxPushRequest tree ctx)

/-- CTX_FLUSH. -/
def execCtxFlush (tag tree : Byte) (s : State) : Host.Outcome State Fault Refusal :=
  s.request tag (ctxFlushRequest tree)

/-- FORCE_QUIET. -/
def execForceQuiet (tag tree : Byte) (s : State) : Host.Outcome State Fault Refusal :=
  s.request tag (forceQuietRequest tree)

end Sys2Proof.Machine
end

