-- ==== Sys2Proof/Machine/Epochs.lean ====
section
/-! DEFINITION. The Timebase (R1..R6) and the deliveries of an epoch start to the tree blocks: their effects (R48, R71, R93,
R105, R145, R148, R149, R157, R158, R163, R169, R171, R179), each taken once for each epoch start, and the slip event. -/

namespace Sys2Proof.Machine

/-! ### What each delivery does -/

/-- The activation deadlines that are the current epoch, in ascending TN order (R149). -/
def activationDue (t : TreeId) (s : State) : State :=
  ((s.tree t).tnsWith fun e => e.activation? == some s.epoch).foldl (fun s tn => enterRetiring t tn .budget s) s

/-- The entry's lost hold ends in epoch `e` (R48). -/
def Entry.holdEnds (x : Entry) (e : Nat) : Bool := x.state == .lost e

/-- The lost holds that end in the current epoch, in ascending TN order (R48). -/
def lostHoldDue (t : TreeId) (s : State) : State :=
  ((s.tree t).tnsWith fun e => e.holdEnds s.epoch).foldl (fun s tn => freeEntry t tn .holdExpired s) s

/-- The spacing end is the current epoch (R93). -/
def spacingDue (t : TreeId) (s : State) : State :=
  match (s.tree t).disc.state with
  | .spacing e => if e = s.epoch then startWindow t (s.setDisc t (.due none)) else s
  | .stopped | .due _ | .requesting _ _ | .posted _ _ _ _ | .collecting _ _ _ _ _ _ => s

/-- The TNs a sweep visits after its pointer (R148). -/
def sweepOrder (ptr : Nat) : List Nat := allTns.filter (fun tn => decide (ptr < tn)) ++ allTns.filter fun tn => decide (tn ≤ ptr)

/-- A TN the sweep does not pass over: an OPERATING entry with no task standing and no operation in flight (R148). -/
def Tree.sweepable (T : Tree) (tn : Nat) : Option Entry :=
  match T.entry? tn with
  | none => none
  | some e =>
    if e.operating && !T.seq.tasks.any (fun k => k.tn == tn) && !(T.seq.op.map fun o => o.tn == tn).getD false then some e
    else none

/-- The sweep visits TNs until it has queued `n` audits, has visited all, or is refused (R148). -/
def sweepVisit (t : TreeId) : List Nat → Nat → State → State
  | [], _, s => s
  | _, 0, s => s
  | tn :: rest, n + 1, s =>
    match (s.tree t).sweepable tn with
    | none => sweepVisit t rest (n + 1) s
    | some e =>
      let r := addTask t { tn := tn, inst := e.inst, kind := .audit } s
      match r.answer with
      | .added => sweepVisit t rest n (r.state.modSeq t fun q => { q with sweepPtr := tn })
      | .refused => r.state
      | .upgraded | .displaced | .waiting | .present => sweepVisit t rest (n + 1) r.state

/-- The next sweep epoch is the current epoch: the sweep runs (R148). -/
def sweepDue (t : TreeId) (s : State) : State :=
  if (s.tree t).seq.nextSweep = some s.epoch then
    sweepVisit t (sweepOrder (s.tree t).seq.sweepPtr) (s.params t).batch
      (s.modSeq t fun q => { q with nextSweep := some (s.epoch + (s.params t).sweepPeriod) })
  else s

/-- The next check epoch is the current epoch: a check of purpose OPEN, or PAUSE behind an unresolved hunt (R163, R171). The next
check epoch becomes none, as R163 says of OPEN; R171 does not say it of PAUSE (DESIGN CHOICE, notes/assumptions/44.md). -/
def nextCheckDue (t : TreeId) (s : State) : State :=
  if (s.tree t).light.nextCheck = some s.epoch then
    sendCheck t (if (s.tree t).light.pause then .pause else .opening)
      (s.modLight t fun l => { l with nextCheck := none })
  else s

/-- The check epoch of a hunt step in SETTLING is the current epoch (R169). -/
def huntCheckDue (t : TreeId) (s : State) : State :=
  match (s.tree t).light.hunt with
  | none => s
  | some h =>
    if h.step = .settling s.epoch then
      sendCheck t .hunt (s.modLight t fun l => { l with hunt := some { h with step := .checking } })
    else s

/-- What a delivery of the current epoch's start does. -/
def deliveryEffect : EpochAction → State → State
  | .activationDeadline t => activationDue t
  | .lostHoldDeadline t => lostHoldDue t
  | .pendingHoldDeadline t => pendingHolds t
  | .spacingEnd t => spacingDue t
  | .probeWaitExpiry t => probeWaitExpired t
  | .auditSweep t => sweepDue t
  | .heldRecheck t => heldRecheck t
  | .responseDeadline t tag => responseLapsed t tag
  | .resendEpoch t tag => resendDue t tag
  | .nextCheckEpoch t => nextCheckDue t
  | .huntCheckEpoch t => huntCheckDue t
  | .loopMarkerEpoch t => loopMarker t

/-! ### Deliveries taken once (notes/assumptions/1.md) -/

/-- The three tags, in order. -/
def allTags : List Tag := [.window, .probe, .silence]

/-- The deliveries of an epoch start to one tree. -/
def treeDeliveries (t : TreeId) : List EpochAction :=
  [.activationDeadline t, .lostHoldDeadline t, .pendingHoldDeadline t, .spacingEnd t, .probeWaitExpiry t, .auditSweep t,
    .heldRecheck t] ++ allTags.map (.responseDeadline t) ++ allTags.map (.resendEpoch t) ++
    [.nextCheckEpoch t, .huntCheckEpoch t, .loopMarkerEpoch t]

/-- Every delivery of an epoch start (R3). -/
def allDeliveries : List EpochAction := allTrees.flatMap treeDeliveries

/-- A delivery is taken by its block, once (R3, R10). -/
def takeDelivery (a : EpochAction) (s : State) : State :=
  if a ∈ s.due then (deliveryEffect a { s with due := s.due.erase a }).settle else s

/-- Deliveries taken one after another. -/
def takeDeliveries (l : List EpochAction) (s : State) : State := l.foldl (fun s a => takeDelivery a s) s

/-- The deliveries that their blocks have not taken yet are taken, in the model's order. -/
def flushDeliveries (s : State) : State := takeDeliveries s.due s

/-- The epoch of number `k` begins, with all its deliveries to be taken (R3, R5). -/
def beginEpoch (k : Nat) (s : State) : State :=
  { (flushDeliveries s).setCount (Config.epochSx * k) with due := allDeliveries }

/-! ### The Timebase -/

/-- The count reaches the next whole multiple of an epoch (R3); nothing happens in WAITING (R1). -/
def epochStart (s : State) : State :=
  if s.timebase.status = .waiting then s else beginEpoch (s.epoch + 1) s

/-- The first marker starts the timebase (R2). -/
def startTimebase (s : State) : State :=
  { s with timebase := { status := .running, count := 0, slipCount := 0 }, due := allDeliveries }

/-- The slip event at every block of one tree (R6, R96, R120, R135, R173, R179). -/
def slipTree (s : State) (t : TreeId) : State :=
  lightSlip t (driftSlip t (probeSlip t (discSlip t (calibrationSlip t s))))

/-- The slip event at every tree block (R6). -/
def slipTrees (s : State) : State := allTrees.foldl slipTree s

/-- The count at a marker taken `f` sx into the current epoch, before realignment; past the 64-bit span a free value
(R1, R6). -/
def State.markerCount (s : State) (f : Nat) : BitVec 64 :=
  if Config.epochSx * s.epoch + f < 2 ^ 64 then BitVec.ofNat 64 (Config.epochSx * s.epoch + f)
  else Config.countPastSpan s.freeIndex

/-- The free values used once a marker's count has been read. -/
def State.freeAfterMarker (s : State) (f : Nat) : Nat :=
  if Config.epochSx * s.epoch + f < 2 ^ 64 then s.freeIndex else s.freeIndex + 1

/-- The slip count raised by one, stopping at 255 (R5). -/
def raiseSlips (s : State) : State :=
  { s with timebase := { s.timebase with slipCount := raiseTo 255 s.timebase.slipCount } }

/-- A TIME_SLIP report of the part-wide poster (R6). -/
def slipReport (marker : BitVec 64) (f : Nat) (correction : Int) (s : State) : State :=
  s.deliver partWide (.timeSlip marker f correction s.timebase.slipCount)

/-- A time slip whose realignment has been made: the slip events, then the report (R6). -/
def afterRealignment (marker : BitVec 64) (f : Nat) (correction : Int) (s : State) : State :=
  slipReport marker f correction (slipTrees s)

/-- A backward realignment: the current epoch is measured again from its start (R5). -/
def slipBackward (f : Nat) (s : State) : State :=
  let s1 := raiseSlips { s with freeIndex := s.freeAfterMarker f }
  afterRealignment (s.markerCount f) f (-(f : Int)) (s1.setCount (Config.epochSx * s.epoch))

/-- A forward realignment: the next epoch begins; the deliveries `early` of its start reach their blocks before the slip
event (R5, R6). -/
def slipForward (f : Nat) (early : List EpochAction) (s : State) : State :=
  let s1 := raiseSlips { s with freeIndex := s.freeAfterMarker f }
  afterRealignment (s.markerCount f) f ((Config.epochSx : Int) - f) (takeDeliveries early (beginEpoch (s.epoch + 1) s1))

/-- An epoch marker taken `f` sx into the current epoch (R2, R4, R5). -/
def epochMarker (f : Nat) (early : List EpochAction) (s : State) : State :=
  if s.timebase.status = .waiting then startTimebase s
  else if f = 0 then s
  else if f < 5000000 then slipBackward f s
  else slipForward f early s

/-! ### The commands -/

/-- EPOCH_MARKER (R2, R4, R5). -/
def execEpochMarker (offset : Fin 10000000) (early : List EpochAction) (s : State) : Host.Outcome State Fault Refusal :=
  s.take (epochMarker offset.val early)

/-- EPOCH_START (R3). -/
def execEpochStart (s : State) : Host.Outcome State Fault Refusal := s.take epochStart

/-- ACTIVATION_DEADLINE (R149). -/
def execActivationDeadline (t : TreeId) (s : State) : Host.Outcome State Fault Refusal :=
  s.take (takeDelivery (.activationDeadline t))

/-- LOST_HOLD_DEADLINE (R48). -/
def execLostHoldDeadline (t : TreeId) (s : State) : Host.Outcome State Fault Refusal :=
  s.take (takeDelivery (.lostHoldDeadline t))

/-- PENDING_HOLD_DEADLINE (R71). -/
def execPendingHoldDeadline (t : TreeId) (s : State) : Host.Outcome State Fault Refusal :=
  s.take (takeDelivery (.pendingHoldDeadline t))

/-- SPACING_END (R93). -/
def execSpacingEnd (t : TreeId) (s : State) : Host.Outcome State Fault Refusal := s.take (takeDelivery (.spacingEnd t))

/-- PROBEWAIT_EXPIRY (R145). -/
def execProbeWaitExpiry (t : TreeId) (s : State) : Host.Outcome State Fault Refusal :=
  s.take (takeDelivery (.probeWaitExpiry t))

/-- AUDIT_SWEEP (R148). -/
def execAuditSweep (t : TreeId) (s : State) : Host.Outcome State Fault Refusal := s.take (takeDelivery (.auditSweep t))

/-- HELD_RECHECK (R105). -/
def execHeldRecheck (t : TreeId) (s : State) : Host.Outcome State Fault Refusal := s.take (takeDelivery (.heldRecheck t))

/-- RESPONSE_DEADLINE (R157). -/
def execResponseDeadline (t : TreeId) (tag : Tag) (s : State) : Host.Outcome State Fault Refusal :=
  s.take (takeDelivery (.responseDeadline t tag))

/-- RESEND_EPOCH (R158). -/
def execResendEpoch (t : TreeId) (tag : Tag) (s : State) : Host.Outcome State Fault Refusal :=
  s.take (takeDelivery (.resendEpoch t tag))

/-- NEXT_CHECK_EPOCH (R163, R171). -/
def execNextCheckEpoch (t : TreeId) (s : State) : Host.Outcome State Fault Refusal :=
  s.take (takeDelivery (.nextCheckEpoch t))

/-- HUNT_CHECK_EPOCH (R169). -/
def execHuntCheckEpoch (t : TreeId) (s : State) : Host.Outcome State Fault Refusal :=
  s.take (takeDelivery (.huntCheckEpoch t))

/-- LOOP_MARKER_EPOCH (R179). -/
def execLoopMarkerEpoch (t : TreeId) (s : State) : Host.Outcome State Fault Refusal :=
  s.take (takeDelivery (.loopMarkerEpoch t))

end Sys2Proof.Machine
end

