-- ==== Sys2Proof/Machine/CommandPort.lean ====
section
/-! DEFINITION. The Command Port's own commands (chapter 12): IDENTIFY and PART_SETUP (R189), the resets (R190), FETCH_REPORTS
(R193), malformed frames (R186) and read transactions (R187). -/

namespace Sys2Proof.Machine

/-! ### IDENTIFY and PART_SETUP -/

/-- IDENTIFY (R189). -/
def identifyRequest (s : State) : Answer :=
  okWith s ([0x62, 0x10, 3] ++ flagField s.admission.strap ++ flagField s.admission.lock)

/-- The settings in force (R189). -/
def Port.settings (p : Port) : List Byte := [p.policy.code] ++ natField 1 p.watermark

/-- PART_SETUP (R189); a new watermark is judged against the queue at once (R193). -/
def partSetupRequest (settings : Option (Byte × Byte)) (s : State) : Answer :=
  match settings with
  | none => okWith s s.port.settings
  | some (policy, mark) =>
    match parsePolicy policy with
    | none => Machine.refuse s .badParam
    | some p =>
      if 1 ≤ mark.toNat ∧ mark.toNat ≤ 64 then
        let port :=
          { s.port with policy := p, watermark := mark.toNat, attention := attentionOf s.port.queue mark.toNat }
        okWith { s with port := port } port.settings
      else Machine.refuse s .badParam

/-! ### Resets -/

/-- The four trees after a part reset, each with what had left on its links and one ALL_OFF more (R161, R190). -/
def resetTrees (trees : Vector Tree 4) : Vector Tree 4 :=
  #v[Tree.resetWith trees[0].out, Tree.resetWith trees[1].out, Tree.resetWith trees[2].out, Tree.resetWith trees[3].out]

/-- What PART_RESET, the reset pin and power-on have in common (R190). The catalogue, the barred list, the lock and the
strap value are as `adm` gives them. -/
def partReset (adm : Admission) (s : State) : State :=
  { s with
    timebase := Timebase.reset
    due := []
    port := Port.reset
    admission := adm
    directory := []
    trees := resetTrees s.trees }

/-- PART_RESET (R190). -/
def partResetRequest (s : State) : Answer := ok (partReset s.admission s)

/-- The reset pin is asserted: the attention line is released and MISO left undriven (R190). -/
def assertReset (s : State) : State :=
  { s with resetPin := true, port := { s.port with attention := false, miso := .undriven } }

/-- The reset pin is released with a level on the maintenance strap (R60, R190). -/
def releaseReset (strap : Bool) (s : State) : State :=
  { partReset (Admission.reset strap) s with resetPin := false }

/-- Power-on with a level on the maintenance strap (R60, R190): nothing has left on any link before, and the queue of
waiting commands, the reset pin and the model's own counter stay as they are. -/
def powerOn (strap : Bool) (s : State) : State :=
  { State.reset with
    pending := s.pending, resetPin := s.resetPin, admission := Admission.reset strap, freeIndex := s.freeIndex }

/-! ### Reports and replies -/

/-- FETCH_REPORTS (R193). -/
def fetchReportsRequest (n : Byte) (s : State) : Answer :=
  if 1 ≤ n.toNat ∧ n.toNat ≤ 8 then
    let rest := s.port.queue.drop n.toNat
    okWith { s with port := { s.port with queue := rest, attention := attentionOf rest s.port.watermark } }
      ((s.port.queue.take n.toNat).flatMap Record.bytes)
  else Machine.refuse s .badParam

/-- The frame that a read transaction shifts out (R187). -/
def replyFrame (holder : Option Reply) : List Byte :=
  match holder with
  | some r => [1, r.tag, r.code.code] ++ natField 2 r.body.length ++ r.body
  | none => [0, 0, 0, 0, 0]

/-- The first `n` bytes of a frame, and zeros beyond its end (R187). -/
def clockedBytes (n : Nat) (frame : List Byte) : List Byte := (frame ++ List.replicate (n - frame.length) 0).take n

/-- A read transaction that clocks `n` bytes behind its kind byte (R187). -/
def readReply (n : Nat) (s : State) : State :=
  { s with port := { s.port with holder := none, miso := .frame (clockedBytes n (replyFrame s.port.holder)) } }

/-! ### The commands -/

/-- POWER_ON (R190). -/
def execPowerOn (strap : Bool) (s : State) : Host.Outcome State Fault Refusal := .next (powerOn strap s)

/-- RESET_PIN_ASSERT (R190). -/
def execResetPinAssert (s : State) : Host.Outcome State Fault Refusal := .next (assertReset s)

/-- RESET_PIN_RELEASE (R190). -/
def execResetPinRelease (strap : Bool) (s : State) : Host.Outcome State Fault Refusal := .next (releaseReset strap s)

/-- MALFORMED_FRAME (R186). -/
def execMalformedFrame (s : State) : Host.Outcome State Fault Refusal := s.request 0 fun s => Machine.refuse s .malformed

/-- READ_TRANSACTION (R187). -/
def execReadTransaction (clocked : Nat) (s : State) : Host.Outcome State Fault Refusal := s.take (readReply clocked)

/-- IDENTIFY. -/
def execIdentify (tag : Byte) (s : State) : Host.Outcome State Fault Refusal := s.request tag identifyRequest

/-- PART_SETUP. -/
def execPartSetup (tag : Byte) (settings : Option (Byte × Byte)) (s : State) : Host.Outcome State Fault Refusal :=
  s.request tag (partSetupRequest settings)

/-- PART_RESET. -/
def execPartReset (tag : Byte) (s : State) : Host.Outcome State Fault Refusal := s.request tag partResetRequest

/-- FETCH_REPORTS. -/
def execFetchReports (tag n : Byte) (s : State) : Host.Outcome State Fault Refusal :=
  s.request tag (fetchReportsRequest n)

end Sys2Proof.Machine
end

