-- ==== Sys2Proof/Machine/Intake.lean ====
section
/-! DEFINITION. The Burst Report Intake (R20, R21): a collecting window's bursts and end (R85..R92), and the commands that
are records of a burst report link, routed to their owners. Loop records stand with the Tree Controller. -/

namespace Sys2Proof.Machine

/-! ### A collecting window -/

/-- The ANNOUNCE of a tag-0 burst, or none for a burst taken as GARBLED (R20). -/
def announceOf (quality : Quality) (payload : List Byte) : Option Announce :=
  match quality with
  | .clean => parseAnnounce payload
  | .garbled => none

/-- Raise a collection counter, which stops at 65,535 (R85). -/
def raiseCount (n : Nat) : Nat := raiseTo 65535 n

/-- A window as its bursts find it: copy, number, reference time, and the dispatch epoch with the grant's start, which the
bursts leave as they are (R80). -/
structure OpenWindow where
  copy     : Context
  number   : Byte
  qs       : Int
  gw       : Int
  dispatch : Nat
  deriving DecidableEq, Repr

/-- The window goes on collecting with a new collection state. -/
def setCollection (t : TreeId) (w : OpenWindow) (coll : Collection) (s : State) : State :=
  s.setDisc t (.collecting w.copy w.number w.qs w.gw w.dispatch coll)

/-- The ADMISSION report of an announce that the Discovery Unit drops (R87, R89). -/
def droppedReport (t : TreeId) (w : OpenWindow) (o : AdmitOutcome) (a : Announce) (c : Int) (s : State) : State :=
  admissionReport t { source := .announce, window := w.number } o a.serial a.model c none 0 none s

/-- The coarse estimate of an announce, in sx (R89). -/
def coarseSx (arrival : Int) (d : Nat) (gw : Int) (p : Nat) : Int := arrival - 16 * (gw + d) - p

/-- A coarse estimate lies in reach of the tree (R89). -/
def inReach (pr : Params) (c : Int) : Bool :=
  decide ((pr.frtMin : Int) + pr.arMin ≤ c ∧ c ≤ (pr.frtMax : Int) + pr.arMin + pr.arSpread)

/-- An announce that has entered the heard set: out of reach, or counted and handed to the Admission Unit (R89, R90). -/
def announceHeard (t : TreeId) (w : OpenWindow) (coll : Collection) (arrival : Int) (a : Announce) (s : State) : State :=
  let c := roundBt (coarseSx arrival a.d w.gw (s.tree t).ctl.p)
  if inReach (s.params t) c then
    judgeAnnounce t
      { window := w.number, serial := a.serial, model := a.model, c := c, declared := a.declared, mode := w.copy.mode }
      (setCollection t w { coll with announces := raiseTo 128 coll.announces } s)
  else droppedReport t w .outOfReach a c (setCollection t w { coll with outOfReach := raiseCount coll.outOfReach } s)

/-- An ANNOUNCE taken by a collecting window (R87, R88). -/
def windowAnnounce (t : TreeId) (w : OpenWindow) (coll : Collection) (arrival : Int) (a : Announce) (s : State) : State :=
  if a.window ≠ w.number ∨ w.copy.dspan ≤ a.d then
    droppedReport t w .malformed a 0 (setCollection t w { coll with malformed := raiseCount coll.malformed } s)
  else if a.serial ∈ coll.heard then setCollection t w { coll with duplicates := raiseCount coll.duplicates } s
  else if Config.heardLimit ≤ coll.heard.length then setCollection t w { coll with excess := raiseCount coll.excess } s
  else announceHeard t w { coll with heard := coll.heard ++ [a.serial] } arrival a s

/-- A tag-0 burst: absorbed as stale, taken by a collecting window, or discarded (R85, R86). -/
def windowBurst (t : TreeId) (arrival : Int) (quality : Quality) (payload : List Byte) (s : State) : State :=
  if (s.tree t).disc.stale ≠ 0 then s
  else
    match (s.tree t).disc.state with
    | .collecting copy number qs gw dispatch coll =>
      let w : OpenWindow := { copy := copy, number := number, qs := qs, gw := gw, dispatch := dispatch }
      match announceOf quality payload with
      | none => setCollection t w { coll with collisions := raiseCount coll.collisions } s
      | some a => windowAnnounce t w coll arrival a s
    | .stopped | .spacing _ | .due _ | .requesting _ _ | .posted _ _ _ _ => s

/-- The window is repeated at its end (R91). -/
def Discovery.repeats (d : Discovery) (w : Context) (coll : Collection) : Bool :=
  !d.flushed && decide (0 < coll.collisions) && decide (d.repeatIndex < w.repeats)

/-- What follows a cycle (R92, R94). -/
def Discovery.follow (d : Discovery) : WindowNext :=
  match d.state with
  | .stopped => .stopped
  | .spacing _ | .due _ | .requesting _ _ | .posted _ _ _ _ | .collecting _ _ _ _ _ _ => .spacing

/-- A collecting window closes: what follows is decided, then the WINDOW report is posted (R91). -/
def closeWindow (t : TreeId) (w : Context) (number : Byte) (dispatch : Nat) (coll : Collection) (s : State) : State :=
  let d := (s.tree t).disc
  if d.repeats w coll then
    windowReport t number d.repeatIndex .completed (some .repeated) w dispatch coll
      (startWindow t (s.modDisc t fun d => { d with repeatIndex := d.repeatIndex + 1, state := .due (some w) }))
  else
    let s1 := endCycle t w s
    windowReport t number d.repeatIndex .completed (some (s1.tree t).disc.follow) w dispatch coll s1

/-- A tag-0 interval end: absorbed as stale, the end of a collecting window, or discarded (R85, R91). -/
def windowEnd (t : TreeId) (s : State) : State :=
  if (s.tree t).disc.stale ≠ 0 then s.modDisc t fun d => { d with stale := d.stale - 1 }
  else
    match (s.tree t).disc.state with
    | .collecting w number _ _ dispatch coll => closeWindow t w number dispatch coll s
    | .stopped | .spacing _ | .due _ | .requesting _ _ | .posted _ _ _ _ => s

/-! ### Routing (R21) -/

/-- A record is routed only where its tree's state routes it (R21). -/
def routed (t : TreeId) (f : State → State) (s : State) : State := if (s.tree t).routesBursts then f s else s

/-- A quiet-interval burst goes to the owner of its tag. -/
def routeBurst (t : TreeId) (tag : Tag) (arrival : Int) (quality : Quality) (payload : List Byte) (s : State) : State :=
  match tag with
  | .window => windowBurst t arrival quality payload s
  | .probe => probeBurst t arrival quality payload s
  | .silence => silenceBurst t s

/-- An interval end goes to the owner of its tag. -/
def routeEnd (t : TreeId) (tag : Tag) (s : State) : State :=
  match tag with
  | .window => windowEnd t s
  | .probe => probeEnd t s
  | .silence => silenceEnd t s

/-- A granted burst goes to the Drift Tracker where its TN has an entry, and to the Light Monitor otherwise. -/
def routeGranted (t : TreeId) (tn : Nat) (g arrival : Int) (s : State) : State :=
  match s.entry? t tn with
  | some e => driftBurst t tn e g arrival s
  | none => unexplained t arrival s

/-- A miss goes to the Drift Tracker where its TN has an entry, and is discarded otherwise. -/
def routeMiss (t : TreeId) (tn : Nat) (s : State) : State :=
  match s.entry? t tn with
  | some e => driftMiss t tn e s
  | none => s

/-! ### The commands -/

/-- QUIET_INTERVAL_BURST (R21). -/
def execQuietIntervalBurst (t : TreeId) (tag : Tag) (arrival : BitVec 64) (quality : Quality) (payload : List Byte)
    (s : State) : Host.Outcome State Fault Refusal :=
  s.take (routed t (routeBurst t tag arrival.toNat quality payload))

/-- INTERVAL_END (R21). -/
def execIntervalEnd (t : TreeId) (tag : Tag) (s : State) : Host.Outcome State Fault Refusal :=
  s.take (routed t (routeEnd t tag))

/-- GRANTED_BURST (R21, R123). -/
def execGrantedBurst (t : TreeId) (tn : Byte) (g : BitVec 60) (arrival : BitVec 64) (s : State) :
    Host.Outcome State Fault Refusal :=
  s.take (routed t (routeGranted t tn.toNat g.toNat arrival.toNat))

/-- MISS (R21, R133); the grant reference time is not used. -/
def execMiss (t : TreeId) (tn : Byte) (_g : BitVec 60) (s : State) : Host.Outcome State Fault Refusal :=
  s.take (routed t (routeMiss t tn.toNat))

/-- UNGRANTED_LIGHT (R21, R166). -/
def execUngrantedLight (t : TreeId) (arrival : BitVec 64) (s : State) : Host.Outcome State Fault Refusal :=
  s.take (routed t (unexplained t arrival.toNat))

/-- CONTINUOUS_LIGHT (R21, R167). -/
def execContinuousLight (t : TreeId) (arrival : BitVec 64) (s : State) : Host.Outcome State Fault Refusal :=
  s.take (routed t (continuous t arrival.toNat))

end Sys2Proof.Machine
end

