-- ==== Sys2Proof/Machine/Dispatch.lean ====
section
/-! DEFINITION. The meaning of every command: one arm for each row of spec/opcode_table.json. -/

namespace Sys2Proof.Machine

/-- What a command does to the part (all but its queue of waiting commands). -/
def exec (i : Instr) (s : State) : Host.Outcome State Fault Refusal :=
  match i with
  | .powerOn strap => Sys2Proof.Machine.execPowerOn strap s
  | .resetPinAssert => Sys2Proof.Machine.execResetPinAssert s
  | .resetPinRelease strap => Sys2Proof.Machine.execResetPinRelease strap s
  | .epochMarker offset early => Sys2Proof.Machine.execEpochMarker offset early s
  | .epochStart => Sys2Proof.Machine.execEpochStart s
  | .activationDeadline t => Sys2Proof.Machine.execActivationDeadline t s
  | .lostHoldDeadline t => Sys2Proof.Machine.execLostHoldDeadline t s
  | .pendingHoldDeadline t => Sys2Proof.Machine.execPendingHoldDeadline t s
  | .spacingEnd t => Sys2Proof.Machine.execSpacingEnd t s
  | .probeWaitExpiry t => Sys2Proof.Machine.execProbeWaitExpiry t s
  | .auditSweep t => Sys2Proof.Machine.execAuditSweep t s
  | .heldRecheck t => Sys2Proof.Machine.execHeldRecheck t s
  | .responseDeadline t tag => Sys2Proof.Machine.execResponseDeadline t tag s
  | .resendEpoch t tag => Sys2Proof.Machine.execResendEpoch t tag s
  | .nextCheckEpoch t => Sys2Proof.Machine.execNextCheckEpoch t s
  | .huntCheckEpoch t => Sys2Proof.Machine.execHuntCheckEpoch t s
  | .loopMarkerEpoch t => Sys2Proof.Machine.execLoopMarkerEpoch t s
  | .slotCall t => Sys2Proof.Machine.execSlotCall t s
  | .quietIntervalBurst t tag arrival quality payload => Sys2Proof.Machine.execQuietIntervalBurst t tag arrival quality payload s
  | .intervalEnd t tag => Sys2Proof.Machine.execIntervalEnd t tag s
  | .grantedBurst t tn g arrival => Sys2Proof.Machine.execGrantedBurst t tn g arrival s
  | .miss t tn g => Sys2Proof.Machine.execMiss t tn g s
  | .ungrantedLight t arrival => Sys2Proof.Machine.execUngrantedLight t arrival s
  | .continuousLight t arrival => Sys2Proof.Machine.execContinuousLight t arrival s
  | .loop t arrival => Sys2Proof.Machine.execLoop t arrival s
  | .grant t tag number start => Sys2Proof.Machine.execGrant t tag number start s
  | .defer t tag number notBefore => Sys2Proof.Machine.execDefer t tag number notBefore s
  | .schedulerRefuse t tag number => Sys2Proof.Machine.execSchedulerRefuse t tag number s
  | .malformedFrame => Sys2Proof.Machine.execMalformedFrame s
  | .readTransaction clocked => Sys2Proof.Machine.execReadTransaction clocked s
  | .identify tag => Sys2Proof.Machine.execIdentify tag s
  | .partSetup tag settings => Sys2Proof.Machine.execPartSetup tag settings s
  | .partReset tag => Sys2Proof.Machine.execPartReset tag s
  | .fetchReports tag n => Sys2Proof.Machine.execFetchReports tag n s
  | .catWrite tag index entry => Sys2Proof.Machine.execCatWrite tag index entry s
  | .catRead tag index => Sys2Proof.Machine.execCatRead tag index s
  | .catLock tag => Sys2Proof.Machine.execCatLock tag s
  | .barWrite tag index range => Sys2Proof.Machine.execBarWrite tag index range s
  | .barRead tag index => Sys2Proof.Machine.execBarRead tag index s
  | .treeConfig tag tree params => Sys2Proof.Machine.execTreeConfig tag tree params s
  | .treeReadConfig tag tree => Sys2Proof.Machine.execTreeReadConfig tag tree s
  | .treeOpen tag tree => Sys2Proof.Machine.execTreeOpen tag tree s
  | .treeClose tag tree => Sys2Proof.Machine.execTreeClose tag tree s
  | .treeStatus tag tree => Sys2Proof.Machine.execTreeStatus tag tree s
  | .ctxPush tag tree ctx => Sys2Proof.Machine.execCtxPush tag tree ctx s
  | .ctxFlush tag tree => Sys2Proof.Machine.execCtxFlush tag tree s
  | .treeSuspend tag tree => Sys2Proof.Machine.execTreeSuspend tag tree s
  | .treeResume tag tree => Sys2Proof.Machine.execTreeResume tag tree s
  | .forceQuiet tag tree => Sys2Proof.Machine.execForceQuiet tag tree s
  | .admitSerial tag tree serial => Sys2Proof.Machine.execAdmit tag tree serial s
  | .refuse tag tree serial => Sys2Proof.Machine.execRefuse tag tree serial s
  | .rangeNow tag tree tn => Sys2Proof.Machine.execRangeNow tag tree tn s
  | .retireTn tag tree tn => Sys2Proof.Machine.execRetireTn tag tree tn s
  | .muteTn tag tree tn => Sys2Proof.Machine.execMuteTn tag tree tn s
  | .unmuteTn tag tree tn => Sys2Proof.Machine.execUnmuteTn tag tree tn s
  | .readEntry tag tree tn => Sys2Proof.Machine.execReadEntry tag tree tn s
  | .findSerial tag serial => Sys2Proof.Machine.execFindSerial tag serial s

end Sys2Proof.Machine
end

