-- ==== Sys2Proof/Safety.lean ====
section
/-! DEFINITION. What a safe state of the part is: the laws of the device that the claims use, as predicates of the state. -/

namespace Sys2Proof.Machine

/-! ### Report queue and attention line (R191..R193, Law 13) -/

/-- The Command Port between events: the queue holds at most 64 records, the counter at most 255, the watermark lies in
1..64, no delivered record waits for the arbiter, and the attention line tells whether the queue holds the watermark number
of records, released while the reset pin is asserted. -/
structure Port.Lawful (p : Port) (pin : Bool) : Prop where
  queue     : p.queue.length ≤ 64
  lost      : p.lost ≤ 255
  watermark : 1 ≤ p.watermark ∧ p.watermark ≤ 64
  delivered : ∀ i : Poster, p.delivered[i] = []
  attention : p.attention = (!pin && attentionOf p.queue p.watermark)

/-- Law 13, with what R191 to R193 say of the counter, the watermark and the attention line. -/
def State.PortLawful (s : State) : Prop := s.port.Lawful s.resetPin

/-! ### Task queue (R137, Law 10) -/

/-- Law 10 of one tree: at most 16 tasks, at most one for each TN, no NORMAL task ahead of an URGENT one, and no task for an
entry that waits (R139..R141). -/
structure Tree.TasksLawful (T : Tree) : Prop where
  room    : T.seq.tasks.length ≤ 16
  once    : (T.seq.tasks.map (·.tn)).Nodup
  ordered : T.seq.tasks.Pairwise fun a b => b.urgent = true → a.urgent = true
  waiting : ∀ tn e, T.entry? tn = some e → e.waiting = true → tn ∉ T.seq.tasks.map (·.tn)

/-- Law 10. -/
def State.TasksLawful (s : State) : Prop := ∀ t : TreeId, (s.tree t).TasksLawful

/-! ### Residuals (R101, Law 8) -/

/-- Law 8 of one tree: every residual that is present lies in -8..7 sx. -/
def Tree.ResidualsLawful (T : Tree) : Prop :=
  ∀ tn e r, T.entry? tn = some e → e.r = some r → -8 ≤ r ∧ r ≤ 7

/-- Law 8. -/
def State.ResidualsLawful (s : State) : Prop := ∀ t : TreeId, (s.tree t).ResidualsLawful

/-! ### Entries (R38, R100, R126, Laws 1, 7 and 9) -/

/-- The on-air set that a grant-link message leaves, as the scheduler reads it (R38, R159). -/
def GrantMsg.announce (l : List Nat) : GrantMsg → List Nat
  | .terminalOn tn _ _ => insertTn tn l
  | .terminalOff tn => l.filter (· ≠ tn)
  | .allOff => []
  | .request _ _ _ _ _ | .release _ _ => l

/-- The TNs whose latest notice since the last ALL_OFF was TERMINAL_ON (R38). -/
def announced (sent : List GrantMsg) : List Nat := sent.foldl GrantMsg.announce []

/-- Laws 1, 7 and 9 of one tree: the on-air set, in ascending order, is what the notices sent spell and holds exactly the
TNs of the OPERATING entries; every LD lies in 0..ART; every sample count is below 2^k. -/
structure Tree.EntriesLawful (T : Tree) : Prop where
  notices : T.onAir = announced T.out.grant
  ordered : T.onAir.Pairwise (· < ·)
  onAir   : ∀ tn, tn ∈ T.onAir ↔ ∃ e, T.entry? tn = some e ∧ e.operating = true
  delay   : ∀ tn e, T.entry? tn = some e → e.ld ≤ T.ctl.params.art
  samples : ∀ tn e d, T.entry? tn = some e → e.state = .operating d → d.n < 2 ^ T.ctl.params.k

/-- Laws 1, 7 and 9. -/
def State.EntriesLawful (s : State) : Prop := ∀ t : TreeId, (s.tree t).EntriesLawful

/-! ### Capacities -/

/-- The heard set of a collecting window; empty in every other state (R85). -/
def DiscState.heard : DiscState → List Serial
  | .collecting _ _ _ _ _ coll => coll.heard
  | .stopped | .spacing _ | .due _ | .requesting _ _ | .posted _ _ _ _ => []

/-- The lists and counters of one tree stay within the ranges the manual gives them: 32 queued messages and a dispatch count
of 4 (R25), 8 pending serials, none twice (R69), 4 contexts (R77), 128 heard serials, none twice (R85), 15 strikes (R162). -/
structure Tree.Fits (T : Tree) : Prop where
  items    : T.msgq.items.length ≤ 32
  count    : T.msgq.count ≤ 4
  pending  : T.pendingList.length ≤ 8
  serials  : (T.pendingList.map (·.serial)).Nodup
  contexts : T.disc.contexts.length ≤ 4
  heard    : T.disc.state.heard.length ≤ 128 ∧ T.disc.state.heard.Nodup
  strikes  : T.light.strikes ≤ 15

/-- Every tree stays within its ranges. -/
def State.Fits (s : State) : Prop := ∀ t : TreeId, (s.tree t).Fits

/-! ### Serial directory (R42, Law 3) -/

/-- Law 3: no serial twice in the directory, and an item for each entry, naming its tree and TN, and for nothing else. -/
structure State.DirectoryLawful (s : State) : Prop where
  once   : (s.directory.map (·.serial)).Nodup
  sound  : ∀ d ∈ s.directory, ∃ e, s.entry? d.tree d.tn = some e ∧ e.serial = d.serial
  whole  : ∀ t tn e, s.entry? t tn = some e → (⟨e.serial, t, tn⟩ : DirItem) ∈ s.directory

/-! ### A tree that is not ACTIVE (R183, Law 12) -/

/-- A channel has an outstanding request (R151). -/
def ChannelPhase.outstanding : ChannelPhase → Bool
  | .awaiting _ _ | .deferred _ _ | .backingOff _ _ => true
  | .idle | .granted _ _ => false

/-- What a tree outside ACTIVE has given up: its window, its probe operation, its tasks and waiting flags, its pending list,
its light supervision, its sweep and its outstanding requests (R97, R150, R173, R75, R182). -/
structure Tree.AtRest (T : Tree) : Prop where
  op       : T.seq.op = none
  tasks    : T.seq.tasks = []
  sweep    : T.seq.nextSweep = none
  waiting  : ∀ tn e, T.entry? tn = some e → e.waiting = false
  pending  : T.pendingList = []
  light    : T.light = LightMonitor.reset
  requests : ∀ tag, (T.chan tag).phase.outstanding = false

/-- What a CLOSED tree holds none of, besides: entries, queued and owed messages (R183). -/
structure Tree.Empty (T : Tree) : Prop where
  entries : ∀ tn, T.entry? tn = none
  items   : T.msgq.items = []
  owed    : T.msgq.owedBroadcast = false

/-- The Discovery Unit holds no window, and no context where `contexts` is false. -/
def Discovery.Without (d : Discovery) (contexts : Bool) : Prop :=
  (d.state = .stopped ∧ d.contexts = []) ∨ (contexts = true ∧ (d.state = .stopped ∨ d.state = .due none))

/-- An outstanding request stands for an owner that asks: the Discovery Unit, the probe operation or the silence check in
REQUESTING (R80, R104, R151, R162). -/
structure Tree.RequestsOwned (T : Tree) : Prop where
  window  : T.chanWindow.phase.outstanding = true → ∃ w qe, T.disc.state = .requesting w qe
  probe   : T.chanProbe.phase.outstanding = true → ∃ o pl qe, T.seq.op = some o ∧ o.phase = .requesting pl qe
  silence : T.chanSilence.phase.outstanding = true → ∃ p qe, T.light.check = some ⟨p, qe, .requesting⟩

/-- Law 12 with what makes it last: a CLOSED tree is empty and at rest with no context, a CALIBRATING one is the same but
for its contexts, which wait, a CLOSING one is at rest with no context, and an ACTIVE one has no broadcast RETIRE, which the
close alone posts (R182). -/
structure Tree.ClosedLawful (T : Tree) : Prop where
  owned   : T.RequestsOwned
  owes    : ∀ tn e o, T.entry? tn = some e → e.owed = some o → o.msg.isBroadcast = false
  byState :
    match T.ctl.state with
    | .closed => T.AtRest ∧ T.Empty ∧ T.disc.Without false
    | .calibrating _ => T.AtRest ∧ T.Empty ∧ T.disc.Without true
    | .closing => T.AtRest ∧ T.disc.Without false
    | .active => T.msgq.broadcastStands = false

/-- Law 12. -/
def State.ClosedLawful (s : State) : Prop := ∀ t : TreeId, (s.tree t).ClosedLawful

/-! ### Parameter sets (R176) -/

/-- A parameter set that TREE_CONFIG may accept: the ranges of R176's table, line by line, and the cross-check on ART. -/
structure Params.InRange (p : Params) : Prop where
  art          : 100000 ≤ p.art ∧ p.art ≤ 2000000
  frtMin       : p.frtMin ≤ 1750000
  frtMax       : p.frtMin ≤ p.frtMax ∧ p.frtMax ≤ 1750000 ∧ p.frtMax - p.frtMin ≤ 1000000
  arMin        : p.arMin ≤ 131071
  arSpread     : p.arSpread ≤ 8191
  bla          : 64 ≤ p.bla ∧ p.bla ≤ 4096
  u            : 16 ≤ p.u ∧ p.u ≤ 1024
  k            : p.k ≤ 6
  n            : 1 ≤ p.n ∧ p.n ≤ 64
  win          : p.win ≤ 1023
  wout         : p.win < p.wout ∧ (p.wout : Int) ≤ 16 * p.n - 8
  wgross       : p.wout < p.wgross ∧ p.wgross ≤ 65535
  missLimit    : 1 ≤ p.missLimit ∧ p.missLimit ≤ 255
  lostHold     : 1 ≤ p.lostHold ∧ p.lostHold ≤ 65535
  budget       : 16 ≤ p.budget ∧ p.budget ≤ 65535
  askHold      : 1 ≤ p.askHold ∧ p.askHold ≤ 4096
  probeRetries : p.probeRetries ≤ 7
  probeWait    : 8 ≤ p.probeWait ∧ p.probeWait ≤ 4096
  sweepPeriod  : p.sweepPeriod ≤ 65535
  batch        : 1 ≤ p.batch ∧ p.batch ≤ 8
  strikeLimit  : 1 ≤ p.strikeLimit ∧ p.strikeLimit ≤ 15
  silenceLen   : 1000 ≤ p.silenceLen ∧ p.silenceLen ≤ 625000
  huntPause    : 16 ≤ p.huntPause ∧ p.huntPause ≤ 4096
  calSpread    : 1 ≤ p.calSpread ∧ p.calSpread ≤ 255
  defRn        : p.defRn ≤ 131071
  defRtol      : p.defRtol ≤ 8191
  defLa        : p.defLa ≤ 7
  defBp        : 64 ≤ p.defBp ∧ p.defBp ≤ 4096
  defPre       : p.defPre ≤ 3
  cross        : p.frtMax + p.arMin + p.arSpread ≤ p.art

/-! ### Between events -/

/-- The part takes the next event: the reset pin is released (R190), and no delivered record waits for the arbiter, as
`State.PortLawful` says of every state between events (R191). -/
structure State.Taking (s : State) : Prop where
  released : s.resetPin = false
  entered  : ∀ i : Poster, s.port.delivered[i] = []

/-- The part once the one record that poster `p` delivers has been entered (R191..R193). -/
def State.entering (s : State) (p : Poster) (b : ReportBody) : State :=
  { s with port := { s.port with lastServed := p }.enterRecord (newRecord p s.epoch b) }

/-- A delivery of the current epoch's start has been taken. -/
def State.taken (s : State) (a : EpochAction) : State := { s with due := s.due.erase a }

/-- What an entry is, apart from the working fields that its blocks keep in it: instance, serial and state (R33). -/
def Entry.identity (e : Entry) : BitVec 16 × Serial × EntryState := (e.inst, e.serial, e.state)

/-- A slot call for tree `t` finds nothing late, nothing owed and no broadcast RETIRE, so it goes straight to its dispatch
(R28). -/
structure State.SlotReady (s : State) (t : TreeId) : Prop where
  inTime    : ∀ it ∈ (s.tree t).msgq.items, it.late s.epoch = false
  owed      : ∀ tn e, s.entry? t tn = some e → e.owed = none
  broadcast : (s.tree t).msgq.broadcastStands = false

/-- Tree `t` once the head item of its queue has been handed to the framer in the current epoch, before its poster is told,
with `rest` left in the queue (R14, R28). -/
def State.handedOver (s : State) (t : TreeId) (it : Item) (rest : List Item) : State :=
  s.modTree t fun T =>
    { T with
      msgq := { T.msgq with
        items := rest
        count := (if T.msgq.countEpoch = s.epoch then T.msgq.count else 0) + 1
        countEpoch := s.epoch }
      out := { T.out with slots := T.out.slots ++ [(s.epoch, it.msg.encode)] } }

/-- Tree `t` with these items in its downstream queue. -/
def State.withItems (s : State) (t : TreeId) (l : List Item) : State := s.modMsgq t fun q => { q with items := l }

/-- The stale interval count of a tag (R80, R104, R162). -/
def Tree.stale (T : Tree) : Tag → Byte
  | .window => T.disc.stale
  | .probe => T.seq.stale
  | .silence => T.light.stale

/-- The tree with the stale interval count of a tag lowered by one (R85, R111, R165). -/
def Tree.absorb (T : Tree) : Tag → Tree
  | .window => { T with disc := { T.disc with stale := T.disc.stale - 1 } }
  | .probe => { T with seq := { T.seq with stale := T.seq.stale - 1 } }
  | .silence => { T with light := { T.light with stale := T.light.stale - 1 } }

/-- Reference-timed work of a window: its INVITE is posted or has gone (R6, R96). -/
def DiscState.timed : DiscState → Bool
  | .posted _ _ _ _ | .collecting _ _ _ _ _ _ => true
  | .stopped | .spacing _ | .due _ | .requesting _ _ => false

/-- Reference-timed work of a probe operation: its PROBE is posted or has gone (R6, R120). -/
def OpPhase.timed : OpPhase → Bool
  | .posted _ _ _ _ | .listening _ _ _ _ _ => true
  | .held | .waitDelay | .requesting _ _ => false

/-- A silence check that listens to its interval (R6, R173). -/
def CheckPhase.timed : CheckPhase → Bool
  | .listening _ _ => true
  | .requesting => false

/-! ### What a transition posts and asks for -/

/-- The INVITE of a POSTED window stands in the queue (R80). -/
def Tree.windowPosted (T : Tree) : Bool :=
  match T.disc.state with
  | .posted _ _ _ _ => true
  | .stopped | .spacing _ | .due _ | .requesting _ _ | .collecting _ _ _ _ _ _ => false

/-- The PROBE of a POSTED operation stands in the queue (R104). -/
def Tree.opPosted (T : Tree) : Bool :=
  match T.seq.op with
  | some { phase := .posted _ _ _ _, .. } => true
  | _ => false

/-- The PROBE of a POSTED operation for the entry of this TN and instance stands in the queue (R104). -/
def Tree.probePosted (T : Tree) (tn : Nat) (inst : BitVec 16) : Bool :=
  match T.seq.op with
  | some { tn := k, inst := i, phase := .posted _ _ _ _, .. } => k == tn && i == inst
  | _ => false

/-- The queued items that stay once the Discovery Unit has withdrawn its INVITE, where `invite` is set, and the Task
Sequencer its PROBE, where `probe` is set (R29). -/
def Tree.itemsKept (T : Tree) (invite probe : Bool) : List Item :=
  T.msgq.items.filter fun it => !(invite && it.issuer == .discovery) && !(probe && it.issuer == .sequencer)

/-- Tree `t` of `s` without the PROBE that leaves as the entry of TN `tn` is withdrawn (R37, R107). -/
def State.probeGone (s : State) (t : TreeId) (tn : Nat) (inst : BitVec 16) : State :=
  s.withItems t ((s.tree t).itemsKept false ((s.tree t).probePosted tn inst))

/-- Tree `t` of `s` once the RETIRE of an entry that goes to RETIRING has been posted: its resend mark cleared, its PROBE
gone, and the RETIRE queued or owed (R27, R49). -/
def State.retirePosted (s : State) (t : TreeId) (tn : Nat) : State :=
  match s.entry? t tn with
  | none => s
  | some e =>
    (postMust t tn (.retire tn) .registry
      ((s.modEntry t tn fun x => { x with resend := false }).probeGone t tn e.inst)).state

/-- The downstream queue of tree `t`, and what its entries owe, stand in `s'` as in `q` (R25, R27). -/
def State.PostedAs (s' q : State) (t : TreeId) : Prop :=
  (s'.tree t).msgq = (q.tree t).msgq ∧
    ∀ tn, (s'.entry? t tn).map (fun e => (e.owed, e.resend)) = (q.entry? t tn).map fun e => (e.owed, e.resend)

/-- The notice `m` has left on the grant link of tree `t`, behind all that had left before (R38, R159). -/
def State.Sends (s s' : State) (t : TreeId) (m : GrantMsg) : Prop :=
  ∃ more, (s'.tree t).out.grant = (s.tree t).out.grant ++ more ∧ m ∈ more

/-- No task stands for the TN, and no operation is in flight for the entry of this TN and instance (R142). -/
def State.Idles (s : State) (t : TreeId) (tn : Nat) (inst : BitVec 16) : Prop :=
  (∀ k ∈ (s.tree t).seq.tasks, k.tn ≠ tn) ∧ ∀ o, (s.tree t).seq.op = some o → o.tn ≠ tn ∨ o.inst ≠ inst

/-- What a request for an URGENT task leaves in `s'` of the task list of `s`, on a tree that is not CLOSING (R139, R140).
Where no task can be taken: the list is kept for an entry that waits or has an URGENT task; a NORMAL task of its TN is
upgraded; with fewer than 16 tasks the task joins the URGENT class at its tail; in a full list it displaces the last NORMAL
task, or, all being URGENT, its entry waits. Where the tree is free to take it and no other task stands, its operation
begins (R105, R143, R144). -/
structure State.TaskAsked (s s' : State) (t : TreeId) (k : Task) : Prop where
  held  : (s.tree t).isClosing = false → (s.tree t).gateOpen = false ∨ (s.tree t).seq.op ≠ none →
    ∀ old e, old = (s.tree t).seq.tasks → s.entry? t k.tn = some e →
    (s'.tree t).seq.tasks =
        (if e.waiting then old
         else
          match old.find? fun x => x.tn = k.tn with
          | some x => if x.urgent then old else placeUrgent k (old.filter fun x => x.tn ≠ k.tn)
          | none =>
            if old.length < 16 then placeUrgent k old
            else if old.all Task.urgent then old
            else placeUrgent k old.dropLast) ∧
      (s'.entry? t k.tn).map Entry.waiting =
        some (e.waiting ||
          ((old.find? fun x => x.tn = k.tn).isNone && !decide (old.length < 16) && old.all Task.urgent))
  begun : (s.tree t).gateOpen = true → (s.tree t).seq.op = none → (s.tree t).seq.tasks = [] →
    (∀ e, s.entry? t k.tn = some e → e.waiting = false) →
    (s'.tree t).seq.op.map (fun o => (o.tn, o.inst, o.kind, o.expected, o.stage, o.phase.timed)) =
      some (k.tn, k.inst, .range, .ranging, .measure, false)

/-- A hunt's step for the candidate `x` has begun in `s'`, with `h` the hunt then in progress: its entry, OPERATING in `s`,
is MUTED by the hunt and off the air, its work withdrawn, and its MUTE posted on what `q` holds (R168). -/
structure State.StepBegun (s q s' : State) (t : TreeId) (h : Hunt) (x : Candidate) : Prop where
  hunt   : (s'.tree t).light.hunt = some h
  muted  : (s'.entry? t x.tn).map (fun e => (e.inst, e.state)) = some (x.inst, .muted (.hunt false))
  offAir : x.tn ∉ (s'.tree t).onAir ∧ s.Sends s' t (.terminalOff x.tn)
  idles  : s'.Idles t x.tn x.inst
  posted : s'.PostedAs (postMust t x.tn (.mute x.tn) .registry (q.probeGone t x.tn x.inst)).state t

/-- The hunt of tree `t` has ended UNRESOLVED in the current epoch of `s` (R171). -/
structure State.HuntUnresolved (s s' : State) (t : TreeId) : Prop where
  hunt      : (s'.tree t).light.hunt = none
  pause     : (s'.tree t).light.pause = true
  nextCheck : (s'.tree t).light.nextCheck = some (s.epoch + (s.params t).huntPause)

/-- A hunt has started from `s`: its first candidate is muted, once the INVITE of a POSTED window has been withdrawn with the
condition leaving QUIET (R95), or it ends at once with no candidate (R167, R168, R171). -/
def State.HuntStarted (s s' : State) (t : TreeId) : Prop :=
  match (s.tree t).candidates with
  | [] =>
    s.HuntUnresolved s' t ∧
      s'.PostedAs
        (s.withItems t ((s.tree t).itemsKept ((s.tree t).light.light == .quiet && (s.tree t).windowPosted) false)) t
  | x :: rest =>
    s.StepBegun
      (s.withItems t ((s.tree t).itemsKept ((s.tree t).light.light == .quiet && (s.tree t).windowPosted) false)) s' t
      { candidates := x :: rest, rest := rest, current := x, step := .muting, checked := 0, skipped := 0 } x

/-- The entry of a candidate is OPERATING under the candidate's instance: its step can begin (R168). -/
def State.offers (s : State) (t : TreeId) (x : Candidate) : Bool :=
  ((s.entry? t x.tn).map fun e => e.inst == x.inst && e.operating).getD false

/-! ### A time slip -/

/-- What a time slip leaves of a tree in epoch `e` (R6): the INVITE and the PROBE of POSTED work have left the queue; a window in
flight is requested anew, or waits in DUE where the condition is not QUIET (R96); an operation with an interval asked for, held
or running is requested anew, the wait start set where it was POSTED or LISTENING (R120, R145); a check in flight is requested
anew under its purpose (R173); the drift sums of OPERATING entries are 0 and their settle-until is not before `e + 2` (R135); and a
calibration run begins anew with start epoch `e + 4` (R179). -/
structure Tree.Slipped (T T' : Tree) (e : Nat) : Prop where
  queue   : T'.msgq = { T.msgq with items := T.itemsKept T.windowPosted T.opPosted }
  window  :
    T'.disc.state =
      match T.disc.state with
      | .requesting w _ | .posted w _ _ _ =>
        .requesting w ((e + 3) * 625000 + T.ctl.params.frtMin + T.ctl.params.arMin)
      | .collecting w _ _ _ _ _ =>
        if T.light.light = .quiet then .requesting w ((e + 3) * 625000 + T.ctl.params.frtMin + T.ctl.params.arMin)
        else .due (some w)
      | .stopped => .stopped
      | .spacing k => .spacing k
      | .due w => .due w
  op      :
    T'.seq.op =
      T.seq.op.map fun o =>
        match o.phase with
        | .held | .waitDelay => o
        | .requesting pl _ =>
          { o with
            phase := .requesting pl ((e + 3 + max 0 (pl.floor - e - 3)) * 625000 + pl.ldp + pl.cp - pl.half) }
        | .posted pl _ _ _ | .listening pl _ _ _ _ =>
          { o with
            phase := .requesting pl ((e + 3 + max 0 (pl.floor - e - 3)) * 625000 + pl.ldp + pl.cp - pl.half)
            waitStart := e }
  check   :
    T'.light =
      { T.light with
        stale := T'.light.stale
        check := T.light.check.map fun c => { purpose := c.purpose, qe := (e + 3) * 625000, phase := .requesting } }
  entries :
    ∀ tn,
      T'.entry? tn =
        (T.entry? tn).map fun x =>
          { x with
            state :=
              match x.state with
              | .operating d =>
                .operating
                  { d with
                    sum := 0, n := 0
                    settle :=
                      match d.settle with
                      | .epoch k => .epoch (max k (e + 2))
                      | .notYet => .notYet }
              | st => st }
  run     :
    T'.ctl =
      match T.ctl.state with
      | .calibrating r =>
        { T.ctl with
          state :=
            .calibrating
              { run := r.run, start := e + 4, markers := [], pis := [], restarts := min 255 (r.restarts + 1)
                first := r.first } }
      | .closed | .active | .closing => T.ctl

/-! ### Requests sent again -/

/-- How the owner of a standing request forms it anew in the current epoch (R158): the earliest start `qe`, by the figures of
R82, R106 or R164, and where the owner records it (R80, R104, R162). Where no owner asks, in states that no run reaches, the
request keeps its own and nothing is recorded. -/
def State.FormsAnew (s : State) (t : TreeId) (tag : Tag) (req : Request) (qe : Int) (record : State → State) : Prop :=
  match tag with
  | .window =>
    (∃ w q, (s.tree t).disc.state = .requesting w q ∧
        qe = (s.epoch + 3) * 625000 + (s.params t).frtMin + (s.params t).arMin ∧
        record = fun x => x.setDisc t (.requesting w qe)) ∨
      ((∀ w q, (s.tree t).disc.state ≠ .requesting w q) ∧ qe = req.earliest ∧ record = id)
  | .probe =>
    (∃ o pl q, (s.tree t).seq.op = some o ∧ o.phase = .requesting pl q ∧
        qe = (s.epoch + 3 + max 0 (pl.floor - s.epoch - 3)) * 625000 + pl.ldp + pl.cp - pl.half ∧
        record = fun x => x.setOp t (some { o with phase := .requesting pl qe })) ∨
      ((∀ o pl q, (s.tree t).seq.op = some o → o.phase ≠ .requesting pl q) ∧ qe = req.earliest ∧ record = id)
  | .silence =>
    (∃ p q, (s.tree t).light.check = some { purpose := p, qe := q, phase := .requesting } ∧
        qe = (s.epoch + 3) * 625000 ∧
        record = fun x => x.modLight t fun l => { l with check := some { purpose := p, qe := qe, phase := .requesting } }) ∨
      ((∀ p q, (s.tree t).light.check ≠ some { purpose := p, qe := q, phase := .requesting }) ∧ qe = req.earliest ∧
        record = id)

end Sys2Proof.Machine

namespace Sys2Proof

open Machine

/-! ### What a command may touch -/

/-- The command that a delivery of an epoch start is. -/
def EpochAction.command : EpochAction → Instr
  | .activationDeadline t => .activationDeadline t
  | .lostHoldDeadline t => .lostHoldDeadline t
  | .pendingHoldDeadline t => .pendingHoldDeadline t
  | .spacingEnd t => .spacingEnd t
  | .probeWaitExpiry t => .probeWaitExpiry t
  | .auditSweep t => .auditSweep t
  | .heldRecheck t => .heldRecheck t
  | .responseDeadline t tag => .responseDeadline t tag
  | .resendEpoch t tag => .resendEpoch t tag
  | .nextCheckEpoch t => .nextCheckEpoch t
  | .huntCheckEpoch t => .huntCheckEpoch t
  | .loopMarkerEpoch t => .loopMarkerEpoch t

/-- The commands that set every block to its initial values (R190). -/
def Instr.resets : Instr → Bool
  | .powerOn _ | .resetPinRelease _ | .partReset _ => true
  | _ => false

/-- The commands that move the reset pin. -/
def Instr.movesPin : Instr → Bool
  | .resetPinAssert | .resetPinRelease _ => true
  | _ => false

/-- The commands taken whether or not the reset pin is asserted (R190). -/
def Instr.alwaysTaken : Instr → Bool
  | .powerOn _ | .resetPinAssert | .resetPinRelease _ => true
  | _ => false

/-- The commands that set the timebase without resetting the part (R2..R5). -/
def Instr.setsTimebase : Instr → Bool
  | .epochMarker _ _ | .epochStart => true
  | _ => false

/-- The requests that write the catalogue, the barred list or the lock (R62, R66, R67). -/
def Instr.writesAdmission : Instr → Bool
  | .catWrite _ _ _ | .catLock _ | .barWrite _ _ _ => true
  | _ => false

/-- The request that writes a parameter set (R176). -/
def Instr.writesParams : Instr → Bool
  | .treeConfig _ _ _ => true
  | _ => false

/-- The requests of the host processor, malformed ones among them (R186, R194). -/
def Instr.isRequest : Instr → Bool
  | .malformedFrame => true
  | .readTransaction _ => false
  | c => (encodeFrame c).isSome

/-- The one tree whose blocks a command acts on; none for a command of the whole part, and for the two whose decision reaches
other trees' tables and pending lists: a tag-0 burst (R46, R74) and ADMIT (R74). -/
def Instr.onlyTree : Instr → Option TreeId
  | .activationDeadline t | .lostHoldDeadline t | .pendingHoldDeadline t | .spacingEnd t | .probeWaitExpiry t
  | .auditSweep t | .heldRecheck t | .responseDeadline t _ | .resendEpoch t _ | .nextCheckEpoch t | .huntCheckEpoch t
  | .loopMarkerEpoch t | .slotCall t | .intervalEnd t _ | .grantedBurst t _ _ _ | .miss t _ _ | .ungrantedLight t _
  | .continuousLight t _ | .loop t _ | .grant t _ _ _ | .defer t _ _ _ | .schedulerRefuse t _ _ => some t
  | .quietIntervalBurst t tag _ _ _ => if tag = .window then none else some t
  | .treeConfig _ b _ | .treeReadConfig _ b | .treeOpen _ b | .treeClose _ b | .treeStatus _ b | .ctxPush _ b _
  | .ctxFlush _ b | .treeSuspend _ b | .treeResume _ b | .forceQuiet _ b | .refuse _ b _ | .rangeNow _ b _
  | .retireTn _ b _ | .muteTn _ b _ | .unmuteTn _ b _ | .readEntry _ b _ => parseTree b
  | .powerOn _ | .resetPinAssert | .resetPinRelease _ | .epochMarker _ _ | .epochStart | .malformedFrame
  | .readTransaction _ | .identify _ | .partSetup _ _ | .partReset _ | .fetchReports _ _ | .catWrite _ _ _ | .catRead _ _
  | .catLock _ | .barWrite _ _ _ | .barRead _ _ | .admitSerial _ _ _ | .findSerial _ _ => none

end Sys2Proof
end

