-- ==== Sys2Proof/Certificates/Slice0/Obligations.lean ====
section
/-! DEFINITION. The statements about the model: what the machine keeps, and what each command leaves. -/

open Sys2Proof Sys2Proof.Machine

/-! ### The machine as a whole -/

/-- A step runs the command at the front of the queue with the queue's rest, and an empty queue leaves the part idle (both
the model's choice of how commands come to the part: notes/assumptions/13.md). -/
def Obligations.StepRunsFront : Prop :=
  (∀ (c : Instr) (rest : List Instr) (s : State),
      step { s with pending := c :: rest } = exec c { s with pending := rest }) ∧
    ∀ s : State, s.pending = [] → step s = .next s

/-- What the manual says the part holds after power-on with the reset pin released (R13, R25, R34, R60, R77, R80, R104, R137,
R151, R161, R162, R175, R190). -/
def Obligations.ResetValues : Prop :=
  State.reset.timebase = { status := .waiting, count := 0, slipCount := 0 } ∧
    (State.reset.port.holder = none ∧ State.reset.port.queue = [] ∧ State.reset.port.lost = 0 ∧
      State.reset.port.policy = .keepOldest ∧ State.reset.port.watermark = 1 ∧
      State.reset.port.lastServed = partWide ∧ State.reset.port.attention = false) ∧
    (State.reset.admission.lock = false ∧
      (∀ i : Fin 8, State.reset.admission.bars[i] = { valid := false, vendor := 0, low := 0, high := 0 }) ∧
      ∀ i : Fin 64,
        State.reset.admission.cat[i] =
          { valid := false, vendor := 0, model := 0, refuse := false, rn := 0, rtol := 0, la := 0, bp := 64, pre := 0 }) ∧
    State.reset.directory = [] ∧
    ∀ t : TreeId,
      ((State.reset.tree t).ctl.state = .closed ∧ (State.reset.tree t).ctl.configured = false ∧
        (State.reset.tree t).ctl.p = 0 ∧ (State.reset.tree t).ctl.suspended = false ∧
        (State.reset.tree t).ctl.params =
          { art := 0, frtMin := 0, frtMax := 0, arMin := 0, arSpread := 0, bla := 0, u := 0, k := 0, n := 0, win := 0
            wout := 0, wgross := 0, missLimit := 0, lostHold := 0, budget := 0, askHold := 0, probeRetries := 0
            probeWait := 0, sweepPeriod := 0, batch := 0, strikeLimit := 0, silenceLen := 0, huntPause := 0
            calSpread := 0, queueMode := .hold, defRn := 0, defRtol := 0, defLa := 0, defBp := 64, defPre := 0 }) ∧
      (∀ tn, (State.reset.tree t).entry? tn = none ∧ (State.reset.tree t).slotInst tn = 0) ∧
      ((State.reset.tree t).onAir = [] ∧ (State.reset.tree t).pendingList = []) ∧
      ((State.reset.tree t).msgq.items = [] ∧ (State.reset.tree t).msgq.owedBroadcast = false ∧
        (State.reset.tree t).msgq.count = 0) ∧
      (∀ tag, (State.reset.tree t).chan tag = { phase := .idle, number := 0 }) ∧
      (State.reset.tree t).disc =
        { contexts := [], state := .stopped, repeatIndex := 0, flushed := false, nextWindow := 0, stale := 0 } ∧
      (State.reset.tree t).seq = { tasks := [], op := none, stale := 0, sweepPtr := 0, nextSweep := none } ∧
      (State.reset.tree t).light =
        { light := .unknown, strikes := 0, check := none, nextCheck := none, stale := 0, hunt := none, pause := false } ∧
      (State.reset.tree t).out.grant = [.allOff]

/-- The laws of the device hold right after reset. -/
def Obligations.LawsAtReset : Prop :=
  State.reset.PortLawful ∧ State.reset.TasksLawful ∧ State.reset.ResidualsLawful ∧ State.reset.Fits ∧
    State.reset.DirectoryLawful ∧ State.reset.ClosedLawful ∧ State.reset.EntriesLawful

/-- The frame that carries a request, and the bytes of a read, spell that command again, with every operand (R186, R188,
R194). It says nothing of a malformed transaction, for which `encodeFrame` gives no bytes. -/
def Obligations.FrameRoundTrip : Prop :=
  ∀ (c : Instr) (f : List Byte), encodeFrame c = some f → decodeFrame f = c

/-- While the reset pin is asserted nothing but the pin's release and power-on is taken (R190; for SLOT_CALL and the epoch
starts DEDUCED, notes/assumptions/16.md). -/
def Obligations.NothingTakenInReset : Prop :=
  ∀ (c : Instr) (s : State), s.resetPin = true → c.alwaysTaken = false → exec c s = .next s

/-- Law 13, the counter, the watermark and the attention line are kept by every step (R191..R193). -/
def Obligations.PortLawKept : Prop :=
  ∀ s s' : State, s.PortLawful → step s = .next s' → s'.PortLawful

/-- Law 10 is kept by every step (R137, R139..R141). -/
def Obligations.TaskLawKept : Prop :=
  ∀ s s' : State, s.TasksLawful → step s = .next s' → s'.TasksLawful

/-- Law 8 is kept by every step (R100, R102), and so are Law 1 (R38), Law 7 (R100, R102) and Law 9 (R126) in states that keep
Law 12, by which a CLOSED tree, whose parameters alone may change, has no entries. -/
def Obligations.EntryLawsKept : Prop :=
  (∀ s s' : State, s.ResidualsLawful → step s = .next s' → s'.ResidualsLawful) ∧
    ∀ s s' : State, s.ClosedLawful → s.EntriesLawful → step s = .next s' → s'.EntriesLawful

/-- The capacities of the lists and counters of a tree are kept by every step (R25, R26, R69, R77, R85, R162). -/
def Obligations.CapacitiesKept : Prop :=
  ∀ s s' : State, s.Fits → step s = .next s' → s'.Fits

/-- Law 3 is kept by every step (R42). -/
def Obligations.DirectoryLawKept : Prop :=
  ∀ s s' : State, s.DirectoryLawful → step s = .next s' → s'.DirectoryLawful

/-- Law 12, with what a tree outside ACTIVE has given up, is kept by every step (R182, R183). -/
def Obligations.ClosedLawKept : Prop :=
  ∀ s s' : State, s.ClosedLawful → step s = .next s' → s'.ClosedLawful

/-- A command on one tree leaves every other tree as it is. -/
def Obligations.OtherTreesUntouched : Prop :=
  ∀ (c : Instr) (t : TreeId) (s s' : State), c.onlyTree = some t → exec c s = .next s' → ∀ j, j ≠ t → s'.tree j = s.tree j

/-- The timebase is set by markers, epoch starts and resets alone (R2..R5, R13), the catalogue, the barred list, the lock
and the strap value by their requests and the resets alone (R60, R62, R66, R67), the reset pin by its own two commands
(R190), and a parameter set by TREE_CONFIG and the resets alone (R175). Two points are the model's choice and not the
rules': that no command touches the queue of waiting commands, a field of the model's own (DESIGN CHOICE,
notes/assumptions/13.md), POWER_ON among them (DESIGN CHOICE, notes/assumptions/19.md); and that POWER_ON keeps the pin's
level (DESIGN CHOICE, unsafe, notes/assumptions/19.md). -/
def Obligations.PartWideFrame : Prop :=
  ∀ (c : Instr) (s s' : State), exec c s = .next s' →
    s'.pending = s.pending ∧
      (c.resets = false → c.setsTimebase = false → s'.timebase = s.timebase) ∧
      (c.resets = false → c.writesAdmission = false → s'.admission = s.admission) ∧
      (c.movesPin = false → s'.resetPin = s.resetPin) ∧
      (c.resets = false → c.writesParams = false → ∀ t, s'.params t = s.params t)

/-- What the four resets leave (R13, R60, R161, R190): every block at its values, one ALL_OFF more on each grant link;
PART_RESET keeps the catalogue, the barred list, the lock and the strap value and fills the holder, the pin's release and
power-on empty them and sample the strap, and the pin's assertion releases the attention line. Three clauses are the model's
choice and not R190's: that the blocks keep what they hold while the pin is asserted (DESIGN CHOICE,
notes/assumptions/17.md); that power-on keeps the queue, the pin's level and freeIndex and begins the links' history afresh
(DESIGN CHOICE, notes/assumptions/19.md); and that a release is taken where the pin is not asserted (DESIGN CHOICE,
notes/assumptions/20.md). -/
def Obligations.ResetsSetTheBlocks : Prop :=
  (∀ (s : State) (tag : Byte), s.resetPin = false →
      exec (.partReset tag) s =
        .next
          { s with
            timebase := Timebase.reset, due := [], directory := [], trees := resetTrees s.trees
            port := { Port.reset with holder := some { tag := tag, code := .ok, body := [] }, miso := .allOnes } }) ∧
    (∀ (s : State) (strap : Bool),
      exec (.resetPinRelease strap) s =
        .next
          { s with
            resetPin := false, timebase := Timebase.reset, due := [], directory := [], trees := resetTrees s.trees
            port := Port.reset, admission := Admission.reset strap }) ∧
    (∀ (s : State) (strap : Bool),
      exec (.powerOn strap) s =
        .next
          { State.reset with
            pending := s.pending, resetPin := s.resetPin, admission := Admission.reset strap, freeIndex := s.freeIndex }) ∧
    ∀ s : State,
      exec .resetPinAssert s =
        .next { s with resetPin := true, port := { s.port with attention := false, miso := .undriven } }

/-! ### The Timebase (chapter 1) -/

/-- A marker off the boundary realigns the count to the nearer boundary and raises the slip count (R5). Afterwards no window,
operation or silence check of any tree stands in a reference-timed phase, and the drift sums are clear (R6, R96, R120, R135,
R173). Where no delivery is taken with the marker, each tree is as `Tree.Slipped` says: the INVITE and PROBE of POSTED work are
out of the queue, work in flight is requested anew in the epoch after realignment, settle-until is raised, and a calibration run
begins anew (R179); and where the report queue has room for a TIME_SLIP report and one record of each tree, the part-wide
poster's TIME_SLIP stands in it with the count before realignment, the offset, the correction and the raised slip count, under
the epoch after realignment (R6, R191). That the sums of a CLOSING tree are clear too is the model's choice (DESIGN CHOICE,
notes/assumptions/40.md). The count past its 64-bit span is a free value (notes/assumptions/2.md), so the statement is about
epochs within it. -/
def Obligations.MarkersRealign : Prop :=
  ∀ (s : State) (f : Fin 10000000) (early : List EpochAction), s.Taking → s.timebase.status = .running → 0 < f.val →
    10000000 * (s.epoch + 1) < 2 ^ 64 →
    ∃ s', exec (.epochMarker f early) s = .next s' ∧
      s'.timebase =
        { status := .running
          count := BitVec.ofNat 64 (10000000 * if f.val < 5000000 then s.epoch else s.epoch + 1)
          slipCount := min 255 (s.timebase.slipCount + 1) } ∧
      (f.val < 5000000 ∨ (s.due = [] ∧ early = []) → s.port.queue.length ≤ 59 →
        ∃ lost,
          { body := .timeSlip (BitVec.ofNat 64 (10000000 * s.epoch + f.val)) f.val
              (if f.val < 5000000 then -(f.val : Int) else 10000000 - (f.val : Int))
              (min 255 (s.timebase.slipCount + 1))
            poster := partWide, epoch := s'.epoch % 2 ^ 32, lostBefore := lost } ∈ s'.port.queue) ∧
      ∀ t,
        (s'.tree t).disc.state.timed = false ∧
          (∀ o, (s'.tree t).seq.op = some o → o.phase.timed = false) ∧
          (∀ c, (s'.tree t).light.check = some c → c.phase.timed = false) ∧
          (∀ tn e d, s'.entry? t tn = some e → e.state = .operating d → d.sum = 0 ∧ d.n = 0) ∧
          (f.val < 5000000 ∨ (s.due = [] ∧ early = []) → (s.tree t).Slipped (s'.tree t) s'.epoch)

/-- The first marker starts the timebase, and a marker on an epoch boundary changes nothing (R2, R4); in WAITING no epoch
start is produced (R1); in RUNNING one begins the epoch of the next whole multiple of 10,000,000, and every delivery of it
stands to be taken (R3). Three points are the model's choice and not the rules': that EPOCH_START is what sets the count to
that multiple, where R1 has the count advance by itself (DESIGN CHOICE, notes/assumptions/5.md); the list of deliveries,
with those still standing taken before (DESIGN CHOICE, notes/assumptions/1.md); and the count past its 64-bit span, a free
value (DESIGN CHOICE, notes/assumptions/2.md). -/
def Obligations.TimebaseRuns : Prop :=
  ∀ s : State, s.Taking →
    (∀ (f : Fin 10000000) (early : List EpochAction), s.timebase.status = .waiting →
        exec (.epochMarker f early) s =
          .next { s with timebase := { status := .running, count := 0, slipCount := 0 }, due := allDeliveries }) ∧
      (∀ early : List EpochAction, s.timebase.status = .running → exec (.epochMarker 0 early) s = .next s) ∧
      (s.timebase.status = .waiting → exec .epochStart s = .next s) ∧
      (s.timebase.status = .running → 10000000 * (s.epoch + 1) < 2 ^ 64 →
        ∃ s', exec .epochStart s = .next s' ∧
          s'.timebase = { s.timebase with count := BitVec.ofNat 64 (10000000 * (s.epoch + 1)) } ∧
          s'.epoch = s.epoch + 1 ∧ s'.due = allDeliveries) ∧
      (s.timebase.status = .running → 10000000 * (s.epoch + 1) < 2 ^ 64 → s.due = [] →
        exec .epochStart s =
          .next
            { s with
              timebase := { s.timebase with count := BitVec.ofNat 64 (10000000 * (s.epoch + 1)) }
              due := allDeliveries })

/-- Each delivery of an epoch start is taken once: a second command for it changes nothing (R3, R10; the list of deliveries
that stand is the model's, notes/assumptions/1.md). -/
def Obligations.DeliveriesTakenOnce : Prop :=
  ∀ (a : EpochAction) (s : State), s.Taking →
    (a ∉ s.due → exec a.command s = .next s) ∧
      (a ∈ s.due → ∃ s', exec a.command s = .next s' ∧ s'.due = s.due.erase a ∧ s'.timebase = s.timebase)

/-! ### Deadlines of entries and of pending records -/

/-- At the epoch start of its activation deadline an entry goes to RETIRING, its task and probe withdrawn and its RETIRE
queued or owed, in ascending TN order; every other entry keeps its instance, serial and state (R149, R49). -/
def Obligations.ActivationDeadlinesRetire : Prop :=
  ∀ (s : State) (t : TreeId), s.Taking → .activationDeadline t ∈ s.due →
    ∃ s', exec (.activationDeadline t) s = .next s' ∧
      (∀ tn,
        (s'.entry? t tn).map Entry.identity =
          (s.entry? t tn).map fun e =>
            if e.activation? = some s.epoch then (e.inst, e.serial, .retiring) else e.identity) ∧
      s'.PostedAs
        (((s.tree t).tnsWith fun e => e.activation? = some s.epoch).foldl (fun q tn => q.retirePosted t tn) s) t ∧
      (∀ tn e, s.entry? t tn = some e → e.activation? = some s.epoch → s'.Idles t tn e.inst) ∧
      s'.directory = s.directory ∧ (s'.tree t).pendingList = (s.tree t).pendingList ∧
      (s'.tree t).onAir = (s.tree t).onAir ∧ ∀ j, j ≠ t → s'.tree j = s.tree j

/-- At the epoch start of its lost hold a LOST entry is freed, its slot keeping the instance number and its serial leaving
the directory; every other entry keeps its instance, serial and state (R48, R51). -/
def Obligations.LostHoldsFree : Prop :=
  ∀ (s : State) (t : TreeId), s.Taking → .lostHoldDeadline t ∈ s.due →
    ∃ s', exec (.lostHoldDeadline t) s = .next s' ∧
      (∀ tn,
        (s'.entry? t tn).map Entry.identity =
            ((s.entry? t tn).filter fun e => e.state ≠ .lost s.epoch).map Entry.identity ∧
          (s'.tree t).slotInst tn = (s.tree t).slotInst tn) ∧
      (∀ d, d ∈ s'.directory ↔
        d ∈ s.directory ∧ ∀ tn e, s.entry? t tn = some e → e.state = .lost s.epoch → e.serial ≠ d.serial) ∧
      (s'.tree t).onAir = (s.tree t).onAir ∧ (s'.tree t).msgq.owedBroadcast = (s.tree t).msgq.owedBroadcast ∧
      ∀ j, j ≠ t → s'.tree j = s.tree j

/-- At the epoch start of their hold deadline pending records leave their list, the others keeping their order, one TIMED_OUT
report is entered for each in list order, and nothing else changes (R71). -/
def Obligations.PendingHoldsEnd : Prop :=
  ∀ (s : State) (t : TreeId), s.Taking → .pendingHoldDeadline t ∈ s.due →
    exec (.pendingHoldDeadline t) s =
      .next
        (((s.tree t).pendingList.filter fun r => r.deadline = s.epoch).foldl
          (fun s r =>
            s.entering (treePoster t)
              (.admission .timedOut .hold 0 r.serial r.model r.c (some r.profile.origins) 0 none))
          ((s.taken (.pendingHoldDeadline t)).modPending t fun l => l.filter fun r => r.deadline ≠ s.epoch))

/-! ### The tree blocks at an epoch start -/

/-- The spacing end moves the unit to DUE without a window copy; with the gate open and a context queued the next cycle
starts at once on the head of the queue (R81, R82, R93). That DUE without a window copy keeps the repeat index of the last
cycle is the model's choice (DESIGN CHOICE, notes/assumptions/41.md). -/
def Obligations.SpacingEndsInDue : Prop :=
  ∀ (s : State) (t : TreeId), s.Taking → .spacingEnd t ∈ s.due →
    ((s.tree t).disc.state = .spacing s.epoch → (s.tree t).gateOpen = false ∨ (s.tree t).disc.contexts = [] →
        exec (.spacingEnd t) s = .next ((s.taken (.spacingEnd t)).setDisc t (.due none))) ∧
      (∀ h rest, (s.tree t).disc.state = .spacing s.epoch → (s.tree t).gateOpen = true →
        cycleQueue (s.params t).queueMode (s.tree t).disc.contexts = h :: rest →
        exec (.spacingEnd t) s =
          .next
            ((chanSend t .window
                { kind := .quiet
                  length := h.ctx.dspan + ((s.params t).frtMax - (s.params t).frtMin) + (s.params t).arSpread
                    + (s.params t).bla
                  earliest := (s.epoch + 3) * 625000 + (s.params t).frtMin + (s.params t).arMin }
                (s.taken (.spacingEnd t))).modDisc t fun d =>
              { d with
                contexts := { h with held := false } :: rest, repeatIndex := 0, flushed := false
                state := .requesting h.ctx
                  ((s.epoch + 3) * 625000 + (s.params t).frtMin + (s.params t).arMin) })) ∧
      ((s.tree t).disc.state ≠ .spacing s.epoch →
        exec (.spacingEnd t) s = .next (s.taken (.spacingEnd t)))

/-- An operation that has waited ProbeWait epochs in HELD or REQUESTING is abandoned, and its entry goes to LOST, with
nothing posted, when it has ever operated and to RETIRING with its RETIRE posted otherwise (R44, R49); in any other phase,
or at any other epoch start, nothing happens (R145, R118). -/
def Obligations.ProbeWaitGivesUp : Prop :=
  ∀ (s : State) (t : TreeId) (o : ProbeOp), s.Taking → .probeWaitExpiry t ∈ s.due → (s.tree t).seq.op = some o →
    (∀ e, o.waiting = true → o.waitStart + (s.params t).probeWait = s.epoch → s.entry? t o.tn = some e →
        e.isIn o.inst o.expected.name = true →
        ∃ s', exec (.probeWaitExpiry t) s = .next s' ∧
          (s'.entry? t o.tn).map Entry.identity =
            some (e.inst, e.serial, if e.ever then .lost (s.epoch + (s.params t).lostHold) else .retiring) ∧
          s'.PostedAs (if e.ever then s else s.retirePosted t o.tn) t ∧
          (∀ o', (s'.tree t).seq.op = some o' → o'.tn ≠ o.tn) ∧
          s'.directory = s.directory ∧ ∀ j, j ≠ t → s'.tree j = s.tree j) ∧
      (o.waiting = false ∨ o.waitStart + (s.params t).probeWait ≠ s.epoch →
        exec (.probeWaitExpiry t) s = .next (s.taken (.probeWaitExpiry t)))

/-- The audits that a sweep queues where the list has room and nothing is taken: one for each of the first Batch TNs after
the pointer whose entry is OPERATING with no task and no operation (R148). -/
def Obligations.SweepsQueueAudits : Prop :=
  ∀ (s : State) (t : TreeId), s.Taking → .auditSweep t ∈ s.due →
    (∀ targets, (s.tree t).seq.nextSweep = some s.epoch → (s.tree t).isClosing = false →
        (s.tree t).gateOpen = false ∨ (s.tree t).seq.op ≠ none →
        (∀ tn e, s.entry? t tn = some e → e.waiting = false) →
        (s.tree t).seq.tasks.length + (s.params t).batch ≤ 16 →
        targets =
          ((sweepOrder (s.tree t).seq.sweepPtr).filterMap fun tn =>
            ((s.tree t).sweepable tn).map fun e => (tn, e.inst)).take (s.params t).batch →
        exec (.auditSweep t) s =
          .next
            ((s.taken (.auditSweep t)).modSeq t fun q =>
              { q with
                tasks := q.tasks ++ targets.map fun x => { tn := x.1, inst := x.2, kind := .audit }
                sweepPtr := (targets.map Prod.fst).getLastD q.sweepPtr
                nextSweep := some (s.epoch + (s.params t).sweepPeriod) })) ∧
      ((s.tree t).seq.nextSweep ≠ some s.epoch → exec (.auditSweep t) s = .next (s.taken (.auditSweep t)))

/-- An operation in HELD goes on once no delay message stands for its TN, from the epoch just started; otherwise it stays
(R105, R106). -/
def Obligations.HeldOperationsGoOn : Prop :=
  ∀ (s : State) (t : TreeId), s.Taking → .heldRecheck t ∈ s.due →
    (∀ o e, (s.tree t).seq.op = some o → o.phase = .held → o.stage = .measure → s.entry? t o.tn = some e →
        e.rrt ≠ none →
        exec (.heldRecheck t) s =
          .next
            (if (s.tree t).delayStands o.tn e then s.taken (.heldRecheck t)
             else
               let pl : Placement :=
                { floor := s.epoch + e.profile.la.value + 2, ldp := e.ld, cp := e.c
                  half := (s.params t).u + e.profile.rtol.value
                  length := 2 * ((s.params t).u + e.profile.rtol.value) + e.profile.bp.value }
               let qe : Int := (s.epoch + 3 + max 0 (pl.floor - s.epoch - 3)) * 625000 + pl.ldp + pl.cp - pl.half
               (chanSend t .probe { kind := .quiet, length := pl.length, earliest := qe }
                  (s.taken (.heldRecheck t))).setOp t (some { o with phase := .requesting pl qe }))) ∧
      ((∀ o, (s.tree t).seq.op = some o → o.phase ≠ .held) →
        exec (.heldRecheck t) s = .next (s.taken (.heldRecheck t)))

/-- A REFUSE of the awaited request, or its response deadline, makes the channel wait four epochs; a REFUSE of another number
or in another phase, and a deadline not reached, change nothing (R157). -/
def Obligations.UnansweredRequestsBackOff : Prop :=
  ∀ (s : State) (t : TreeId) (tag : Tag), s.Taking →
    (∀ number req d, (s.chan t tag).phase = .awaiting req d →
        exec (.schedulerRefuse t tag number) s =
          .next
            (if number = (s.chan t tag).number then
              s.setChan t tag { phase := .backingOff req (s.epoch + 4), number := number }
             else s)) ∧
      (∀ number, (∀ req d, (s.chan t tag).phase ≠ .awaiting req d) →
        exec (.schedulerRefuse t tag number) s = .next s) ∧
      (∀ req d, .responseDeadline t tag ∈ s.due → (s.chan t tag).phase = .awaiting req d →
        exec (.responseDeadline t tag) s =
          .next
            (if d = s.epoch then
              (s.taken (.responseDeadline t tag)).setChan t tag
                { phase := .backingOff req (s.epoch + 4), number := (s.chan t tag).number }
             else s.taken (.responseDeadline t tag))) ∧
      (.responseDeadline t tag ∈ s.due → (∀ req d, (s.chan t tag).phase ≠ .awaiting req d) →
        exec (.responseDeadline t tag) s = .next (s.taken (.responseDeadline t tag)))

/-- A DEFER of the awaited request with a later epoch waits for that epoch, and one with the current epoch or an earlier one
sends the request again at once, as the epoch start of a re-send epoch does; anything else changes nothing (R156, R158). A
request sent again keeps its length and takes the earliest start that its owner forms anew and records: (e + 3)·625,000 +
FRTmin + ARmin for a window (R82), (e + 3 + max(0, F − e − 3))·625,000 + LDp + cp − H for a probe (R106), (e + 3)·625,000
for a silence check (R164). -/
def Obligations.RequestsSentAgain : Prop :=
  ∀ (s : State) (t : TreeId) (tag : Tag), s.Taking →
    (∀ number notBefore req d qe record, (s.chan t tag).phase = .awaiting req d → s.FormsAnew t tag req qe record →
        exec (.defer t tag number notBefore) s =
          .next
            (if number ≠ (s.chan t tag).number then s
             else if s.epoch < notBefore then
              s.setChan t tag { phase := .deferred req notBefore, number := number }
             else record (chanSend t tag { req with earliest := qe } s))) ∧
      (∀ number notBefore, (∀ req d, (s.chan t tag).phase ≠ .awaiting req d) →
        exec (.defer t tag number notBefore) s = .next s) ∧
      (∀ req e qe record, .resendEpoch t tag ∈ s.due →
        (s.chan t tag).phase = .deferred req e ∨ (s.chan t tag).phase = .backingOff req e →
        s.FormsAnew t tag req qe record →
        exec (.resendEpoch t tag) s =
          .next
            (if e = s.epoch then record (chanSend t tag { req with earliest := qe } (s.taken (.resendEpoch t tag)))
             else s.taken (.resendEpoch t tag))) ∧
      (.resendEpoch t tag ∈ s.due →
        (∀ req e, (s.chan t tag).phase ≠ .deferred req e ∧ (s.chan t tag).phase ≠ .backingOff req e) →
        exec (.resendEpoch t tag) s = .next (s.taken (.resendEpoch t tag)))

/-- What sending, withdrawing and releasing do to a channel: a send raises the number, sends the request behind what was sent
before and waits eight epochs for the response, whatever stood before (R152); a withdrawal ends a standing request, keeps the
number and sends nothing (R153); a release returns a held grant and does nothing else (R155). A withdrawal in GRANTED changes
nothing by R153, where R155 counts a withdrawal among the ends of a held grant: the choice between the two is the model's
(DESIGN CHOICE, notes/assumptions/43.md). -/
def Obligations.ChannelOperations : Prop :=
  ∀ (s : State) (t : TreeId) (tag : Tag),
    (∀ req,
      ((chanSend t tag req s).tree t).chan tag =
          { phase := .awaiting req (s.epoch + 8), number := (s.chan t tag).number + 1 } ∧
        ((chanSend t tag req s).tree t).out.grant =
          (s.tree t).out.grant ++ [.request tag ((s.chan t tag).number + 1) req.kind req.length req.earliest]) ∧
      ((chanWithdraw t tag s).chan t tag).number = (s.chan t tag).number ∧
      ((s.chan t tag).phase.outstanding = true → ((chanWithdraw t tag s).chan t tag).phase = .idle) ∧
      ((chanWithdraw t tag s).tree t).out = (s.tree t).out ∧
      ((s.chan t tag).phase.outstanding = false → chanWithdraw t tag s = s) ∧
      (∀ number start, (s.chan t tag).phase = .granted number start →
        ((chanRelease t tag s).tree t).chan tag = { phase := .idle, number := (s.chan t tag).number } ∧
          ((chanRelease t tag s).tree t).out.grant = (s.tree t).out.grant ++ [.release tag number]) ∧
      ((∀ number start, (s.chan t tag).phase ≠ .granted number start) → chanRelease t tag s = s)

/-- At the next check epoch a silence check of purpose OPEN is sent, or of purpose PAUSE behind an unresolved hunt, and at
the check epoch of a settling hunt step one of purpose HUNT; otherwise nothing happens (R163, R164, R169, R171). That the
next check epoch becomes none once a check of purpose PAUSE is sent is the model's choice (DESIGN CHOICE,
notes/assumptions/44.md). -/
def Obligations.SilenceChecksSent : Prop :=
  ∀ (s : State) (t : TreeId), s.Taking →
    (.nextCheckEpoch t ∈ s.due →
        exec (.nextCheckEpoch t) s =
          .next
            (if (s.tree t).light.nextCheck = some s.epoch then
              (chanSend t .silence
                  { kind := .silence, length := (s.params t).silenceLen, earliest := (s.epoch + 3) * 625000 }
                  (s.taken (.nextCheckEpoch t))).modLight t fun l =>
                { l with
                  nextCheck := none
                  check := some
                    { purpose := if (s.tree t).light.pause then .pause else .opening
                      qe := (s.epoch + 3) * 625000, phase := .requesting } }
             else s.taken (.nextCheckEpoch t))) ∧
      (∀ h, .huntCheckEpoch t ∈ s.due → (s.tree t).light.hunt = some h →
        exec (.huntCheckEpoch t) s =
          .next
            (if h.step = .settling s.epoch then
              (chanSend t .silence
                  { kind := .silence, length := (s.params t).silenceLen, earliest := (s.epoch + 3) * 625000 }
                  (s.taken (.huntCheckEpoch t))).modLight t fun l =>
                { l with
                  hunt := some { h with step := .checking }
                  check := some { purpose := .hunt, qe := (s.epoch + 3) * 625000, phase := .requesting } }
             else s.taken (.huntCheckEpoch t))) ∧
      (.huntCheckEpoch t ∈ s.due → (s.tree t).light.hunt = none →
        exec (.huntCheckEpoch t) s = .next (s.taken (.huntCheckEpoch t)))

/-- At an epoch start of a calibration run a marker without a record for four epochs fails the run: the first run is followed
by a second four epochs on, and the second returns the tree to CLOSED with its contexts emptied, P kept and the TREE report
CAL_FAILED, MISSING; otherwise a loop marker is placed while fewer than sixteen are (R179, R180). -/
def Obligations.LoopMarkersPlaced : Prop :=
  ∀ (s : State) (t : TreeId), s.Taking → .loopMarkerEpoch t ∈ s.due →
    (∀ r, (s.tree t).ctl.state = .calibrating r →
        ((r.markers.drop r.pis.length).all fun m => m + 4 ≠ s.epoch) = true →
        exec (.loopMarkerEpoch t) s =
          .next
            (if r.start ≤ s.epoch ∧ r.markers.length < 16 then
              (s.taken (.loopMarkerEpoch t)).modTree t fun T =>
                { T with
                  ctl := { T.ctl with state := .calibrating { r with markers := r.markers ++ [s.epoch] } }
                  out := { T.out with loops := T.out.loops ++ [s.epoch] } }
             else s.taken (.loopMarkerEpoch t))) ∧
      (∀ r m, (s.tree t).ctl.state = .calibrating r → m ∈ r.markers.drop r.pis.length → m + 4 = s.epoch → r.run = 1 →
        exec (.loopMarkerEpoch t) s =
          .next
            ((s.taken (.loopMarkerEpoch t)).modCtl t fun c =>
              { c with
                state := .calibrating
                  { run := 2, start := s.epoch + 4, markers := [], pis := [], restarts := r.restarts
                    first := some .missing } })) ∧
      (∀ r m, (s.tree t).ctl.state = .calibrating r → m ∈ r.markers.drop r.pis.length → m + 4 = s.epoch → r.run = 2 →
        ∃ s', exec (.loopMarkerEpoch t) s = .next s' ∧
          (s'.tree t).ctl = { (s.tree t).ctl with state := .closed, suspended := false } ∧
          (s'.tree t).disc =
            { contexts := [], state := .stopped, repeatIndex := 0, flushed := false
              nextWindow := (s.tree t).disc.nextWindow, stale := 0 } ∧
          (s'.tree t).seq.sweepPtr = 0 ∧ (s'.tree t).seq.nextSweep = none ∧ (∀ j, j ≠ t → s'.tree j = s.tree j) ∧
          ((∀ w n qs gw d coll, (s.tree t).disc.state ≠ .collecting w n qs gw d coll) →
            s'.port =
              (s.entering (treePoster t)
                (.tree .calibrating .closed .calFailed (s.tree t).ctl.p 2 r.restarts (some .missing) 0 0)).port)) ∧
      ((∀ r, (s.tree t).ctl.state ≠ .calibrating r) →
        exec (.loopMarkerEpoch t) s = .next (s.taken (.loopMarkerEpoch t)))

/-! ### Slot calls (R28) -/

/-- A slot call, step by step (R28). Expiry: the first late item leaves the list and its poster is told, a window or an
operation in POSTED counting its spent interval and asking again (R84, R110), and the slot call goes on; that several late
posters are told one by one in list order, which fixes the order in which they ask again on the grant link, is the model's
choice and not R28's (DESIGN CHOICE, unsafe, notes/assumptions/37.md). Owed entry: the owed broadcast RETIRE, or the owed
message of the lowest TN, joins the tail while there is room, a MUTE or UNMUTE of an entry whose resend mark is set with a
DELAY of its LD behind it (R27), and the slot call goes on. Dispatch: with nothing left to expire and nothing that can be
entered, the oldest items are handed over, up to four in one epoch, in queue order, and the rest stay (R14). Last, what
posting a must-deliver message does: it is queued, owed, or meets the message that the entry owes by the table of R27 (R26,
R27, R30). -/
def Obligations.SlotCallsHandOver : Prop :=
  ∀ (s : State) (t : TreeId), s.Taking →
    (∀ (before : List Item) (it : Item) (after : List Item), (s.tree t).msgq.items = before ++ it :: after →
        (∀ x ∈ before, x.late s.epoch = false) → it.late s.epoch = true →
        (∀ number span gw w n qs gw', it.msg = .invite number span gw → (s.tree t).disc.state = .posted w n qs gw' →
            exec (.slotCall t) s =
              exec (.slotCall t) (sendWindow t w ((s.withItems t (before ++ after)).raiseDiscStale t))) ∧
          (∀ k g o pl qe qs g', it.msg = .probe k g → (s.tree t).seq.op = some o → o.phase = .posted pl qe qs g' →
            o.tn = k → o.inst = it.inst →
            exec (.slotCall t) s =
              exec (.slotCall t) (sendProbe t o pl ((s.withItems t (before ++ after)).raiseSeqStale t))) ∧
          ((∀ number span gw w n qs gw', it.msg = .invite number span gw → (s.tree t).disc.state ≠ .posted w n qs gw') →
            (∀ k g o pl qe qs g', it.msg = .probe k g → (s.tree t).seq.op = some o → o.phase = .posted pl qe qs g' →
              o.tn ≠ k ∨ o.inst ≠ it.inst) →
            exec (.slotCall t) s = exec (.slotCall t) (s.withItems t (before ++ after)))) ∧
      ((∀ it ∈ (s.tree t).msgq.items, it.late s.epoch = false) → (s.tree t).msgq.owedBroadcast = true →
        (s.tree t).msgq.items.length < 32 →
        exec (.slotCall t) s =
          exec (.slotCall t)
            (s.modMsgq t fun q => { q with items := q.items ++ [broadcastItem], owedBroadcast := false })) ∧
      (∀ tn e o, (∀ it ∈ (s.tree t).msgq.items, it.late s.epoch = false) →
        (s.tree t).msgq.broadcastStands = false → s.entry? t tn = some e → e.owed = some o → o.msg.isBroadcast = false →
        (∀ k x, k < tn → s.entry? t k = some x → x.owed = none) → (s.tree t).msgq.items.length < 32 →
        ((o.msg.isMuting && e.resend) = false →
            exec (.slotCall t) s =
              exec (.slotCall t)
                ((s.modEntry t tn fun x => { x with owed := none }).withItems t
                  ((s.tree t).msgq.items ++ [{ msg := o.msg, issuer := o.issuer, inst := e.inst, deadline := none }]))) ∧
          ((o.msg.isMuting && e.resend) = true → (s.tree t).msgq.items.length < 31 →
            exec (.slotCall t) s =
              exec (.slotCall t)
                ((s.modEntry t tn fun x => { x with owed := none, resend := false }).withItems t
                  ((s.tree t).msgq.items ++
                    [{ msg := o.msg, issuer := o.issuer, inst := e.inst, deadline := none },
                      { msg := .delay tn e.ld, issuer := .registry, inst := e.inst, deadline := none }]))) ∧
          ((o.msg.isMuting && e.resend) = true → (s.tree t).msgq.items.length = 31 →
            exec (.slotCall t) s =
              exec (.slotCall t)
                ((s.modEntry t tn fun x =>
                    { x with owed := some { msg := .delay tn e.ld, issuer := .registry }, resend := false }).withItems t
                  ((s.tree t).msgq.items ++
                    [{ msg := o.msg, issuer := o.issuer, inst := e.inst, deadline := none }])))) ∧
      (∀ room, (∀ it ∈ (s.tree t).msgq.items, it.late s.epoch = false) →
        (∀ tn e, s.entry? t tn = some e → e.owed = none) ∨ 32 ≤ (s.tree t).msgq.items.length →
        (s.tree t).msgq.broadcastStands = false →
        (∀ o pl qe qs g e, (s.tree t).seq.op = some o → o.phase = .posted pl qe qs g → s.entry? t o.tn = some e →
          e.inst = o.inst → e.state ≠ .retiring) →
        room = 4 - (if (s.tree t).msgq.countEpoch = s.epoch then (s.tree t).msgq.count else 0) →
        ∃ s', exec (.slotCall t) s = .next s' ∧
          (s'.tree t).msgq.items = (s.tree t).msgq.items.drop room ∧
          (s'.tree t).out.slots =
            (s.tree t).out.slots ++ ((s.tree t).msgq.items.take room).map (fun it => (s.epoch, it.msg.encode)) ∧
          (s'.tree t).msgq.count =
            (if (s.tree t).msgq.countEpoch = s.epoch then (s.tree t).msgq.count else 0) +
              min room (s.tree t).msgq.items.length ∧
          (s'.tree t).msgq.countEpoch = s.epoch ∧ ∀ j, j ≠ t → s'.tree j = s.tree j) ∧
      ∀ tn m poster e, s.entry? t tn = some e →
        ((s.tree t).msgq.broadcastStands = true → postMust t tn m poster s = { state := s, answer := .discarded }) ∧
          ((s.tree t).msgq.broadcastStands = false → e.owed = none → (s.tree t).msgq.items.length < 32 →
            postMust t tn m poster s =
              { state :=
                  (s.modEntry t tn fun x => { x with resend := e.resend && !m.isDelay }).withItems t
                    ((s.tree t).msgq.items ++ [{ msg := m, issuer := poster, inst := e.inst, deadline := none }])
                answer := .accepted }) ∧
          ((s.tree t).msgq.broadcastStands = false → e.owed = none → 32 ≤ (s.tree t).msgq.items.length →
            postMust t tn m poster s =
              { state :=
                  s.modEntry t tn fun x =>
                    { x with owed := some { msg := m, issuer := poster }, resend := e.resend && !m.isDelay }
                answer := .owed }) ∧
          ∀ o, (s.tree t).msgq.broadcastStands = false → e.owed = some o →
            (o.msg.isRetire = true →
                postMust t tn m poster s =
                  { state := s.modEntry t tn fun x => { x with owed := some o, resend := e.resend && !m.isDelay }
                    answer := .discarded }) ∧
              (o.msg.setsDelay = true → m.isNudge = true →
                postMust t tn m poster s =
                  { state :=
                      s.modEntry t tn fun x =>
                        { x with owed := some { msg := .delay tn e.ld, issuer := poster }, resend := e.resend }
                    answer := .merged }) ∧
              (o.msg.setsDelay = true → m.isMuting = true →
                postMust t tn m poster s =
                  { state :=
                      s.modEntry t tn fun x => { x with owed := some { msg := m, issuer := poster }, resend := true }
                    answer := .owed }) ∧
              (o.msg.isRetire = false → (o.msg.setsDelay && (m.isNudge || m.isMuting)) = false →
                postMust t tn m poster s =
                  { state :=
                      s.modEntry t tn fun x =>
                        { x with owed := some { msg := m, issuer := poster }, resend := e.resend && !m.isDelay }
                    answer := .owed })

/-- What the poster of a handed-over message does. The hand-over of an ASSIGN takes its ASSIGNING entry to RANGING with its
deadline kept and a RANGE task asked for, that of a RETIRE frees its RETIRING entry (R36, R50, R138), and that of the UNMUTE
of a released candidate returns it to OPERATING on the air (R170), its settle-until two epochs on whatever went out with the
UNMUTE (R170, which R18 does not bound: the model's choice, DESIGN CHOICE, notes/assumptions/42.md). The head item of a
longer queue is handed over and its poster told before the slot call goes on: an INVITE opens its window (R84), a PROBE its
interval (R110), the DELAY of a VERIFYING entry begins the verify (R114), a NUDGE, or a DELAY merged from one, sets
settle-until (R130), the MUTE of a hunt's candidate begins its settling (R169), and a notice that names another instance is
ignored. -/
def Obligations.SlotCallsTellTheRegistry : Prop :=
  ∀ (s : State) (t : TreeId), s.Taking → (s.tree t).msgq.countEpoch ≠ s.epoch ∨ (s.tree t).msgq.count < 4 →
    (∀ it tn e, (s.tree t).msgq.items = [it] → (s.tree t).msgq.owedBroadcast = false →
        (∀ k x, s.entry? t k = some x → x.owed = none) → it.deadline = none → s.entry? t tn = some e →
        (∀ serial d, it.msg = .assign tn serial → e.state = .assigning d →
            ∃ s', exec (.slotCall t) s = .next s' ∧
              (s'.entry? t tn).map Entry.identity =
                some (e.inst, e.serial, if it.inst = e.inst then .ranging d else .assigning d) ∧
              (it.inst = e.inst → s.TaskAsked s' t { tn := tn, inst := e.inst, kind := .range })) ∧
          (it.msg = .retire tn → e.state = .retiring →
            ∃ s', exec (.slotCall t) s = .next s' ∧
              (s'.entry? t tn).map Entry.identity = (if it.inst = e.inst then none else some e.identity) ∧
              (s'.tree t).slotInst tn = (s.tree t).slotInst tn ∧
              (it.inst = e.inst → ∀ d ∈ s'.directory, d.serial ≠ e.serial)) ∧
          (it.msg = .unmute tn → it.inst = e.inst → e.state = .muted (.hunt true) →
            ∃ s', exec (.slotCall t) s = .next s' ∧
              s'.entry? t tn =
                some
                  { e with
                    state := .operating { sum := 0, n := 0, settle := .epoch (s.epoch + 2), misses := 0 }
                    ever := true, attempts := none } ∧
              tn ∈ (s'.tree t).onAir ∧
              (s'.tree t).out.grant =
                (s.tree t).out.grant ++ [.terminalOn tn e.profile.pre.value e.profile.bp.value])) ∧
      ∀ it rest, s.SlotReady t → (s.tree t).msgq.items = it :: rest →
        (∀ number span gw w n qs gw', it.msg = .invite number span gw → (s.tree t).disc.state = .posted w n qs gw' →
            exec (.slotCall t) s =
              exec (.slotCall t)
                ((s.handedOver t it rest).setDisc t
                  (.collecting w n qs gw' s.epoch
                    { heard := [], announces := 0, duplicates := 0, malformed := 0, outOfReach := 0, excess := 0
                      collisions := 0 }))) ∧
          (∀ k g o pl qe qs g', it.msg = .probe k g → (s.tree t).seq.op = some o → o.phase = .posted pl qe qs g' →
            o.tn = k → o.inst = it.inst →
            exec (.slotCall t) s =
              exec (.slotCall t)
                ((s.handedOver t it rest).setOp t
                  (some
                    { o with
                      phase := .listening pl qe qs g' { matching := 0, first := 0, foreign := 0, garbled := 0 } }))) ∧
          (∀ k ld e d o, it.msg = .delay k ld → it.issuer ≠ .drift → s.entry? t k = some e → e.inst = it.inst →
            e.state = .verifying d → (s.tree t).seq.op = some o → o.phase = .waitDelay → o.tn = k → o.inst = it.inst →
            exec (.slotCall t) s =
              exec (.slotCall t)
                (sendProbe t { o with stage := .verify (some s.epoch) }
                  { floor := s.epoch + e.profile.la.value + 2, ldp := e.ld, cp := e.c
                    half := (s.params t).u + e.profile.rtol.value
                    length := 2 * ((s.params t).u + e.profile.rtol.value) + e.profile.bp.value }
                  (s.handedOver t it rest))) ∧
          (∀ k e d, ((∃ change, it.msg = .nudge k change) ∨ ∃ ld, it.msg = .delay k ld ∧ it.issuer = .drift) →
            s.entry? t k = some e → e.inst = it.inst → e.state = .operating d →
            exec (.slotCall t) s =
              exec (.slotCall t)
                ((s.handedOver t it rest).modEntry t k fun x =>
                  { x with state := .operating { d with settle := .epoch (s.epoch + e.profile.la.value + 2) } })) ∧
          (∀ k h, it.msg = .mute k → (s.tree t).light.hunt = some h → h.current = { tn := k, inst := it.inst } →
            h.step = .muting →
            exec (.slotCall t) s =
              exec (.slotCall t)
                ((s.handedOver t it rest).modLight t fun l =>
                  { l with hunt := some { h with step := .settling (s.epoch + 2) } })) ∧
          (∀ k, ((∃ ld, it.msg = .delay k ld) ∨ (∃ change, it.msg = .nudge k change) ∨ it.msg = .mute k ∨ it.msg = .unmute k) →
            (∀ e, s.entry? t k = some e → e.inst ≠ it.inst) →
            (∀ h, (s.tree t).light.hunt = some h → h.current ≠ { tn := k, inst := it.inst }) →
            exec (.slotCall t) s = exec (.slotCall t) (s.handedOver t it rest))

/-- The hand-over of the broadcast RETIRE completes a close: every entry is freed with its instance number kept in its slot,
nothing stays queued or on the air, every channel is IDLE with its number kept, and the tree is CLOSED with its parameters,
its P and its configured flag kept (R30, R59, R161, R183). -/
def Obligations.CloseCompletes : Prop :=
  ∀ (s : State) (t : TreeId) (rest : List Item), s.Taking → (s.tree t).ctl.state = .closing →
    (s.tree t).msgq.items = broadcastItem :: rest → (∀ it ∈ rest, it.late s.epoch = false) →
    (s.tree t).msgq.countEpoch ≠ s.epoch ∨ (s.tree t).msgq.count < 4 →
    ∃ s', exec (.slotCall t) s = .next s' ∧
      (s'.tree t).ctl = { (s.tree t).ctl with state := .closed, suspended := false } ∧
      (∀ tn, s'.entry? t tn = none ∧ (s'.tree t).slotInst tn = (s.tree t).slotInst tn) ∧
      (s'.tree t).onAir = [] ∧
      ((s'.tree t).msgq.items = [] ∧ (s'.tree t).msgq.owedBroadcast = false ∧ (s'.tree t).msgq.count = 0) ∧
      (∀ tag, (s'.tree t).chan tag = { phase := .idle, number := (s.chan t tag).number }) ∧
      (∃ slots, (s'.tree t).out.slots = slots ++ [(s.epoch, [0x48, 0xFF])]) ∧ ∀ j, j ≠ t → s'.tree j = s.tree j

/-! ### Burst records (R21) -/

/-- Quiet-interval records: all are discarded where the tree does not route them (R21); behind a stale count a burst is
discarded and an end lowers the count (R85, R111, R165); otherwise a window in COLLECTING counts a burst that is no ANNOUNCE
as a collision (R86) and drops a malformed, repeated, excess or out-of-reach ANNOUNCE, the first and the last with a report
(R87..R89), an operation in LISTENING sorts a burst into its collection (R111), a listening silence check counts it (R165),
and a record with no interval of its tag in flight is discarded. -/
def Obligations.QuietRecordsTaken : Prop :=
  ∀ (s : State) (t : TreeId) (arrival : BitVec 64) (quality : Quality) (payload : List Byte), s.Taking →
    (∀ tag, (s.tree t).routesBursts = false →
        exec (.quietIntervalBurst t tag arrival quality payload) s = .next s ∧ exec (.intervalEnd t tag) s = .next s) ∧
      (∀ tag, (s.tree t).routesBursts = true → (s.tree t).stale tag ≠ 0 →
        exec (.quietIntervalBurst t tag arrival quality payload) s = .next s ∧
          exec (.intervalEnd t tag) s = .next (s.modTree t fun T => T.absorb tag)) ∧
      (∀ w number qs gw dispatch coll, (s.tree t).routesBursts = true → (s.tree t).disc.stale = 0 →
        (s.tree t).disc.state = .collecting w number qs gw dispatch coll → announceOf quality payload = none →
        exec (.quietIntervalBurst t .window arrival quality payload) s =
          .next
            (s.setDisc t
              (.collecting w number qs gw dispatch { coll with collisions := min 65535 (coll.collisions + 1) }))) ∧
      (∀ w number qs gw dispatch coll a c, (s.tree t).routesBursts = true → (s.tree t).disc.stale = 0 →
        (s.tree t).disc.state = .collecting w number qs gw dispatch coll → announceOf quality payload = some a →
        c = ((arrival.toNat : Int) - 16 * (gw + a.d) - (s.tree t).ctl.p + 8) / 16 →
        (a.window ≠ number ∨ w.dspan ≤ a.d →
            exec (.quietIntervalBurst t .window arrival quality payload) s =
              .next
                ((s.setDisc t
                  (.collecting w number qs gw dispatch
                    { coll with malformed := min 65535 (coll.malformed + 1) })).entering (treePoster t)
                  (.admission .malformed .announce number a.serial a.model 0 none 0 none))) ∧
          (a.window = number → a.d < w.dspan → a.serial ∈ coll.heard →
            exec (.quietIntervalBurst t .window arrival quality payload) s =
              .next
                (s.setDisc t
                  (.collecting w number qs gw dispatch
                    { coll with duplicates := min 65535 (coll.duplicates + 1) }))) ∧
          (a.window = number → a.d < w.dspan → a.serial ∉ coll.heard → 128 ≤ coll.heard.length →
            exec (.quietIntervalBurst t .window arrival quality payload) s =
              .next
                (s.setDisc t
                  (.collecting w number qs gw dispatch { coll with excess := min 65535 (coll.excess + 1) }))) ∧
          (a.window = number → a.d < w.dspan → a.serial ∉ coll.heard → coll.heard.length < 128 →
            c < (s.params t).frtMin + (s.params t).arMin ∨
              (s.params t).frtMax + (s.params t).arMin + (s.params t).arSpread < c →
            exec (.quietIntervalBurst t .window arrival quality payload) s =
              .next
                ((s.setDisc t
                  (.collecting w number qs gw dispatch
                    { coll with
                      heard := coll.heard ++ [a.serial], outOfReach := min 65535 (coll.outOfReach + 1) })).entering
                  (treePoster t)
                  (.admission .outOfReach .announce number a.serial a.model c none 0 none)))) ∧
      (∀ o pl qe qs g ec, (s.tree t).routesBursts = true → (s.tree t).seq.stale = 0 → (s.tree t).seq.op = some o →
        o.phase = .listening pl qe qs g ec →
        exec (.quietIntervalBurst t .probe arrival quality payload) s =
          .next
            (s.setOp t
              (some
                { o with
                  phase := .listening pl qe qs g
                    (match echoOf quality payload with
                     | none => { ec with garbled := min 255 (ec.garbled + 1) }
                     | some x =>
                       if x.tn = o.tn ∧ x.serial = o.serial then
                         { ec with
                           matching := min 255 (ec.matching + 1)
                           first := if ec.matching = 0 then arrival.toNat else ec.first }
                       else { ec with foreign := min 255 (ec.foreign + 1) }) }))) ∧
      (∀ p qe qs n, (s.tree t).routesBursts = true → (s.tree t).light.stale = 0 →
        (s.tree t).light.check = some { purpose := p, qe := qe, phase := .listening qs n } →
        exec (.quietIntervalBurst t .silence arrival quality payload) s =
          .next
            (s.modLight t fun l =>
              { l with check := some { purpose := p, qe := qe, phase := .listening qs (min 255 (n + 1)) } })) ∧
      (∀ tag, (s.tree t).routesBursts = true → (s.tree t).stale tag = 0 →
        (match tag with
         | .window => ∀ w number qs gw dispatch coll, (s.tree t).disc.state ≠ .collecting w number qs gw dispatch coll
         | .probe => ∀ o pl qe qs g ec, (s.tree t).seq.op = some o → o.phase ≠ .listening pl qe qs g ec
         | .silence => ∀ p qe qs n, (s.tree t).light.check ≠ some { purpose := p, qe := qe, phase := .listening qs n }) →
        exec (.quietIntervalBurst t tag arrival quality payload) s = .next s ∧ exec (.intervalEnd t tag) s = .next s)

/-- An in-reach ANNOUNCE is counted and judged (R63, R90). A registered serial: CLASH where its entry is not LOST; on this
tree a LOST entry is reactivated under a raised instance, or BACKLOG; on another tree it is freed as MOVED (R43, R45, R46).
A new serial: BARRED, with its pending record removed (R70); STILL_PENDING, with its record's c replaced (R70);
MODEL_REFUSED (R65); in OPEN mode an entry in ASSIGNING in the lowest FREE slot with its ASSIGN queued, its serial in the
directory and in no other tree's pending list, or TABLE_FULL or BACKLOG (R41, R68, R74); in ASK mode a pending record, or
ASK_FULL (R64, R69). Which model code, c and origins the reports of a serial check, of BARRED and of STILL_PENDING carry is
DEDUCED (notes/assumptions/22.md). -/
def Obligations.AnnouncesAdmitted : Prop :=
  ∀ (s s1 : State) (t : TreeId) (arrival : BitVec 64) (payload : List Byte) (a : Announce) (w : Context) (number : Byte)
    (qs gw : Int) (dispatch : Nat) (coll : Collection) (c : Int) (cat : Option CatEntry) (prof : Profile),
    s.Taking → (s.tree t).isActive = true → (s.tree t).disc.stale = 0 →
    (s.tree t).disc.state = .collecting w number qs gw dispatch coll → parseAnnounce payload = some a →
    a.window = number → a.d < w.dspan → a.serial ∉ coll.heard → coll.heard.length < 128 →
    c = (arrival.toNat - 16 * (gw + a.d) - (s.tree t).ctl.p + 8) / 16 → inReach (s.params t) c = true →
    cat = s.admission.matching a.serial.vendor a.model → prof = resolveProfile a.declared cat (s.params t) →
    s1 =
      s.setDisc t
        (.collecting w number qs gw dispatch
          { coll with heard := coll.heard ++ [a.serial], announces := min 128 (coll.announces + 1) }) →
    (∀ d, s.lookup a.serial = some d →
        ((∀ e hold, s.entry? d.tree d.tn = some e → e.state ≠ .lost hold) →
            exec (.quietIntervalBurst t .window arrival .clean payload) s =
              .next
                (s1.entering (treePoster t)
                  (.admission .clash .announce number a.serial a.model c none d.tn (some d.tree)))) ∧
          ∀ e hold, s.entry? d.tree d.tn = some e → e.state = .lost hold →
            (d.tree = t → (s.tree t).msgq.broadcastStands = true ∨ 24 ≤ (s.tree t).msgq.items.length →
                exec (.quietIntervalBurst t .window arrival .clean payload) s =
                  .next
                    (s1.entering (treePoster t)
                      (.admission .backlog .announce number a.serial a.model c none 0 none))) ∧
              (d.tree = t → (s.tree t).msgq.broadcastStands = false → (s.tree t).msgq.items.length < 24 →
                ∃ s', exec (.quietIntervalBurst t .window arrival .clean payload) s = .next s' ∧
                  s'.entry? t d.tn =
                    some
                      { e with
                        inst := (s.tree t).slotInst d.tn + 1, state := .assigning (s.epoch + (s.params t).budget)
                        c := c, ld := 0, rrt := none, r := none, owed := none, resend := false } ∧
                  (s'.tree t).slotInst d.tn = (s.tree t).slotInst d.tn + 1 ∧
                  (∀ k, k ≠ d.tn → s'.entry? t k = s.entry? t k) ∧
                  (s'.tree t).msgq.items =
                    (s.tree t).msgq.items ++
                      [{ msg := .assign d.tn a.serial, issuer := .registry, inst := (s.tree t).slotInst d.tn + 1
                         deadline := none }] ∧
                  s'.directory = s.directory ∧ (s'.tree t).disc = (s1.tree t).disc) ∧
              (d.tree ≠ t → e.serial = a.serial →
                ∃ s', exec (.quietIntervalBurst t .window arrival .clean payload) s = .next s' ∧
                  s'.entry? d.tree d.tn = none ∧ (s'.tree d.tree).slotInst d.tn = (s.tree d.tree).slotInst d.tn ∧
                  ∀ x ∈ s'.directory, x.serial = a.serial → x.tree = t)) ∧
      (s.lookup a.serial = none →
        (s.admission.barred a.serial = true →
            exec (.quietIntervalBurst t .window arrival .clean payload) s =
              .next
                ((s1.modPending t fun l => l.filter fun x => x.serial ≠ a.serial).entering (treePoster t)
                  (.admission .barred .announce number a.serial a.model c
                    (((s.tree t).pendingOf a.serial).map fun r => r.profile.origins) 0 none))) ∧
          (∀ r, s.admission.barred a.serial = false → (s.tree t).pendingOf a.serial = some r →
            exec (.quietIntervalBurst t .window arrival .clean payload) s =
              .next
                ((s1.modPending t fun l => l.map fun x => if x.serial = a.serial then { x with c := c } else x).entering
                  (treePoster t)
                  (.admission .stillPending .announce number r.serial r.model c (some r.profile.origins) 0 none))) ∧
          (∀ x, s.admission.barred a.serial = false → (s.tree t).pendingOf a.serial = none → cat = some x →
            x.refuse = true →
            exec (.quietIntervalBurst t .window arrival .clean payload) s =
              .next
                (s1.entering (treePoster t)
                  (.admission .modelRefused .announce number a.serial a.model c (some prof.origins) 0 none))) ∧
          (s.admission.barred a.serial = false → (s.tree t).pendingOf a.serial = none →
            (∀ x, cat = some x → x.refuse = false) →
            (w.mode = .openMode → (s.tree t).lowestFree = none →
                exec (.quietIntervalBurst t .window arrival .clean payload) s =
                  .next
                    (s1.entering (treePoster t)
                      (.admission .tableFull .announce number a.serial a.model c (some prof.origins) 0 none))) ∧
              (∀ tn, w.mode = .openMode → (s.tree t).lowestFree = some tn →
                (s.tree t).msgq.broadcastStands = true ∨ 24 ≤ (s.tree t).msgq.items.length →
                exec (.quietIntervalBurst t .window arrival .clean payload) s =
                  .next
                    (s1.entering (treePoster t)
                      (.admission .backlog .announce number a.serial a.model c (some prof.origins) 0 none))) ∧
              (∀ tn, w.mode = .openMode → (s.tree t).lowestFree = some tn → (s.tree t).msgq.broadcastStands = false →
                (s.tree t).msgq.items.length < 24 →
                ∃ s', exec (.quietIntervalBurst t .window arrival .clean payload) s = .next s' ∧
                  s'.entry? t tn =
                    some
                      { inst := (s.tree t).slotInst tn + 1, state := .assigning (s.epoch + (s.params t).budget)
                        serial := a.serial, model := a.model, profile := prof, c := c, rrt := none, ld := 0, r := none
                        ever := false, attempts := none, waiting := false, owed := none, resend := false } ∧
                  (s'.tree t).slotInst tn = (s.tree t).slotInst tn + 1 ∧
                  (∀ k, k ≠ tn → s'.entry? t k = s.entry? t k) ∧
                  (s'.tree t).msgq.items =
                    (s.tree t).msgq.items ++
                      [{ msg := .assign tn a.serial, issuer := .registry, inst := (s.tree t).slotInst tn + 1
                         deadline := none }] ∧
                  s'.directory = s.directory ++ [{ serial := a.serial, tree := t, tn := tn }] ∧
                  (∀ j, j ≠ t → ∀ x ∈ (s'.tree j).pendingList, x.serial ≠ a.serial) ∧
                  (s'.tree t).disc = (s1.tree t).disc) ∧
              (w.mode = .ask → 8 ≤ (s.tree t).pendingList.length →
                exec (.quietIntervalBurst t .window arrival .clean payload) s =
                  .next
                    (s1.entering (treePoster t)
                      (.admission .askFull .announce number a.serial a.model c (some prof.origins) 0 none))) ∧
              (w.mode = .ask → (s.tree t).pendingList.length < 8 →
                exec (.quietIntervalBurst t .window arrival .clean payload) s =
                  .next
                    ((s1.modPending t fun l =>
                        l ++
                          [{ serial := a.serial, model := a.model, c := c, profile := prof
                             deadline := s.epoch + (s.params t).askHold }]).entering
                      (treePoster t)
                      (.admission .ask .announce number a.serial a.model c (some prof.origins) 0 none)))))

/-- An interval end closes a collecting window: it is repeated while collisions were heard and repeats are left, at once
where the gate is open, and otherwise its cycle ends and the queue mode decides what stands; the WINDOW report follows (R91,
R92, R94). That the repeat index keeps its value once a cycle has ended, until the next sets it to 0, is the model's choice
(DESIGN CHOICE, notes/assumptions/41.md). -/
def Obligations.WindowsClose : Prop :=
  ∀ (s : State) (t : TreeId) (w : Context) (number : Byte) (qs gw : Int) (dispatch : Nat) (coll : Collection)
    (queue : List QueuedContext), s.Taking →
    (s.tree t).routesBursts = true → (s.tree t).disc.stale = 0 →
    (s.tree t).disc.state = .collecting w number qs gw dispatch coll →
    queue =
      (if (s.tree t).disc.flushed then (s.tree t).disc.contexts
       else
        match (s.params t).queueMode, (s.tree t).disc.contexts with
        | .hold, [h] => [{ h with held := true }]
        | _, l => l.tail) →
    ((s.tree t).disc.flushed = true ∨ coll.collisions = 0 ∨ w.repeats ≤ (s.tree t).disc.repeatIndex →
        exec (.intervalEnd t .window) s =
          .next
            ((s.modDisc t fun d =>
                { d with
                  contexts := queue, flushed := false
                  state := if queue.isEmpty then .stopped else .spacing (s.epoch + w.spacing) }).entering (treePoster t)
              (.window number (s.tree t).disc.repeatIndex .completed
                (some (if queue.isEmpty then .stopped else .spacing)) w.dspan w.mode dispatch coll))) ∧
      ((s.tree t).disc.flushed = false → 0 < coll.collisions → (s.tree t).disc.repeatIndex < w.repeats →
        exec (.intervalEnd t .window) s =
          .next
            ((if (s.tree t).gateOpen then
                sendWindow t w (s.modDisc t fun d => { d with repeatIndex := d.repeatIndex + 1 })
              else
                s.modDisc t fun d => { d with repeatIndex := d.repeatIndex + 1, state := .due (some w) }).entering
              (treePoster t)
              (.window number (s.tree t).disc.repeatIndex .completed (some .repeated) w.dspan w.mode dispatch coll)))

/-- The end of a probe interval. First the entry check (R108): an operation whose entry has changed ends, with whatever task
is taken after it, without touching any entry's instance, serial or state, and one whose entry's LD has changed begins its
attempt again uncounted, in HELD while a delay message stands. Otherwise the collection decides (R112). One matching ECHO of
a valid round trip takes a RANGING entry to VERIFYING with its figures and its DELAY queued (R113); for an OPERATING entry
it is an audit, which keeps the launch delay, posts a NUDGE, or takes the entry off the air to VERIFYING by the size of the
change (R117). A verify within Wout takes a VERIFYING entry to OPERATING (R115); one beyond Wout is a counted failure that
returns it to RANGING with its DELAY queued again (R116). Every other outcome counts a failure, and the operation begins its
next attempt in its stage or, at ProbeRetries + 1, the entry goes to LOST, with nothing posted, or to RETIRING with its
RETIRE posted (R118, R44, R49). -/
def Obligations.ProbeAttemptsEnd : Prop :=
  ∀ (s : State) (t : TreeId) (o : ProbeOp) (pl : Placement) (qe qs g : Int) (ec : Echoes), s.Taking →
    (s.tree t).routesBursts = true → (s.tree t).seq.stale = 0 → (s.tree t).seq.op = some o →
    o.phase = .listening pl qe qs g ec →
    ((∀ e, s.entry? t o.tn = some e → e.inst ≠ o.inst ∨ e.state.name ≠ o.expected.name) →
        ∃ s', exec (.intervalEnd t .probe) s = .next s' ∧
          (∀ tn, (s'.entry? t tn).map Entry.identity = (s.entry? t tn).map Entry.identity) ∧
          (∀ o', (s'.tree t).seq.op = some o' →
            o'.phase.timed = false ∧ (o'.tn ≠ o.tn ∨ o'.inst ≠ o.inst ∨ o'.expected ≠ o.expected)) ∧
          (s'.tree t).msgq = (s.tree t).msgq ∧
          (s'.tree t).onAir = (s.tree t).onAir ∧ s'.directory = s.directory ∧ s'.port = s.port) ∧
      (∀ e, s.entry? t o.tn = some e → e.inst = o.inst → e.state.name = o.expected.name → e.ld ≠ pl.ldp →
        o.stage ≠ .verify none →
        (o.stage = .measure → e.rrt ≠ none → (s.tree t).delayStands o.tn e = true →
            exec (.intervalEnd t .probe) s =
              .next (s.setOp t (some { o with phase := .held, waitStart := s.epoch }))) ∧
          ∃ s', exec (.intervalEnd t .probe) s = .next s' ∧ (∀ tn, s'.entry? t tn = s.entry? t tn) ∧
            (s'.tree t).seq.op.map (fun x => (x.tn, x.inst, x.expected, x.stage, x.phase.timed)) =
              some (o.tn, o.inst, o.expected, o.stage, false) ∧
            (s'.tree t).msgq = (s.tree t).msgq ∧ s'.port = s.port) ∧
      ∀ e, s.entry? t o.tn = some e → e.inst = o.inst → e.ld = pl.ldp →
        (∀ d rrt ld r, o.stage = .measure → o.expected = .ranging → e.state = .ranging d →
            ec.garbled = 0 → ec.foreign = 0 → ec.matching = 1 →
            measure (s.params t) e.profile (ec.first - 16 * (g + pl.ldp) - (s.tree t).ctl.p) = .value rrt ld r →
            e.owed = none → (s.tree t).msgq.broadcastStands = false → (s.tree t).msgq.items.length < 32 →
            ∃ p,
              exec (.intervalEnd t .probe) s =
                .next
                  { (s.modTree t fun T =>
                      { T.modEntry o.tn fun x =>
                          { x with
                            state := .verifying d, rrt := some rrt, c := (rrt + 8) / 16, ld := ld, r := some r
                            resend := false } with
                        msgq := { T.msgq with
                          items := T.msgq.items ++
                            [{ msg := .delay o.tn ld, issuer := .registry, inst := e.inst, deadline := none }] }
                        seq := { T.seq with
                          op := some { o with expected := .verifying, stage := .verify none, phase := .waitDelay } } }) with
                    port := p }) ∧
          (∀ d rrt ld r change, o.stage = .measure → o.expected = .operating → e.state = .operating d →
            ec.garbled = 0 → ec.foreign = 0 → ec.matching = 1 →
            measure (s.params t) e.profile (ec.first - 16 * (g + pl.ldp) - (s.tree t).ctl.p) = .value rrt ld r →
            change = (ld : Int) - e.ld → e.owed = none → (s.tree t).msgq.broadcastStands = false →
            (s.tree t).msgq.items.length < 32 →
            ∃ s', exec (.intervalEnd t .probe) s = .next s' ∧
              (change = 0 →
                (s'.entry? t o.tn).map (fun x => (x.identity, x.rrt, x.c, x.ld, x.r)) =
                    some
                      ((e.inst, e.serial, .operating { d with sum := 0, n := 0 }), some rrt, (rrt + 8) / 16, e.ld,
                        some r) ∧
                  (s'.tree t).msgq = (s.tree t).msgq ∧ (s'.tree t).onAir = (s.tree t).onAir) ∧
              (change ≠ 0 → change.natAbs ≤ (s.params t).n →
                (s'.entry? t o.tn).map (fun x => (x.identity, x.rrt, x.c, x.ld, x.r)) =
                    some
                      ((e.inst, e.serial, .operating { d with sum := 0, n := 0, settle := .notYet }), some rrt,
                        (rrt + 8) / 16, ld, some r) ∧
                  (s'.tree t).msgq.items =
                    (s.tree t).msgq.items ++
                      [{ msg := .nudge o.tn change, issuer := .drift, inst := e.inst, deadline := none }] ∧
                  (s'.tree t).onAir = (s.tree t).onAir) ∧
              ((s.params t).n < change.natAbs →
                s'.entry? t o.tn =
                    some
                      { e with
                        state := .verifying (s.epoch + (s.params t).budget), rrt := some rrt, c := (rrt + 8) / 16
                        ld := ld, r := some r, resend := false } ∧
                  (s'.tree t).msgq.items =
                    (s.tree t).msgq.items ++
                      [{ msg := .delay o.tn ld, issuer := .registry, inst := e.inst, deadline := none }] ∧
                  o.tn ∉ (s'.tree t).onAir ∧
                  (s'.tree t).out.grant = (s.tree t).out.grant ++ [.terminalOff o.tn] ∧
                  (s'.tree t).seq.op =
                    some { o with expected := .verifying, stage := .verify none, phase := .waitDelay })) ∧
          (∀ d dispatch, o.stage = .verify (some dispatch) → o.expected = .verifying → e.state = .verifying d →
            ec.garbled = 0 → ec.foreign = 0 → ec.matching = 1 →
            (deviation (s.params t).art (s.tree t).ctl.p (e.r.getD 0) g ec.first).natAbs ≤ (s.params t).wout →
            ∃ s', exec (.intervalEnd t .probe) s = .next s' ∧
              (s'.entry? t o.tn).map Entry.identity =
                some
                  (e.inst, e.serial,
                    .operating
                      { sum := 0, n := 0, settle := .epoch (dispatch + e.profile.la.value + 2), misses := 0 }) ∧
              o.tn ∈ (s'.tree t).onAir ∧
              s.Sends s' t (.terminalOn o.tn e.profile.pre.value e.profile.bp.value) ∧ s'.PostedAs s t ∧
              (∀ x, s'.entry? t o.tn = some x → x.ever = true ∧ x.ld = e.ld ∧ x.r = e.r)) ∧
          (∀ d dispatch rrt rrtv, o.stage = .verify (some dispatch) → o.expected = .verifying → e.state = .verifying d →
            ec.garbled = 0 → ec.foreign = 0 → ec.matching = 1 →
            (s.params t).wout < (deviation (s.params t).art (s.tree t).ctl.p (e.r.getD 0) g ec.first).natAbs →
            e.attempts.getD 0 + 1 < (s.params t).probeRetries + 1 → e.rrt = some rrt →
            rrtv =
              (if validTrip (s.params t) e.profile (ec.first - 16 * (g + pl.ldp) - (s.tree t).ctl.p) then
                ec.first - 16 * (g + pl.ldp) - (s.tree t).ctl.p
               else rrt) →
            e.owed = none → (s.tree t).msgq.broadcastStands = false → (s.tree t).msgq.items.length < 32 →
            ∃ s', exec (.intervalEnd t .probe) s = .next s' ∧
              s'.entry? t o.tn =
                some
                  { e with
                    state := .ranging d, rrt := some rrtv, c := (rrtv + 8) / 16, attempts := some (e.attempts.getD 0 + 1)
                    resend := false } ∧
              (s'.tree t).msgq.items =
                (s.tree t).msgq.items ++
                  [{ msg := .delay o.tn e.ld, issuer := .registry, inst := e.inst, deadline := none }] ∧
              (s'.tree t).seq.op =
                some { o with expected := .ranging, stage := .measure, phase := .held, waitStart := s.epoch } ∧
              (s'.tree t).onAir = (s.tree t).onAir) ∧
          (∀ dispatch, o.stage = .verify (some dispatch) → e.state.name = o.expected.name →
            ec.garbled = 0 → ec.foreign = 0 → ec.matching = 1 →
            (s.params t).wout < (deviation (s.params t).art (s.tree t).ctl.p (e.r.getD 0) g ec.first).natAbs →
            (s.params t).probeRetries + 1 ≤ e.attempts.getD 0 + 1 →
            ∃ s', exec (.intervalEnd t .probe) s = .next s' ∧
              (s'.entry? t o.tn).map Entry.identity =
                some (e.inst, e.serial, if e.ever then .lost (s.epoch + (s.params t).lostHold) else .retiring) ∧
              s'.PostedAs (if e.ever then s else s.retirePosted t o.tn) t ∧ s'.Idles t o.tn o.inst) ∧
          (e.state.name = o.expected.name →
            ec.garbled ≠ 0 ∨ ec.foreign ≠ 0 ∨ ec.matching ≠ 1 ∨
              (o.stage = .measure ∧
                ∀ rrt ld r,
                  measure (s.params t) e.profile (ec.first - 16 * (g + pl.ldp) - (s.tree t).ctl.p) ≠ .value rrt ld r) →
            ∃ s', exec (.intervalEnd t .probe) s = .next s' ∧
              (if (s.params t).probeRetries + 1 ≤ e.attempts.getD 0 + 1 then
                (s'.entry? t o.tn).map Entry.identity =
                    some (e.inst, e.serial, if e.ever then .lost (s.epoch + (s.params t).lostHold) else .retiring) ∧
                  s'.PostedAs (if e.ever then s else s.retirePosted t o.tn) t ∧ s'.Idles t o.tn o.inst
               else
                (s'.entry? t o.tn).map Entry.identity = some e.identity ∧
                  (s'.entry? t o.tn).bind Entry.attempts = some (e.attempts.getD 0 + 1) ∧
                  (s'.tree t).seq.op.map (fun x => (x.tn, x.inst, x.expected, x.stage)) =
                    some (o.tn, o.inst, o.expected, o.stage)))

/-- A silence check ends PASSED where no burst was heard in its interval and FAILED otherwise, and the outcome is acted on
by its purpose (R163, R165, R166, R169, R171). A failed STRIKE check counts a strike, and the one that reaches StrikeLimit
makes the condition SUSPECT and starts a hunt (R166..R168). A failed HUNT check counts its candidate, posts its release, and
begins the step of the next candidate that is still OPERATING, skipping those before it, or with none left ends the hunt
UNRESOLVED. -/
def Obligations.SilenceChecksEnd : Prop :=
  ∀ (s : State) (t : TreeId) (p : Purpose) (qe qs : Int) (n : Nat), s.Taking →
    (s.tree t).routesBursts = true → (s.tree t).light.stale = 0 →
    (s.tree t).light.check = some { purpose := p, qe := qe, phase := .listening qs n } →
    (n = 0 → p ≠ .strike → (p = .hunt → (s.tree t).light.hunt ≠ none) →
        ∃ s', exec (.intervalEnd t .silence) s = .next s' ∧ (s'.tree t).light.light = .quiet ∧
          (s'.tree t).light.strikes = 0 ∧ (s'.tree t).light.check = none ∧ (p = .hunt → (s'.tree t).light.hunt = none) ∧
          (p = .pause → (s'.tree t).light.pause = false)) ∧
      (n = 0 → p = .strike →
        exec (.intervalEnd t .silence) s = .next (s.modLight t fun l => { l with check := none, strikes := 0 })) ∧
      (n ≠ 0 → p = .opening →
        exec (.intervalEnd t .silence) s =
          .next (s.modLight t fun l => { l with check := none, nextCheck := some (s.epoch + 16) })) ∧
      (n ≠ 0 → p = .strike → min 15 ((s.tree t).light.strikes + 1) < (s.params t).strikeLimit →
        exec (.intervalEnd t .silence) s =
          .next (s.modLight t fun l => { l with check := none, strikes := min 15 (l.strikes + 1) })) ∧
      (n ≠ 0 → p = .strike → (s.params t).strikeLimit ≤ min 15 ((s.tree t).light.strikes + 1) →
        ∃ s', exec (.intervalEnd t .silence) s = .next s' ∧ (s'.tree t).light.light = .suspect ∧
          (s'.tree t).light.strikes = min 15 ((s.tree t).light.strikes + 1) ∧ (s'.tree t).light.check = none ∧
          s.HuntStarted s' t) ∧
      (n ≠ 0 → p = .pause →
        exec (.intervalEnd t .silence) s =
          .next
            (s.modLight t fun l => { l with check := none, nextCheck := some (s.epoch + (s.params t).huntPause) })) ∧
      ∀ h q, n ≠ 0 → p = .hunt → (s.tree t).light.hunt = some h →
        q =
          (if ((s.entry? t h.current.tn).map fun e =>
                decide (e.inst = h.current.inst ∧ e.state = .muted (.hunt false))).getD false then
            (postMust t h.current.tn (.unmute h.current.tn) .registry s).state
           else s) →
        (∀ e, s.entry? t h.current.tn = some e → e.inst = h.current.inst → e.state = .muted (.hunt false) →
            ∃ s', exec (.intervalEnd t .silence) s = .next s' ∧
              (s'.entry? t h.current.tn).map Entry.identity = some (e.inst, e.serial, .muted (.hunt true))) ∧
          ((∀ x ∈ h.rest, s.offers t x = false) →
            ∃ s', exec (.intervalEnd t .silence) s = .next s' ∧ s.HuntUnresolved s' t ∧ s'.PostedAs q t) ∧
          ∀ skipped x rest, h.rest = skipped ++ x :: rest → (∀ y ∈ skipped, s.offers t y = false) →
            s.offers t x = true →
            ∃ s', exec (.intervalEnd t .silence) s = .next s' ∧ (s'.tree t).light.check = none ∧
              s.StepBegun q s' t
                { h with
                  rest := rest, current := x, step := .muting, checked := h.checked + 1
                  skipped := h.skipped + skipped.length } x

/-- A granted burst clears an OPERATING entry's misses; before its settle-until it does nothing else, after it the deviation
is added to the sum, the 2^k-th sample clears the sum, an average within Win is dropped, one beyond Wout and a deviation
beyond Wgross take the entry to RANGING off the air with a RERANGE task asked for, and an entry in another state, and every
entry of a tree that is not ACTIVE, is left alone (R21, R123..R127, R129, R136). -/
def Obligations.GrantedBurstsSampled : Prop :=
  ∀ (s : State) (t : TreeId) (tn : Byte) (g : BitVec 60) (arrival : BitVec 64) (e : Entry), s.Taking →
    s.entry? t tn.toNat = some e →
    ((s.tree t).isActive = false ∨ e.operating = false → exec (.grantedBurst t tn g arrival) s = .next s) ∧
      (∀ d, (s.tree t).isActive = true → e.state = .operating d → d.settled s.epoch g.toNat = false →
        exec (.grantedBurst t tn g arrival) s =
          .next (s.modEntry t tn.toNat fun x => { x with state := .operating { d with misses := 0 } })) ∧
      (∀ d x, (s.tree t).isActive = true → e.state = .operating d → d.settled s.epoch g.toNat = true →
        x = (arrival.toNat : Int) - (16 * (g.toNat + (s.params t).art) + (s.tree t).ctl.p - e.r.getD 0) →
        (x.natAbs ≤ (s.params t).wgross → d.n + 1 < 2 ^ (s.params t).k →
            exec (.grantedBurst t tn g arrival) s =
              .next
                (s.modEntry t tn.toNat fun y =>
                  { y with state := .operating { d with sum := d.sum + x, n := d.n + 1, misses := 0 } })) ∧
          (x.natAbs ≤ (s.params t).wgross → 2 ^ (s.params t).k ≤ d.n + 1 →
            (average (s.params t).k (d.sum + x)).natAbs ≤ (s.params t).win →
            exec (.grantedBurst t tn g arrival) s =
              .next
                (s.modEntry t tn.toNat fun y => { y with state := .operating { d with sum := 0, n := 0, misses := 0 } })) ∧
          ((s.params t).wgross < x.natAbs ∨
              (2 ^ (s.params t).k ≤ d.n + 1 ∧ (s.params t).wout < (average (s.params t).k (d.sum + x)).natAbs ∧
                (s.params t).win < (average (s.params t).k (d.sum + x)).natAbs) →
            ∃ s', exec (.grantedBurst t tn g arrival) s = .next s' ∧
              (s'.entry? t tn.toNat).map Entry.identity =
                some (e.inst, e.serial, .ranging (s.epoch + (s.params t).budget)) ∧
              tn.toNat ∉ (s'.tree t).onAir ∧ s.Sends s' t (.terminalOff tn.toNat) ∧ s'.PostedAs s t ∧
              s.TaskAsked s' t { tn := tn.toNat, inst := e.inst, kind := .rerange }))

/-- An average between the two windows moves LD and r by it where the result lies within 0..ART: a change of LD sets
settle-until to not yet and posts a NUDGE of that change, queued, owed, or merged into the DELAY of the new LD where the
entry owes a DELAY or NUDGE (R27); without a change r alone is set. The NUDGED report follows, and nothing else changes.
Where the result lies outside 0..ART the entry goes to RANGING off the air with a RERANGE task instead (R102, R127..R129,
R132). -/
def Obligations.DriftCorrectionsNudge : Prop :=
  ∀ (s : State) (t : TreeId) (tn : Byte) (g : BitVec 60) (arrival : BitVec 64) (e : Entry) (d : Drift) (x a ld' r' : Int),
    s.Taking → (s.tree t).isActive = true → s.entry? t tn.toNat = some e → e.state = .operating d →
    d.settled s.epoch g.toNat = true →
    x = (arrival.toNat : Int) - (16 * (g.toNat + (s.params t).art) + (s.tree t).ctl.p - e.r.getD 0) →
    x.natAbs ≤ (s.params t).wgross → 2 ^ (s.params t).k ≤ d.n + 1 → a = average (s.params t).k (d.sum + x) →
    (s.params t).win < a.natAbs → a.natAbs ≤ (s.params t).wout →
    ld' = (16 * (e.ld : Int) + e.r.getD 0 - a + 8) / 16 → r' = 16 * (e.ld : Int) + e.r.getD 0 - a - 16 * ld' →
    (0 ≤ ld' → ld' ≤ (s.params t).art → ld' = e.ld →
        exec (.grantedBurst t tn g arrival) s =
          .next
            ((s.modEntry t tn.toNat fun y =>
                { y with r := some r', state := .operating { d with sum := 0, n := 0, misses := 0 } }).entering
              (treePoster t)
              (.nudged tn.toNat e.inst .residual a (2 ^ (s.params t).k) 0 e.ld r' none))) ∧
      (0 ≤ ld' → ld' ≤ (s.params t).art → ld' ≠ e.ld → e.owed = none → (s.tree t).msgq.broadcastStands = false →
        (s.tree t).msgq.items.length < 32 →
        exec (.grantedBurst t tn g arrival) s =
          .next
            (((s.modEntry t tn.toNat fun y =>
                  { y with
                    ld := ld'.toNat, r := some r'
                    state := .operating { sum := 0, n := 0, settle := .notYet, misses := 0 } }).withItems t
                ((s.tree t).msgq.items ++
                  [{ msg := .nudge tn.toNat (ld' - e.ld), issuer := .drift, inst := e.inst, deadline := none }])).entering
              (treePoster t)
              (.nudged tn.toNat e.inst .nudge a (2 ^ (s.params t).k) (ld' - e.ld) ld'.toNat r' (some .queued)))) ∧
      (0 ≤ ld' → ld' ≤ (s.params t).art → ld' ≠ e.ld → e.owed = none → (s.tree t).msgq.broadcastStands = false →
        32 ≤ (s.tree t).msgq.items.length →
        exec (.grantedBurst t tn g arrival) s =
          .next
            ((s.modEntry t tn.toNat fun y =>
                { y with
                  ld := ld'.toNat, r := some r'
                  state := .operating { sum := 0, n := 0, settle := .notYet, misses := 0 }
                  owed := some { msg := .nudge tn.toNat (ld' - e.ld), issuer := .drift } }).entering
              (treePoster t)
              (.nudged tn.toNat e.inst .nudge a (2 ^ (s.params t).k) (ld' - e.ld) ld'.toNat r' (some .owed)))) ∧
      (∀ o, 0 ≤ ld' → ld' ≤ (s.params t).art → ld' ≠ e.ld → e.owed = some o → o.msg.setsDelay = true →
        (s.tree t).msgq.broadcastStands = false →
        exec (.grantedBurst t tn g arrival) s =
          .next
            ((s.modEntry t tn.toNat fun y =>
                { y with
                  ld := ld'.toNat, r := some r'
                  state := .operating { sum := 0, n := 0, settle := .notYet, misses := 0 }
                  owed := some { msg := .delay tn.toNat ld'.toNat, issuer := .drift } }).entering
              (treePoster t)
              (.nudged tn.toNat e.inst .nudge a (2 ^ (s.params t).k) (ld' - e.ld) ld'.toNat r' (some .merged)))) ∧
      (ld' < 0 ∨ (s.params t).art < ld' →
        ∃ s', exec (.grantedBurst t tn g arrival) s = .next s' ∧
          (s'.entry? t tn.toNat).map Entry.identity =
            some (e.inst, e.serial, .ranging (s.epoch + (s.params t).budget)) ∧
          tn.toNat ∉ (s'.tree t).onAir ∧ s.Sends s' t (.terminalOff tn.toNat) ∧ s'.PostedAs s t ∧
          s.TaskAsked s' t { tn := tn.toNat, inst := e.inst, kind := .rerange })

/-- A miss of an OPERATING entry is counted, and the MissLimit-th takes it to LOST off the air with its hold set, its task
and probe withdrawn and nothing posted; a miss for another entry, for a TN without one, or of a tree that is not ACTIVE is
discarded (R21, R44, R133, R136). -/
def Obligations.MissesCounted : Prop :=
  ∀ (s : State) (t : TreeId) (tn : Byte) (g : BitVec 60), s.Taking →
    ((s.tree t).isActive = false ∨ (∀ e, s.entry? t tn.toNat = some e → e.operating = false) →
        exec (.miss t tn g) s = .next s) ∧
      (∀ e d, (s.tree t).isActive = true → s.entry? t tn.toNat = some e → e.state = .operating d →
        d.misses + 1 < (s.params t).missLimit →
        exec (.miss t tn g) s =
          .next (s.modEntry t tn.toNat fun x => { x with state := .operating { d with misses := d.misses + 1 } })) ∧
      ∀ e d, (s.tree t).isActive = true → s.entry? t tn.toNat = some e → e.state = .operating d →
        (s.params t).missLimit ≤ d.misses + 1 →
        ∃ s', exec (.miss t tn g) s = .next s' ∧
          (s'.entry? t tn.toNat).map Entry.identity =
            some (e.inst, e.serial, .lost (s.epoch + (s.params t).lostHold)) ∧
          tn.toNat ∉ (s'.tree t).onAir ∧ s.Sends s' t (.terminalOff tn.toNat) ∧ s'.Idles t tn.toNat e.inst ∧
          s'.PostedAs (s.probeGone t tn.toNat e.inst) t ∧ s'.directory = s.directory ∧
          ∀ k, k ≠ tn.toNat → (s'.entry? t k).map Entry.identity = (s.entry? t k).map Entry.identity

/-- Unexplained light: outside QUIET a record changes nothing; in QUIET below StrikeLimit a strike is counted and a check of
purpose STRIKE is sent where none is in flight; the strike that reaches the limit, and continuous light, make the condition
SUSPECT and start the hunt: its first candidate is muted with its MUTE posted, or with none the pause before the next check
begins. A granted burst for a TN without an entry is a record of this kind. On a tree that is not ACTIVE every such record
is discarded, on a CLOSING one by Law 12, which has its condition UNKNOWN (R21, R166..R168, R171, R173). -/
def Obligations.UnexplainedLightStrikes : Prop :=
  ∀ (s : State) (t : TreeId) (arrival : BitVec 64) (c : Instr) (strikes : Nat), s.Taking →
    (c = .ungrantedLight t arrival ∨
        (∃ tn g, c = .grantedBurst t tn g arrival ∧ s.entry? t tn.toNat = none) ∨ c = .continuousLight t arrival) →
    strikes = (if c = .continuousLight t arrival then (s.tree t).light.strikes else min 15 ((s.tree t).light.strikes + 1)) →
    ((s.tree t).routesBursts = false ∨ (s.tree t).light.light ≠ .quiet ∨ ((s.tree t).isActive = false ∧ s.ClosedLawful) →
        exec c s = .next s) ∧
      ((s.tree t).isActive = true → c ≠ .continuousLight t arrival → (s.tree t).light.light = .quiet →
        strikes < (s.params t).strikeLimit →
        exec c s =
          .next
            (if (s.tree t).light.check = none then
              (chanSend t .silence
                  { kind := .silence, length := (s.params t).silenceLen, earliest := (s.epoch + 3) * 625000 } s).modLight
                t fun l =>
                { l with
                  strikes := strikes
                  check := some { purpose := .strike, qe := (s.epoch + 3) * 625000, phase := .requesting } }
             else s.modLight t fun l => { l with strikes := strikes })) ∧
      ((s.tree t).isActive = true → c = .continuousLight t arrival ∨ (s.params t).strikeLimit ≤ strikes →
        (s.tree t).light.light = .quiet →
        ∃ s', exec c s = .next s' ∧ (s'.tree t).light.light = .suspect ∧ (s'.tree t).light.strikes = strikes ∧
          (s'.tree t).light.check = none ∧ s.HuntStarted s' t)

/-- Loop records: outside CALIBRATING, before the run's start epoch and with no marker left to pair they are discarded; a
record is stored with its offset from the oldest marker without one; the sixteenth judges the run, and a passed run sets P
and makes the tree ACTIVE, UNKNOWN and with nothing on the air; a failed run 1 is followed by run 2, and a failed run 2
returns the tree to CLOSED with its contexts emptied, P kept and the TREE report CAL_FAILED (R21, R103, R163, R179..R181).
-/
def Obligations.LoopRecordsTaken : Prop :=
  ∀ (s : State) (t : TreeId) (arrival : BitVec 64), s.Taking →
    ((∀ r, (s.tree t).ctl.state = .calibrating r →
          arrival.toNat < 10000000 * r.start ∨ r.markers.length ≤ r.pis.length) →
        exec (.loop t arrival) s = .next s) ∧
      (∀ r m, (s.tree t).ctl.state = .calibrating r → 10000000 * r.start ≤ arrival.toNat →
        r.markers[r.pis.length]? = some m → r.pis.length + 1 ≠ 16 →
        exec (.loop t arrival) s =
          .next
            (s.modCtl t fun c =>
              { c with
                state := .calibrating { r with pis := r.pis ++ [(arrival.toNat : Int) - 10000000 * (m : Int)] } })) ∧
      ∀ r m pis, (s.tree t).ctl.state = .calibrating r → 10000000 * r.start ≤ arrival.toNat →
        r.markers[r.pis.length]? = some m → pis = r.pis ++ [(arrival.toNat : Int) - 10000000 * (m : Int)] →
        pis.length = 16 →
        (judgePis (s.params t).calSpread pis = none →
            ∃ s', exec (.loop t arrival) s = .next s' ∧
              (s'.tree t).ctl = { (s.tree t).ctl with state := .active, p := ((pis.sum + 8) / 16).toNat } ∧
              (s'.tree t).light.light = .unknown ∧
              (s'.tree t).light.check =
                some { purpose := .opening, qe := (s.epoch + 3) * 625000, phase := .requesting } ∧
              (s'.tree t).onAir = [] ∧ (s'.tree t).seq.sweepPtr = 0) ∧
          ∀ why, judgePis (s.params t).calSpread pis = some why →
            (r.run = 1 →
                exec (.loop t arrival) s =
                  .next
                    (s.modCtl t fun c =>
                      { c with
                        state := .calibrating
                          { run := 2, start := s.epoch + 4, markers := [], pis := [], restarts := r.restarts
                            first := some why } })) ∧
              (r.run = 2 →
                ∃ s', exec (.loop t arrival) s = .next s' ∧
                  (s'.tree t).ctl = { (s.tree t).ctl with state := .closed, suspended := false } ∧
                  (s'.tree t).disc =
                    { contexts := [], state := .stopped, repeatIndex := 0, flushed := false
                      nextWindow := (s.tree t).disc.nextWindow, stale := 0 } ∧
                  (s'.tree t).seq.sweepPtr = 0 ∧ (s'.tree t).seq.nextSweep = none ∧
                  (∀ j, j ≠ t → s'.tree j = s.tree j) ∧
                  ((∀ w n qs gw d coll, (s.tree t).disc.state ≠ .collecting w n qs gw d coll) →
                    s'.port =
                      (s.entering (treePoster t)
                        (.tree .calibrating .closed .calFailed (s.tree t).ctl.p 2 r.restarts (some why) (spreadOf pis)
                          0)).port))

/-! ### Grants (R154) -/

/-- A GRANT that answers no awaited request is returned with its own number and changes nothing else (R154); one that starts
within its owner's bounds, with a reference time that still meets its dispatch deadline and room in the queue, is kept: the
INVITE or the PROBE is posted, or the silence check listens (R83, R109, R164); one that starts earlier than asked or more
than 32 epochs later is released and asked for again. -/
def Obligations.GrantsJudged : Prop :=
  ∀ (s : State) (t : TreeId) (tag : Tag) (number : Byte) (start : BitVec 60), s.Taking →
    ((∀ req d, (s.chan t tag).phase = .awaiting req d → number ≠ (s.chan t tag).number) →
        exec (.grant t tag number start) s =
          .next (s.modOut t fun o => { o with grant := o.grant ++ [.release tag number] })) ∧
      ∀ req d, (s.chan t tag).phase = .awaiting req d → number = (s.chan t tag).number →
        (∀ w qe gw, tag = .window → (s.tree t).disc.state = .requesting w qe →
            gw = (start.toNat : Int) - (s.params t).frtMin - (s.params t).arMin →
            (qe ≤ start.toNat → (start.toNat : Int) ≤ qe + 32 * 625000 → (s.epoch : Int) ≤ gw / 625000 - 2 →
                (s.tree t).msgq.broadcastStands = false → (s.tree t).msgq.items.length < 24 →
                exec (.grant t tag number start) s =
                  .next
                    (s.modTree t fun T =>
                      { T with
                        chanWindow := { phase := .granted number start.toNat, number := number }
                        disc := { T.disc with
                          state := .posted w T.disc.nextWindow start.toNat gw, nextWindow := T.disc.nextWindow + 1 }
                        msgq := { T.msgq with
                          items := T.msgq.items ++
                            [{ msg := .invite T.disc.nextWindow w.dspan gw, issuer := .discovery, inst := 0
                               deadline := some (gw / 625000 - 2) }] } })) ∧
              ((start.toNat : Int) < qe ∨ qe + 32 * 625000 < start.toNat ∨ gw / 625000 - 2 < s.epoch →
                exec (.grant t tag number start) s =
                  .next
                    (sendWindow t w
                      ((s.modOut t fun o => { o with grant := o.grant ++ [.release .window number] }).setChan t .window
                        { phase := .idle, number := number })))) ∧
          (∀ o pl qe g e, tag = .probe → (s.tree t).seq.op = some o → o.phase = .requesting pl qe →
            s.entry? t o.tn = some e → e.inst = o.inst → e.state.name = o.expected.name → e.ld = pl.ldp →
            g = (start.toNat : Int) + pl.half - pl.ldp - pl.cp →
            (qe ≤ start.toNat → (start.toNat : Int) ≤ qe + 32 * 625000 → (s.epoch : Int) ≤ g / 625000 - 2 →
                (s.tree t).msgq.broadcastStands = false → (s.tree t).msgq.items.length < 24 →
                exec (.grant t tag number start) s =
                  .next
                    (s.modTree t fun T =>
                      { T with
                        chanProbe := { phase := .granted number start.toNat, number := number }
                        seq := { T.seq with op := some { o with phase := .posted pl qe start.toNat g } }
                        msgq := { T.msgq with
                          items := T.msgq.items ++
                            [{ msg := .probe o.tn g, issuer := .sequencer, inst := o.inst
                               deadline := some (g / 625000 - 2) }] } })) ∧
              ((start.toNat : Int) < qe ∨ qe + 32 * 625000 < start.toNat ∨ g / 625000 - 2 < s.epoch →
                exec (.grant t tag number start) s =
                  .next
                    (sendProbe t o pl
                      ((s.modOut t fun o => { o with grant := o.grant ++ [.release .probe number] }).setChan t .probe
                        { phase := .idle, number := number })))) ∧
          (∀ p qe, tag = .silence → (s.tree t).light.check = some { purpose := p, qe := qe, phase := .requesting } →
            exec (.grant t tag number start) s =
              .next
                (if qe ≤ start.toNat ∧ (start.toNat : Int) ≤ qe + 32 * 625000 then
                  (s.setChan t .silence { phase := .granted number start.toNat, number := number }).modLight t fun l =>
                    { l with check := some { purpose := p, qe := qe, phase := .listening start.toNat 0 } }
                 else
                  sendCheck t p
                    ((s.modOut t fun o => { o with grant := o.grant ++ [.release .silence number] }).setChan t .silence
                      { phase := .idle, number := number })))

/-! ### Delay arithmetic and reports -/

/-- A measured launch delay aligns the arrival: 16·LD + r + RRT is 16·ART, the residual lies in -8..7 and LD within 0..ART
(R99, R100, Law 7, Law 8); a correction by an average within Wout changes LD by no more than N where Wout is within 16·N - 8
(R102). -/
def Obligations.RangingAligns : Prop :=
  (∀ (pr : Params) (prof : Profile) (rrt x : Int) (ld : Nat) (r : Int), measure pr prof rrt = .value x ld r →
      x = rrt ∧ 16 * (ld : Int) + r + rrt = 16 * (pr.art : Int) ∧ -8 ≤ r ∧ r ≤ 7 ∧ ld ≤ pr.art) ∧
    ∀ (ld : Nat) (r a : Int) (wout n : Nat), -8 ≤ r → r ≤ 7 → a.natAbs ≤ wout → (wout : Int) ≤ 16 * n - 8 →
      16 * (correct ld r a).ld + (correct ld r a).r = 16 * (ld : Int) + r - a ∧
        -8 ≤ (correct ld r a).r ∧ (correct ld r a).r ≤ 7 ∧ (correct ld r a).change = (correct ld r a).ld - ld ∧
        (correct ld r a).change.natAbs ≤ n

/-! ### The Command Port (chapter 12) -/

/-- A malformed frame is answered MALFORMED with tag 0 and an empty body and does nothing else, and a read transaction shifts
out the holder's frame, zeros behind it, and empties the holder (R186, R187). -/
def Obligations.FramesAnswered : Prop :=
  ∀ s : State, s.Taking →
    exec .malformedFrame s =
        .next
          { s with
            port := { s.port with holder := some { tag := 0, code := .malformed, body := [] }, miso := .allOnes } } ∧
      (∀ clocked, s.port.holder = none →
        exec (.readTransaction clocked) s =
          .next { s with port := { s.port with holder := none, miso := .frame (List.replicate clocked 0) } }) ∧
      ∀ clocked (r : Reply), s.port.holder = some r →
        ∃ out, exec (.readTransaction clocked) s =
            .next { s with port := { s.port with holder := none, miso := .frame out } } ∧
          out.length = clocked ∧
          out =
            (([1, r.tag, r.code.code] ++ natField 2 r.body.length ++ r.body ++ List.replicate clocked 0).take clocked)

/-- IDENTIFY answers 6210H, revision 3, the strap value and the lock, and PART_SETUP reads or replaces the overflow policy
and the watermark, refusing a value outside its range; a new watermark is judged against the queue at once (R189). -/
def Obligations.IdentifyAndSetup : Prop :=
  ∀ (s : State) (tag : Byte), s.Taking →
    exec (.identify tag) s =
        .next
          (s.reply tag .ok
            [0x62, 0x10, 3, if s.admission.strap then 1 else 0, if s.admission.lock then 1 else 0]) ∧
      exec (.partSetup tag none) s =
        .next (s.reply tag .ok ([if s.port.policy = .keepOldest then 1 else 2] ++ natField 1 s.port.watermark)) ∧
      ∀ policy mark : Byte,
        exec (.partSetup tag (some (policy, mark))) s =
          .next
            (if (policy = 1 ∨ policy = 2) ∧ 1 ≤ mark.toNat ∧ mark.toNat ≤ 64 then
              { s with
                port :=
                  { s.port with
                    policy := if policy = 1 then .keepOldest else .keepNewest
                    watermark := mark.toNat
                    attention := decide (mark.toNat ≤ s.port.queue.length)
                    holder := some { tag := tag, code := .ok, body := [policy, mark] }
                    miso := .allOnes } }
             else s.reply tag .badParam [])

/-- A record that the arbiter enters joins the tail of a queue with room, carrying the pending-lost count, which returns to
0; on a full queue KEEP_OLDEST discards it and KEEP_NEWEST removes the head for it, the count raised by one up to 255. While
any poster holds a record the arbiter enters the oldest of the first poster after the last-served one that holds one, and
that poster becomes last served; at the end of an event none holds one. FETCH_REPORTS takes up to n records, 1..8, from the
head of the queue into the reply; any other n is answered BAD_PARAM. After each of them the attention line tells whether the
queue holds the watermark number of records (R191..R193). -/
def Obligations.ReportsQueuedAndFetched : Prop :=
  (∀ (p : Port) (r : Record), p.queue.length ≤ 64 →
      (p.queue.length < 64 →
          (p.enterRecord r).queue = p.queue ++ [{ r with lostBefore := p.lost }] ∧ (p.enterRecord r).lost = 0) ∧
        (p.queue.length = 64 → p.policy = .keepOldest →
          (p.enterRecord r).queue = p.queue ∧ (p.enterRecord r).lost = min 255 (p.lost + 1)) ∧
        (p.queue.length = 64 → p.policy = .keepNewest →
          (p.enterRecord r).queue = p.queue.tail ++ [{ r with lostBefore := min 255 (p.lost + 1) }] ∧
            (p.enterRecord r).lost = 0) ∧
        (p.enterRecord r).attention = decide (p.watermark ≤ (p.enterRecord r).queue.length) ∧
        (p.enterRecord r).policy = p.policy ∧ (p.enterRecord r).watermark = p.watermark ∧
        (p.enterRecord r).holder = p.holder ∧ (p.enterRecord r).delivered = p.delivered) ∧
    (∀ (p : Port) (i : Poster) (r : Record) (rest : List Record) (n : Nat), p.delivered[i] = r :: rest →
      (∀ j : Poster, j - (p.lastServed + 1) < i - (p.lastServed + 1) → p.delivered[j] = []) →
      Port.enterUpTo (n + 1) p =
        Port.enterUpTo n ({ p with delivered := p.delivered.set i rest, lastServed := i }.enterRecord r)) ∧
    (∀ (p : Port) (n : Nat), (∀ j : Poster, p.delivered[j] = []) → Port.enterUpTo n p = p) ∧
    (∀ (s : State) (j : Poster), s.settle.port.delivered[j] = []) ∧
    ∀ (s : State) (tag n : Byte), s.Taking →
      (1 ≤ n.toNat → n.toNat ≤ 8 →
          exec (.fetchReports tag n) s =
            .next
              { s with
                port :=
                  { s.port with
                    queue := s.port.queue.drop n.toNat
                    attention := decide (s.port.watermark ≤ s.port.queue.length - n.toNat)
                    holder := some
                      { tag := tag, code := .ok, body := (s.port.queue.take n.toNat).flatMap Record.bytes }
                    miso := .allOnes } }) ∧
        (n.toNat = 0 ∨ 8 < n.toNat → exec (.fetchReports tag n) s = .next (s.reply tag .badParam []))

/-- A request that is refused changes nothing but the reply holder; OK, and BARRED and TABLE_FULL, which end a pending
record, are the replies of requests that were carried out (R72, R187). A request that names a tree outside 0..3 is answered
BAD_PARAM, one that names a CLOSING tree BUSY, and one that needs an open or an ACTIVE tree WRONG_STATE on a CLOSED one
(R52, R72, R73, R78, R79, R147, R172, R178, R182). -/
def Obligations.RefusalsChangeNothing : Prop :=
  (∀ (c : Instr) (s s' : State) (r : Reply), s.Taking → c.isRequest = true → exec c s = .next s' →
      s'.port.holder = some r → r.code ≠ .ok → r.code ≠ .barred → r.code ≠ .tableFull →
      s' = s.reply r.tag r.code r.body) ∧
    ∀ (s : State) (tag tree tn : Byte) (serial : Serial) (ctx : RawContext) (c : Instr), s.Taking →
      1 ≤ tn.toNat → tn.toNat ≤ 120 →
      c ∈ [Instr.treeClose tag tree, .ctxPush tag tree ctx, .ctxFlush tag tree, .treeSuspend tag tree,
        .treeResume tag tree, .forceQuiet tag tree, .admitSerial tag tree serial, .refuse tag tree serial,
        .rangeNow tag tree tn, .retireTn tag tree tn, .muteTn tag tree tn, .unmuteTn tag tree tn,
        .readEntry tag tree tn] ∨ c = .treeOpen tag tree →
      (4 ≤ tree.toNat → exec c s = .next (s.reply tag .badParam [])) ∧
        ∀ t : TreeId, tree.toNat = t →
          ((s.tree t).ctl.state = .closing → exec c s = .next (s.reply tag .busy [])) ∧
            (c ≠ .treeOpen tag tree → (s.tree t).ctl.state = .closed → exec c s = .next (s.reply tag .wrongState []))

/-! ### Catalogue and barred list (chapter 4) -/

/-- CAT_WRITE replaces an entry whole, CAT_READ answers it, and CAT_LOCK sets the lock, which refuses CAT_WRITE while the
strap value is low; an index or a field outside its range is answered BAD_PARAM (R66, R67). -/
def Obligations.CatalogueRequests : Prop :=
  ∀ (s : State) (tag index : Byte), s.Taking →
    (∀ (i : Fin 64) (raw : RawCatEntry), index.toNat = i →
        exec (.catWrite tag index raw) s =
            (if s.admission.lock = true ∧ s.admission.strap = false then .next (s.reply tag .locked [])
             else if raw.valid.toNat ≤ 1 ∧ raw.refuse.toNat ≤ 1 ∧ raw.rn.toNat ≤ 131071 ∧ raw.rtol.toNat ≤ 8191 ∧
                raw.la.toNat ≤ 7 ∧ 64 ≤ raw.bp.toNat ∧ raw.bp.toNat ≤ 4096 ∧ raw.pre.toNat ≤ 3 then
              .next
                ({ s with
                    admission :=
                      { s.admission with
                        cat :=
                          s.admission.cat.set i
                            { valid := raw.valid == 1, vendor := raw.vendor, model := raw.model
                              refuse := raw.refuse == 1, rn := raw.rn.toNat, rtol := raw.rtol.toNat
                              la := raw.la.toNat, bp := raw.bp.toNat, pre := raw.pre.toNat } } }.reply tag .ok [])
             else .next (s.reply tag .badParam [])) ∧
          exec (.catRead tag index) s = .next (s.reply tag .ok s.admission.cat[i].bytes)) ∧
      (∀ raw, 64 ≤ index.toNat →
        exec (.catWrite tag index raw) s = .next (s.reply tag .badParam []) ∧
          exec (.catRead tag index) s = .next (s.reply tag .badParam [])) ∧
      exec (.catLock tag) s =
        .next ({ s with admission := { s.admission with lock := true } }.reply tag .ok [])

/-- BAR_WRITE replaces a range whole unless the lock is set, and BAR_READ answers it, set or clear: its valid flag, vendor code,
low and high, most significant byte first; an index outside 0..7, or a low above the high, is answered BAD_PARAM (R62), as is a
flag byte other than 00H and 01H (R188). -/
def Obligations.BarredListRequests : Prop :=
  ∀ (s : State) (tag index : Byte), s.Taking →
    (∀ (i : Fin 8) (raw : RawBarRange), index.toNat = i →
        exec (.barWrite tag index raw) s =
            (if s.admission.lock = true then .next (s.reply tag .locked [])
             else if raw.low.toNat ≤ raw.high.toNat ∧ raw.valid.toNat ≤ 1 then
              .next
                ({ s with
                    admission :=
                      { s.admission with
                        bars :=
                          s.admission.bars.set i
                            { valid := raw.valid == 1, vendor := raw.vendor, low := raw.low, high := raw.high } } }.reply
                  tag .ok [])
             else .next (s.reply tag .badParam [])) ∧
          exec (.barRead tag index) s =
            .next
              (s.reply tag .ok
                ((if s.admission.bars[i].valid = true then 1 else 0) ::
                  [s.admission.bars[i].vendor, s.admission.bars[i].low, s.admission.bars[i].high].flatMap fun w =>
                    [w.extractLsb' 24 8, w.extractLsb' 16 8, w.extractLsb' 8 8, w.extractLsb' 0 8]))) ∧
      ∀ raw, 8 ≤ index.toNat →
        exec (.barWrite tag index raw) s = .next (s.reply tag .badParam []) ∧
          exec (.barRead tag index) s = .next (s.reply tag .badParam [])

/-! ### Requests on a tree (chapters 5, 8, 10 and 11) -/

/-- TREE_CONFIG replaces the parameter set of a CLOSED tree and sets its configured flag exactly where every field of R176's
table lies in its range and the cross-check on ART holds, and otherwise names the failing field (R176). -/
def Obligations.TreesConfigured : Prop :=
  (∀ raw : RawParams,
      failingParam raw = none ↔ (raw.queueMode = 1 ∨ raw.queueMode = 2) ∧ (paramsOf raw).InRange) ∧
    ∀ (s : State) (tag tree : Byte) (raw : RawParams), s.Taking →
      (4 ≤ tree.toNat → exec (.treeConfig tag tree raw) s = .next (s.reply tag .badParam [0])) ∧
        ∀ t : TreeId, tree.toNat = t →
          exec (.treeConfig tag tree raw) s =
            .next
              (match (s.tree t).ctl.state, failingParam raw with
               | .closing, _ => s.reply tag .busy []
               | .calibrating _, _ | .active, _ => s.reply tag .wrongState []
               | .closed, some n => s.reply tag .badParam [BitVec.ofNat 8 n]
               | .closed, none =>
                 (s.modCtl t fun c => { c with params := paramsOf raw, configured := true }).reply tag .ok [])

/-- TREE_OPEN of a configured CLOSED tree with the timebase RUNNING begins calibration run 1 in the next epoch and reports
it; otherwise it is refused (R178). -/
def Obligations.TreesOpened : Prop :=
  ∀ (s : State) (tag tree : Byte) (t : TreeId), s.Taking → tree.toNat = t →
    exec (.treeOpen tag tree) s =
      .next
        (match (s.tree t).ctl.state with
         | .closing => s.reply tag .busy []
         | .calibrating _ | .active => s.reply tag .wrongState []
         | .closed =>
           if s.timebase.status = .running ∧ (s.tree t).ctl.configured = true then
             ((s.modCtl t fun c =>
                  { c with
                    state := .calibrating
                      { run := 1, start := s.epoch + 1, markers := [], pis := [], restarts := 0, first := none } }).entering
                (treePoster t)
                (.tree .closed .calibrating .opened (s.tree t).ctl.p 0 0 none 0 0)).reply tag .ok []
           else s.reply tag .wrongState [])

/-- TREE_CLOSE of an ACTIVE tree: every block of the tree gives up its work, the gated messages leave the queue, the
broadcast RETIRE joins it or is owed, and the entries stay as they are (R30, R75, R97, R150, R173, R182). -/
def Obligations.TreesClosed : Prop :=
  ∀ (s : State) (tag tree : Byte) (t : TreeId) (kept : List Item), s.Taking → tree.toNat = t →
    kept = (s.tree t).msgq.items.filter (fun it => !it.msg.isGated) →
    ((s.tree t).ctl.state = .active →
        ∃ s', exec (.treeClose tag tree) s = .next s' ∧
          s'.port.holder = some { tag := tag, code := .ok, body := [] } ∧
          (s'.tree t).ctl = { (s.tree t).ctl with state := .closing } ∧
          (s'.tree t).disc =
            { contexts := [], state := .stopped, repeatIndex := 0, flushed := false
              nextWindow := (s.tree t).disc.nextWindow, stale := 0 } ∧
          (s'.tree t).seq = { tasks := [], op := none, stale := 0, sweepPtr := 0, nextSweep := none } ∧
          (s'.tree t).light = LightMonitor.reset ∧ (s'.tree t).pendingList = [] ∧
          (s'.tree t).msgq =
            (if kept.length < 32 then { (s.tree t).msgq with items := kept ++ [broadcastItem] }
             else { (s.tree t).msgq with items := kept, owedBroadcast := true }) ∧
          (∀ tn, (s'.entry? t tn).map Entry.identity = (s.entry? t tn).map Entry.identity) ∧
          (s'.tree t).onAir = (s.tree t).onAir ∧ s'.directory = s.directory ∧ ∀ j, j ≠ t → s'.tree j = s.tree j) ∧
      ((s.tree t).ctl.state = .closing → exec (.treeClose tag tree) s = .next (s.reply tag .busy [])) ∧
      ((s.tree t).ctl.state ≠ .closing → (s.tree t).ctl.state ≠ .active →
        exec (.treeClose tag tree) s = .next (s.reply tag .wrongState []))

/-- TREE_STATUS answers every tree, TREE_READ_CONFIG every tree that is not CLOSING, and READ_ENTRY every entry of an ACTIVE
tree; none of them changes anything else (R52, R57, R177, R185). The layout of the bodies is DEDUCED from R188
(notes/assumptions/18.md). -/
def Obligations.ReadsChangeNothing : Prop :=
  ∀ (s : State) (tag tree : Byte), s.Taking →
    (∀ t : TreeId, tree.toNat = t →
        exec (.treeStatus tag tree) s = .next (s.reply tag .ok (s.tree t).statusBytes) ∧
          exec (.treeReadConfig tag tree) s =
            .next
              (if (s.tree t).isClosing then s.reply tag .busy []
               else
                s.reply tag .ok
                  ([if (s.tree t).ctl.configured then 1 else 0] ++ (s.params t).bytes
                    ++ natField 2 (s.tree t).ctl.p)) ∧
          ∀ tn : Byte, (s.tree t).isActive = true → 1 ≤ tn.toNat → tn.toNat ≤ 120 →
            exec (.readEntry tag tree tn) s =
              .next
                (match s.entry? t tn.toNat with
                 | some e => s.reply tag .ok (e.bytes tn.toNat)
                 | none => s.reply tag .notFound [])) ∧
      (4 ≤ tree.toNat →
        exec (.treeStatus tag tree) s = .next (s.reply tag .badParam []) ∧
          exec (.treeReadConfig tag tree) s = .next (s.reply tag .badParam []) ∧
          ∀ tn, exec (.readEntry tag tree tn) s = .next (s.reply tag .badParam []))

/-- FIND_SERIAL answers OK with the tree, the TN, the instance and the state of the entry that holds the serial, whatever the
tree states, and NOT_FOUND where no entry does (R58, R42). The bytes of the reply, its widths and the code of the state, are
DEDUCED from R188 (notes/assumptions/18.md, unsafe). -/
def Obligations.SerialsFound : Prop :=
  ∀ (s : State) (tag : Byte) (serial : Serial), s.Taking → s.DirectoryLawful →
    (∀ t tn e, s.entry? t tn = some e → e.serial = serial →
        exec (.findSerial tag serial) s =
          .next
            (s.reply tag .ok (natField 1 t.val ++ natField 1 tn ++ wordField e.inst ++ [e.state.name.code]))) ∧
      ((∀ t tn e, s.entry? t tn = some e → e.serial ≠ serial) →
        exec (.findSerial tag serial) s = .next (s.reply tag .notFound []))

/-- CTX_PUSH adds a context whose fields lie in range to a queue of fewer than four, and starts discovery from STOPPED at
once where the gate is open; CTX_FLUSH removes every context, ends a spacing or a wait, and marks a window in flight
(R77..R79, R81). That a flush in STOPPED, SPACING or DUE leaves the flushed mark and the repeat index as they stand is the
model's choice (DESIGN CHOICE, notes/assumptions/39.md and 41.md), and so is the index that a push leaves in DUE (41.md). -/
def Obligations.ContextRequests : Prop :=
  ∀ (s : State) (tag tree : Byte) (t : TreeId), s.Taking → tree.toNat = t →
    (s.tree t).ctl.state ≠ .closed → (s.tree t).ctl.state ≠ .closing →
    (∀ (raw : RawContext) (c : Context), parseContext raw = some c → (s.tree t).disc.contexts.length < 4 →
        ((s.tree t).disc.state ≠ .stopped →
            exec (.ctxPush tag tree raw) s =
              .next
                ((s.modDisc t fun d => { d with contexts := d.contexts ++ [{ ctx := c, held := false }] }).reply tag .ok
                  [BitVec.ofNat 8 ((s.tree t).disc.contexts.length + 1)])) ∧
          ((s.tree t).disc.state = .stopped → (s.tree t).gateOpen = false →
            exec (.ctxPush tag tree raw) s =
              .next
                ((s.modDisc t fun d =>
                    { d with contexts := d.contexts ++ [{ ctx := c, held := false }], state := .due none }).reply tag .ok
                  [BitVec.ofNat 8 ((s.tree t).disc.contexts.length + 1)])) ∧
          ((s.tree t).disc.state = .stopped → (s.tree t).gateOpen = true → (s.tree t).disc.contexts = [] →
            exec (.ctxPush tag tree raw) s =
              .next
                ((sendWindow t c
                  (s.modDisc t fun d =>
                    { d with
                      contexts := [{ ctx := c, held := false }], repeatIndex := 0, flushed := false })).reply tag .ok
                  [1]))) ∧
      (∀ raw, parseContext raw = none → exec (.ctxPush tag tree raw) s = .next (s.reply tag .badParam [])) ∧
      (∀ raw c, parseContext raw = some c → 4 ≤ (s.tree t).disc.contexts.length →
        exec (.ctxPush tag tree raw) s = .next (s.reply tag .busy [])) ∧
      ((s.tree t).disc.contexts.length ≤ 4 →
        exec (.ctxFlush tag tree) s =
          .next
            ((s.modDisc t fun d =>
                match d.state with
                | .stopped | .spacing _ | .due _ => { d with contexts := [], state := .stopped }
                | _ => { d with contexts := [], flushed := true }).reply tag .ok
              [BitVec.ofNat 8 (s.tree t).disc.contexts.length]))

/-- TREE_SUSPEND sets the suspended flag of a CALIBRATING or ACTIVE tree, and TREE_RESUME clears it; either answers OK and
changes nothing where the flag already stands so, and a resumed tree whose condition is not QUIET goes on waiting (R147). -/
def Obligations.SuspendAndResume : Prop :=
  ∀ (s : State) (tag tree : Byte) (t : TreeId), s.Taking → tree.toNat = t →
    (s.tree t).ctl.state ≠ .closed → (s.tree t).ctl.state ≠ .closing →
    exec (.treeSuspend tag tree) s = .next ((s.modCtl t fun c => { c with suspended := true }).reply tag .ok []) ∧
      ((s.tree t).ctl.suspended = false → exec (.treeResume tag tree) s = .next (s.reply tag .ok [])) ∧
      ((s.tree t).ctl.suspended = true → (s.tree t).isActive = false ∨ (s.tree t).light.light ≠ .quiet →
        exec (.treeResume tag tree) s = .next ((s.modCtl t fun c => { c with suspended := false }).reply tag .ok [])) ∧
      ∃ s', exec (.treeResume tag tree) s = .next s' ∧ (s'.tree t).ctl = { (s.tree t).ctl with suspended := false } ∧
        s'.port.holder = some { tag := tag, code := .ok, body := [] } ∧
        (∀ tn, (s'.entry? t tn).map Entry.identity = (s.entry? t tn).map Entry.identity) ∧
        ∀ j, j ≠ t → s'.tree j = s.tree j

/-- FORCE_QUIET in QUIET changes nothing; in UNKNOWN or SUSPECT it gives up the check, ends the hunt with its candidate
released and the UNMUTE posted, and makes the condition QUIET with no strikes (R172). -/
def Obligations.QuietForced : Prop :=
  ∀ (s : State) (tag tree : Byte) (t : TreeId), s.Taking → tree.toNat = t → (s.tree t).isActive = true →
    ((s.tree t).light.light = .quiet → exec (.forceQuiet tag tree) s = .next (s.reply tag .ok [])) ∧
      ((s.tree t).light.light ≠ .quiet →
        ∃ s', exec (.forceQuiet tag tree) s = .next s' ∧
          s'.port.holder = some { tag := tag, code := .ok, body := [] } ∧
          (s'.tree t).light.light = .quiet ∧ (s'.tree t).light.strikes = 0 ∧ (s'.tree t).light.check = none ∧
          (s'.tree t).light.nextCheck = none ∧ (s'.tree t).light.hunt = none ∧ (s'.tree t).light.pause = false ∧
          (∀ h e, (s.tree t).light.hunt = some h → s.entry? t h.current.tn = some e → e.inst = h.current.inst →
            e.state = .muted (.hunt false) →
            (s'.entry? t h.current.tn).map Entry.identity = some (e.inst, e.serial, .muted (.hunt true)) ∧
              s'.PostedAs (postMust t h.current.tn (.unmute h.current.tn) .registry s).state t) ∧
          ∀ j, j ≠ t → s'.tree j = s.tree j)

/-! ### Requests on a terminal (chapters 3, 4 and 8) -/

/-- ADMIT of a pending serial that is not barred, with a FREE slot and room for its ASSIGN, makes its entry from the record;
a barred one loses its record; REFUSE removes the record; a serial that is not pending is answered NOT_PENDING (R72..R74).
-/
def Obligations.PendingSerialsDecided : Prop :=
  ∀ (s : State) (tag tree : Byte) (t : TreeId) (serial : Serial), s.Taking → tree.toNat = t →
    (s.tree t).isActive = true →
    ((s.tree t).pendingOf serial = none →
        exec (.admitSerial tag tree serial) s = .next (s.reply tag .notPending []) ∧
          exec (.refuse tag tree serial) s = .next (s.reply tag .notPending [])) ∧
      ∀ r, (s.tree t).pendingOf serial = some r →
        exec (.refuse tag tree serial) s =
            .next
              (((s.modPending t fun l => l.filter fun x => x.serial ≠ serial).entering (treePoster t)
                (.admission .refused .host 0 r.serial r.model r.c (some r.profile.origins) 0 none)).reply tag .ok []) ∧
          (s.admission.barred serial = true →
            exec (.admitSerial tag tree serial) s =
              .next
                (((s.modPending t fun l => l.filter fun x => x.serial ≠ serial).entering (treePoster t)
                  (.admission .barred .host 0 r.serial r.model r.c (some r.profile.origins) 0 none)).reply tag .barred
                  [])) ∧
          ∀ tn, s.admission.barred serial = false → s.lookup serial = none → (s.tree t).lowestFree = some tn →
            (s.tree t).msgq.broadcastStands = false → (s.tree t).msgq.items.length < 24 →
            ∃ s', exec (.admitSerial tag tree serial) s = .next s' ∧
              s'.port.holder = some { tag := tag, code := .ok, body := [BitVec.ofNat 8 tn] } ∧
              s'.entry? t tn =
                some
                  { inst := (s.tree t).slotInst tn + 1, state := .assigning (s.epoch + (s.params t).budget)
                    serial := serial, model := r.model, profile := r.profile, c := r.c, rrt := none, ld := 0, r := none
                    ever := false, attempts := none, waiting := false, owed := none, resend := false } ∧
              (∀ k, k ≠ tn → s'.entry? t k = s.entry? t k) ∧
              s'.directory = s.directory ++ [{ serial := serial, tree := t, tn := tn }] ∧
              ∀ j, ∀ x ∈ (s'.tree j).pendingList, x.serial ≠ serial

/-- The requests on a terminal of an ACTIVE tree, answered OK: MUTE_TN takes an OPERATING, RANGING or VERIFYING entry to
MUTED and off the air with its MUTE posted, UNMUTE_TN a MUTED one with its UNMUTE posted and RANGE_NOW an OPERATING one with
nothing posted to RANGING with a fresh activation deadline and an URGENT task asked for, and RETIRE_TN any entry to RETIRING
with its RETIRE posted, one already there being left as it is; another state is answered WRONG_STATE and a FREE slot
NOT_FOUND (R49, R52..R56, R146). Unless the entry is the candidate of a hunt's step no other entry changes; where it is, and
leaves MUTED, its step ends as interrupted and the next candidate's begins, or the hunt ends UNRESOLVED (R171; that the
request's own message and task come first is DEDUCED, notes/assumptions/25.md). -/
def Obligations.TerminalRequests : Prop :=
  ∀ (s : State) (tag tree tn : Byte) (t : TreeId) (c : Instr) (want : EntryState) (accepted : EntryState → Bool),
    s.Taking → tree.toNat = t → (s.tree t).isActive = true → 1 ≤ tn.toNat → tn.toNat ≤ 120 →
    (c = .muteTn tag tree tn ∧ want = .muted .host ∧ accepted = acceptsMute) ∨
      (c = .unmuteTn tag tree tn ∧ want = .ranging (s.epoch + (s.params t).budget) ∧ accepted = acceptsUnmute) ∨
      (c = .rangeNow tag tree tn ∧ want = .ranging (s.epoch + (s.params t).budget) ∧ accepted = acceptsRangeNow) ∨
      (c = .retireTn tag tree tn ∧ want = .retiring ∧ accepted = acceptsRetire) →
    (s.entry? t tn.toNat = none → exec c s = .next (s.reply tag .notFound [])) ∧
      ∀ e, s.entry? t tn.toNat = some e →
        (accepted e.state = false → exec c s = .next (s.reply tag .wrongState [])) ∧
          (e.state = .retiring → c = .retireTn tag tree tn → exec c s = .next (s.reply tag .ok [])) ∧
          (accepted e.state = true →
            ∃ s', exec c s = .next s' ∧ s'.port.holder = some { tag := tag, code := .ok, body := [] } ∧
              (s'.entry? t tn.toNat).map Entry.identity = some (e.inst, e.serial, want) ∧
              (e.operating = true → tn.toNat ∉ (s'.tree t).onAir ∧ s.Sends s' t (.terminalOff tn.toNat)) ∧
              s'.directory = s.directory ∧
              ((∀ h, (s.tree t).light.hunt = some h → h.current ≠ { tn := tn.toNat, inst := e.inst }) →
                (∀ k, k ≠ tn.toNat → (s'.entry? t k).map Entry.identity = (s.entry? t k).map Entry.identity) ∧
                  (c = .muteTn tag tree tn →
                    s'.PostedAs
                        (postMust t tn.toNat (.mute tn.toNat) .registry (s.probeGone t tn.toNat e.inst)).state t ∧
                      s'.Idles t tn.toNat e.inst) ∧
                  (c = .retireTn tag tree tn → e.state ≠ .retiring →
                    s'.PostedAs (s.retirePosted t tn.toNat) t ∧ s'.Idles t tn.toNat e.inst) ∧
                  (c = .unmuteTn tag tree tn →
                    s'.PostedAs (postMust t tn.toNat (.unmute tn.toNat) .registry s).state t ∧
                      s.TaskAsked s' t { tn := tn.toNat, inst := e.inst, kind := .unmute }) ∧
                  (c = .rangeNow tag tree tn →
                    s'.PostedAs s t ∧ s.TaskAsked s' t { tn := tn.toNat, inst := e.inst, kind := .rangeNow })) ∧
              (∀ h q, (s.tree t).light.hunt = some h → h.current = { tn := tn.toNat, inst := e.inst } →
                acceptsUnmute e.state = true →
                (c = .unmuteTn tag tree tn ∧ q = (postMust t tn.toNat (.unmute tn.toNat) .registry s).state) ∨
                  (c = .retireTn tag tree tn ∧ q = s.retirePosted t tn.toNat) →
                ((∀ x ∈ h.rest, s.offers t x = false) → s.HuntUnresolved s' t ∧ s'.PostedAs q t) ∧
                  ∀ skipped x rest, h.rest = skipped ++ x :: rest → (∀ y ∈ skipped, s.offers t y = false) →
                    s.offers t x = true →
                    s.StepBegun q s' t
                      { h with
                        rest := rest, current := x, step := .muting, skipped := h.skipped + 1 + skipped.length } x) ∧
              ∀ j, j ≠ t → s'.tree j = s.tree j)
end

