-- ==== Sys2Proof/Laws/State.lean ====
section
/-! SUPPORT. One lemma for each field of the state under each update of Machine/Ops.lean, so that no proof unfolds a record
update. -/

namespace Sys2Proof.Machine

variable (s : State) (t j : TreeId)

/-! ### Updating one tree -/

theorem tree_modTree (f : Tree → Tree) : (s.modTree t f).tree j = if j = t then f (s.tree t) else s.tree j := by
  simp only [State.tree, State.modTree, Fin.getElem_fin, Vector.getElem_set, Fin.val_inj]
  split <;> simp_all [eq_comm]

@[simp] theorem tree_modTree_same (f : Tree → Tree) : (s.modTree t f).tree t = f (s.tree t) := by simp [tree_modTree]

@[simp] theorem tree_modTree_other (f : Tree → Tree) (h : j ≠ t) : (s.modTree t f).tree j = s.tree j := by
  simp [tree_modTree, h]

@[simp] theorem pending_modTree (f : Tree → Tree) : (s.modTree t f).pending = s.pending := rfl
@[simp] theorem resetPin_modTree (f : Tree → Tree) : (s.modTree t f).resetPin = s.resetPin := rfl
@[simp] theorem timebase_modTree (f : Tree → Tree) : (s.modTree t f).timebase = s.timebase := rfl
@[simp] theorem due_modTree (f : Tree → Tree) : (s.modTree t f).due = s.due := rfl
@[simp] theorem port_modTree (f : Tree → Tree) : (s.modTree t f).port = s.port := rfl
@[simp] theorem admission_modTree (f : Tree → Tree) : (s.modTree t f).admission = s.admission := rfl
@[simp] theorem directory_modTree (f : Tree → Tree) : (s.modTree t f).directory = s.directory := rfl
@[simp] theorem freeIndex_modTree (f : Tree → Tree) : (s.modTree t f).freeIndex = s.freeIndex := rfl
@[simp] theorem epoch_modTree (f : Tree → Tree) : (s.modTree t f).epoch = s.epoch := rfl
@[simp] theorem btTime_modTree (f : Tree → Tree) : (s.modTree t f).btTime = s.btTime := rfl

/-! ### Updating one block of a tree -/

@[simp] theorem tree_modCtl_same (f) : (s.modCtl t f).tree t = { s.tree t with ctl := f (s.tree t).ctl } := by
  simp [State.modCtl]

@[simp] theorem tree_modMsgq_same (f) : (s.modMsgq t f).tree t = { s.tree t with msgq := f (s.tree t).msgq } := by
  simp [State.modMsgq]

@[simp] theorem tree_modDisc_same (f) : (s.modDisc t f).tree t = { s.tree t with disc := f (s.tree t).disc } := by
  simp [State.modDisc]

@[simp] theorem tree_modSeq_same (f) : (s.modSeq t f).tree t = { s.tree t with seq := f (s.tree t).seq } := by
  simp [State.modSeq]

@[simp] theorem tree_modLight_same (f) : (s.modLight t f).tree t = { s.tree t with light := f (s.tree t).light } := by
  simp [State.modLight]

@[simp] theorem tree_modPending_same (f) :
    (s.modPending t f).tree t = { s.tree t with pendingList := f (s.tree t).pendingList } := by
  simp [State.modPending]

@[simp] theorem tree_modAir_same (f) : (s.modAir t f).tree t = { s.tree t with onAir := f (s.tree t).onAir } := by
  simp [State.modAir]

@[simp] theorem tree_modOut_same (f) : (s.modOut t f).tree t = { s.tree t with out := f (s.tree t).out } := by
  simp [State.modOut]

@[simp] theorem tree_setChan_same (tag : Tag) (c : Channel) : (s.setChan t tag c).tree t = (s.tree t).setChan tag c := by
  simp [State.setChan]

@[simp] theorem tree_modEntry_same (tn : Nat) (f) : (s.modEntry t tn f).tree t = (s.tree t).modEntry tn f := by
  simp [State.modEntry]

/-! ### The channels of a tree -/

@[simp] theorem chan_setChan_same (T : Tree) (tag : Tag) (c : Channel) : (T.setChan tag c).chan tag = c := by
  cases tag <;> rfl

theorem chan_setChan_other (T : Tree) (tag tag' : Tag) (c : Channel) (h : tag' ≠ tag) :
    (T.setChan tag c).chan tag' = T.chan tag' := by
  cases tag <;> cases tag' <;> first | rfl | exact absurd rfl h

section
variable (T : Tree) (tag : Tag) (c : Channel)
@[simp] theorem ctl_setChan : (T.setChan tag c).ctl = T.ctl := by cases tag <;> rfl
@[simp] theorem slots_setChan : (T.setChan tag c).slots = T.slots := by cases tag <;> rfl
@[simp] theorem onAir_setChan : (T.setChan tag c).onAir = T.onAir := by cases tag <;> rfl
@[simp] theorem pendingList_setChan : (T.setChan tag c).pendingList = T.pendingList := by cases tag <;> rfl
@[simp] theorem msgq_setChan : (T.setChan tag c).msgq = T.msgq := by cases tag <;> rfl
@[simp] theorem disc_setChan : (T.setChan tag c).disc = T.disc := by cases tag <;> rfl
@[simp] theorem seq_setChan : (T.setChan tag c).seq = T.seq := by cases tag <;> rfl
@[simp] theorem light_setChan : (T.setChan tag c).light = T.light := by cases tag <;> rfl
@[simp] theorem out_setChan : (T.setChan tag c).out = T.out := by cases tag <;> rfl
end

/-! ### The entries of a tree -/

/-- An entry read depends on the slots alone. -/
theorem entry?_of_slots {T U : Tree} (h : U.slots = T.slots) (tn : Nat) : U.entry? tn = T.entry? tn := by
  simp only [Tree.entry?, h]

/-- The entry of a TN that has a slot. -/
theorem entry?_slot {T : Tree} {tn : Nat} {i : Fin 120} (h : slotIndex tn = some i) : T.entry? tn = T.slots[i].entry := by
  simp [Tree.entry?, h]

/-- Two TNs that share a slot are one TN. -/
theorem slotIndex_inj {a b : Nat} {i : Fin 120} (ha : slotIndex a = some i) (hb : slotIndex b = some i) : a = b := by
  unfold slotIndex at ha hb
  split at ha <;> split at hb <;> simp_all
  have := congrArg Fin.val (ha.trans hb.symm)
  simp at this
  omega

/-- Every entry's TN lies in 1..120 (Law 2). -/
theorem slotIndex_range {tn : Nat} {i : Fin 120} (h : slotIndex tn = some i) : 1 ≤ tn ∧ tn ≤ 120 := by
  unfold slotIndex at h
  split at h <;> simp_all

/-- After an update of one TN's entry, that TN reads the updated entry. -/
@[simp] theorem entry?_modEntry_same (T : Tree) (tn : Nat) (f : Entry → Entry) :
    (T.modEntry tn f).entry? tn = (T.entry? tn).map f := by
  unfold Tree.modEntry
  split
  · next i h => simp [Tree.entry?, h]
  · next h => simp [Tree.entry?, h]

/-- An update of one TN's entry leaves every other TN's entry. -/
@[simp] theorem entry?_modEntry_other (T : Tree) (tn k : Nat) (f : Entry → Entry) (hk : k ≠ tn) :
    (T.modEntry tn f).entry? k = T.entry? k := by
  unfold Tree.modEntry
  split
  · next i h =>
    unfold Tree.entry?
    split
    · next i' h' =>
      have : (i : Nat) ≠ (i' : Nat) := fun e => hk (slotIndex_inj h' ((Fin.ext e) ▸ h))
      simp [this]
    · rfl
  · rfl

section
variable (T : Tree) (tn : Nat) (f : Entry → Entry)
@[simp] theorem ctl_modEntry : (T.modEntry tn f).ctl = T.ctl := by unfold Tree.modEntry; split <;> rfl
@[simp] theorem onAir_modEntry : (T.modEntry tn f).onAir = T.onAir := by unfold Tree.modEntry; split <;> rfl
@[simp] theorem pendingList_modEntry : (T.modEntry tn f).pendingList = T.pendingList := by
  unfold Tree.modEntry; split <;> rfl
@[simp] theorem msgq_modEntry : (T.modEntry tn f).msgq = T.msgq := by unfold Tree.modEntry; split <;> rfl
@[simp] theorem chan_modEntry (tag : Tag) : (T.modEntry tn f).chan tag = T.chan tag := by
  unfold Tree.modEntry; split <;> cases tag <;> rfl
@[simp] theorem disc_modEntry : (T.modEntry tn f).disc = T.disc := by unfold Tree.modEntry; split <;> rfl
@[simp] theorem seq_modEntry : (T.modEntry tn f).seq = T.seq := by unfold Tree.modEntry; split <;> rfl
@[simp] theorem light_modEntry : (T.modEntry tn f).light = T.light := by unfold Tree.modEntry; split <;> rfl
@[simp] theorem out_modEntry : (T.modEntry tn f).out = T.out := by unfold Tree.modEntry; split <;> rfl
end

/-- After a slot is replaced, its TN reads the new slot's entry. -/
theorem entry?_setSlot_same (T : Tree) (tn : Nat) (sl : Slot) {i : Fin 120} (h : slotIndex tn = some i) :
    (T.setSlot tn sl).entry? tn = sl.entry := by
  simp [Tree.setSlot, Tree.entry?, h]

/-- A slot's replacement leaves every other TN's entry. -/
@[simp] theorem entry?_setSlot_other (T : Tree) (tn k : Nat) (sl : Slot) (hk : k ≠ tn) :
    (T.setSlot tn sl).entry? k = T.entry? k := by
  unfold Tree.setSlot
  split
  · next i h =>
    unfold Tree.entry?
    split
    · next i' h' =>
      have : (i : Nat) ≠ (i' : Nat) := fun e => hk (slotIndex_inj h' ((Fin.ext e) ▸ h))
      simp [this]
    · rfl
  · rfl

section
variable (T : Tree) (tn : Nat) (sl : Slot)
@[simp] theorem ctl_setSlot : (T.setSlot tn sl).ctl = T.ctl := by unfold Tree.setSlot; split <;> rfl
@[simp] theorem onAir_setSlot : (T.setSlot tn sl).onAir = T.onAir := by unfold Tree.setSlot; split <;> rfl
@[simp] theorem pendingList_setSlot : (T.setSlot tn sl).pendingList = T.pendingList := by
  unfold Tree.setSlot; split <;> rfl
@[simp] theorem msgq_setSlot : (T.setSlot tn sl).msgq = T.msgq := by unfold Tree.setSlot; split <;> rfl
@[simp] theorem disc_setSlot : (T.setSlot tn sl).disc = T.disc := by unfold Tree.setSlot; split <;> rfl
@[simp] theorem seq_setSlot : (T.setSlot tn sl).seq = T.seq := by unfold Tree.setSlot; split <;> rfl
@[simp] theorem light_setSlot : (T.setSlot tn sl).light = T.light := by unfold Tree.setSlot; split <;> rfl
@[simp] theorem out_setSlot : (T.setSlot tn sl).out = T.out := by unfold Tree.setSlot; split <;> rfl
end

/-- An update of every entry updates the entry of each TN. -/
@[simp] theorem entry?_mapEntries (T : Tree) (f : Entry → Entry) (tn : Nat) :
    (T.mapEntries f).entry? tn = (T.entry? tn).map f := by
  simp only [Tree.mapEntries, Tree.entry?, mapSlots]
  split
  · next i h =>
    simp only [Fin.getElem_fin, Vector.getElem_mk, List.getElem_toArray, List.getElem_map, Vector.getElem_toList]
  · rfl

/-! ### Delivering a report -/

section
variable (p : Poster) (b : ReportBody)
@[simp] theorem tree_deliver : (s.deliver p b).tree j = s.tree j := rfl
@[simp] theorem pending_deliver : (s.deliver p b).pending = s.pending := rfl
@[simp] theorem resetPin_deliver : (s.deliver p b).resetPin = s.resetPin := rfl
@[simp] theorem timebase_deliver : (s.deliver p b).timebase = s.timebase := rfl
@[simp] theorem due_deliver : (s.deliver p b).due = s.due := rfl
@[simp] theorem admission_deliver : (s.deliver p b).admission = s.admission := rfl
@[simp] theorem directory_deliver : (s.deliver p b).directory = s.directory := rfl
@[simp] theorem epoch_deliver : (s.deliver p b).epoch = s.epoch := rfl
@[simp] theorem btTime_deliver : (s.deliver p b).btTime = s.btTime := rfl
@[simp] theorem tree_report : (s.report t b).tree j = s.tree j := rfl
@[simp] theorem epoch_report : (s.report t b).epoch = s.epoch := rfl
@[simp] theorem btTime_report : (s.report t b).btTime = s.btTime := rfl
@[simp] theorem directory_report : (s.report t b).directory = s.directory := rfl
@[simp] theorem timebase_report : (s.report t b).timebase = s.timebase := rfl
end

/-! ### The two values derived from the count -/

/-- The epoch of the current bt time is the current epoch (R1, R7). -/
theorem epochOfBt_btTime (s : State) : epochOfBt s.btTime = s.epochInt := by
  simp only [epochOfBt, State.btTime, State.epochInt, State.epoch, Config.btSx, Config.epochSx]
  omega

/-- Setting the count within its span sets the current epoch. -/
theorem epoch_setCount (s : State) {n : Nat} (h : n < 2 ^ 64) : (s.setCount n).epoch = n / Config.epochSx := by
  rw [State.setCount, if_pos h]
  simp only [State.epoch, BitVec.toNat_ofNat, Nat.mod_eq_of_lt h]

/-- Setting the count within its span sets the current bt time. -/
theorem btTime_setCount (s : State) {n : Nat} (h : n < 2 ^ 64) : (s.setCount n).btTime = n / Config.btSx := by
  rw [State.setCount, if_pos h]
  simp only [State.btTime, BitVec.toNat_ofNat, Nat.mod_eq_of_lt h]

end Sys2Proof.Machine
end

