-- ==== Sys2Proof/Laws/Within.lean ====
section
/-! SUPPORT. What the work of the tree blocks can change: `Within P` says that an operation leaves everything part-wide but
the serial directory, the delivered records and the model's own counter, leaves the trees outside `P` and every parameter
set, and keeps the laws of each tree. It is reflexive and transitive, so each operation's lemma is a chain of its parts'. -/

namespace Sys2Proof.Machine

/-! ### One tree -/

/-- A residual, where present, lies in -8..7 (Law 8). -/
def Entry.ResidualOk (e : Entry) : Prop := ∀ r, e.r = some r → -8 ≤ r ∧ r ≤ 7

/-- From one tree to another, the laws of the tree are kept. -/
structure TreeKeeps (T U : Tree) : Prop where
  params    : U.ctl.params = T.ctl.params
  fits      : T.Fits → U.Fits
  tasks     : T.TasksLawful → U.TasksLawful
  residuals : T.ResidualsLawful → U.ResidualsLawful

theorem TreeKeeps.refl (T : Tree) : TreeKeeps T T := ⟨rfl, id, id, id⟩

theorem TreeKeeps.trans {T U V : Tree} (h : TreeKeeps T U) (k : TreeKeeps U V) : TreeKeeps T V :=
  ⟨k.params.trans h.params, k.fits ∘ h.fits, k.tasks ∘ h.tasks, k.residuals ∘ h.residuals⟩

section
variable {T U : Tree}

/-- A tree whose supervised parts are the same keeps its laws. -/
theorem TreeKeeps.of_same (hp : U.ctl.params = T.ctl.params) (hs : U.slots = T.slots)
    (hl : U.pendingList = T.pendingList) (hm : U.msgq = T.msgq) (hd : U.disc = T.disc) (hq : U.seq = T.seq)
    (hg : U.light = T.light) : TreeKeeps T U := by
  refine ⟨hp, fun h => ?_, fun h => ?_, fun h => ?_⟩
  · obtain ⟨h1, h2, h3, h4, h5, h6, h7⟩ := h
    exact ⟨hm ▸ h1, hm ▸ h2, hl ▸ h3, hl ▸ h4, hd ▸ h5, hd ▸ h6, hg ▸ h7⟩
  · obtain ⟨h1, h2, h3, h4⟩ := h
    refine ⟨hq ▸ h1, hq ▸ h2, hq ▸ h3, fun tn e he hw => ?_⟩
    rw [hq]
    exact h4 tn e (entry?_of_slots hs tn ▸ he) hw
  · intro tn e r he hr
    exact h tn e r (entry?_of_slots hs tn ▸ he) hr

theorem keeps_msgq (m : MsgQueue) (h1 : T.msgq.items.length ≤ 32 → m.items.length ≤ 32)
    (h2 : m.count ≤ 4 ∨ m.count ≤ T.msgq.count) : TreeKeeps T { T with msgq := m } :=
  ⟨rfl, fun h => ⟨h1 h.items, h2.elim id fun k => k.trans h.count, h.pending, h.serials, h.contexts, h.heard, h.strikes⟩,
    fun h => ⟨h.room, h.once, h.ordered, h.waiting⟩, fun h => h⟩

theorem keeps_disc (d : Discovery) (h1 : T.disc.contexts.length ≤ 4 → d.contexts.length ≤ 4)
    (h2 : (T.disc.state.heard.length ≤ 128 ∧ T.disc.state.heard.Nodup) →
      d.state.heard.length ≤ 128 ∧ d.state.heard.Nodup) : TreeKeeps T { T with disc := d } :=
  ⟨rfl, fun h => ⟨h.items, h.count, h.pending, h.serials, h1 h.contexts, h2 h.heard, h.strikes⟩,
    fun h => ⟨h.room, h.once, h.ordered, h.waiting⟩, fun h => h⟩

theorem keeps_light (l : LightMonitor) (h1 : T.light.strikes ≤ 15 → l.strikes ≤ 15) :
    TreeKeeps T { T with light := l } :=
  ⟨rfl, fun h => ⟨h.items, h.count, h.pending, h.serials, h.contexts, h.heard, h1 h.strikes⟩,
    fun h => ⟨h.room, h.once, h.ordered, h.waiting⟩, fun h => h⟩

theorem keeps_pending (l : List PendingRec)
    (h1 : (T.pendingList.length ≤ 8 ∧ (T.pendingList.map (·.serial)).Nodup) →
      l.length ≤ 8 ∧ (l.map (·.serial)).Nodup) : TreeKeeps T { T with pendingList := l } :=
  ⟨rfl, fun h => ⟨h.items, h.count, (h1 ⟨h.pending, h.serials⟩).1, (h1 ⟨h.pending, h.serials⟩).2, h.contexts, h.heard,
    h.strikes⟩, fun h => ⟨h.room, h.once, h.ordered, h.waiting⟩, fun h => h⟩

theorem keeps_seq (q : Sequencer) (h : q.tasks = T.seq.tasks) : TreeKeeps T { T with seq := q } := by
  refine ⟨rfl, fun h => ⟨h.items, h.count, h.pending, h.serials, h.contexts, h.heard, h.strikes⟩, fun k => ?_, fun h => h⟩
  refine ⟨?_, ?_, ?_, fun tn e he hw => ?_⟩
  · exact h ▸ k.room
  · exact h ▸ k.once
  · exact h ▸ k.ordered
  · exact h ▸ k.waiting tn e he hw

theorem keeps_ctl (c : Controller) (h : c.params = T.ctl.params) : TreeKeeps T { T with ctl := c } :=
  ⟨h, fun h => ⟨h.items, h.count, h.pending, h.serials, h.contexts, h.heard, h.strikes⟩,
    fun h => ⟨h.room, h.once, h.ordered, h.waiting⟩, fun h => h⟩

/-- A tree that differs in its entries alone keeps its laws where no entry begins to wait and residuals stay in range. -/
theorem keeps_entries (hp : U.ctl.params = T.ctl.params) (hl : U.pendingList = T.pendingList) (hm : U.msgq = T.msgq)
    (hd : U.disc = T.disc) (hq : U.seq = T.seq) (hg : U.light = T.light)
    (he : ∀ tn e', U.entry? tn = some e' →
      (∃ e, T.entry? tn = some e ∧ (e'.waiting = true → e.waiting = true) ∧ (e.ResidualOk → e'.ResidualOk)) ∨
        (e'.waiting = false ∧ e'.ResidualOk)) : TreeKeeps T U := by
  refine ⟨hp, fun h => ?_, fun h => ?_, fun h => ?_⟩
  · obtain ⟨h1, h2, h3, h4, h5, h6, h7⟩ := h
    exact ⟨hm ▸ h1, hm ▸ h2, hl ▸ h3, hl ▸ h4, hd ▸ h5, hd ▸ h6, hg ▸ h7⟩
  · obtain ⟨h1, h2, h3, h4⟩ := h
    refine ⟨hq ▸ h1, hq ▸ h2, hq ▸ h3, fun tn e' hu hw => ?_⟩
    rw [hq]
    obtain ⟨e, ht, hw', -⟩ | ⟨hw', -⟩ := he tn e' hu
    · exact h4 tn e ht (hw' hw)
    · simp [hw] at hw'
  · intro tn e' r hu hr
    obtain ⟨e, ht, -, hr'⟩ | ⟨-, hr'⟩ := he tn e' hu
    · exact hr' (fun r hr => h tn e r ht hr) r hr
    · exact hr' r hr

theorem keeps_modEntry (tn : Nat) (f : Entry → Entry)
    (h : ∀ e, T.entry? tn = some e → ((f e).waiting = true → e.waiting = true) ∧ (e.ResidualOk → (f e).ResidualOk)) :
    TreeKeeps T (T.modEntry tn f) := by
  refine keeps_entries (by simp) (by simp) (by simp) (by simp) (by simp) (by simp) fun k e' hk => .inl ?_
  by_cases hkt : k = tn
  · subst hkt
    simp only [entry?_modEntry_same, Option.map_eq_some_iff] at hk
    obtain ⟨e, he, rfl⟩ := hk
    exact ⟨e, he, h e he⟩
  · exact ⟨e', by simpa [hkt] using hk, id, id⟩

theorem keeps_mapEntries (f : Entry → Entry)
    (h : ∀ e, ((f e).waiting = true → e.waiting = true) ∧ (e.ResidualOk → (f e).ResidualOk)) :
    TreeKeeps T (T.mapEntries f) := by
  refine keeps_entries rfl rfl rfl rfl rfl rfl fun k e' hk => .inl ?_
  simp only [entry?_mapEntries, Option.map_eq_some_iff] at hk
  obtain ⟨e, he, rfl⟩ := hk
  exact ⟨e, he, h e⟩

/-- A slot replaced by a FREE one, or by one whose entry does not wait and has a lawful residual. -/
theorem keeps_setSlot (tn : Nat) (sl : Slot) (h : ∀ e, sl.entry = some e → e.waiting = false ∧ e.ResidualOk) :
    TreeKeeps T (T.setSlot tn sl) := by
  refine keeps_entries (by simp) (by simp) (by simp) (by simp) (by simp) (by simp) fun k e' hk => ?_
  by_cases hkt : k = tn
  · subst hkt
    cases hi : slotIndex k with
    | none => exact .inl ⟨e', by simpa [Tree.setSlot, hi] using hk, id, id⟩
    | some i =>
      rw [entry?_setSlot_same T k sl hi] at hk
      exact .inr (h e' hk)
  · exact .inl ⟨e', by simpa [hkt] using hk, id, id⟩

end

/-! ### The part -/

/-- What an operation on the trees of `P` leaves beside them. -/
structure Beside (P : TreeId → Prop) (s s' : State) : Prop where
  pending   : s'.pending = s.pending
  resetPin  : s'.resetPin = s.resetPin
  timebase  : s'.timebase = s.timebase
  due       : s'.due = s.due
  admission : s'.admission = s.admission
  port      : ∃ d, s'.port = { s.port with delivered := d }
  others    : ∀ j, ¬P j → s'.tree j = s.tree j

/-- What an operation on the trees of `P` can change; a dispatch count can only fall, since the slot call alone raises it. -/
structure Within (P : TreeId → Prop) (s s' : State) : Prop extends Beside P s s' where
  keeps : ∀ j, TreeKeeps (s.tree j) (s'.tree j)
  count : ∀ j, (s'.tree j).msgq.count ≤ (s.tree j).msgq.count

section
variable {P Q : TreeId → Prop} {s s' s'' : State} {t : TreeId}

@[refl] theorem Beside.refl (s : State) : Beside P s s :=
  ⟨rfl, rfl, rfl, rfl, rfl, ⟨s.port.delivered, rfl⟩, fun _ _ => rfl⟩

theorem Beside.trans (h : Beside P s s') (k : Beside P s' s'') : Beside P s s'' := by
  obtain ⟨d, hd⟩ := h.port
  obtain ⟨d', hd'⟩ := k.port
  exact ⟨k.pending.trans h.pending, k.resetPin.trans h.resetPin, k.timebase.trans h.timebase, k.due.trans h.due,
    k.admission.trans h.admission, ⟨d', by rw [hd', hd]⟩, fun j hj => (k.others j hj).trans (h.others j hj)⟩

@[refl] theorem Within.refl (s : State) : Within P s s := ⟨Beside.refl s, fun _ => TreeKeeps.refl _, fun _ => le_rfl⟩

theorem Within.trans (h : Within P s s') (k : Within P s' s'') : Within P s s'' :=
  ⟨h.toBeside.trans k.toBeside, fun j => (h.keeps j).trans (k.keeps j), fun j => (k.count j).trans (h.count j)⟩

/-- Fewer trees named, more left alone. -/
theorem Within.mono (h : Within P s s') (hpq : ∀ j, P j → Q j) : Within Q s s' :=
  { h with others := fun j hj => h.others j fun hp => hj (hpq j hp) }

theorem Within.epoch (h : Within P s s') : s'.epoch = s.epoch := by simp [State.epoch, h.timebase]
theorem Within.btTime (h : Within P s s') : s'.btTime = s.btTime := by simp [State.btTime, h.timebase]

theorem Within.params (h : Within P s s') (j : TreeId) : s'.params j = s.params j := (h.keeps j).params

/-- A fold of operations is within what each of them is. -/
theorem Within.foldl {α : Type} (f : State → α → State) (h : ∀ s a, Within P s (f s a)) (l : List α) :
    ∀ s, Within P s (l.foldl f s) := by
  induction l with
  | nil => exact fun s => Within.refl s
  | cons a l ih => exact fun s => (h s a).trans (ih _)

theorem beside_modTree (ht : P t) (f : Tree → Tree) : Beside P s (s.modTree t f) := by
  refine ⟨rfl, rfl, rfl, rfl, rfl, ⟨s.port.delivered, rfl⟩, fun j hj => ?_⟩
  rw [tree_modTree_other]
  rintro rfl
  exact hj ht

theorem within_modTree (ht : P t) (f : Tree → Tree) (h : TreeKeeps (s.tree t) (f (s.tree t)))
    (hc : (f (s.tree t)).msgq.count ≤ (s.tree t).msgq.count := by simp) : Within P s (s.modTree t f) := by
  refine ⟨beside_modTree ht f, fun j => ?_, fun j => ?_⟩
  · rw [tree_modTree]
    split
    · next hj => subst hj; exact h
    · exact TreeKeeps.refl _
  · rw [tree_modTree]
    split
    · next hj => subst hj; exact hc
    · exact le_rfl

theorem within_deliver (p : Poster) (b : ReportBody) : Within P s (s.deliver p b) :=
  ⟨⟨rfl, rfl, rfl, rfl, rfl, ⟨_, rfl⟩, fun _ _ => rfl⟩, fun _ => TreeKeeps.refl _, fun _ => le_rfl⟩

theorem within_report (b : ReportBody) : Within P s (s.report t b) := within_deliver _ b

theorem within_freeIndex (n : Nat) : Within P s { s with freeIndex := n } :=
  ⟨⟨rfl, rfl, rfl, rfl, rfl, ⟨_, rfl⟩, fun _ _ => rfl⟩, fun _ => TreeKeeps.refl _, fun _ => le_rfl⟩

theorem within_directory (d : List DirItem) : Within P s { s with directory := d } :=
  ⟨⟨rfl, rfl, rfl, rfl, rfl, ⟨_, rfl⟩, fun _ _ => rfl⟩, fun _ => TreeKeeps.refl _, fun _ => le_rfl⟩

theorem within_modCtl (ht : P t) (f : Controller → Controller) (h : ∀ c, (f c).params = c.params) :
    Within P s (s.modCtl t f) := within_modTree ht _ (keeps_ctl _ (h _))

theorem within_modMsgq (ht : P t) (f : MsgQueue → MsgQueue)
    (h1 : (s.tree t).msgq.items.length ≤ 32 → (f (s.tree t).msgq).items.length ≤ 32)
    (h2 : (f (s.tree t).msgq).count ≤ (s.tree t).msgq.count) : Within P s (s.modMsgq t f) :=
  within_modTree ht _ (keeps_msgq _ h1 (.inr h2)) h2

theorem within_modDisc (ht : P t) (f : Discovery → Discovery)
    (h1 : (s.tree t).disc.contexts.length ≤ 4 → (f (s.tree t).disc).contexts.length ≤ 4)
    (h2 : ((s.tree t).disc.state.heard.length ≤ 128 ∧ (s.tree t).disc.state.heard.Nodup) →
      (f (s.tree t).disc).state.heard.length ≤ 128 ∧ (f (s.tree t).disc).state.heard.Nodup) :
    Within P s (s.modDisc t f) := within_modTree ht _ (keeps_disc _ h1 h2)

theorem within_modSeq (ht : P t) (f : Sequencer → Sequencer) (h : ∀ q, (f q).tasks = q.tasks) :
    Within P s (s.modSeq t f) := within_modTree ht _ (keeps_seq _ (h _))

theorem within_modLight (ht : P t) (f : LightMonitor → LightMonitor)
    (h : (s.tree t).light.strikes ≤ 15 → (f (s.tree t).light).strikes ≤ 15) : Within P s (s.modLight t f) :=
  within_modTree ht _ (keeps_light _ h)

theorem within_modPending (ht : P t) (f : List PendingRec → List PendingRec)
    (h : ((s.tree t).pendingList.length ≤ 8 ∧ ((s.tree t).pendingList.map (·.serial)).Nodup) →
      (f (s.tree t).pendingList).length ≤ 8 ∧ ((f (s.tree t).pendingList).map (·.serial)).Nodup) :
    Within P s (s.modPending t f) := within_modTree ht _ (keeps_pending _ h)

theorem within_modAir (ht : P t) (f : List Nat → List Nat) : Within P s (s.modAir t f) :=
  within_modTree ht _ (TreeKeeps.of_same rfl rfl rfl rfl rfl rfl rfl)

theorem within_modOut (ht : P t) (f : LinkOut → LinkOut) : Within P s (s.modOut t f) :=
  within_modTree ht _ (TreeKeeps.of_same rfl rfl rfl rfl rfl rfl rfl)

theorem within_setChan (ht : P t) (tag : Tag) (c : Channel) : Within P s (s.setChan t tag c) :=
  within_modTree ht _ (TreeKeeps.of_same (by simp) (by simp) (by simp) (by simp) (by simp) (by simp) (by simp))

theorem within_modEntry (ht : P t) (tn : Nat) (f : Entry → Entry)
    (h : ∀ e, s.entry? t tn = some e → ((f e).waiting = true → e.waiting = true) ∧ (e.ResidualOk → (f e).ResidualOk)) :
    Within P s (s.modEntry t tn f) := within_modTree ht _ (keeps_modEntry tn f h)

end

end Sys2Proof.Machine
end

