-- ==== Sys2Proof/Laws/Tasks.lean ====
section
/-! SUPPORT. The task queue (R137..R144): every operation on it keeps Law 10. -/

namespace Sys2Proof.Machine

/-- A list of tasks is lawful beside the entries of a tree (Law 10). -/
structure TasksOk (T : Tree) (l : List Task) : Prop where
  room    : l.length ≤ 16
  once    : (l.map (·.tn)).Nodup
  ordered : l.Pairwise fun a b => b.urgent = true → a.urgent = true
  waiting : ∀ tn e, T.entry? tn = some e → e.waiting = true → tn ∉ l.map (·.tn)

theorem Tree.TasksLawful.ok {T : Tree} (h : T.TasksLawful) : TasksOk T T.seq.tasks :=
  ⟨h.room, h.once, h.ordered, h.waiting⟩

/-- Removing tasks keeps a lawful list lawful. -/
theorem TasksOk.sublist {T : Tree} {l l' : List Task} (h : TasksOk T l) (hs : l'.Sublist l) : TasksOk T l' :=
  ⟨hs.length_le.trans h.room, h.once.sublist (hs.map _), h.ordered.sublist hs,
    fun tn e he hw hm => h.waiting tn e he hw ((hs.map _).subset hm)⟩

/-- What placing a task at the tail of the URGENT class does to the TNs of a list. -/
theorem mem_placeUrgent {k : Task} {l : List Task} {tn : Nat} :
    tn ∈ (placeUrgent k l).map (·.tn) ↔ tn = k.tn ∨ tn ∈ l.map (·.tn) := by
  simp only [placeUrgent, List.map_append, List.map_cons, List.mem_append, List.mem_cons, List.mem_map, List.mem_filter]
  constructor
  · rintro (⟨x, ⟨hx, -⟩, rfl⟩ | rfl | ⟨x, ⟨hx, -⟩, rfl⟩)
    exacts [.inr ⟨x, hx, rfl⟩, .inl rfl, .inr ⟨x, hx, rfl⟩]
  · rintro (rfl | ⟨x, hx, rfl⟩)
    · exact .inr (.inl rfl)
    · by_cases hu : x.urgent = true
      · exact .inl ⟨x, ⟨hx, hu⟩, rfl⟩
      · exact .inr (.inr ⟨x, ⟨hx, by simpa using hu⟩, rfl⟩)

theorem length_placeUrgent (k : Task) (l : List Task) : (placeUrgent k l).length = l.length + 1 := by
  have : ∀ l : List Task, (l.filter Task.urgent).length + (l.filter fun x => !x.urgent).length = l.length := by
    intro l
    induction l with
    | nil => rfl
    | cons a l ih => cases h : a.urgent <;> simp [h] <;> omega
  have := this l
  simp only [placeUrgent, List.length_append, List.length_cons]
  omega

theorem nodup_placeUrgent {k : Task} {l : List Task} (h : (l.map (·.tn)).Nodup) (hk : k.tn ∉ l.map (·.tn)) :
    ((placeUrgent k l).map (·.tn)).Nodup := by
  have hp : (placeUrgent k l).Perm (k :: l) := by
    have h1 : (l.filter Task.urgent ++ l.filter fun x => !x.urgent).Perm l := List.filter_append_perm _ _
    exact (List.perm_middle).trans (h1.cons k)
  rw [(hp.map _).nodup_iff]
  exact List.nodup_cons.2 ⟨hk, h⟩

theorem ordered_placeUrgent {k : Task} (l : List Task) (hk : k.urgent = true) :
    (placeUrgent k l).Pairwise fun a b => b.urgent = true → a.urgent = true := by
  rw [placeUrgent, List.pairwise_append]
  refine ⟨?_, ?_, ?_⟩
  · exact List.pairwise_of_forall_mem_list fun a ha b _ _ => (List.mem_filter.1 ha).2
  · rw [List.pairwise_cons]
    refine ⟨fun _ _ _ => hk, List.pairwise_of_forall_mem_list fun a _ b hb hu => ?_⟩
    have := (List.mem_filter.1 hb).2
    simp [hu] at this
  · intro a ha b _ _
    exact (List.mem_filter.1 ha).2

/-- A task placed at the tail of the URGENT class of a list with room, for an entry that does not wait. -/
theorem TasksOk.place {T : Tree} {l : List Task} (h : TasksOk T l) {k : Task} (hu : k.urgent = true)
    (hr : l.length < 16) (hk : k.tn ∉ l.map (·.tn)) (hw : ∀ e, T.entry? k.tn = some e → e.waiting = false) :
    TasksOk T (placeUrgent k l) := by
  refine ⟨by rw [length_placeUrgent]; omega, nodup_placeUrgent h.once hk, ordered_placeUrgent l hu, ?_⟩
  intro tn e he hwt hm
  rcases mem_placeUrgent.1 hm with rfl | hm
  · simp [hw e he] at hwt
  · exact h.waiting tn e he hwt hm

/-- A NORMAL task placed at the tail of a list with room. -/
theorem TasksOk.append {T : Tree} {l : List Task} (h : TasksOk T l) {k : Task} (hu : k.urgent = false)
    (hr : l.length < 16) (hk : k.tn ∉ l.map (·.tn)) (hw : ∀ e, T.entry? k.tn = some e → e.waiting = false) :
    TasksOk T (l ++ [k]) := by
  refine ⟨by simp; omega, ?_, ?_, ?_⟩
  · rw [List.map_append, List.nodup_append]
    refine ⟨h.once, by simp, ?_⟩
    simp only [List.map_cons, List.map_nil, List.mem_singleton, ne_eq]
    rintro a ha b rfl rfl
    exact hk ha
  · rw [List.pairwise_append]
    refine ⟨h.ordered, by simp, fun a _ b hb hbu => ?_⟩
    simp only [List.mem_singleton] at hb
    subst hb
    simp [hu] at hbu
  · intro tn e he hwt hm
    simp only [List.map_append, List.map_cons, List.map_nil, List.mem_append, List.mem_singleton] at hm
    rcases hm with hm | rfl
    · exact h.waiting tn e he hwt hm
    · simp [hw e he] at hwt

section
variable {P : TreeId → Prop} {s : State} {t : TreeId}

/-- The task list of a tree replaced by a lawful one. -/
theorem keeps_tasks {T : Tree} (l : List Task) (h : TasksOk T T.seq.tasks → TasksOk T l) :
    TreeKeeps T { T with seq := { T.seq with tasks := l } } :=
  ⟨rfl, fun k => ⟨k.items, k.count, k.pending, k.serials, k.contexts, k.heard, k.strikes⟩,
    fun k => ⟨(h k.ok).room, (h k.ok).once, (h k.ok).ordered, (h k.ok).waiting⟩, fun k => k⟩

theorem within_setTasks (ht : P t) (l : List Task)
    (h : TasksOk (s.tree t) (s.tree t).seq.tasks → TasksOk (s.tree t) l) : Within P s (s.setTasks t l) := by
  unfold State.setTasks State.modSeq
  exact within_modTree ht _ (keeps_tasks l h)

/-- An entry that begins to wait while no task stands for its TN. -/
theorem keeps_wait {T : Tree} (tn : Nat) (h : tn ∉ T.seq.tasks.map (·.tn)) :
    TreeKeeps T (T.modEntry tn fun e => { e with waiting := true }) := by
  refine ⟨by simp, fun k => ?_, fun k => ?_, fun k => ?_⟩
  · exact ⟨by simpa using k.items, by simpa using k.count, by simpa using k.pending, by simpa using k.serials,
      by simpa using k.contexts, by simpa using k.heard, by simpa using k.strikes⟩
  · refine ⟨by simpa using k.room, by simpa using k.once, by simpa using k.ordered, fun n e he hw => ?_⟩
    simp only [seq_modEntry]
    by_cases hn : n = tn
    · exact hn ▸ h
    · exact k.waiting n e (by simpa [hn] using he) hw
  · intro n e r he hr
    by_cases hn : n = tn
    · subst hn
      simp only [entry?_modEntry_same, Option.map_eq_some_iff] at he
      obtain ⟨e', he', rfl⟩ := he
      exact k n e' r he' hr
    · exact k n e r (by simpa [hn] using he) hr

/-- The refill queues a waiting entry lawfully (R141). -/
theorem keeps_refill {T : Tree} {tn : Nat} {e : Entry} (he : T.entry? tn = some e) (hw : e.waiting = true)
    (hr : T.seq.tasks.length < 16) (k : Task) (hk : k.tn = tn) (hu : k.urgent = true) :
    TreeKeeps T
      { T.modEntry tn (fun e => { e with waiting := false }) with
        seq := { T.seq with tasks := placeUrgent k T.seq.tasks } } := by
  have h1 : TreeKeeps T (T.modEntry tn fun e => { e with waiting := false }) :=
    keeps_modEntry tn _ fun e _ => ⟨fun h => by simp at h, fun h => h⟩
  refine ⟨by simp, fun h => ?_, fun h => ?_, fun h => ?_⟩
  · have := h1.fits h
    exact ⟨this.items, this.count, this.pending, this.serials, this.contexts, this.heard, this.strikes⟩
  · have hn : tn ∉ T.seq.tasks.map (·.tn) := h.waiting tn e he hw
    refine ⟨by simp only [length_placeUrgent]; omega, nodup_placeUrgent h.once (hk ▸ hn), ordered_placeUrgent _ hu, ?_⟩
    intro n e' he' hw' hm
    simp only [mem_placeUrgent] at hm
    replace he' : (T.modEntry tn fun e => { e with waiting := false }).entry? n = some e' := he'
    by_cases hnt : n = tn
    · subst hnt
      simp only [entry?_modEntry_same, Option.map_eq_some_iff] at he'
      obtain ⟨x, -, rfl⟩ := he'
      simp at hw'
    · rw [entry?_modEntry_other _ _ _ _ hnt] at he'
      rcases hm with rfl | hm
      · exact hnt hk
      · exact h.waiting n e' he' hw' hm
  · exact fun n e' r he' hr => h1.residuals h n e' r he' hr

theorem within_refillOne (ht : P t) (tn : Nat) : Within P s (refillOne t s tn) := by
  unfold refillOne
  split
  · next hr =>
    split
    · next e he =>
      rw [Option.filter_eq_some_iff] at he
      have hu : ({ tn := tn, inst := e.inst, kind := refillKind e } : Task).urgent = true := by
        simp only [Task.urgent, refillKind]
        split <;> rfl
      have hk := keeps_refill he.1 he.2 hr { tn := tn, inst := e.inst, kind := refillKind e } rfl hu
      refine ⟨⟨rfl, rfl, rfl, rfl, rfl, ⟨_, rfl⟩, fun j hj => ?_⟩, fun j => ?_, fun j => ?_⟩
      · have hjt : j ≠ t := by rintro rfl; exact hj ht
        simp [State.setTasks, State.modSeq, State.modEntry, hjt]
      · by_cases hjt : j = t
        · subst hjt
          simpa [State.setTasks] using hk
        · simp [State.setTasks, State.modSeq, State.modEntry, hjt, TreeKeeps.refl]
      · by_cases hjt : j = t
        · subst hjt
          simp [State.setTasks]
        · simp [State.setTasks, State.modSeq, State.modEntry, hjt]
    · exact Within.refl s
  · exact Within.refl s

theorem within_refill (ht : P t) : Within P s (refill t s) :=
  Within.foldl _ (fun _ tn => within_refillOne ht tn) _ _

end

end Sys2Proof.Machine
end

