-- ==== Sys2Proof/Laws/Queues.lean ====
section
/-! SUPPORT. What each shared operation of the Grant Link, the Downstream Message Queue and the Task Sequencer can change. -/

namespace Sys2Proof.Machine

section
variable {P : TreeId → Prop} {s : State} {t : TreeId}

/-! ### Grant Link (chapter 9) -/

theorem within_sendLink (ht : P t) (m : GrantMsg) : Within P s (sendLink t m s) := within_modOut ht _

theorem within_chanSend (ht : P t) (tag : Tag) (req : Request) : Within P s (chanSend t tag req s) :=
  (within_setChan ht tag _).trans (within_sendLink ht _)

theorem within_chanWithdraw (ht : P t) (tag : Tag) : Within P s (chanWithdraw t tag s) := within_setChan ht tag _

theorem within_chanRelease (ht : P t) (tag : Tag) : Within P s (chanRelease t tag s) := by
  unfold chanRelease
  split
  · exact (within_setChan ht tag _).trans (within_sendLink ht _)
  all_goals exact Within.refl s

theorem within_terminalOn (ht : P t) (tn : Nat) (prof : Profile) : Within P s (terminalOn t tn prof s) :=
  (within_modAir ht _).trans (within_sendLink ht _)

theorem within_terminalOff (ht : P t) (tn : Nat) : Within P s (terminalOff t tn s) :=
  (within_modAir ht _).trans (within_sendLink ht _)

theorem within_allOff (ht : P t) : Within P s (allOff t s) :=
  (within_modTree ht _ (TreeKeeps.of_same rfl rfl rfl rfl rfl rfl rfl)).trans (within_sendLink ht _)

/-! ### Downstream Message Queue (section 2.5) -/

theorem within_enqueue (ht : P t) (it : Item) (h : (s.tree t).msgq.items.length < 32) :
    Within P s (enqueue t it s) :=
  within_modMsgq ht _ (fun _ => by simp only [List.length_append, List.length_singleton]; omega) le_rfl

theorem within_postGated (ht : P t) (it : Item) : Within P s (postGated t it s).state := by
  unfold postGated
  split
  · exact Within.refl s
  · split
    · next h => exact within_enqueue ht it (Nat.lt_trans h (by decide))
    · exact Within.refl s

theorem within_postMust (ht : P t) (tn : Nat) (m : Message) (by_ : Issuer) :
    Within P s (postMust t tn m by_ s).state := by
  have hw : ∀ o b, Within P s (s.modEntry t tn fun e => { e with owed := o, resend := b }) :=
    fun o b => within_modEntry ht tn _ fun e _ => ⟨id, id⟩
  unfold postMust
  split
  · exact Within.refl s
  · split
    · exact Within.refl s
    · next e _ =>
      simp only
      split
      · exact hw _ _
      · split
        · next h =>
          refine Within.trans ?_ (within_enqueue ht _ ?_)
          · exact within_modEntry ht tn _ fun e _ => ⟨id, id⟩
          · simpa using h
        · exact hw _ _

theorem within_postBroadcast (ht : P t) : Within P s (postBroadcast t s) := by
  unfold postBroadcast
  split
  · next h => exact within_enqueue ht _ h
  · exact within_modMsgq ht _ id le_rfl

theorem within_filterItems (ht : P t) (p : Item → Bool) :
    Within P s (s.modMsgq t fun q => { q with items := q.items.filter p }) :=
  within_modMsgq ht _ (fun h => (List.length_filter_le _ _).trans h) le_rfl

theorem within_withdrawItems (ht : P t) (by_ : Issuer) : Within P s (withdrawItems t by_ s) := within_filterItems ht _

theorem within_closeQueue (ht : P t) : Within P s (closeQueue t s) :=
  (within_filterItems ht _).trans (within_postBroadcast ht)

/-! ### Stale interval counts -/

theorem within_raiseDiscStale (ht : P t) : Within P s (s.raiseDiscStale t) :=
  Within.trans (s' := s.modDisc t _) (within_modDisc ht _ id id) (within_freeIndex _)

theorem within_raiseSeqStale (ht : P t) : Within P s (s.raiseSeqStale t) := by
  refine Within.trans ?_ (within_freeIndex _)
  exact within_modSeq ht _ fun _ => rfl

theorem within_raiseLightStale (ht : P t) : Within P s (s.raiseLightStale t) :=
  Within.trans (s' := s.modLight t _) (within_modLight ht _ id) (within_freeIndex _)

/-! ### Task Sequencer (chapters 6 and 8) -/

theorem within_setOp (ht : P t) (o : Option ProbeOp) : Within P s (s.setOp t o) := within_modSeq ht _ fun _ => rfl

theorem within_sendProbe (ht : P t) (o : ProbeOp) (pl : Placement) : Within P s (sendProbe t o pl s) :=
  (within_chanSend ht _ _).trans (within_setOp ht _)

theorem within_beginAttempt (ht : P t) (o : ProbeOp) : Within P s (beginAttempt t o s) := by
  unfold beginAttempt
  split
  · exact within_setOp ht _
  · split
    · exact within_sendProbe ht _ _
    · exact within_setOp ht _
    · split
      · exact within_sendProbe ht _ _
      · split
        · exact within_setOp ht _
        · exact within_sendProbe ht _ _

theorem within_giveUpProbe (ht : P t) (o : ProbeOp) : Within P s (giveUpProbe t o s) := by
  unfold giveUpProbe
  split
  · exact Within.refl s
  · exact Within.refl s
  · exact within_chanWithdraw ht _
  · exact (within_withdrawItems ht _).trans (within_chanRelease ht _)
  · exact within_raiseSeqStale ht

theorem within_discardOp (ht : P t) : Within P s (discardOp t s) := by
  unfold discardOp
  split
  · exact Within.refl s
  · exact (within_modEntry ht _ _ fun e _ => by split <;> exact ⟨id, id⟩).trans (within_setOp ht _)

theorem within_abandonOp (ht : P t) : Within P s (abandonOp t s) := by
  unfold abandonOp
  split
  · exact Within.refl s
  · exact (within_giveUpProbe ht _).trans (within_discardOp ht)

theorem within_startOp (ht : P t) (k : Task) (e : Entry) : Within P s (startOp t k e s) := by
  unfold startOp
  refine Within.trans ?_ (within_beginAttempt ht _)
  exact within_modEntry ht _ _ fun _ _ => ⟨id, id⟩

/-- A task list that has lost tasks. -/
theorem within_fewerTasks (ht : P t) (l : List Task) (h : l.Sublist (s.tree t).seq.tasks) :
    Within P s (s.setTasks t l) := within_setTasks ht l fun k => k.sublist h

theorem within_takeLoop (ht : P t) (n : Nat) : Within P s (takeLoop t n s) := by
  induction n generalizing s with
  | zero => exact Within.refl s
  | succ n ih =>
    unfold takeLoop
    split
    · split
      · exact Within.refl s
      · next k rest hk =>
        have h : Within P s (refill t (s.setTasks t rest)) :=
          (within_fewerTasks ht rest (hk ▸ List.sublist_cons_self k rest)).trans (within_refill ht)
        simp only
        split
        · exact h.trans (within_startOp ht _ _)
        · exact h.trans ih
    · exact Within.refl s

theorem within_takeTasks (ht : P t) : Within P s (takeTasks t s) := within_takeLoop ht _

theorem within_withdrawn (ht : P t) (tn : Nat) (inst : BitVec 16) : Within P s (withdrawn t tn inst s) := by
  have h : Within P s (s.setTasks t ((s.tree t).seq.tasks.filter fun k => k.tn ≠ tn)) :=
    within_fewerTasks ht _ List.filter_sublist
  unfold withdrawn
  simp only
  refine Within.trans ?_ ((within_refill ht).trans (within_takeTasks ht))
  split
  · split
    · exact h.trans (within_abandonOp ht)
    · exact h
  · exact h

theorem within_judgeTask (ht : P t) (k : Task) : Within P s (judgeTask t k s).state := by
  unfold judgeTask
  simp only
  split
  · exact Within.refl s
  · split
    · exact Within.refl s
    · next hwait =>
      have hw : ∀ e, s.entry? t k.tn = some e → e.waiting = false := by
        intro e he
        simpa [he] using hwait
      split
      · next old hf =>
        have hmem := List.mem_of_find?_eq_some hf
        split
        · next hu =>
          refine within_setTasks ht _ fun h => ?_
          simp only [Bool.and_eq_true] at hu
          have hk : old.tn = k.tn := by simpa using List.find?_some hf
          refine TasksOk.place (h.sublist List.filter_sublist) hu.1 ?_ ?_ hw
          · have := List.length_filter_lt_length_iff_exists (p := fun x : Task => decide (x.tn ≠ k.tn))
              (l := (s.tree t).seq.tasks) |>.2 ⟨old, hmem, by simp [hk]⟩
            have := h.room
            omega
          · simp
        · exact Within.refl s
      · next hf =>
        have hn : k.tn ∉ (s.tree t).seq.tasks.map (·.tn) := by
          simp only [List.find?_eq_none] at hf
          simp only [List.mem_map, not_exists, not_and]
          intro x hx he
          simpa [he] using hf x hx
        split
        · next hr =>
          refine within_setTasks ht _ fun h => ?_
          split
          · next hu => exact h.place hu hr hn hw
          · next hu => exact h.append (by simpa using hu) hr hn hw
        · split
          · split
            · show Within P s (s.modTree t fun T => T.modEntry k.tn fun e => { e with waiting := true })
              exact within_modTree ht (fun T => T.modEntry k.tn fun e => { e with waiting := true }) (keeps_wait k.tn hn)
            · refine Within.trans (within_setTasks ht _ fun h => ?_) (within_refill ht)
              refine (h.sublist (List.dropLast_sublist _)).place (by assumption) ?_ ?_ hw
              · have := h.room
                rw [List.length_dropLast]
                omega
              · exact fun hm => hn (List.map_subset _ (List.dropLast_subset _) hm)
          · exact Within.refl s

theorem within_addTask (ht : P t) (k : Task) : Within P s (addTask t k s).state :=
  (within_judgeTask ht k).trans (within_takeTasks ht)

/-- Every task and every waiting flag of a tree given up. -/
theorem within_noTasks (ht : P t) (q : Sequencer) (h : q.tasks = []) :
    Within P s
      ((s.modSeq t fun _ => q).modTree t fun T => T.mapEntries fun e => { e with waiting := false }) := by
  have hk : TreeKeeps (s.tree t) (({ s.tree t with seq := q } : Tree).mapEntries fun e => { e with waiting := false }) := by
    have h1 : TreeKeeps (s.tree t) ((s.tree t).mapEntries fun e => { e with waiting := false }) :=
      keeps_mapEntries _ fun e => ⟨by simp, id⟩
    refine ⟨rfl, fun k => ?_, fun k => ?_, fun k => h1.residuals k⟩
    · exact ⟨k.items, k.count, k.pending, k.serials, k.contexts, k.heard, k.strikes⟩
    · exact ⟨by simp [Tree.mapEntries, h], by simp [Tree.mapEntries, h], by simp [Tree.mapEntries, h],
        by simp [Tree.mapEntries, h]⟩
  refine ⟨⟨rfl, rfl, rfl, rfl, rfl, ⟨_, rfl⟩, fun j hj => ?_⟩, fun j => ?_, fun j => ?_⟩
  · have hjt : j ≠ t := by rintro rfl; exact hj ht
    simp [State.modSeq, hjt]
  · by_cases hjt : j = t
    · subst hjt
      simpa using hk
    · simp [State.modSeq, hjt, TreeKeeps.refl]
  · by_cases hjt : j = t
    · subst hjt
      simp [Tree.mapEntries]
    · simp [State.modSeq, hjt]

theorem within_closeSequencer (ht : P t) : Within P s (closeSequencer t s) := by
  have h : ∀ r : State, Within P s r → Within P s
      ((r.modSeq t fun q => { q with tasks := [], stale := 0, sweepPtr := 0, nextSweep := none }).modTree t fun T =>
        T.mapEntries fun e => { e with waiting := false }) := fun r hr =>
    hr.trans (within_noTasks (s := r) ht { (r.tree t).seq with tasks := [], stale := 0, sweepPtr := 0, nextSweep := none } rfl)
  unfold closeSequencer
  simp only
  split
  · split
    · exact h _ ((within_chanRelease ht _).trans (within_discardOp ht))
    all_goals exact h _ (within_abandonOp ht)
  · exact h s (Within.refl s)

end

end Sys2Proof.Machine
end

