-- ==== Sys2Proof/Laws/Blocks.lean ====
section
/-! SUPPORT. What each shared operation of the Discovery Unit, the Terminal Registry, the Light Monitor, the Drift Tracker, the
probe operation and the request channels can change. -/

namespace Sys2Proof.Machine

section
variable {P : TreeId → Prop} {s : State} {t : TreeId}

/-! ### Discovery Unit (chapter 5) -/

/-- A discovery state other than COLLECTING. -/
theorem within_setDisc (ht : P t) (d : DiscState) (h : d.heard = []) : Within P s (s.setDisc t d) :=
  within_modDisc ht _ id fun _ => by simp [h]

theorem within_sendWindow (ht : P t) (w : Context) : Within P s (sendWindow t w s) :=
  (within_chanSend ht _ _).trans (within_setDisc ht _ rfl)

theorem length_cycleQueue (m : QueueMode) (l : List QueuedContext) : (cycleQueue m l).length ≤ l.length := by
  unfold cycleQueue
  split
  · split <;> simp
  · exact le_rfl

theorem length_queueAction (m : QueueMode) (l : List QueuedContext) : (queueAction m l).length ≤ l.length := by
  unfold queueAction
  split <;> simp

theorem within_startWindow (ht : P t) : Within P s (startWindow t s) := by
  unfold startWindow
  split
  · split
    · exact within_sendWindow ht _
    · next hd =>
      split
      · exact Within.refl s
      · next h rest hq =>
        refine Within.trans ?_ (within_sendWindow ht _)
        refine within_modDisc ht _ (fun hl => ?_) fun hh => hh
        have := length_cycleQueue (s.params t).queueMode (s.tree t).disc.contexts
        rw [hq] at this
        simp only [List.length_cons] at this ⊢
        omega
    all_goals exact Within.refl s
  · exact Within.refl s

theorem within_endCycle (ht : P t) (w : Context) : Within P s (endCycle t w s) := by
  unfold endCycle
  refine within_modDisc ht _ (fun hl => ?_) fun _ => ?_
  · simp only [Discovery.afterCycle]
    split
    · exact hl
    · exact (length_queueAction _ _).trans hl
  · simp only
    split <;> simp [DiscState.heard]

theorem within_deferWindow (ht : P t) (w : Context) : Within P s (deferWindow t w s) := by
  unfold deferWindow
  split
  · exact within_endCycle ht w
  · exact within_setDisc ht _ rfl

theorem within_discLeavesQuiet (ht : P t) : Within P s (discLeavesQuiet t s) := by
  unfold discLeavesQuiet
  split
  · exact (within_chanWithdraw ht _).trans (within_deferWindow ht _)
  · exact ((within_withdrawItems ht _).trans (within_chanRelease ht _)).trans (within_deferWindow ht _)
  all_goals exact Within.refl s

theorem within_discSlip (ht : P t) : Within P s (discSlip t s) := by
  unfold discSlip
  split
  · exact (within_chanWithdraw ht _).trans (within_sendWindow ht _)
  · exact ((within_withdrawItems ht _).trans (within_chanRelease ht _)).trans (within_sendWindow ht _)
  · simp only
    split
    · exact ((within_raiseDiscStale ht).trans (within_report _)).trans (within_sendWindow ht _)
    · exact ((within_raiseDiscStale ht).trans (within_report _)).trans (within_setDisc ht _ rfl)
  all_goals exact Within.refl s

theorem within_discClosed (ht : P t) : Within P s (s.modDisc t Discovery.closed) :=
  within_modDisc ht _ (fun _ => by simp [Discovery.closed]) fun _ => by simp [Discovery.closed, DiscState.heard]

theorem within_closeDiscovery (ht : P t) : Within P s (closeDiscovery t s) := by
  unfold closeDiscovery
  simp only
  refine Within.trans ?_ (within_discClosed ht)
  split
  · exact within_chanWithdraw ht _
  · exact within_chanRelease ht _
  · exact within_report _
  all_goals exact Within.refl s

theorem within_inviteDispatched (ht : P t) (d : Nat) : Within P s (inviteDispatched t d s) := by
  unfold inviteDispatched
  split
  · exact within_setDisc ht _ rfl
  all_goals exact Within.refl s

theorem within_inviteExpired (ht : P t) : Within P s (inviteExpired t s) := by
  unfold inviteExpired
  split
  · exact (within_raiseDiscStale ht).trans (within_sendWindow ht _)
  all_goals exact Within.refl s

theorem within_windowGranted (ht : P t) (qs : Int) : Within P s (windowGranted t qs s) := by
  have ha : ∀ w, Within P s (sendWindow t w (chanRelease t .window s)) := fun w =>
    (within_chanRelease ht _).trans (within_sendWindow ht _)
  unfold windowGranted
  split
  · simp only
    split
    · exact ha _
    · split
      · exact ha _
      · split
        · exact (within_postGated ht _).trans (within_modDisc ht _ id fun _ => by simp [DiscState.heard])
        all_goals exact ha _
  all_goals exact Within.refl s

/-! ### Terminal Registry (chapter 3) -/

/-- An update of entries that no entry leaves waiting, and that keeps residuals in range. -/
structure Tame (f : Entry → Entry) : Prop where
  waiting  : ∀ e, (f e).waiting = true → e.waiting = true
  residual : ∀ e : Entry, e.ResidualOk → (f e).ResidualOk

theorem within_tame (ht : P t) (tn : Nat) {f : Entry → Entry} (h : Tame f) : Within P s (s.modEntry t tn f) :=
  within_modEntry ht tn f fun e _ => ⟨h.waiting e, h.residual e⟩

theorem within_transit (ht : P t) (tn : Nat) (cause : Cause) {f : Entry → Entry} (h : Tame f) :
    Within P s (transit t tn cause f s) := by
  unfold transit
  split
  · exact Within.refl s
  · simp only
    refine Within.trans ?_ (within_report _)
    have h1 : ∀ b : Bool, Within P s (if b = true then terminalOff t tn s else s) := by
      intro b
      split
      · exact within_terminalOff ht tn
      · exact Within.refl s
    split
    · exact ((h1 _).trans (within_tame ht tn h)).trans (within_terminalOn ht _ _)
    · exact (h1 _).trans (within_tame ht tn h)

theorem tame_toRetiring : Tame Entry.toRetiring := ⟨fun _ h => by simp [Entry.toRetiring] at h, fun _ h => h⟩

theorem tame_toLost (hold : Nat) : Tame (Entry.toLost hold) := ⟨fun _ h => by simp [Entry.toLost] at h, fun _ h => h⟩

theorem tame_toMuted (c : MuteCause) : Tame (Entry.toMuted c) := ⟨fun _ h => by simp [Entry.toMuted] at h, fun _ h => h⟩

theorem tame_toRanging (d : Nat) : Tame (Entry.toRanging d) := ⟨fun _ h => h, fun _ h => h⟩

theorem tame_toOperating (e : Nat) : Tame (Entry.toOperating e) := ⟨fun _ h => h, fun _ h => h⟩

theorem tame_reactivated (i : BitVec 16) (d : Nat) (c : Int) : Tame (Entry.reactivated i d c) :=
  ⟨fun _ h => h, fun _ _ r hr => by simp [Entry.reactivated] at hr⟩

theorem within_enterRetiring (ht : P t) (tn : Nat) (cause : Cause) : Within P s (enterRetiring t tn cause s) := by
  unfold enterRetiring
  split
  · exact Within.refl s
  · exact ((within_transit ht tn cause tame_toRetiring).trans (within_withdrawn ht _ _)).trans (within_postMust ht _ _ _)

theorem within_enterLost (ht : P t) (tn : Nat) (cause : Cause) : Within P s (enterLost t tn cause s) := by
  unfold enterLost
  split
  · exact Within.refl s
  · exact (within_transit ht tn cause (tame_toLost _)).trans (within_withdrawn ht _ _)

theorem within_loseOrRetire (ht : P t) (tn : Nat) (cause : Cause) : Within P s (loseOrRetire t tn cause s) := by
  unfold loseOrRetire
  split
  · exact Within.refl s
  · split
    · exact within_enterLost ht tn cause
    · exact within_enterRetiring ht tn cause

theorem within_freeEntry (ht : P t) (tn : Nat) (cause : Cause) : Within P s (freeEntry t tn cause s) := by
  unfold freeEntry
  split
  · exact Within.refl s
  · simp only
    refine Within.trans ?_ (within_withdrawn ht _ _)
    refine Within.trans ?_ (within_directory _)
    refine Within.trans ?_ (within_modTree ht _ (keeps_setSlot _ _ fun e he => by simp at he))
    exact within_report _

theorem within_createEntry (ht : P t) (serial : Serial) (model : BitVec 16) (c : Int) (prof : Profile) :
    Within P s (createEntry t serial model c prof s).state := by
  unfold createEntry
  split
  · exact Within.refl s
  · split
    · exact Within.refl s
    · split
      · exact Within.refl s
      · simp only
        split
        · refine Within.trans ?_ (within_report _)
          refine Within.trans ?_ (within_directory _)
          refine Within.trans ?_ (within_modTree ht _ (keeps_setSlot _ _ fun e he => ?_))
          · exact within_postGated ht _
          · simp only [Option.some.injEq] at he
            subst he
            exact ⟨rfl, fun r hr => by simp [newEntry] at hr⟩
        all_goals exact Within.refl s

/-- A slot that gets a new instance number around its entry. -/
theorem keeps_slotInst {T : Tree} (tn : Nat) (inst : BitVec 16) :
    TreeKeeps T (T.setSlot tn { inst := inst, entry := T.entry? tn }) := by
  refine keeps_entries (by simp) (by simp) (by simp) (by simp) (by simp) (by simp) fun k e' hk => .inl ⟨e', ?_, id, id⟩
  by_cases hkt : k = tn
  · subst hkt
    cases hi : slotIndex k with
    | none => simpa [Tree.setSlot, hi] using hk
    | some i => rwa [entry?_setSlot_same T k _ hi] at hk
  · simpa [hkt] using hk

theorem within_reactivate (ht : P t) (tn : Nat) (serial : Serial) (c : Int) :
    Within P s (reactivate t tn serial c s).state := by
  unfold reactivate
  simp only
  split
  · dsimp only
    refine Within.trans ?_ (within_modTree ht _ (keeps_slotInst tn _))
    exact (within_postGated ht _).trans (within_transit ht tn _ (tame_reactivated _ _ c))
  all_goals exact Within.refl s

/-- The serial check can free an entry of any tree (R46). -/
theorem within_serialCheck (hP : ∀ j, P j) (serial : Serial) (c : Int) : Within P s (serialCheck t serial c s).state := by
  unfold serialCheck
  split
  · exact Within.refl s
  · split
    · split
      · exact within_reactivate (hP t) _ _ _
      · exact within_freeEntry (hP _) _ _
    · exact Within.refl s

theorem within_huntMute (ht : P t) (c : Candidate) : Within P s (huntMute t c s) :=
  ((within_transit ht _ _ (tame_toMuted _)).trans (within_withdrawn ht _ _)).trans (within_postMust ht _ _ _)

theorem within_huntRelease (ht : P t) (c : Candidate) : Within P s (huntRelease t c s) := by
  unfold huntRelease
  split
  · exact Within.refl s
  · split
    · refine Within.trans ?_ (within_postMust ht _ _ _)
      exact within_tame ht _ ⟨fun _ h => h, fun _ h => h⟩
    · exact Within.refl s

theorem within_huntClear (ht : P t) (tn : Nat) (inst : BitVec 16) (d : Nat) : Within P s (huntClear t tn inst d s) := by
  unfold huntClear
  split
  · exact Within.refl s
  · split
    · exact within_transit ht _ _ (tame_toOperating _)
    · exact Within.refl s

/-! ### Light Monitor (chapter 10) -/

/-- An update of the Light Monitor that leaves the strike count. -/
theorem within_lightSame (ht : P t) (f : LightMonitor → LightMonitor) (h : ∀ l, (f l).strikes = l.strikes) :
    Within P s (s.modLight t f) := within_modLight ht f fun hs => (h _).symm ▸ hs

theorem within_sendCheck (ht : P t) (p : Purpose) : Within P s (sendCheck t p s) := by
  unfold sendCheck
  exact (within_chanSend ht _ _).trans (within_lightSame ht _ fun _ => rfl)

theorem within_giveUpCheck (ht : P t) : Within P s (giveUpCheck t s) := by
  unfold giveUpCheck
  split
  · exact Within.refl s
  · simp only
    refine Within.trans ?_ (within_lightSame ht _ fun _ => rfl)
    split
    · exact within_chanWithdraw ht _
    · exact within_raiseLightStale ht

theorem strikes_giveUpCheck : ((giveUpCheck t s).tree t).light.strikes = (s.tree t).light.strikes := by
  unfold giveUpCheck
  split
  · rfl
  · simp only [tree_modLight_same]
    split
    · simp only [chanWithdraw, tree_setChan_same, light_setChan]
    · show (((s.modLight t fun l => { l with stale := s.raisedStale l.stale }).tree t).light).strikes = _
      simp

theorem within_setLight (ht : P t) (new : Light) (strikes : Nat) (cause : LightCause) (raw : Int)
    (h : (s.tree t).light.strikes ≤ 15 → strikes ≤ 15) : Within P s (setLight t new strikes cause raw s) := by
  have h1 : Within P s (s.modLight t fun l => { l with light := new, strikes := strikes }) := within_modLight ht _ h
  unfold setLight
  simp only
  refine Within.trans ?_ (within_report _)
  split
  · exact h1.trans (within_discLeavesQuiet ht)
  · split
    · exact (h1.trans (within_startWindow ht)).trans (within_takeTasks ht)
    · exact h1

theorem within_huntReport (o : HuntOutcome) (h : Hunt) (tn : Nat) (inst : BitVec 16) :
    Within P s (huntReport t o h tn inst s) := within_report _

theorem within_huntUnresolved (ht : P t) (h : Hunt) : Within P s (huntUnresolved t h s) :=
  Within.trans
    (s' := s.modLight t fun l =>
      { l with hunt := none, pause := true, nextCheck := some (s.epoch + (s.params t).huntPause) })
    (within_lightSame ht _ fun _ => rfl) (within_huntReport _ _ _ _)

theorem within_huntNext (ht : P t) (l : List Candidate) (h : Hunt) : Within P s (huntNext t h l s) := by
  induction l generalizing h s with
  | nil => exact within_huntUnresolved ht h
  | cons c rest ih =>
    unfold huntNext
    split
    · refine Within.trans ?_ (within_huntMute ht c)
      exact within_lightSame ht _ fun _ => rfl
    · exact ih _

theorem within_startHunt (ht : P t) : Within P s (startHunt t s) := by
  unfold startHunt
  simp only
  refine Within.trans ?_ (within_huntNext ht _ _)
  refine Within.trans ?_ (within_huntReport _ _ _ _)
  exact within_lightSame ht _ fun _ => rfl

theorem within_becomeSuspect (ht : P t) (strikes : Nat) (cause : LightCause) (raw : Int)
    (h : (s.tree t).light.strikes ≤ 15 → strikes ≤ 15) : Within P s (becomeSuspect t strikes cause raw s) := by
  unfold becomeSuspect
  refine Within.trans ?_ (within_startHunt ht)
  refine (within_giveUpCheck ht).trans (within_setLight ht _ _ _ _ ?_)
  rwa [strikes_giveUpCheck]

theorem struck_le (l : LightMonitor) : l.struck ≤ 15 := min_le_left _ _

theorem within_strike (ht : P t) (raw : Int) : Within P s (strike t raw s) := by
  unfold strike
  simp only
  split
  · exact within_becomeSuspect ht _ _ _ fun _ => struck_le _
  · have h : Within P s (s.modLight t fun l => { l with strikes := (s.tree t).light.struck }) :=
      within_modLight ht _ fun _ => struck_le _
    split
    · exact h.trans (within_sendCheck ht _)
    · exact h

theorem within_unexplained (ht : P t) (raw : Int) : Within P s (unexplained t raw s) := by
  unfold unexplained
  split
  · exact within_strike ht raw
  · exact Within.refl s

theorem within_continuous (ht : P t) (raw : Int) : Within P s (continuous t raw s) := by
  unfold continuous
  split
  · exact within_becomeSuspect ht _ _ _ id
  · exact Within.refl s

theorem within_becomeQuiet (ht : P t) (cause : LightCause) : Within P s (becomeQuiet t cause s) :=
  within_setLight ht _ _ _ _ fun _ => by omega

theorem within_checkEnded (ht : P t) (p : Purpose) (passed : Bool) : Within P s (checkEnded t p passed s) := by
  have hl : ∀ f : LightMonitor → LightMonitor, (∀ l, (f l).strikes = l.strikes) → Within P s (s.modLight t f) :=
    fun f h => within_lightSame ht f h
  unfold checkEnded
  split
  · exact within_becomeQuiet ht _
  · exact hl _ fun _ => rfl
  · exact within_modLight ht _ fun _ => by simp
  · unfold strikeFailed
    simp only
    split
    · exact within_becomeSuspect ht _ _ _ fun _ => struck_le _
    · exact within_modLight ht _ fun _ => struck_le _
  · split
    · split
      · unfold huntFound
        refine Within.trans ?_ (within_becomeQuiet ht _)
        refine Within.trans ?_ (within_huntReport _ _ _ _)
        exact hl _ fun _ => rfl
      · exact (within_huntRelease ht _).trans (within_huntNext ht _ _)
    · exact Within.refl s
  · refine Within.trans ?_ (within_becomeQuiet ht _)
    exact hl _ fun _ => rfl
  · exact hl _ fun _ => rfl

theorem within_silenceBurst (ht : P t) : Within P s (silenceBurst t s) := by
  unfold silenceBurst
  simp only
  split
  · exact Within.refl s
  · split
    · exact within_lightSame ht _ fun _ => rfl
    · exact Within.refl s

theorem within_silenceEnd (ht : P t) : Within P s (silenceEnd t s) := by
  unfold silenceEnd
  simp only
  split
  · exact within_lightSame ht _ fun _ => rfl
  · split
    · refine Within.trans ?_ (within_checkEnded ht _ _)
      exact within_lightSame ht _ fun _ => rfl
    · exact Within.refl s

theorem within_silenceGranted (ht : P t) (qs : Int) : Within P s (silenceGranted t qs s) := by
  unfold silenceGranted
  split
  · split
    · exact (within_chanRelease ht _).trans (within_sendCheck ht _)
    · exact within_lightSame ht _ fun _ => rfl
  · exact Within.refl s

theorem within_huntMuteDispatched (ht : P t) (tn : Nat) (inst : BitVec 16) (d : Nat) :
    Within P s (huntMuteDispatched t tn inst d s) := by
  unfold huntMuteDispatched
  split
  · split
    · exact within_lightSame ht _ fun _ => rfl
    · exact Within.refl s
  · exact Within.refl s

theorem within_giveUpHuntCheck (ht : P t) : Within P s (giveUpHuntCheck t s) := by
  unfold giveUpHuntCheck
  split
  · split
    · exact within_giveUpCheck ht
    · exact Within.refl s
  · exact Within.refl s

theorem within_candidateLeft (ht : P t) (tn : Nat) (inst : BitVec 16) : Within P s (candidateLeft t tn inst s) := by
  unfold candidateLeft
  split
  · split
    · exact (within_giveUpHuntCheck ht).trans (within_huntNext ht _ _)
    · exact Within.refl s
  · exact Within.refl s

theorem within_lightOpened (ht : P t) : Within P s (lightOpened t s) :=
  (within_setLight ht _ _ _ _ fun _ => by omega).trans (within_sendCheck ht _)

theorem within_lightSlip (ht : P t) : Within P s (lightSlip t s) := by
  unfold lightSlip
  split
  · exact (within_giveUpCheck ht).trans (within_sendCheck ht _)
  · exact Within.refl s

theorem within_closeLight (ht : P t) : Within P s (closeLight t s) := by
  unfold closeLight
  simp only
  refine Within.trans ?_ (within_modLight ht _ fun _ => by decide)
  split
  · exact within_chanWithdraw ht _
  · exact within_chanRelease ht _
  · exact Within.refl s

/-! ### Drift Tracker (chapter 7) -/

theorem modDrift_waiting (e : Entry) (f : Drift → Drift) : (e.modDrift f).waiting = e.waiting := by
  unfold Entry.modDrift
  split <;> rfl

theorem modDrift_r (e : Entry) (f : Drift → Drift) : (e.modDrift f).r = e.r := by
  unfold Entry.modDrift
  split <;> rfl

theorem tame_modDrift (f : Drift → Drift) : Tame fun e => e.modDrift f :=
  ⟨fun e h => by simpa [modDrift_waiting] using h, fun e h r hr => h r (by simpa [modDrift_r] using hr)⟩

theorem within_moveToRanging (ht : P t) (tn : Nat) (cause : Cause) (kind : TaskKind) :
    Within P s (moveToRanging t tn cause kind s) := by
  unfold moveToRanging
  split
  · exact Within.refl s
  · exact (within_transit ht tn cause (tame_toRanging _)).trans (within_addTask ht _)

theorem within_postNudge (ht : P t) (tn ld : Nat) (r change : Int) (hr : -8 ≤ r ∧ r ≤ 7) :
    Within P s (postNudge t tn ld r change s).state := by
  unfold postNudge
  refine Within.trans ?_ (within_postMust ht _ _ _)
  refine within_tame ht tn ⟨fun e h => by simpa [modDrift_waiting] using h, fun e _ x hx => ?_⟩
  simp only [modDrift_r, Option.some.injEq] at hx
  exact hx ▸ hr

/-- The residual of a correction lies in -8..7 (R102, Law 8). -/
theorem correct_residual (ld r a : Int) : -8 ≤ (correct ld r a).r ∧ (correct ld r a).r ≤ 7 := by
  simp only [correct, roundBt]
  omega

theorem tame_residual (x : Int) (h : -8 ≤ x ∧ x ≤ 7) : Tame fun e => { e with r := some x } :=
  ⟨fun _ h => h, fun e _ y hy => by
    simp only [Option.some.injEq] at hy
    exact hy ▸ h⟩

theorem within_driftCorrection (ht : P t) (tn : Nat) (e : Entry) (a : Int) :
    Within P s (driftCorrection t tn e a s) := by
  unfold driftCorrection
  simp only
  split
  · exact within_moveToRanging ht _ _ _
  · split
    · exact within_moveToRanging ht _ _ _
    · split
      · exact (within_tame ht tn (tame_residual _ (correct_residual _ _ _))).trans (within_report _)
      · exact (within_postNudge ht _ _ _ _ (correct_residual _ _ _)).trans (within_report _)

theorem within_judgeAverage (ht : P t) (tn : Nat) (e : Entry) (a : Int) : Within P s (judgeAverage t tn e a s) := by
  unfold judgeAverage
  split
  · exact Within.refl s
  · split
    · exact within_driftCorrection ht _ _ _
    · exact within_moveToRanging ht _ _ _

theorem within_driftSample (ht : P t) (tn : Nat) (e : Entry) (d : Drift) (x : Int) :
    Within P s (driftSample t tn e d x s) := by
  unfold driftSample
  split
  · exact within_moveToRanging ht _ _ _
  · split
    · exact within_tame ht tn (tame_modDrift _)
    · exact (within_tame ht tn (tame_modDrift _)).trans (within_judgeAverage ht _ _ _)

theorem within_driftBurst (ht : P t) (tn : Nat) (e : Entry) (g a : Int) : Within P s (driftBurst t tn e g a s) := by
  unfold driftBurst
  split
  · exact Within.refl s
  · split
    · exact Within.refl s
    · simp only
      split
      · exact (within_tame ht tn (tame_modDrift _)).trans (within_driftSample ht _ _ _ _)
      · exact within_tame ht tn (tame_modDrift _)

theorem within_driftMiss (ht : P t) (tn : Nat) (e : Entry) : Within P s (driftMiss t tn e s) := by
  unfold driftMiss
  split
  · exact Within.refl s
  · split
    · exact Within.refl s
    · split
      · exact within_enterLost ht _ _
      · exact within_tame ht tn (tame_modDrift _)

theorem within_nudgeDispatched (ht : P t) (tn : Nat) (inst : BitVec 16) (d : Nat) :
    Within P s (nudgeDispatched t tn inst d s) := by
  unfold nudgeDispatched
  split
  · exact Within.refl s
  · split
    · exact within_tame ht tn ⟨fun e h => by simpa [modDrift_waiting] using h,
        fun e h r hr => h r (by simpa [modDrift_r] using hr)⟩
    · exact Within.refl s

theorem within_driftSlip (ht : P t) : Within P s (driftSlip t s) :=
  within_modTree ht _ (keeps_mapEntries _ fun e =>
    ⟨(tame_modDrift _).waiting e, (tame_modDrift _).residual e⟩) le_rfl

/-! ### The probe operation (chapter 6) -/

theorem within_judgeProbeGrant (ht : P t) (o : ProbeOp) (pl : Placement) (qe qs : Int) :
    Within P s (judgeProbeGrant t o pl qe qs s) := by
  have ha : Within P s (sendProbe t o pl (chanRelease t .probe s)) :=
    (within_chanRelease ht _).trans (within_sendProbe ht _ _)
  unfold judgeProbeGrant
  simp only
  split
  · exact ha
  · split
    · exact ha
    · split
      · exact (within_postGated ht _).trans (within_setOp ht _)
      all_goals exact ha

theorem within_probeGranted (ht : P t) (qs : Int) : Within P s (probeGranted t qs s) := by
  unfold probeGranted
  split
  · exact Within.refl s
  · split
    · split
      · exact ((within_chanRelease ht _).trans (within_abandonOp ht)).trans (within_takeTasks ht)
      · exact (within_chanRelease ht _).trans (within_beginAttempt ht _)
      · exact within_judgeProbeGrant ht _ _ _ _
    all_goals exact Within.refl s

theorem within_probeDispatched (ht : P t) (tn : Nat) (inst : BitVec 16) : Within P s (probeDispatched t tn inst s) := by
  unfold probeDispatched
  split
  · exact Within.refl s
  · split
    · split
      · exact within_setOp ht _
      · exact Within.refl s
    all_goals exact Within.refl s

theorem within_probeExpired (ht : P t) (tn : Nat) (inst : BitVec 16) : Within P s (probeExpired t tn inst s) := by
  unfold probeExpired
  split
  · exact Within.refl s
  · split
    · split
      · exact (within_raiseSeqStale ht).trans (within_sendProbe ht _ _)
      · exact Within.refl s
    all_goals exact Within.refl s

theorem within_delayDispatched (ht : P t) (tn : Nat) (inst : BitVec 16) (d : Nat) :
    Within P s (delayDispatched t tn inst d s) := by
  unfold delayDispatched
  split
  · split
    · exact Within.refl s
    · split
      · split
        · exact within_beginAttempt ht _
        · exact Within.refl s
      all_goals exact Within.refl s
  · exact Within.refl s

theorem within_probeBurst (ht : P t) (a : Int) (q : Quality) (p : List Byte) : Within P s (probeBurst t a q p s) := by
  unfold probeBurst
  split
  · exact Within.refl s
  · split
    · exact Within.refl s
    · split
      · exact within_setOp ht _
      all_goals exact Within.refl s

theorem within_finishOp (ht : P t) : Within P s (finishOp t s) := (within_discardOp ht).trans (within_takeTasks ht)

theorem within_countedFailure (ht : P t) (o : ProbeOp) (e : Entry) (next : State → State)
    (h : ∀ s, Within P s (next s)) : Within P s (countedFailure t o e next s) := by
  have h1 : Within P s (s.modEntry t o.tn fun x => { x with attempts := some (e.attempts.getD 0 + 1) }) :=
    within_tame ht _ ⟨fun _ h => h, fun _ h => h⟩
  unfold countedFailure
  simp only
  split
  · exact (h1.trans (within_discardOp ht)).trans (within_loseOrRetire ht _ _)
  · exact h1.trans (h _)

/-- The residual of a measurement lies in -8..7 (R100, Law 8). -/
theorem measure_residual {pr : Params} {prof : Profile} {rrt x : Int} {ld : Nat} {r : Int}
    (h : measure pr prof rrt = .value x ld r) : -8 ≤ r ∧ r ≤ 7 := by
  unfold measure at h
  split at h
  · simp only at h
    split at h
    · cases h
    · simp only [Measured.value.injEq] at h
      obtain ⟨-, -, rfl⟩ := h
      simp only [roundBt]
      omega
  · cases h

theorem tame_measured (rrt : Int) (ld : Nat) (r : Int) (d : Nat) (hr : -8 ≤ r ∧ r ≤ 7) :
    Tame fun e => (e.measuredAs rrt ld r).toVerifying d :=
  ⟨fun _ h => h, fun e _ x hx => by
    simp only [Entry.toVerifying, Entry.measuredAs, Option.some.injEq] at hx
    exact hx ▸ hr⟩

theorem within_rangedReport (o : ProbeOp) (e : Entry) (a : RangedAction) (rrt : Int) (ld : Nat) (r change : Int) :
    Within P s (rangedReport t o e a rrt ld r change s) := within_report _

theorem within_measuredToVerifying (ht : P t) (o : ProbeOp) (e : Entry) (cause : Cause) (rrt : Int) (ld : Nat)
    (r change : Int) (hr : -8 ≤ r ∧ r ≤ 7) :
    Within P s (measuredToVerifying t o e cause rrt ld r change s) := by
  unfold measuredToVerifying
  simp only
  refine Within.trans ?_ (within_setOp ht _)
  refine Within.trans ?_ (within_rangedReport _ _ _ _ _ _ _)
  exact (within_transit ht _ _ (tame_measured _ _ _ _ hr)).trans (within_postMust ht _ _ _)

theorem within_auditResult (ht : P t) (o : ProbeOp) (e : Entry) (rrt : Int) (ld : Nat) (r : Int)
    (hr : -8 ≤ r ∧ r ≤ 7) : Within P s (auditResult t o e rrt ld r s) := by
  have h1 : Within P s (s.modEntry t o.tn fun e =>
      { e with rrt := some rrt, c := roundBt rrt }.modDrift fun d => { d with sum := 0, n := 0 }) :=
    within_tame ht _ ⟨fun e h => by simpa [modDrift_waiting] using h,
      fun e h r hr => h r (by simpa [modDrift_r] using hr)⟩
  unfold auditResult
  simp only
  split
  · refine Within.trans ?_ (within_finishOp ht)
    refine Within.trans ?_ (within_rangedReport _ _ _ _ _ _ _)
    exact h1.trans (within_tame ht _ (tame_residual r hr))
  · split
    · refine Within.trans ?_ (within_finishOp ht)
      refine Within.trans ?_ (within_rangedReport _ _ _ _ _ _ _)
      exact h1.trans (within_postNudge ht _ _ _ _ hr)
    · refine Within.trans ?_ (within_measuredToVerifying ht _ _ _ _ _ _ _ hr)
      exact h1

theorem within_verifiedResult (ht : P t) (o : ProbeOp) (e : Entry) : Within P s (verifiedResult t o e s) :=
  (within_transit ht _ _ (tame_toOperating _)).trans (within_finishOp ht)

theorem within_verifyOffResult (ht : P t) (o : ProbeOp) (e : Entry) (rrt : Int) :
    Within P s (verifyOffResult t o e rrt s) := by
  unfold verifyOffResult
  simp only
  refine Within.trans ?_ (within_beginAttempt ht _)
  refine (within_transit ht _ _ ⟨fun e h => ?_, fun e h r hr => h r ?_⟩).trans (within_postMust ht _ _ _)
  · simp only [Entry.toRanging, Entry.verifyOffAs] at h
    split at h <;> exact h
  · simp only [Entry.toRanging, Entry.verifyOffAs] at hr
    split at hr <;> exact hr

theorem within_actOnOutcome (ht : P t) (o : ProbeOp) (e : Entry) (out : AttemptOutcome)
    (h : ∀ rrt ld r, out = .measured rrt ld r → -8 ≤ r ∧ r ≤ 7) : Within P s (actOnOutcome t o e out s) := by
  unfold actOnOutcome
  split
  · exact within_countedFailure ht _ _ _ fun _ => within_beginAttempt ht _
  · exact within_countedFailure ht _ _ _ fun _ => within_beginAttempt ht _
  · exact within_countedFailure ht _ _ _ fun _ => within_beginAttempt ht _
  · exact within_countedFailure ht _ _ _ fun _ => within_beginAttempt ht _
  · exact within_countedFailure ht _ _ _ fun _ => within_beginAttempt ht _
  · next rrt ld r =>
    split
    · exact within_auditResult ht _ _ _ _ _ (h rrt ld r rfl)
    all_goals exact within_measuredToVerifying ht _ _ _ _ _ _ _ (h rrt ld r rfl)
  · exact within_verifiedResult ht _ _
  · exact within_countedFailure ht _ _ _ fun _ => within_verifyOffResult ht _ _ _

theorem attemptOutcome_residual {c : Controller} {e : Entry} {st : Stage} {ldp : Nat} {g : Int} {ec : Echoes}
    {rrt : Int} {ld : Nat} {r : Int} (h : attemptOutcome c e st ldp g ec = .measured rrt ld r) : -8 ≤ r ∧ r ≤ 7 := by
  unfold attemptOutcome at h
  split at h
  · cases h
  · split at h
    · cases h
    · split at h
      · cases h
      · simp only at h
        split at h
        · split at h
          · cases h
          · cases h
          · next hm =>
            simp only [AttemptOutcome.measured.injEq] at h
            exact h.2.2 ▸ measure_residual hm
        · split at h <;> cases h

theorem within_probeEnd (ht : P t) : Within P s (probeEnd t s) := by
  unfold probeEnd
  split
  · exact within_modSeq ht _ fun _ => rfl
  · split
    · exact Within.refl s
    · split
      · split
        · exact within_finishOp ht
        · exact within_beginAttempt ht _
        · exact within_actOnOutcome ht _ _ _ fun _ _ _ h => attemptOutcome_residual h
      all_goals exact Within.refl s

theorem within_heldRecheck (ht : P t) : Within P s (heldRecheck t s) := by
  unfold heldRecheck
  split
  · exact Within.refl s
  · split
    · exact within_beginAttempt ht _
    all_goals exact Within.refl s

theorem within_probeWaitExpired (ht : P t) : Within P s (probeWaitExpired t s) := by
  unfold probeWaitExpired
  split
  · exact Within.refl s
  · split
    · simp only
      split
      · exact ((within_abandonOp ht).trans (within_loseOrRetire ht _ _)).trans (within_takeTasks ht)
      · exact (within_abandonOp ht).trans (within_takeTasks ht)
    · exact Within.refl s

theorem within_probeSlip (ht : P t) : Within P s (probeSlip t s) := by
  unfold probeSlip
  split
  · exact Within.refl s
  · split
    · exact Within.refl s
    · exact Within.refl s
    · exact (within_chanWithdraw ht _).trans (within_sendProbe ht _ _)
    · exact ((within_withdrawItems ht _).trans (within_chanRelease ht _)).trans (within_sendProbe ht _ _)
    · exact (within_raiseSeqStale ht).trans (within_sendProbe ht _ _)

/-! ### Responses on the request channels (R154, R156..R158) -/

theorem within_handGrant (ht : P t) (tag : Tag) (qs : Int) : Within P s (handGrant t tag qs s) := by
  cases tag
  · exact within_windowGranted ht qs
  · exact within_probeGranted ht qs
  · exact within_silenceGranted ht qs

theorem within_grantTaken (ht : P t) (tag : Tag) (number : Byte) (qs : Int) :
    Within P s (grantTaken t tag number qs s) := by
  unfold grantTaken
  simp only
  split
  · split
    · exact (within_setChan ht _ _).trans (within_handGrant ht _ _)
    · exact within_sendLink ht _
  all_goals exact within_sendLink ht _

theorem within_recordEarliest (ht : P t) (tag : Tag) (qe : Int) : Within P s (recordEarliest t tag qe s) := by
  unfold recordEarliest
  split
  · split
    · exact within_setDisc ht _ rfl
    all_goals exact Within.refl s
  · split
    · split
      · exact within_setOp ht _
      all_goals exact Within.refl s
    · exact Within.refl s
  · split
    · split
      · exact within_lightSame ht _ fun _ => rfl
      · exact Within.refl s
    · exact Within.refl s

theorem within_resend (ht : P t) (tag : Tag) (req : Request) : Within P s (resend t tag req s) :=
  (within_chanSend ht _ _).trans (within_recordEarliest ht _ _)

theorem within_deferTaken (ht : P t) (tag : Tag) (number : Byte) (e : Nat) : Within P s (deferTaken t tag number e s) := by
  unfold deferTaken
  simp only
  split
  · split
    · split
      · exact within_setChan ht _ _
      · exact within_resend ht _ _
    · exact Within.refl s
  all_goals exact Within.refl s

theorem within_backOff (ht : P t) (tag : Tag) (req : Request) : Within P s (backOff t tag req s) := within_setChan ht _ _

theorem within_refuseTaken (ht : P t) (tag : Tag) (number : Byte) : Within P s (refuseTaken t tag number s) := by
  unfold refuseTaken
  simp only
  split
  · split
    · exact within_backOff ht _ _
    · exact Within.refl s
  all_goals exact Within.refl s

theorem within_responseLapsed (ht : P t) (tag : Tag) : Within P s (responseLapsed t tag s) := by
  unfold responseLapsed
  split
  · split
    · exact within_backOff ht _ _
    · exact Within.refl s
  all_goals exact Within.refl s

theorem within_resendDue (ht : P t) (tag : Tag) : Within P s (resendDue t tag s) := by
  unfold resendDue
  split
  · split
    · exact within_resend ht _ _
    · exact Within.refl s
  · split
    · exact within_resend ht _ _
    · exact Within.refl s
  all_goals exact Within.refl s

end

end Sys2Proof.Machine
end

