-- ==== Sys2Proof/Laws/Calm.lean ====
section
/-! SUPPORT. What the Task Sequencer, the queues and the channels leave alone: `Calm` says that an operation keeps every entry
but its working fields, every instance number, on-air set, pending list and Tree Controller, the Discovery Units and the
Light Monitors, the serial directory, and what has left on the insertion links. -/

namespace Sys2Proof.Machine

/-- An entry without its working fields: attempts, waiting flag, owed message and resend mark (R33). -/
def Entry.figures (e : Entry) : Entry := { e with attempts := none, waiting := false, owed := none, resend := false }

/-- From one tree to another, everything but the working fields, the messages, the sequencer and the channels is the same. -/
structure TreeCalm (T U : Tree) : Prop where
  entries : ∀ tn, (U.entry? tn).map Entry.figures = (T.entry? tn).map Entry.figures
  insts   : ∀ tn, U.slotInst tn = T.slotInst tn
  onAir   : U.onAir = T.onAir
  pending : U.pendingList = T.pendingList
  ctl     : U.ctl = T.ctl
  disc    : U.disc = T.disc
  light   : U.light = T.light
  slots   : U.out.slots = T.out.slots
  loops   : U.out.loops = T.out.loops

/-- What an operation of the queues, the channels and the Task Sequencer leaves. -/
structure Calm (s s' : State) : Prop where
  trees     : ∀ j, TreeCalm (s.tree j) (s'.tree j)
  directory : s'.directory = s.directory
  timebase  : s'.timebase = s.timebase

theorem TreeCalm.refl (T : Tree) : TreeCalm T T := ⟨fun _ => rfl, fun _ => rfl, rfl, rfl, rfl, rfl, rfl, rfl, rfl⟩

theorem TreeCalm.trans {T U V : Tree} (h : TreeCalm T U) (k : TreeCalm U V) : TreeCalm T V :=
  ⟨fun tn => (k.entries tn).trans (h.entries tn), fun tn => (k.insts tn).trans (h.insts tn), k.onAir.trans h.onAir,
    k.pending.trans h.pending, k.ctl.trans h.ctl, k.disc.trans h.disc, k.light.trans h.light, k.slots.trans h.slots,
    k.loops.trans h.loops⟩

section
variable {s s' s'' : State} {t : TreeId}

@[refl] theorem Calm.refl (s : State) : Calm s s := ⟨fun _ => TreeCalm.refl _, rfl, rfl⟩

theorem Calm.trans (h : Calm s s') (k : Calm s' s'') : Calm s s'' :=
  ⟨fun j => (h.trees j).trans (k.trees j), k.directory.trans h.directory, k.timebase.trans h.timebase⟩

/-- A calm operation keeps the instance, serial and state of every entry. -/
theorem Calm.identity (h : Calm s s') (j : TreeId) (tn : Nat) :
    (s'.entry? j tn).map Entry.identity = (s.entry? j tn).map Entry.identity := by
  have := congrArg (Option.map Entry.identity) ((h.trees j).entries tn)
  rw [Option.map_map, Option.map_map] at this
  exact this

/-- A calm operation keeps what an entry is apart from its working fields. -/
theorem Calm.figures (h : Calm s s') {j : TreeId} {tn : Nat} {e e' : Entry} (he : s.entry? j tn = some e)
    (he' : s'.entry? j tn = some e') : e'.figures = e.figures := by
  have := (h.trees j).entries tn
  rw [show (s'.tree j).entry? tn = some e' from he', show (s.tree j).entry? tn = some e from he] at this
  simpa using this

/-- A calm operation frees no slot and fills none. -/
theorem Calm.isSome (h : Calm s s') (j : TreeId) (tn : Nat) : (s'.entry? j tn).isSome = (s.entry? j tn).isSome := by
  have := congrArg Option.isSome ((h.trees j).entries tn)
  rwa [Option.isSome_map, Option.isSome_map] at this

theorem Calm.epoch (h : Calm s s') : s'.epoch = s.epoch := by simp [State.epoch, h.timebase]

theorem Calm.foldl {α : Type} (f : State → α → State) (h : ∀ s a, Calm s (f s a)) (l : List α) :
    ∀ s, Calm s (l.foldl f s) := by
  induction l with
  | nil => exact fun s => Calm.refl s
  | cons a l ih => exact fun s => (h s a).trans (ih _)

theorem calm_modTree (f : Tree → Tree) (h : TreeCalm (s.tree t) (f (s.tree t))) : Calm s (s.modTree t f) := by
  refine ⟨fun j => ?_, rfl, rfl⟩
  rw [tree_modTree]
  split
  · next hj => subst hj; exact h
  · exact TreeCalm.refl _

theorem calm_report (b : ReportBody) : Calm s (s.report t b) := ⟨fun _ => TreeCalm.refl _, rfl, rfl⟩

theorem calm_freeIndex (n : Nat) : Calm s { s with freeIndex := n } := ⟨fun _ => TreeCalm.refl _, rfl, rfl⟩

theorem calm_modMsgq (f : MsgQueue → MsgQueue) : Calm s (s.modMsgq t f) :=
  calm_modTree _ ⟨fun _ => rfl, fun _ => rfl, rfl, rfl, rfl, rfl, rfl, rfl, rfl⟩

theorem calm_modSeq (f : Sequencer → Sequencer) : Calm s (s.modSeq t f) :=
  calm_modTree _ ⟨fun _ => rfl, fun _ => rfl, rfl, rfl, rfl, rfl, rfl, rfl, rfl⟩

theorem calm_setChan (tag : Tag) (c : Channel) : Calm s (s.setChan t tag c) := by
  refine calm_modTree _ ⟨fun tn => ?_, fun tn => ?_, ?_, ?_, ?_, ?_, ?_, ?_, ?_⟩
  · rw [entry?_of_slots (slots_setChan ..)]
  · cases tag <;> rfl
  all_goals simp

/-- An update of an entry's working fields alone. -/
theorem calm_modEntry (tn : Nat) (f : Entry → Entry) (h : ∀ e, (f e).figures = e.figures) :
    Calm s (s.modEntry t tn f) := by
  refine calm_modTree _ ⟨fun k => ?_, fun k => ?_, ?_, ?_, ?_, ?_, ?_, ?_, ?_⟩
  · by_cases hk : k = tn
    · subst hk
      simp [Function.comp_def, h]
    · simp [hk]
  · unfold Tree.modEntry Tree.slotInst
    cases ht : slotIndex tn with
    | none => rfl
    | some i =>
      cases hk : slotIndex k with
      | none => rfl
      | some m =>
        simp only [Fin.getElem_fin, Vector.getElem_set]
        split
        · next him => simp [him]
        · rfl
  all_goals simp

/-! ### Channels and messages -/

theorem calm_modGrant (f : List GrantMsg → List GrantMsg) : Calm s (s.modOut t fun o => { o with grant := f o.grant }) := by
  unfold State.modOut
  exact calm_modTree _ ⟨fun _ => rfl, fun _ => rfl, rfl, rfl, rfl, rfl, rfl, rfl, rfl⟩

theorem calm_sendLink (m : GrantMsg) : Calm s (sendLink t m s) := by
  unfold sendLink
  exact calm_modGrant (· ++ [m])

theorem calm_chanSend (tag : Tag) (req : Request) : Calm s (chanSend t tag req s) :=
  (calm_setChan tag _).trans (calm_sendLink _)

theorem calm_chanWithdraw (tag : Tag) : Calm s (chanWithdraw t tag s) := calm_setChan tag _

theorem calm_chanRelease (tag : Tag) : Calm s (chanRelease t tag s) := by
  unfold chanRelease
  split
  · exact (calm_setChan tag _).trans (calm_sendLink _)
  all_goals exact Calm.refl s

theorem calm_enqueue (it : Item) : Calm s (enqueue t it s) := calm_modMsgq _

theorem calm_postGated (it : Item) : Calm s (postGated t it s).state := by
  unfold postGated
  split
  · exact Calm.refl s
  · split
    · exact calm_enqueue it
    · exact Calm.refl s

theorem calm_postMust (tn : Nat) (m : Message) (by_ : Issuer) : Calm s (postMust t tn m by_ s).state := by
  unfold postMust
  split
  · exact Calm.refl s
  · split
    · exact Calm.refl s
    · simp only
      split
      · exact calm_modEntry tn _ fun _ => rfl
      · split
        · refine Calm.trans ?_ (calm_enqueue _)
          exact calm_modEntry tn _ fun _ => rfl
        · exact calm_modEntry tn _ fun _ => rfl

theorem calm_withdrawItems (by_ : Issuer) : Calm s (withdrawItems t by_ s) := calm_modMsgq _

theorem calm_closeQueue : Calm s (closeQueue t s) := by
  have h : ∀ r : State, Calm r (postBroadcast t r) := by
    intro r
    unfold postBroadcast
    split
    · exact calm_enqueue _
    · exact calm_modMsgq _
  exact (calm_modMsgq _).trans (h _)

/-! ### Task Sequencer -/

theorem calm_setOp (o : Option ProbeOp) : Calm s (s.setOp t o) := calm_modSeq _

theorem calm_raiseSeqStale : Calm s (s.raiseSeqStale t) := by
  refine Calm.trans ?_ (calm_freeIndex _)
  exact calm_modSeq _

theorem calm_sendProbe (o : ProbeOp) (pl : Placement) : Calm s (sendProbe t o pl s) :=
  (calm_chanSend _ _).trans (calm_setOp _)

theorem calm_beginAttempt (o : ProbeOp) : Calm s (beginAttempt t o s) := by
  unfold beginAttempt
  split
  · exact calm_setOp _
  · split
    · exact calm_sendProbe _ _
    · exact calm_setOp _
    · split
      · exact calm_sendProbe _ _
      · split
        · exact calm_setOp _
        · exact calm_sendProbe _ _

theorem calm_giveUpProbe (o : ProbeOp) : Calm s (giveUpProbe t o s) := by
  unfold giveUpProbe
  split
  · exact Calm.refl s
  · exact Calm.refl s
  · exact calm_chanWithdraw _
  · exact (calm_withdrawItems _).trans (calm_chanRelease _)
  · exact calm_raiseSeqStale

theorem calm_discardOp : Calm s (discardOp t s) := by
  unfold discardOp
  split
  · exact Calm.refl s
  · refine Calm.trans ?_ (calm_setOp _)
    exact calm_modEntry _ _ fun e => by split <;> rfl

theorem calm_abandonOp : Calm s (abandonOp t s) := by
  unfold abandonOp
  split
  · exact Calm.refl s
  · exact (calm_giveUpProbe _).trans calm_discardOp

theorem calm_setTasks (l : List Task) : Calm s (s.setTasks t l) := calm_modSeq _

theorem calm_refill : Calm s (refill t s) := by
  refine Calm.foldl _ (fun s tn => ?_) _ _
  unfold refillOne
  split
  · split
    · refine Calm.trans ?_ (calm_modSeq _)
      exact calm_modEntry tn _ fun _ => rfl
    · exact Calm.refl s
  · exact Calm.refl s

theorem calm_takeTasks : Calm s (takeTasks t s) := by
  unfold takeTasks
  generalize takeBound = n
  induction n generalizing s with
  | zero => exact Calm.refl s
  | succ n ih =>
    unfold takeLoop
    split
    · split
      · exact Calm.refl s
      · next k rest _ =>
        have h : Calm s (refill t (s.setTasks t rest)) := (calm_modSeq _).trans calm_refill
        simp only
        split
        · refine h.trans ?_
          unfold startOp
          refine Calm.trans ?_ (calm_beginAttempt _)
          exact calm_modEntry _ _ fun _ => rfl
        · exact h.trans ih
    · exact Calm.refl s

theorem calm_withdrawn (tn : Nat) (inst : BitVec 16) : Calm s (withdrawn t tn inst s) := by
  unfold withdrawn
  simp only
  refine Calm.trans ?_ (calm_refill.trans calm_takeTasks)
  have h : Calm s (s.setTasks t ((s.tree t).seq.tasks.filter fun k => k.tn ≠ tn)) := calm_modSeq _
  split
  · split
    · exact h.trans calm_abandonOp
    · exact h
  · exact h

theorem calm_addTask (k : Task) : Calm s (addTask t k s).state := by
  refine Calm.trans ?_ calm_takeTasks
  unfold judgeTask
  simp only
  repeat' split
  all_goals first
    | exact Calm.refl s
    | exact calm_setTasks _
    | exact calm_modEntry _ _ fun _ => rfl
    | exact (calm_setTasks _).trans calm_refill

theorem calm_finish : Calm s (takeTasks t (discardOp t s)) := calm_discardOp.trans calm_takeTasks

end

end Sys2Proof.Machine
end

