-- ==== Sys2Proof/Laws/Events.lean ====
section
/-! SUPPORT. What the shared operations of the Admission Unit, the Tree Controller, the slot call, the Burst Report Intake, the
host processor's requests and the epoch start's deliveries can change. -/

namespace Sys2Proof.Machine

section
variable {P : TreeId → Prop} {s : State} {t : TreeId}

/-! ### Admission Unit (chapter 4) -/

/-- Records that leave a pending list. -/
theorem within_fewerPending (ht : P t) (p : PendingRec → Bool) : Within P s (s.modPending t fun l => l.filter p) :=
  within_modPending ht _ fun h =>
    ⟨(List.length_filter_le _ _).trans h.1, h.2.sublist (List.filter_sublist.map _)⟩

theorem within_removePending (ht : P t) (serial : Serial) : Within P s (removePending t serial s) :=
  within_fewerPending ht _

theorem within_admissionReport (ev : AdmitEvent) (o : AdmitOutcome) (serial : Serial) (model : BitVec 16) (c : Int)
    (origins : Option Origins) (tn : Nat) (other : Option TreeId) :
    Within P s (admissionReport t ev o serial model c origins tn other s) := within_report _

theorem within_pendingReport (ev : AdmitEvent) (o : AdmitOutcome) (r : PendingRec) (tn : Nat) (other : Option TreeId) :
    Within P s (pendingReport t ev o r tn other s) := within_report _

theorem within_supersedeOne (hP : ∀ j, P j) (ev : AdmitEvent) (tn : Nat) (serial : Serial) (o : TreeId) :
    Within P s (supersedeOne ev t tn serial s o) := by
  unfold supersedeOne
  split
  · exact Within.refl s
  · split
    · exact (within_removePending (hP _) _).trans (within_pendingReport _ _ _ _ _)
    · exact Within.refl s

/-- Every other tree can lose a pending record (R74). -/
theorem within_supersede (hP : ∀ j, P j) (ev : AdmitEvent) (tn : Nat) (serial : Serial) :
    Within P s (supersede ev t tn serial s) := Within.foldl _ (fun _ o => within_supersedeOne hP ev tn serial o) _ _

theorem within_admitOpen (hP : ∀ j, P j) (a : Handed) (prof : Profile) : Within P s (admitOpen t a prof s) := by
  have hc : Within P s (createEntry t a.serial a.model a.c prof s).state := within_createEntry (hP t) _ _ _ _
  unfold admitOpen
  simp only
  split
  · exact (hc.trans (within_admissionReport _ _ _ _ _ _ _ _)).trans (within_supersede hP _ _ _)
  · exact hc.trans (within_admissionReport _ _ _ _ _ _ _ _)
  · exact hc.trans (within_admissionReport _ _ _ _ _ _ _ _)
  · exact hc.trans (within_admissionReport _ _ _ _ _ _ _ _)
  · exact hc

theorem within_admitAsk (ht : P t) (a : Handed) (prof : Profile) (h : (s.tree t).pendingOf a.serial = none) :
    Within P s (admitAsk t a prof s) := by
  unfold admitAsk
  simp only
  split
  · exact within_admissionReport _ _ _ _ _ _ _ _
  · next hr =>
    refine Within.trans ?_ (within_admissionReport _ _ _ _ _ _ _ _)
    refine within_modPending ht _ fun hl => ⟨?_, ?_⟩
    · simp only [List.length_append, List.length_singleton]
      have : ¬8 ≤ (s.tree t).pendingList.length := hr
      omega
    · rw [List.map_append, List.nodup_append]
      refine ⟨hl.2, by simp, ?_⟩
      simp only [List.map_cons, List.map_nil, List.mem_singleton, ne_eq]
      rintro x hx y rfl rfl
      obtain ⟨r, hr, hs⟩ := List.mem_map.1 hx
      simp only [Tree.pendingOf, List.find?_eq_none] at h
      exact h r hr (by simpa using hs)

theorem within_judgeNew (hP : ∀ j, P j) (a : Handed) : Within P s (judgeNew t a s) := by
  unfold judgeNew
  simp only
  split
  · exact (within_removePending (hP t) _).trans (within_admissionReport _ _ _ _ _ _ _ _)
  · split
    · refine Within.trans ?_ (within_pendingReport _ _ _ _ _)
      refine within_modPending (hP t) _ fun h => ⟨by simpa using h.1, ?_⟩
      rw [List.map_map]
      convert h.2 using 2
      funext r
      simp only [Function.comp_apply]
      split <;> rfl
    · next hn =>
      split
      · exact within_admissionReport _ _ _ _ _ _ _ _
      · split
        · exact within_admitOpen hP _ _
        · exact within_admitAsk (hP t) _ _ hn

/-- The judgement of an announce can reach an entry and the pending lists of other trees (R46, R74). -/
theorem within_judgeAnnounce (hP : ∀ j, P j) (a : Handed) : Within P s (judgeAnnounce t a s) := by
  have hc : Within P s (serialCheck t a.serial a.c s).state := within_serialCheck hP _ _
  unfold judgeAnnounce
  simp only
  split
  · exact hc.trans (within_admissionReport _ _ _ _ _ _ _ _)
  · exact hc.trans (within_admissionReport _ _ _ _ _ _ _ _)
  · exact hc.trans (within_admissionReport _ _ _ _ _ _ _ _)
  · exact hc.trans (within_judgeNew hP _)

theorem within_pendingHolds (ht : P t) : Within P s (pendingHolds t s) :=
  (within_fewerPending ht _).trans (Within.foldl _ (fun _ _ => within_pendingReport _ _ _ _ _) _ _)

theorem within_closePending (ht : P t) : Within P s (closePending t s) := by
  unfold closePending
  simp only
  refine Within.trans ?_ (Within.foldl _ (fun _ _ => within_pendingReport _ _ _ _ _) _ _)
  exact within_modPending ht _ fun _ => by simp

/-! ### Tree Controller (chapter 11) -/

theorem within_treeState (ht : P t) (x : TreeState) : Within P s (s.setTreeState t x) :=
  within_modCtl ht _ fun _ => rfl

theorem within_treeReport (old new : TreeName) (cause : TreeCause) (runs restarts : Nat) (reason : Option CalFailure)
    (spread : Int) (entries : Nat) :
    Within P s (treeReport t old new cause runs restarts reason spread entries s) := within_report _

theorem within_sweepOff (ht : P t) : Within P s (sweepOff t s) := within_modSeq ht _ fun _ => rfl

theorem within_sweepOn (ht : P t) : Within P s (sweepOn t s) := within_modSeq ht _ fun _ => rfl

theorem within_runFailed (ht : P t) (r : CalRun) (why : CalFailure) : Within P s (runFailed t r why s) := by
  unfold runFailed
  split
  · exact within_treeState ht _
  · unfold calFailed
    refine Within.trans ?_ (within_treeReport _ _ _ _ _ _ _ _)
    refine Within.trans ?_ (within_sweepOff ht)
    refine Within.trans ?_ (within_closeDiscovery ht)
    exact within_modCtl ht _ fun _ => rfl

theorem within_runPassed (ht : P t) (r : CalRun) : Within P s (runPassed t r s) := by
  unfold runPassed
  simp only
  refine Within.trans ?_ (within_takeTasks ht)
  refine Within.trans ?_ (within_startWindow ht)
  refine Within.trans ?_ (within_sweepOn ht)
  refine Within.trans ?_ (within_lightOpened ht)
  refine Within.trans ?_ (within_treeReport _ _ _ _ _ _ _ _)
  refine Within.trans ?_ (within_treeState ht _)
  refine Within.trans ?_ (within_allOff ht)
  exact within_modCtl ht _ fun _ => rfl

theorem within_loopTaken (ht : P t) (a : Int) : Within P s (loopTaken t a s) := by
  unfold loopTaken
  split
  · unfold loopRecord
    split
    · exact Within.refl s
    · split
      · exact Within.refl s
      · simp only
        split
        · unfold judgeRun
          split
          · exact within_runPassed ht _
          · exact within_runFailed ht _ _
        · exact within_treeState ht _
  all_goals exact Within.refl s

theorem within_loopMarker (ht : P t) : Within P s (loopMarker t s) := by
  unfold loopMarker
  split
  · split
    · exact within_runFailed ht _ _
    · split
      · exact (within_treeState ht _).trans (within_modOut ht _)
      · exact Within.refl s
  all_goals exact Within.refl s

theorem within_calibrationSlip (ht : P t) : Within P s (calibrationSlip t s) := by
  unfold calibrationSlip
  split
  · exact within_treeState ht _
  all_goals exact Within.refl s

theorem within_beginClose (ht : P t) : Within P s (beginClose t s) := by
  unfold beginClose
  simp only
  refine Within.trans ?_ (within_closeQueue ht)
  refine Within.trans ?_ (within_closePending ht)
  refine Within.trans ?_ (within_closeLight ht)
  refine Within.trans ?_ (within_closeSequencer ht)
  refine Within.trans ?_ (within_closeDiscovery ht)
  exact (within_treeState ht _).trans (within_treeReport _ _ _ _ _ _ _ _)

theorem within_completeClose (ht : P t) : Within P s (completeClose t s) := by
  unfold completeClose
  simp only
  refine Within.trans ?_ (within_treeReport _ _ _ _ _ _ _ _)
  refine Within.trans ?_ (within_modCtl ht _ fun _ => rfl)
  refine Within.trans ?_ (within_modMsgq ht _ (fun _ => by simp) (by simp))
  refine Within.trans ?_ (within_allOff ht)
  exact Within.foldl _ (fun _ tn => within_freeEntry ht tn _) _ _

theorem within_setSuspended (ht : P t) (b : Bool) : Within P s (setSuspended t b s) := within_modCtl ht _ fun _ => rfl

/-! ### Slot calls (R28) -/

theorem within_expiredNotice (ht : P t) (it : Item) : Within P s (expiredNotice t s it) := by
  unfold expiredNotice
  split
  · exact within_inviteExpired ht
  · exact within_probeExpired ht _ _
  all_goals exact Within.refl s

theorem within_slotExpiry (ht : P t) : Within P s (slotExpiry t s) :=
  (within_filterItems ht _).trans (Within.foldl _ (fun _ it => within_expiredNotice ht it) _ _)

theorem within_enterOwed (ht : P t) (tn : Nat) : Within P s (enterOwed t s tn) := by
  unfold enterOwed
  split
  · exact Within.refl s
  · split
    · exact Within.refl s
    · split
      · next o _ hr =>
        have h1 : Within P s
            (enqueue t { msg := o.msg, issuer := o.issuer, inst := (by assumption : Entry).inst, deadline := none }
              (s.modEntry t tn fun e => { e with owed := none })) := by
          refine Within.trans ?_ (within_enqueue ht _ (by simpa using hr))
          exact within_tame ht _ ⟨fun _ h => h, fun _ h => h⟩
        simp only
        split
        · exact h1.trans (within_postMust ht _ _ _)
        · exact h1
      · exact Within.refl s

theorem within_enterBroadcast (ht : P t) : Within P s (enterBroadcast t s) := by
  unfold enterBroadcast
  split
  · next h =>
    simp only [Bool.and_eq_true, decide_eq_true_eq] at h
    refine within_modMsgq ht _ (fun _ => ?_) le_rfl
    have : (s.tree t).msgq.items.length < 32 := h.2
    simp only [List.length_append, List.length_singleton]
    omega
  · exact Within.refl s

theorem within_slotOwed (ht : P t) : Within P s (slotOwed t s) := by
  unfold slotOwed
  simp only
  split
  · exact within_enterBroadcast ht
  · exact (within_enterBroadcast ht).trans (Within.foldl _ (fun _ tn => within_enterOwed ht tn) _ _)

theorem within_dispatchedNotice (ht : P t) (it : Item) (d : Nat) : Within P s (dispatchedNotice t it d s) := by
  unfold dispatchedNotice
  split
  · exact within_inviteDispatched ht d
  · unfold assignSent
    split
    · exact (within_transit ht _ _ (tame_toRanging _)).trans (within_addTask ht _)
    · exact Within.refl s
  · exact within_probeDispatched ht _ _
  · split
    · exact within_nudgeDispatched ht _ _ _
    all_goals exact within_delayDispatched ht _ _ _
  · exact within_nudgeDispatched ht _ _ _
  · exact within_huntMuteDispatched ht _ _ _
  · exact within_huntClear ht _ _ _
  · unfold retireSent
    split
    · exact within_freeEntry ht _ _
    · exact Within.refl s
  · exact within_completeClose ht

/-- The head item handed over in an epoch that still has room for it (R28). -/
theorem keeps_handOver (it : Item) (rest : List Item) (h : (s.tree t).msgq.items = it :: rest)
    (hc : (s.tree t).msgq.count + 1 ≤ 4) (j : TreeId) :
    TreeKeeps (s.tree j) ((handOver t it rest s).tree j) := by
  unfold handOver
  rw [tree_modTree]
  split
  · next hj =>
    subst hj
    refine TreeKeeps.trans (keeps_msgq { (s.tree j).msgq with items := rest, count := (s.tree j).msgq.count + 1 } ?_
      (.inl hc)) (TreeKeeps.of_same rfl rfl rfl rfl rfl rfl rfl)
    rw [h]
    simp only [List.length_cons]
    omega
  · exact TreeKeeps.refl _

theorem slotDispatch_loop (ht : P t) (n : Nat) (hc : (s.tree t).msgq.count + n ≤ 4) :
    Beside P s (dispatchLoop t n s) ∧ ∀ j, TreeKeeps (s.tree j) ((dispatchLoop t n s).tree j) := by
  induction n generalizing s with
  | zero => exact ⟨Beside.refl s, fun _ => TreeKeeps.refl _⟩
  | succ n ih =>
    unfold dispatchLoop
    split
    · exact ⟨Beside.refl s, fun _ => TreeKeeps.refl _⟩
    · next it rest hi =>
      have hw := within_dispatchedNotice (P := P) (s := handOver t it rest s) ht it s.epoch
      have hn : ((handOver t it rest s).tree t).msgq.count = (s.tree t).msgq.count + 1 := by simp [handOver]
      have hk := ih (s := dispatchedNotice t it s.epoch (handOver t it rest s)) (by have := hw.count t; omega)
      refine ⟨((beside_modTree ht _).trans hw.toBeside).trans hk.1, fun j => ?_⟩
      exact ((keeps_handOver it rest hi (by omega) j).trans (hw.keeps j)).trans (hk.2 j)

/-- A slot call leaves what its operations leave; it alone raises a dispatch count, up to four in one epoch (R28). -/
theorem slotCall_keeps (ht : P t) :
    Beside P s (slotCall t s) ∧ ∀ j, TreeKeeps (s.tree j) ((slotCall t s).tree j) := by
  have h1 : Within P s (slotOwed t (slotExpiry t s)) := (within_slotExpiry ht).trans (within_slotOwed ht)
  have h2 : ∀ r : State, Within P r (freshCount t r) := by
    intro r
    unfold freshCount
    split
    · exact Within.refl r
    · exact within_modMsgq ht _ id (by simp)
  have h3 := h1.trans (h2 _)
  unfold slotCall slotDispatch
  by_cases hc : ((freshCount t (slotOwed t (slotExpiry t s))).tree t).msgq.count ≤ 4
  · obtain ⟨hb, hk⟩ := slotDispatch_loop (P := P) (s := freshCount t (slotOwed t (slotExpiry t s))) ht
      (Config.dispatchLimit - ((freshCount t (slotOwed t (slotExpiry t s))).tree t).msgq.count)
      (by show _ + (4 - _) ≤ 4; omega)
    exact ⟨h3.toBeside.trans hb, fun j => (h3.keeps j).trans (hk j)⟩
  · have h0 : Config.dispatchLimit - ((freshCount t (slotOwed t (slotExpiry t s))).tree t).msgq.count = 0 := by
      show 4 - _ = 0
      omega
    simp only [h0, dispatchLoop]
    exact ⟨h3.toBeside, h3.keeps⟩

/-! ### Burst Report Intake (R20, R21) -/

theorem within_setCollection (ht : P t) (w : OpenWindow) (coll : Collection)
    (h : ((s.tree t).disc.state.heard.length ≤ 128 ∧ (s.tree t).disc.state.heard.Nodup) →
      coll.heard.length ≤ 128 ∧ coll.heard.Nodup) : Within P s (setCollection t w coll s) := by
  unfold setCollection State.setDisc
  exact within_modDisc ht _ id h

theorem within_droppedReport (w : OpenWindow) (o : AdmitOutcome) (a : Announce) (c : Int) :
    Within P s (droppedReport t w o a c s) := within_report _

theorem within_announceHeard (hP : ∀ j, P j) (w : OpenWindow) (coll : Collection) (arrival : Int) (a : Announce)
    (h : ((s.tree t).disc.state.heard.length ≤ 128 ∧ (s.tree t).disc.state.heard.Nodup) →
      coll.heard.length ≤ 128 ∧ coll.heard.Nodup) : Within P s (announceHeard t w coll arrival a s) := by
  unfold announceHeard
  simp only
  split
  · refine Within.trans ?_ (within_judgeAnnounce hP _)
    exact within_setCollection (hP t) w _ h
  · refine Within.trans ?_ (within_droppedReport _ _ _ _)
    exact within_setCollection (hP t) w _ h

/-- A tag-0 burst can reach other trees through the judgement of its announce (R46, R74). -/
theorem within_windowBurst (hP : ∀ j, P j) (arrival : Int) (q : Quality) (p : List Byte) :
    Within P s (windowBurst t arrival q p s) := by
  unfold windowBurst
  split
  · exact Within.refl s
  · split
    · next copy number qs gw dispatch coll hd =>
      have hh : (s.tree t).disc.state.heard = coll.heard := by rw [hd]; rfl
      simp only
      split
      · exact within_setCollection (hP t) _ _ fun h => hh ▸ h
      · unfold windowAnnounce
        split
        · refine Within.trans ?_ (within_droppedReport _ _ _ _)
          exact within_setCollection (hP t) _ _ fun h => hh ▸ h
        · split
          · exact within_setCollection (hP t) _ _ fun h => hh ▸ h
          · split
            · exact within_setCollection (hP t) _ _ fun h => hh ▸ h
            · next hm hr =>
              refine within_announceHeard hP _ _ _ _ fun h => ?_
              rw [hh] at h
              have hr' : ¬128 ≤ coll.heard.length := hr
              refine ⟨by simp only [List.length_append, List.length_singleton]; omega, ?_⟩
              rw [List.nodup_append]
              refine ⟨h.2, by simp, ?_⟩
              simp only [List.mem_singleton, ne_eq]
              rintro x hx y rfl rfl
              exact hm hx
    all_goals exact Within.refl s

theorem within_windowEnd (ht : P t) : Within P s (windowEnd t s) := by
  unfold windowEnd
  split
  · exact within_modDisc ht _ id id
  · split
    · unfold closeWindow
      simp only
      split
      · refine Within.trans ?_ (within_report _)
        refine Within.trans ?_ (within_startWindow ht)
        exact within_modDisc ht _ id fun _ => by simp [DiscState.heard]
      · exact (within_endCycle ht _).trans (within_report _)
    all_goals exact Within.refl s

theorem within_routeEnd (ht : P t) (tag : Tag) : Within P s (routeEnd t tag s) := by
  cases tag
  · exact within_windowEnd ht
  · exact within_probeEnd ht
  · exact within_silenceEnd ht

theorem within_routeGranted (ht : P t) (tn : Nat) (g a : Int) : Within P s (routeGranted t tn g a s) := by
  unfold routeGranted
  split
  · exact within_driftBurst ht _ _ _ _
  · exact within_unexplained ht _

theorem within_routeMiss (ht : P t) (tn : Nat) : Within P s (routeMiss t tn s) := by
  unfold routeMiss
  split
  · exact within_driftMiss ht _ _
  · exact Within.refl s

theorem within_routed (t : TreeId) (f : State → State) (h : Within P s (f s)) : Within P s (routed t f s) := by
  unfold routed
  split
  · exact h
  · exact Within.refl s

/-! ### The host processor's requests -/

theorem within_toldMuted (x : Named) (ht : P x.tree) : Within P s (toldMuted x s) := by
  unfold toldMuted
  split
  · exact within_candidateLeft ht _ _
  · exact Within.refl s

theorem within_retireTn (x : Named) (ht : P x.tree) : Within P s (retireTn x s) := by
  unfold retireTn
  split
  · exact Within.refl s
  · exact (within_enterRetiring ht _ _).trans (within_toldMuted x ht)

theorem within_muteTn (x : Named) (ht : P x.tree) : Within P s (muteTn x s) :=
  ((within_transit ht _ _ (tame_toMuted _)).trans (within_withdrawn ht _ _)).trans (within_postMust ht _ _ _)

theorem within_unmuteTn (x : Named) (ht : P x.tree) : Within P s (unmuteTn x s) := by
  unfold unmuteTn
  simp only
  refine Within.trans ?_ (within_toldMuted x ht)
  exact ((within_transit ht _ _ (tame_toRanging _)).trans (within_postMust ht _ _ _)).trans (within_addTask ht _)

theorem within_rangeNow (x : Named) (ht : P x.tree) : Within P s (rangeNow x s) := within_moveToRanging ht _ _ _

theorem within_pushContext (ht : P t) (c : Context) (h : (s.tree t).disc.contexts.length < 4) :
    Within P s (pushContext t c s) := by
  have h1 : Within P s (s.modDisc t fun d => { d with contexts := d.contexts ++ [{ ctx := c, held := false }] }) :=
    within_modDisc ht _ (fun _ => by simp only [List.length_append, List.length_singleton]; omega) id
  unfold pushContext
  simp only
  split
  · exact (h1.trans (within_setDisc ht _ rfl)).trans (within_startWindow ht)
  all_goals exact h1

theorem within_flush (ht : P t) : Within P s (s.modDisc t Discovery.flush) := by
  refine within_modDisc ht _ (fun _ => ?_) fun h => ?_
  · unfold Discovery.flush
    split <;> simp
  · unfold Discovery.flush
    split <;> first | exact h | simp [DiscState.heard]

theorem within_forceQuiet (ht : P t) : Within P s (forceQuiet t s) := by
  unfold forceQuiet
  simp only
  refine Within.trans ?_ (within_becomeQuiet ht _)
  refine Within.trans ?_ (within_lightSame ht _ fun _ => rfl)
  have h1 : Within P s ((giveUpCheck t s).modLight t fun l => { l with nextCheck := none }) := by
    refine Within.trans ?_ (within_lightSame ht _ fun _ => rfl)
    exact within_giveUpCheck ht
  refine h1.trans ?_
  unfold abortHunt
  split
  · exact Within.refl _
  · simp only
    refine Within.trans ?_ (within_huntReport _ _ _ _)
    refine Within.trans ?_ (within_huntRelease ht _)
    exact within_lightSame ht _ fun _ => rfl

/-! ### Deliveries of an epoch start (R3) -/

theorem within_activationDue (ht : P t) : Within P s (activationDue t s) :=
  Within.foldl _ (fun _ tn => within_enterRetiring ht tn _) _ _

theorem within_lostHoldDue (ht : P t) : Within P s (lostHoldDue t s) :=
  Within.foldl _ (fun _ tn => within_freeEntry ht tn _) _ _

theorem within_spacingDue (ht : P t) : Within P s (spacingDue t s) := by
  unfold spacingDue
  split
  · split
    · exact (within_setDisc ht _ rfl).trans (within_startWindow ht)
    · exact Within.refl s
  all_goals exact Within.refl s

theorem within_sweepVisit (ht : P t) (l : List Nat) (n : Nat) : Within P s (sweepVisit t l n s) := by
  induction l generalizing n s with
  | nil => unfold sweepVisit; exact Within.refl s
  | cons tn rest ih =>
    cases n with
    | zero => unfold sweepVisit; exact Within.refl s
    | succ n =>
      unfold sweepVisit
      split
      · exact ih _
      · simp only
        split
        · refine Within.trans ?_ (ih _)
          refine Within.trans ?_ (within_modSeq ht _ fun _ => rfl)
          exact within_addTask ht _
        · exact within_addTask ht _
        all_goals exact (within_addTask ht _).trans (ih _)

theorem within_sweepDue (ht : P t) : Within P s (sweepDue t s) := by
  unfold sweepDue
  split
  · refine Within.trans ?_ (within_sweepVisit ht _ _)
    exact within_modSeq ht _ fun _ => rfl
  · exact Within.refl s

theorem within_nextCheckDue (ht : P t) : Within P s (nextCheckDue t s) := by
  unfold nextCheckDue
  split
  · refine Within.trans ?_ (within_sendCheck ht _)
    exact within_lightSame ht _ fun _ => rfl
  · exact Within.refl s

theorem within_huntCheckDue (ht : P t) : Within P s (huntCheckDue t s) := by
  unfold huntCheckDue
  split
  · exact Within.refl s
  · split
    · refine Within.trans ?_ (within_sendCheck ht _)
      exact within_lightSame ht _ fun _ => rfl
    · exact Within.refl s

/-- The tree that a delivery is made to. -/
def deliveryTree : EpochAction → TreeId
  | .activationDeadline t | .lostHoldDeadline t | .pendingHoldDeadline t | .spacingEnd t | .probeWaitExpiry t
  | .auditSweep t | .heldRecheck t | .responseDeadline t _ | .resendEpoch t _ | .nextCheckEpoch t | .huntCheckEpoch t
  | .loopMarkerEpoch t => t

theorem within_deliveryEffect (a : EpochAction) (ht : P (deliveryTree a)) : Within P s (deliveryEffect a s) := by
  cases a
  · exact within_activationDue ht
  · exact within_lostHoldDue ht
  · exact within_pendingHolds ht
  · exact within_spacingDue ht
  · exact within_probeWaitExpired ht
  · exact within_sweepDue ht
  · exact within_heldRecheck ht
  · exact within_responseLapsed ht _
  · exact within_resendDue ht _
  · exact within_nextCheckDue ht
  · exact within_huntCheckDue ht
  · exact within_loopMarker ht

theorem within_slipTree (ht : P t) : Within P s (slipTree s t) :=
  ((((within_calibrationSlip ht).trans (within_discSlip ht)).trans (within_probeSlip ht)).trans
    (within_driftSlip ht)).trans (within_lightSlip ht)

theorem within_slipTrees (hP : ∀ j, P j) : Within P s (slipTrees s) :=
  Within.foldl _ (fun _ t => within_slipTree (hP t)) _ _

end

end Sys2Proof.Machine
end

