-- ==== Sys2Proof/Laws/Port.lean ====
section
/-! SUPPORT. The end of an event (R191): what `settle` does where no record, or one record, has been delivered, and that it
leaves no record delivered. -/

namespace Sys2Proof.Machine

/-! ### Counting delivered records -/

/-- With no record delivered, no poster is served. -/
theorem nextPoster_of_entered {p : Port} (h : ∀ i : Poster, p.delivered[i] = []) : p.nextPoster = none := by
  simp only [Port.nextPoster, List.find?_eq_none]
  intro i _
  simp [h i]

/-- With no record delivered, the arbiter enters nothing. -/
theorem enterUpTo_of_entered {p : Port} (h : ∀ i : Poster, p.delivered[i] = []) (n : Nat) : Port.enterUpTo n p = p := by
  cases n with
  | zero => rfl
  | succ n => simp [Port.enterUpTo, nextPoster_of_entered h]

/-- An event that delivers no record ends as its effect left the part. -/
theorem settle_of_entered {s : State} (h : ∀ i : Poster, s.port.delivered[i] = []) : s.settle = s := by
  unfold State.settle
  rw [enterUpTo_of_entered h]

/-- Entering a record changes neither the delivered records nor the reply, the settings or the poster served. -/
theorem enterRecord_delivered (p : Port) (r : Record) : (p.enterRecord r).delivered = p.delivered := by
  unfold Port.enterRecord
  split
  · rfl
  · split <;> rfl

theorem deliveredCount_deliver {p : Port} (i : Poster) (r : Record) (h : ∀ j : Poster, p.delivered[j] = []) :
    ({ p with delivered := p.delivered.set i (p.delivered[i] ++ [r]) } : Port).deliveredCount = 1 := by
  have hd : p.delivered = Vector.replicate 5 [] := by
    ext1 k hk
    simpa using h ⟨k, hk⟩
  simp only [Port.deliveredCount, hd]
  fin_cases i <;> rfl

theorem nextPoster_deliver {p : Port} (i : Poster) (r : Record) (h : ∀ j : Poster, p.delivered[j] = []) :
    ({ p with delivered := p.delivered.set i (p.delivered[i] ++ [r]) } : Port).nextPoster = some i := by
  have hd : p.delivered = Vector.replicate 5 [] := by
    ext1 k hk
    simpa using h ⟨k, hk⟩
  obtain ⟨a, b, c, last, e, f, g, k, m⟩ := p
  simp only at hd
  subst hd
  fin_cases i <;> fin_cases last <;> rfl

/-- An event that delivers one record ends with that record entered for its poster. -/
theorem settle_deliver {s : State} (p : Poster) (b : ReportBody) (h : ∀ i : Poster, s.port.delivered[i] = []) :
    (s.deliver p b).settle = s.entering p b := by
  have hc := deliveredCount_deliver p (newRecord p s.epoch b) h
  have hn := nextPoster_deliver p (newRecord p s.epoch b) h
  have hd : s.port.delivered.set p [] = s.port.delivered := by
    ext1 k hk
    simp only [Vector.getElem_set]
    split
    · next hpk => subst hpk; exact (h p).symm
    · rfl
  simp only [State.settle, State.deliver, State.entering]
  rw [hc, Port.enterUpTo, hn]
  simp only [Port.enterUpTo, Port.enterFrom]
  congr 1
  simp only [Fin.getElem_fin, Vector.getElem_set_self]
  have hp : s.port.delivered[(p : Nat)] = [] := h p
  rw [hp]
  simp only [List.nil_append, Vector.set_set, hd]

theorem settle_report {s : State} (t : TreeId) (b : ReportBody) (h : ∀ i : Poster, s.port.delivered[i] = []) :
    (s.report t b).settle = s.entering (treePoster t) b := settle_deliver _ b h

/-- The part between events takes the next event: a command's effect, settled. -/
theorem take_of_taking {s : State} (h : s.Taking) (f : State → State) : s.take f = .next (f s).settle := by
  simp [State.take, State.event, h.released]

/-- The part between events judges a request: the answer's state, settled, with the reply in the holder. -/
theorem request_of_taking {s : State} (h : s.Taking) (tag : Byte) (f : State → Answer) :
    s.request tag f = .next ((f s).state.settle.reply tag (f s).code (f s).body) := by
  simp [State.request, h.released]

end Sys2Proof.Machine
end

