-- ==== Sys2Proof/Laws/Transitions.lean ====
section
/-! SUPPORT. What a transition of an entry does (R36..R39, R44, R49, R51): the entry becomes what the transition makes of it,
no other entry changes but in its working fields, and the on-air set follows the entry into and out of OPERATING. -/

namespace Sys2Proof.Machine

section
variable {s : State} {t : TreeId} {tn : Nat} {e : Entry} {f : Entry → Entry} {cause : Cause}

/-- What a transition leaves: one entry becomes `f e`, and nothing but the on-air set and the grant link changes besides. -/
structure Transited (t : TreeId) (tn : Nat) (f : Entry → Entry) (s s' : State) : Prop where
  self      : s'.entry? t tn = (s.entry? t tn).map f
  other     : ∀ j k, (j ≠ t ∨ k ≠ tn) → s'.entry? j k = s.entry? j k
  insts     : ∀ j k, (s'.tree j).slotInst k = (s.tree j).slotInst k
  trees     : ∀ j, j ≠ t → s'.tree j = s.tree j
  directory : s'.directory = s.directory
  timebase  : s'.timebase = s.timebase
  pending   : ∀ j, (s'.tree j).pendingList = (s.tree j).pendingList
  ctl       : ∀ j, (s'.tree j).ctl = (s.tree j).ctl
  msgq      : ∀ j, (s'.tree j).msgq = (s.tree j).msgq
  disc      : ∀ j, (s'.tree j).disc = (s.tree j).disc
  seq       : ∀ j, (s'.tree j).seq = (s.tree j).seq
  light     : ∀ j, (s'.tree j).light = (s.tree j).light

theorem slotInst_modEntry (T : Tree) (tn k : Nat) (f : Entry → Entry) : (T.modEntry tn f).slotInst k = T.slotInst k := by
  unfold Tree.modEntry Tree.slotInst
  cases ht : slotIndex tn with
  | none => rfl
  | some i =>
    cases hk : slotIndex k with
    | none => rfl
    | some m =>
      simp only [Fin.getElem_fin, Vector.getElem_set]
      split
      · next him => simp [him]
      · rfl

theorem transited_modEntry : Transited t tn f s (s.modEntry t tn f) := by
  refine ⟨by simp [State.entry?], fun j k h => ?_, fun j k => ?_, fun j hj => by simp [State.modEntry, hj], rfl, rfl,
    fun j => ?_, fun j => ?_, fun j => ?_, fun j => ?_, fun j => ?_, fun j => ?_⟩
  · by_cases hj : j = t
    · subst hj
      have hk : k ≠ tn := by simpa using h
      simp [State.entry?, hk]
    · simp [State.entry?, State.modEntry, hj]
  all_goals
    by_cases hj : j = t
    · subst hj
      simp [slotInst_modEntry]
    · simp [State.modEntry, hj]

theorem Transited.report {s' : State} (h : Transited t tn f s s') (b : ReportBody) :
    Transited t tn f s (s'.report t b) :=
  ⟨h.self, h.other, h.insts, h.trees, h.directory, h.timebase, h.pending, h.ctl, h.msgq, h.disc, h.seq, h.light⟩

/-- A change of one tree's on-air set and grant link, before or after the entry's own. -/
theorem Transited.air {s' : State} (h : Transited t tn f s s') (g : List Nat → List Nat) (m : GrantMsg) :
    Transited t tn f s (sendLink t m (s'.modAir t g)) := by
  have hs : ∀ j k, (sendLink t m (s'.modAir t g)).entry? j k = s'.entry? j k := by
    intro j k
    by_cases hj : j = t
    · subst hj; simp [State.entry?, sendLink]; rfl
    · simp [State.entry?, sendLink, State.modOut, State.modAir, hj]
  refine ⟨(hs _ _).trans h.self, fun j k hjk => (hs j k).trans (h.other j k hjk), fun j k => ?_, fun j hj => ?_,
    h.directory, h.timebase, fun j => ?_, fun j => ?_, fun j => ?_, fun j => ?_, fun j => ?_, fun j => ?_⟩
  · refine Eq.trans ?_ (h.insts j k)
    by_cases hj : j = t
    · subst hj; simp [sendLink]; rfl
    · simp [sendLink, State.modOut, State.modAir, hj]
  · simpa [sendLink, State.modOut, State.modAir, hj] using h.trees j hj
  · refine Eq.trans ?_ (h.pending j)
    by_cases hj : j = t
    · subst hj; simp [sendLink]
    · simp [sendLink, State.modOut, State.modAir, hj]
  · refine Eq.trans ?_ (h.ctl j)
    by_cases hj : j = t
    · subst hj; simp [sendLink]
    · simp [sendLink, State.modOut, State.modAir, hj]
  · refine Eq.trans ?_ (h.msgq j)
    by_cases hj : j = t
    · subst hj; simp [sendLink]
    · simp [sendLink, State.modOut, State.modAir, hj]
  · refine Eq.trans ?_ (h.disc j)
    by_cases hj : j = t
    · subst hj; simp [sendLink]
    · simp [sendLink, State.modOut, State.modAir, hj]
  · refine Eq.trans ?_ (h.seq j)
    by_cases hj : j = t
    · subst hj; simp [sendLink]
    · simp [sendLink, State.modOut, State.modAir, hj]
  · refine Eq.trans ?_ (h.light j)
    by_cases hj : j = t
    · subst hj; simp [sendLink]
    · simp [sendLink, State.modOut, State.modAir, hj]

/-- Nothing yet: the entry update composed after an on-air change of an unchanged part. -/
theorem Transited.of_off : Transited t tn f s ((terminalOff t tn s).modEntry t tn f) := by
  have h0 : Transited t tn id s s :=
    ⟨by simp, fun _ _ _ => rfl, fun _ _ => rfl, fun _ _ => rfl, rfl, rfl, fun _ => rfl, fun _ => rfl, fun _ => rfl,
      fun _ => rfl, fun _ => rfl, fun _ => rfl⟩
  have h1 : Transited t tn id s (terminalOff t tn s) := h0.air _ _
  have h2 : Transited t tn f (terminalOff t tn s) ((terminalOff t tn s).modEntry t tn f) := transited_modEntry
  refine ⟨by rw [h2.self, h1.self]; simp, fun j k h => (h2.other j k h).trans (h1.other j k h),
    fun j k => (h2.insts j k).trans (h1.insts j k), fun j h => (h2.trees j h).trans (h1.trees j h),
    h2.directory.trans h1.directory, h2.timebase.trans h1.timebase, fun j => (h2.pending j).trans (h1.pending j),
    fun j => (h2.ctl j).trans (h1.ctl j), fun j => (h2.msgq j).trans (h1.msgq j), fun j => (h2.disc j).trans (h1.disc j),
    fun j => (h2.seq j).trans (h1.seq j), fun j => (h2.light j).trans (h1.light j)⟩

/-- A transition of the entry that holds a TN. -/
theorem transited_transit (he : s.entry? t tn = some e) : Transited t tn f s (transit t tn cause f s) := by
  unfold transit
  rw [he]
  simp only
  refine Transited.report ?_ _
  by_cases h1 : (e.operating && !(f e).operating) = true
  · have h2 : ¬(!e.operating && (f e).operating) = true := by
      cases ho : e.operating <;> simp_all
    rw [if_pos h1, if_neg h2]
    exact Transited.of_off
  · rw [if_neg h1]
    split
    · exact transited_modEntry.air _ _
    · exact transited_modEntry

/-- The on-air set follows the entry out of OPERATING and into it (R38). -/
theorem onAir_transit (he : s.entry? t tn = some e) :
    ((transit t tn cause f s).tree t).onAir =
      if e.operating = true ∧ (f e).operating = false then (s.tree t).onAir.filter (· ≠ tn)
      else if e.operating = false ∧ (f e).operating = true then insertTn tn (s.tree t).onAir
      else (s.tree t).onAir := by
  unfold transit
  rw [he]
  cases h1 : e.operating <;> cases h2 : (f e).operating <;> simp [h1, h2, terminalOff, terminalOn, sendLink]

theorem mem_insertTn (tn x : Nat) (l : List Nat) : x ∈ insertTn tn l ↔ x = tn ∨ x ∈ l := by
  induction l with
  | nil => simp [insertTn]
  | cons y l ih =>
    unfold insertTn
    split
    · simp
    · split
      · next h => subst h; simp
      · simp [ih, or_left_comm]

/-! ### Going to RETIRING and to LOST, and being freed -/

/-- What an entry's own transition and calm work after it leave of every entry's identity. -/
structure Becomes (t : TreeId) (tn : Nat) (g : Entry → BitVec 16 × Serial × EntryState) (s s' : State) : Prop where
  self      : (s'.entry? t tn).map Entry.identity = (s.entry? t tn).map g
  other     : ∀ j k, (j ≠ t ∨ k ≠ tn) → (s'.entry? j k).map Entry.identity = (s.entry? j k).map Entry.identity
  insts     : ∀ j k, (s'.tree j).slotInst k = (s.tree j).slotInst k
  directory : s'.directory = s.directory
  timebase  : s'.timebase = s.timebase
  pending   : ∀ j, (s'.tree j).pendingList = (s.tree j).pendingList
  disc      : ∀ j, (s'.tree j).disc = (s.tree j).disc
  light     : ∀ j, (s'.tree j).light = (s.tree j).light
  ctl       : ∀ j, (s'.tree j).ctl = (s.tree j).ctl

theorem Transited.becomes {s' s'' : State} (h : Transited t tn f s s') (k : Calm s' s'') :
    Becomes t tn (fun e => (f e).identity) s s'' := by
  refine ⟨?_, fun j m hjm => ?_, fun j m => ((k.trees j).insts m).trans (h.insts j m), k.directory.trans h.directory,
    k.timebase.trans h.timebase, fun j => (k.trees j).pending.trans (h.pending j),
    fun j => (k.trees j).disc.trans (h.disc j), fun j => (k.trees j).light.trans (h.light j),
    fun j => (k.trees j).ctl.trans (h.ctl j)⟩
  · rw [k.identity, h.self, Option.map_map]
    rfl
  · rw [k.identity, h.other j m hjm]

/-- An entry goes to RETIRING with its instance and serial (R49). -/
theorem enterRetiring_becomes :
    Becomes t tn (fun e => (e.inst, e.serial, .retiring)) s (enterRetiring t tn cause s) := by
  unfold enterRetiring
  cases he : s.entry? t tn with
  | none =>
    exact ⟨by simp [he], fun _ _ _ => rfl, fun _ _ => rfl, rfl, rfl, fun _ => rfl, fun _ => rfl, fun _ => rfl,
      fun _ => rfl⟩
  | some e =>
    exact (transited_transit (f := Entry.toRetiring) he).becomes ((calm_withdrawn _ _).trans (calm_postMust _ _ _))

/-- An entry goes to LOST with its instance and serial and its lost hold set (R44). -/
theorem enterLost_becomes :
    Becomes t tn (fun e => (e.inst, e.serial, .lost (s.epoch + (s.params t).lostHold))) s (enterLost t tn cause s) := by
  unfold enterLost
  cases he : s.entry? t tn with
  | none =>
    exact ⟨by simp [he], fun _ _ _ => rfl, fun _ _ => rfl, rfl, rfl, fun _ => rfl, fun _ => rfl, fun _ => rfl,
      fun _ => rfl⟩
  | some e => exact (transited_transit (f := Entry.toLost _) he).becomes (calm_withdrawn _ _)

/-- A freed entry leaves its slot with the instance number kept and takes its directory item along; no other entry's identity
changes (R51). -/
theorem freeEntry_frees (he : s.entry? t tn = some e) :
    (freeEntry t tn cause s).entry? t tn = none ∧
      (∀ j k, (j ≠ t ∨ k ≠ tn) →
        ((freeEntry t tn cause s).entry? j k).map Entry.identity = (s.entry? j k).map Entry.identity) ∧
      (∀ j k, ((freeEntry t tn cause s).tree j).slotInst k = (s.tree j).slotInst k) ∧
      (freeEntry t tn cause s).directory = s.directory.filter fun d => d.serial ≠ e.serial := by
  have hi : ∃ i, slotIndex tn = some i := by
    cases h : slotIndex tn with
    | none => simp [State.entry?, Tree.entry?, h] at he
    | some i => exact ⟨i, rfl⟩
  obtain ⟨i, hi⟩ := hi
  unfold freeEntry
  rw [he]
  simp only
  generalize hr : State.report s t _ = r
  have hrt : ∀ j, r.tree j = s.tree j := fun j => by rw [← hr]; rfl
  have hrd : r.directory = s.directory := by rw [← hr]; rfl
  generalize hm : r.modTree t (fun T => T.setSlot tn { inst := T.slotInst tn, entry := none }) = m
  have hmt : ∀ j, m.tree j = if j = t then (s.tree t).setSlot tn { inst := (s.tree t).slotInst tn, entry := none } else s.tree j :=
    fun j => by rw [← hm, tree_modTree, hrt, hrt]
  have hmd : m.directory = s.directory := by rw [← hm]; exact hrd
  have hc := calm_withdrawn (s := { m with directory := m.directory.filter fun d => d.serial ≠ e.serial }) (t := t) tn e.inst
  have hn : ({ m with directory := m.directory.filter fun d => d.serial ≠ e.serial } : State).entry? t tn = none := by
    show (m.tree t).entry? tn = none
    rw [hmt, if_pos rfl, entry?_setSlot_same _ _ _ hi]
  refine ⟨?_, fun j k hjk => ?_, fun j k => ?_, ?_⟩
  · have := hc.isSome t tn
    rw [hn] at this
    simpa using this
  · rw [hc.identity]
    show ((m.tree j).entry? k).map Entry.identity = _
    rw [hmt]
    split
    · next hj =>
      subst hj
      have hk : k ≠ tn := by simpa using hjk
      rw [entry?_setSlot_other _ _ _ _ hk]
      rfl
    · rfl
  · rw [(hc.trees j).insts k]
    show (m.tree j).slotInst k = _
    rw [hmt]
    split
    · next hj =>
      subst hj
      unfold Tree.setSlot Tree.slotInst
      rw [hi]
      cases hk : slotIndex k with
      | none => rfl
      | some q =>
        simp only [Fin.getElem_fin, Vector.getElem_set]
        split
        · next hq => simp [hq]
        · rfl
    · rfl
  · rw [hc.directory]
    simp [hmd]

end

end Sys2Proof.Machine
end

