-- ==== Sys2Proof/Laws/Updates.lean ====
section
/-! SUPPORT. One lemma for each field under the updates that Safety.lean names for the claims: a report entered, a delivery
taken, a queue replaced, an item handed over, a probe's message gone; and what the claims read of the notices. -/

namespace Sys2Proof.Machine

variable (s : State) (t j : TreeId)

/-! ### A report entered, a delivery taken -/

@[simp] theorem tree_entering (p : Poster) (b : ReportBody) : (s.entering p b).tree j = s.tree j := rfl
@[simp] theorem epoch_entering (p : Poster) (b : ReportBody) : (s.entering p b).epoch = s.epoch := rfl
@[simp] theorem directory_entering (p : Poster) (b : ReportBody) : (s.entering p b).directory = s.directory := rfl
@[simp] theorem due_entering (p : Poster) (b : ReportBody) : (s.entering p b).due = s.due := rfl
@[simp] theorem tree_taken (a : EpochAction) : (s.taken a).tree j = s.tree j := rfl
@[simp] theorem epoch_taken (a : EpochAction) : (s.taken a).epoch = s.epoch := rfl
@[simp] theorem port_taken (a : EpochAction) : (s.taken a).port = s.port := rfl
@[simp] theorem due_taken (a : EpochAction) : (s.taken a).due = s.due.erase a := rfl

/-! ### The downstream queue -/

@[simp] theorem tree_withItems_same (l : List Item) :
    (s.withItems t l).tree t = { s.tree t with msgq := { (s.tree t).msgq with items := l } } := by
  simp [State.withItems]

@[simp] theorem tree_withItems_other (l : List Item) (h : j ≠ t) : (s.withItems t l).tree j = s.tree j := by
  simp [State.withItems, State.modMsgq, h]

@[simp] theorem epoch_withItems (l : List Item) : (s.withItems t l).epoch = s.epoch := rfl
@[simp] theorem port_withItems (l : List Item) : (s.withItems t l).port = s.port := rfl

@[simp] theorem items_handedOver (it : Item) (rest : List Item) :
    ((s.handedOver t it rest).tree t).msgq.items = rest := by simp [State.handedOver]

@[simp] theorem slots_handedOver (it : Item) (rest : List Item) :
    ((s.handedOver t it rest).tree t).out.slots = (s.tree t).out.slots ++ [(s.epoch, it.msg.encode)] := by
  simp [State.handedOver]

@[simp] theorem countEpoch_handedOver (it : Item) (rest : List Item) :
    ((s.handedOver t it rest).tree t).msgq.countEpoch = s.epoch := by simp [State.handedOver]

@[simp] theorem tree_handedOver_other (it : Item) (rest : List Item) (h : j ≠ t) :
    (s.handedOver t it rest).tree j = s.tree j := by simp [State.handedOver, h]

@[simp] theorem entry?_handedOver (it : Item) (rest : List Item) (tn : Nat) :
    (s.handedOver t it rest).entry? t tn = s.entry? t tn := by
  simp [State.handedOver, State.entry?, Tree.entry?]

@[simp] theorem epoch_handedOver (it : Item) (rest : List Item) : (s.handedOver t it rest).epoch = s.epoch := rfl
@[simp] theorem port_handedOver (it : Item) (rest : List Item) : (s.handedOver t it rest).port = s.port := rfl

/-! ### A probe's message gone -/

@[simp] theorem entry?_withItems (l : List Item) (tn : Nat) : (s.withItems t l).entry? t tn = s.entry? t tn := by
  simp [State.withItems, State.entry?, Tree.entry?]

@[simp] theorem entry?_probeGone (tn k : Nat) (inst : BitVec 16) : (s.probeGone t tn inst).entry? t k = s.entry? t k := by
  simp [State.probeGone]

@[simp] theorem tree_probeGone_other (tn : Nat) (inst : BitVec 16) (h : j ≠ t) :
    (s.probeGone t tn inst).tree j = s.tree j := by simp [State.probeGone, h]

/-- An entry without a POSTED operation has no message to withdraw. -/
theorem items_probeGone_of_not_posted (tn : Nat) (inst : BitVec 16) (h : (s.tree t).probePosted tn inst = false) :
    ((s.probeGone t tn inst).tree t).msgq.items = (s.tree t).msgq.items := by
  simp [State.probeGone, Tree.itemsKept, h]

/-! ### What is posted, and the notices -/

theorem PostedAs_refl : s.PostedAs s t := ⟨rfl, fun _ => rfl⟩

theorem PostedAs_trans {s q r : State} (h : s.PostedAs q t) (g : q.PostedAs r t) : s.PostedAs r t :=
  ⟨h.1.trans g.1, fun tn => (h.2 tn).trans (g.2 tn)⟩

@[simp] theorem announced_nil : announced [] = [] := rfl

@[simp] theorem announced_concat (sent : List GrantMsg) (m : GrantMsg) :
    announced (sent ++ [m]) = m.announce (announced sent) := by simp [announced]

end Sys2Proof.Machine
end

