-- ==== Sys2Proof/Tests/Slice0.lean ====
section
/-! SUPPORT. The model's own tests: the checks of WellFormed, frames written out byte by byte, single steps against the
manual's worked figures, and, for each statement with hypotheses, a state and operands that meet them. -/

namespace Sys2Proof.Tests

open Machine

/-! ### WellFormed refuses an ill-formed term for each of its checks -/

theorem test_wellFormed_payload_too_long :
    (Instr.quietIntervalBurst 0 .window 0 .clean (List.replicate 65 0)).wellFormed = false := by decide

theorem test_wellFormed_payload_longest :
    (Instr.quietIntervalBurst 0 .window 0 .clean (List.replicate 64 0)).wellFormed = true := by decide

theorem test_wellFormed_garbled_with_payload :
    (Instr.quietIntervalBurst 0 .probe 0 .garbled [0x62]).wellFormed = false := by decide

theorem test_wellFormed_delivery_twice :
    (Instr.epochMarker 0 [.spacingEnd 0, .spacingEnd 0]).wellFormed = false := by decide

/-! ### Frames written out from R186 and R194 -/

theorem test_decode_identify : decodeFrame [0xA5, 0x01, 0x2A, 0x00] = .identify 0x2A := by decide

theorem test_decode_partSetup_keepNewest : decodeFrame [0xA5, 0x02, 0x05, 0x02, 0x02, 0x10] = .partSetup 5 (some (2, 16)) := by
  decide

theorem test_decode_admit :
    decodeFrame [0xA5, 0x20, 0x07, 0x09, 0x02, 0x4A, 0x52, 0x44, 0x4D, 0x00, 0x00, 0x12, 0x67] =
      .admitSerial 7 2 ⟨0x4A52444D, 4711⟩ := by decide

theorem test_decode_barWrite :
    decodeFrame
        [0xA5, 0x08, 0x01, 0x0E, 0x03, 0x01, 0x4A, 0x52, 0x44, 0x4D, 0x00, 0x00, 0x00, 0x10, 0x00, 0x00, 0x00, 0xFF] =
      .barWrite 1 3 ⟨1, 0x4A52444D, 16, 255⟩ := by decide

theorem test_decode_muteTn : decodeFrame [0xA5, 0x24, 0x00, 0x02, 0x01, 0x78] = .muteTn 0 1 120 := by decide

theorem test_decode_read : decodeFrame [0x0F, 0x00, 0x00] = .readTransaction 2 := by decide

theorem test_decode_wrong_length : decodeFrame [0xA5, 0x24, 0x00, 0x03, 0x01, 0x78] = .malformedFrame := by decide

theorem test_decode_unknown_kind : decodeFrame [0xA5, 0x0A, 0x00, 0x00] = .malformedFrame := by decide

/-! ### Small states -/

/-- The reference tree of R176, with k 2, N 16, Win 8, Wout 200 and Wgross 4,000. -/
def refParams : RawParams :=
  { art := 1400000, frtMin := 250000, frtMax := 1250000, arMin := 85000, arSpread := 2000, bla := 512, u := 64, k := 2
    n := 16, win := 8, wout := 200, wgross := 4000, missLimit := 12, lostHold := 3000, budget := 400, askHold := 100
    probeRetries := 2, probeWait := 64, sweepPeriod := 0, batch := 2, strikeLimit := 3, silenceLen := 20000
    huntPause := 64, calSpread := 16, queueMode := 1, defRn := 87500, defRtol := 500, defLa := 1, defBp := 256
    defPre := 2 }

/-- The timebase RUNNING at the start of epoch 10, every delivery of it standing. -/
def base : State :=
  { State.reset with timebase := { status := .running, count := 100000000, slipCount := 0 }, due := allDeliveries }

/-- A tree opened with the reference parameters, its light condition QUIET. -/
def opened (T : Tree) : Tree :=
  { T with
    ctl := { state := .active, configured := true, params := paramsOf refParams, p := 3000, suspended := false }
    light := { T.light with light := .quiet } }

/-- `base` with tree 1 opened and changed. -/
def on (f : Tree → Tree) : State := base.modTree 1 fun T => f (opened T)

/-- The profile of the reference terminals. -/
def prof : Profile :=
  { rn := ⟨87500, .default⟩, rtol := ⟨500, .default⟩, la := ⟨1, .default⟩, bp := ⟨256, .default⟩, pre := ⟨2, .default⟩ }

/-- An entry in a state. -/
def entry (st : EntryState) : Entry :=
  { inst := 7, state := st, serial := ⟨0x4A52444D, 4711⟩, model := 1, profile := prof, c := 1017508
    rrt := some 16280052, ld := 382497, r := some (-4), ever := true, attempts := none, waiting := false, owed := none
    resend := false }

/-- An entry in a slot of its instance. -/
def slotOf (e : Entry) : Slot := { inst := e.inst, entry := some e }

/-- Tree 1 with an entry in TN 9. -/
def holding (e : Entry) (T : Tree) : Tree := T.setSlot 9 (slotOf e)

theorem base_taking : base.Taking := ⟨rfl, by decide⟩

theorem taking (f : Tree → Tree) : (on f).Taking := ⟨rfl, base_taking.entered⟩

theorem reset_taking : State.reset.Taking := ⟨rfl, by decide⟩

theorem due (f : Tree → Tree) (a : EpochAction) (h : a ∈ allDeliveries) : a ∈ (on f).due := h

theorem opened_entry? (tn : Nat) : (opened (base.tree 1)).entry? tn = none := by
  have h : ∀ i : Fin 120, (base.tree 1).slots[i] = Slot.reset := by decide
  unfold Tree.entry?
  split
  · next i _ => exact congrArg Slot.entry (h i)
  · rfl

/-- With one entry in the table, what holds of it holds of every entry. -/
theorem holding_all {e : Entry} {P : Entry → Prop} (h : P e) (tn : Nat) (x : Entry)
    (hx : (holding e (opened (base.tree 1))).entry? tn = some x) : P x := by
  by_cases ht : tn = 9
  · subst ht
    rw [holding, entry?_setSlot_same _ 9 _ (i := 8) (by decide)] at hx
    cases hx
    exact h
  · rw [holding, entry?_setSlot_other _ _ _ _ ht, opened_entry?] at hx
    cases hx

/-- With one entry in the table, every entry is that of TN 9. -/
theorem holding_only {e : Entry} (tn : Nat) (x : Entry) (hx : (holding e (opened (base.tree 1))).entry? tn = some x) :
    tn = 9 := by
  by_contra ht
  rw [holding, entry?_setSlot_other _ _ _ _ ht, opened_entry?] at hx
  cases hx

/-! ### Single steps -/

/-- The next state of a command, or the state itself. -/
def after (c : Instr) (s : State) : State :=
  match exec c s with
  | .next s' => s'
  | _ => s

theorem test_marker_starts : (after (.epochMarker 123 []) State.reset).timebase.status = .running := by decide

/-- R1: floor(count/16); the count 100,000,000 of epoch 10 is 6,250,000 bt. -/
theorem test_btTime : (base.timebase.count, base.btTime) = (100000000, 6250000) := by decide

theorem test_marker_late_half_realigns_back : (after (.epochMarker 4999999 []) base).epoch = 10 := by decide

theorem test_marker_raises_slip_count : (after (.epochMarker 1 []) base).timebase.slipCount = 1 := by decide

theorem test_epochStart : ({ base with due := [] }.epoch, (after .epochStart { base with due := [] }).epoch) = (10, 11) := by
  decide

/-- R100's worked figures: RRT 16,280,052 sx with ART 1,400,000 gives LD 382,497 and r -4. -/
theorem test_measure_reference :
    measure (paramsOf refParams) prof 16280052 = .value 16280052 382497 (-4) := by decide

/-- R98's examples. -/
theorem test_rounding : (roundBt (-5), roundBt 8, average 2 (-46), average 2 46) = (0, 1, -11, 12) := by decide

/-- R102's worst cases on the reference tree. -/
theorem test_correction_extremes : ((correct 100 (-8) 200).change, (correct 100 7 (-200)).change) = (-13, 13) := by decide

theorem test_refParams_accepted : failingParam refParams = none := by decide

/-- Wout 249 is above 16·16 - 8, so field 11 fails. -/
theorem test_wout_bound : failingParam { refParams with wout := 249 } = some 11 := by decide

/-- An ART of 1,337,000 is the least the cross-check of the reference tree accepts. -/
theorem test_art_cross_check :
    (failingParam { refParams with art := 1337000 }, failingParam { refParams with art := 1336999 }) = (none, some 1) := by
  decide

theorem test_loop_sixteen_samples_give_p :
    pathOffset [2998, 3002, 2998, 3002, 2998, 3002, 2998, 3002, 2998, 3002, 2998, 3002, 2998, 3002, 2998, 3002] = 3000 := by
  decide

theorem test_identify :
    (after (.identify 9) base).port.holder = some { tag := 9, code := .ok, body := [0x62, 0x10, 3, 0, 0] } := by decide

theorem test_treeOpen_waiting_refused :
    ((after (.treeOpen 1 0) State.reset).port.holder.map Reply.code) = some .wrongState := by decide

theorem test_catWrite_locked_strap_low :
    ((after (.catWrite 1 0 ⟨1, 1, 1, 0, 0, 0, 0, 64, 0⟩) (after (.catLock 1) base)).port.holder.map Reply.code) =
      some .locked := by decide

theorem test_muteTn_takes_off_air :
    (after (.muteTn 1 1 9) (on fun T => { holding (entry (.operating (Drift.fresh 0))) T with onAir := [3, 9] })
      |>.tree 1).onAir = [3] := by decide

theorem test_miss_reaches_limit :
    ((after (.miss 1 9 0) (on (holding (entry (.operating { Drift.fresh 0 with misses := 11 }))))).entry? 1 9).map
      (fun e => e.state) = some (.lost 3010) := by decide

theorem test_readTransaction_empty_holder :
    (after (.readTransaction 6) base).port.miso = .frame [0, 0, 0, 0, 0, 0] := by decide

/-- A serial of R24's ASSIGN, byte for byte. -/
theorem test_encode_assign :
    (Message.assign 2 ⟨0x4A52444D, 4711⟩).encode = [0x42, 0x02, 0x4A, 0x52, 0x44, 0x4D, 0x00, 0x00, 0x12, 0x67] := by decide

theorem test_encode_nudge_negative : (Message.nudge 3 (-1)).encode = [0x45, 0x03, 0xFF] := by decide

/-- A capability record that declares nothing: sync bytes, an empty mask, and the byte that makes the sum 0 (R22). -/
theorem test_capability_empty : validCapability [0x5A, 0xC3, 0x00, 0xE3] = true := by decide

/-! ### A state and operands that meet the hypotheses of each statement -/

/-- A quiet tree 1 for statements about one step of a state that meets a law: an IDENTIFY waits. -/
def waiting : State := { base with pending := [.identify 0] }

theorem witness_step : ∃ s', step waiting = .next s' := ⟨_, rfl⟩

theorem closed_entry? (t : TreeId) (tn : Nat) : (base.tree t).entry? tn = none := by
  have h : ∀ (t : TreeId) (i : Fin 120), (base.tree t).slots[i].entry = none := by decide
  unfold Tree.entry?
  split
  · next i _ => exact h t i
  · rfl

theorem witness_PortLawKept : waiting.PortLawful := ⟨by decide, by decide, by decide, by decide, by decide⟩

theorem witness_TaskLawKept : waiting.TasksLawful := fun t =>
  ⟨by revert t; decide, by revert t; decide, by revert t; decide, fun tn e h => by
    rw [show (waiting.tree t).entry? tn = none from closed_entry? t tn] at h; cases h⟩

theorem witness_EntryLawsKept_residuals : waiting.ResidualsLawful := fun t tn e _ h => by
  rw [show (waiting.tree t).entry? tn = none from closed_entry? t tn] at h; cases h

theorem witness_CapacitiesKept : waiting.Fits := fun t =>
  ⟨by revert t; decide, by revert t; decide, by revert t; decide, by revert t; decide, by revert t; decide,
    by revert t; decide, by revert t; decide⟩

theorem witness_DirectoryLawKept : waiting.DirectoryLawful :=
  ⟨by decide, fun d h => by simp [waiting, base, State.reset] at h, fun t tn e h => by
    rw [show waiting.entry? t tn = none from closed_entry? t tn] at h; cases h⟩

theorem witness_ClosedLawKept : waiting.ClosedLawful := fun t => by
  have hs : (waiting.tree t).ctl.state = .closed := by revert t; decide
  have hn : ∀ tn, (waiting.tree t).entry? tn = none := closed_entry? t
  refine ⟨⟨?_, ?_, ?_⟩, fun tn e o h => by simp [hn] at h, ?_⟩
  · intro h; exact absurd h (by clear h hn hs; revert t; decide)
  · intro h; exact absurd h (by clear h hn hs; revert t; decide)
  · intro h; exact absurd h (by clear h hn hs; revert t; decide)
  · rw [hs]
    exact ⟨⟨by clear hn hs; revert t; decide, by clear hn hs; revert t; decide, by clear hn hs; revert t; decide,
      fun tn e h => by simp [hn] at h,
      by clear hn hs; revert t; decide, by clear hn hs; revert t; decide, fun tag => by clear hn hs; cases tag <;> (revert t; decide)⟩,
      ⟨hn, by clear hn hs; revert t; decide, by clear hn hs; revert t; decide⟩,
      .inl ⟨by clear hn hs; revert t; decide, by clear hn hs; revert t; decide⟩⟩

/-- Tree 1 with the entry of TN 9 OPERATING, its TERMINAL_ON sent. -/
def onAir (T : Tree) : Tree :=
  { holding (entry (.operating (Drift.fresh 10))) T with
    onAir := [9], out := { T.out with grant := T.out.grant ++ [.terminalOn 9 2 256] } }

theorem onAir_tree (t : TreeId) : (on onAir).tree t = if t = 1 then onAir (opened (base.tree 1)) else waiting.tree t := by
  fin_cases t <;> rfl

theorem witness_EntryLawsKept : (on onAir).ClosedLawful ∧ (on onAir).EntriesLawful := by
  have he : ∀ tn e, (onAir (opened (base.tree 1))).entry? tn = some e → tn = 9 ∧ e = entry (.operating (Drift.fresh 10)) :=
    fun tn e h => ⟨holding_only tn e h, holding_all (P := fun y => y = entry (.operating (Drift.fresh 10))) rfl tn e h⟩
  refine ⟨fun t => ?_, fun t => ?_⟩ <;> rw [onAir_tree] <;> split
  · refine ⟨⟨fun h => absurd h (by decide), fun h => absurd h (by decide), fun h => absurd h (by decide)⟩, fun tn e o h ho => ?_,
      rfl⟩
    rw [(he tn e h).2] at ho
    cases ho
  · exact witness_ClosedLawKept t
  · refine ⟨by decide, by decide, fun tn => ⟨fun h => ?_, fun ⟨e, h, _⟩ => ?_⟩, fun tn e h => ?_, fun tn e d h hd => ?_⟩
    · rw [List.mem_singleton.1 h]; exact ⟨entry (.operating (Drift.fresh 10)), by decide, rfl⟩
    · rw [(he tn e h).1]; exact List.mem_singleton.2 rfl
    · rw [(he tn e h).2]; decide
    · rw [(he tn e h).2] at hd; cases hd; decide
  · have hn : ∀ tn, (waiting.tree t).entry? tn = none := closed_entry? t
    have ha : (waiting.tree t).onAir = [] ∧ announced (waiting.tree t).out.grant = [] := by clear hn; revert t; decide
    exact ⟨by rw [ha.1, ha.2], by rw [ha.1]; exact .nil, fun tn => by simp [ha.1, hn], fun tn e h => by simp [hn] at h,
      fun tn e d h => by simp [hn] at h⟩

theorem witness_FrameRoundTrip :
    encodeFrame (.treeConfig 1 3 refParams) = some (requestFrame 0x10 1 (3 :: paramsBytes refParams)) := rfl

theorem witness_NothingTakenInReset :
    { base with resetPin := true }.resetPin = true ∧ (Instr.slotCall 0).alwaysTaken = false := ⟨rfl, rfl⟩

theorem witness_OtherTreesUntouched :
    (Instr.treeClose 0 3).onlyTree = some 3 ∧ (∃ s', exec (.treeClose 0 3) base = .next s') ∧ (0 : TreeId) ≠ 3 :=
  ⟨by decide, ⟨_, rfl⟩, by decide⟩

theorem witness_PartWideFrame :
    (∃ s', exec (.identify 0) base = .next s') ∧ (Instr.identify 0).resets = false ∧
      (Instr.identify 0).setsTimebase = false ∧ (Instr.identify 0).writesAdmission = false ∧
      (Instr.identify 0).movesPin = false ∧ (Instr.identify 0).writesParams = false :=
  ⟨⟨_, rfl⟩, rfl, rfl, rfl, rfl, rfl⟩

theorem witness_ResetsSetTheBlocks : base.resetPin = false := rfl

theorem witness_MarkersRealign :
    base.Taking ∧ base.timebase.status = .running ∧ 0 < (1 : Fin 10000000).val ∧ 10000000 * (base.epoch + 1) < 2 ^ 64 :=
  ⟨base_taking, rfl, by decide, by decide⟩

theorem witness_MarkersRealign_report :
    (1 : Fin 10000000).val < 5000000 ∧ base.port.queue.length ≤ 59 ∧ ¬ (9999999 : Fin 10000000).val < 5000000 ∧
      { base with due := [] }.due = [] := ⟨by decide, by decide, by decide, rfl⟩

/-- A marker 1 sx late: offset 1, correction -1, slip count 1 (R6). -/
theorem test_slip_report :
    (after (.epochMarker 1 []) base).port.queue.map Record.body = [.timeSlip 100000001 1 (-1) 1] := by decide

theorem witness_TimebaseRuns_waiting : State.reset.Taking ∧ State.reset.timebase.status = .waiting := ⟨reset_taking, rfl⟩

theorem witness_TimebaseRuns_running :
    { base with due := [] }.Taking ∧ base.timebase.status = .running ∧ 10000000 * (base.epoch + 1) < 2 ^ 64 ∧
      { base with due := [] }.due = [] := ⟨⟨rfl, base_taking.entered⟩, rfl, by decide, rfl⟩

theorem witness_DeliveriesTakenOnce :
    base.Taking ∧ EpochAction.resendEpoch 3 .silence ∈ base.due ∧
      EpochAction.resendEpoch 3 .silence ∉ { base with due := [] }.due := ⟨base_taking, by decide, by decide⟩

theorem witness_ActivationDeadlinesRetire :
    (on (holding (entry (.ranging 10)))).Taking ∧
      EpochAction.activationDeadline 1 ∈ (on (holding (entry (.ranging 10)))).due := ⟨taking _, due _ _ (by decide)⟩

theorem witness_LostHoldsFree :
    (on (holding (entry (.lost 10)))).Taking ∧ EpochAction.lostHoldDeadline 1 ∈ (on (holding (entry (.lost 10)))).due :=
  ⟨taking _, due _ _ (by decide)⟩

theorem witness_PendingHoldsEnd : (on id).Taking ∧ EpochAction.pendingHoldDeadline 1 ∈ (on id).due :=
  ⟨taking _, due _ _ (by decide)⟩

/-- The context of the manual's reference discovery. -/
def ctx : Context := { dspan := 4096, mode := .openMode, repeats := 2, spacing := 40 }

/-- Tree 1 with a Discovery Unit in a state, one context queued. -/
def discovering (d : DiscState) (T : Tree) : Tree :=
  { T with disc := { T.disc with contexts := [⟨ctx, false⟩], state := d } }

theorem witness_SpacingEndsInDue_due :
    (on fun T => { discovering (.spacing 10) T with light := LightMonitor.reset }).Taking ∧
      EpochAction.spacingEnd 1 ∈ (on fun T => { discovering (.spacing 10) T with light := LightMonitor.reset }).due ∧
      ((on fun T => { discovering (.spacing 10) T with light := LightMonitor.reset }).tree 1).disc.state = .spacing 10 ∧
      ((on fun T => { discovering (.spacing 10) T with light := LightMonitor.reset }).tree 1).gateOpen = false ∧
      (on fun T => { discovering (.spacing 10) T with light := LightMonitor.reset }).epoch = 10 :=
  ⟨taking _, due _ _ (by decide), by decide, by decide, by decide⟩

theorem witness_SpacingEndsInDue_starts :
    ((on (discovering (.spacing 10))).tree 1).disc.state = .spacing (on (discovering (.spacing 10))).epoch ∧
      ((on (discovering (.spacing 10))).tree 1).gateOpen = true ∧
      cycleQueue ((on (discovering (.spacing 10))).params 1).queueMode
        ((on (discovering (.spacing 10))).tree 1).disc.contexts = [⟨ctx, false⟩] := ⟨by decide, by decide, by decide⟩

theorem witness_SpacingEndsInDue_other :
    ((on (discovering (.spacing 11))).tree 1).disc.state ≠ .spacing (on (discovering (.spacing 11))).epoch := by decide

/-- A probe operation for the entry of TN 9. -/
def probing (stage : Stage) (expected : Expected) (phase : OpPhase) (waitStart : Nat) : ProbeOp :=
  { tn := 9, inst := 7, serial := ⟨0x4A52444D, 4711⟩, kind := .range, expected := expected, stage := stage, phase := phase
    waitStart := waitStart }

/-- Tree 1 with an entry in TN 9 and a probe operation for it. -/
def probed (e : Entry) (o : ProbeOp) (T : Tree) : Tree := { holding e T with seq := { T.seq with op := some o } }

/-- ProbeWait is 64 epochs, so a wait that begins in epoch 2^64 - 54 of no run would end in epoch 10; the witness shortens it. -/
def shortWait (T : Tree) : Tree := { T with ctl := { T.ctl with params := { T.ctl.params with probeWait := 8 } } }

theorem witness_ProbeWaitGivesUp_expired :
    (on fun T => shortWait (probed (entry (.ranging 300)) (probing .measure .ranging .held 2) T)).Taking ∧
      EpochAction.probeWaitExpiry 1 ∈
        (on fun T => shortWait (probed (entry (.ranging 300)) (probing .measure .ranging .held 2) T)).due ∧
      ((on fun T => shortWait (probed (entry (.ranging 300)) (probing .measure .ranging .held 2) T)).tree 1).seq.op =
        some (probing .measure .ranging .held 2) ∧
      (probing .measure .ranging .held 2).waiting = true ∧ 2 + 8 = 10 ∧
      (on fun T => shortWait (probed (entry (.ranging 300)) (probing .measure .ranging .held 2) T)).entry? 1 9 =
        some (entry (.ranging 300)) ∧
      (entry (.ranging 300)).isIn 7 .ranging = true :=
  ⟨taking _, due _ _ (by decide), by decide, by decide, by decide, by decide, by decide⟩

theorem witness_ProbeWaitGivesUp_not_waiting : (probing .measure .ranging .waitDelay 2).waiting = false := by decide

/-- Tree 1 with an entry in TN 9 at its sweep epoch, suspended. -/
def sweeping (T : Tree) : Tree :=
  { holding (entry (.operating (Drift.fresh 0))) T with
    ctl := { T.ctl with suspended := true }, seq := { T.seq with nextSweep := some 10 } }

theorem sweeping_waits (tn : Nat) (e : Entry) (h : (on sweeping).entry? 1 tn = some e) : e.waiting = false :=
  holding_all (e := entry (.operating (Drift.fresh 0))) (P := fun e => e.waiting = false) rfl tn e h

theorem witness_SweepsQueueAudits :
    (on sweeping).Taking ∧ EpochAction.auditSweep 1 ∈ (on sweeping).due ∧
      ((on sweeping).tree 1).seq.nextSweep = some (on sweeping).epoch ∧ ((on sweeping).tree 1).isClosing = false ∧
      ((on sweeping).tree 1).gateOpen = false ∧ (∀ tn e, (on sweeping).entry? 1 tn = some e → e.waiting = false) ∧
      ((on sweeping).tree 1).seq.tasks.length + ((on sweeping).params 1).batch ≤ 16 ∧
      ((sweepOrder ((on sweeping).tree 1).seq.sweepPtr).filterMap fun tn =>
          (((on sweeping).tree 1).sweepable tn).map fun e => (tn, e.inst)).take ((on sweeping).params 1).batch = [(9, 7)] :=
  ⟨taking _, due _ _ (by decide), by decide, by decide, by decide, sweeping_waits, by decide, by decide⟩

theorem witness_SweepsQueueAudits_other : ((on id).tree 1).seq.nextSweep ≠ some (on id).epoch := by decide

theorem witness_HeldOperationsGoOn :
    (on (probed (entry (.ranging 300)) (probing .measure .ranging .held 2))).Taking ∧
      EpochAction.heldRecheck 1 ∈ (on (probed (entry (.ranging 300)) (probing .measure .ranging .held 2))).due ∧
      ((on (probed (entry (.ranging 300)) (probing .measure .ranging .held 2))).tree 1).seq.op =
        some (probing .measure .ranging .held 2) ∧
      (on (probed (entry (.ranging 300)) (probing .measure .ranging .held 2))).entry? 1 9 = some (entry (.ranging 300)) ∧
      (entry (.ranging 300)).rrt ≠ none ∧
      ((on (probed (entry (.ranging 300)) (probing .measure .ranging .held 2))).tree 1).delayStands 9
        (entry (.ranging 300)) = false :=
  ⟨taking _, due _ _ (by decide), by decide, by decide, by decide, by decide⟩

theorem witness_HeldOperationsGoOn_none : ((on id).tree 1).seq.op = none := by decide

/-- A request record of the reference tree. -/
def request : Request := { kind := .quiet, length := 897, earliest := 9000000 }

/-- Tree 1 with a channel in a phase, its request number 5. -/
def channel (tag : Tag) (ph : ChannelPhase) (T : Tree) : Tree := T.setChan tag { phase := ph, number := 5 }

theorem witness_UnansweredRequestsBackOff :
    (on (channel .probe (.awaiting request 10))).Taking ∧
      EpochAction.responseDeadline 1 .probe ∈ (on (channel .probe (.awaiting request 10))).due ∧
      ((on (channel .probe (.awaiting request 10))).chan 1 .probe) = { phase := .awaiting request 10, number := 5 } ∧
      (on (channel .probe (.awaiting request 10))).epoch = 10 :=
  ⟨taking _, due _ _ (by decide), by decide, by decide⟩

theorem witness_UnansweredRequestsBackOff_other (req : Request) (d : Nat) :
    ((on id).chan 1 .probe).phase ≠ .awaiting req d := by
  rw [show ((on id).chan 1 .probe).phase = .idle by decide]; simp

theorem witness_RequestsSentAgain_defer :
    ((on (channel .silence (.awaiting request 18))).chan 1 .silence) =
      { phase := .awaiting request 18, number := 5 } := by decide

theorem witness_RequestsSentAgain_resend :
    (on (channel .window (.deferred request 10))).Taking ∧
      EpochAction.resendEpoch 1 .window ∈ (on (channel .window (.deferred request 10))).due ∧
      ((on (channel .window (.deferred request 10))).chan 1 .window).phase = .deferred request 10 :=
  ⟨taking _, due _ _ (by decide), by decide⟩

theorem witness_RequestsSentAgain_other (req : Request) (e : Nat) :
    ((on id).chan 1 .window).phase ≠ .deferred req e ∧ ((on id).chan 1 .window).phase ≠ .backingOff req e := by
  rw [show ((on id).chan 1 .window).phase = .idle by decide]; simp

theorem witness_ChannelOperations :
    ((on (channel .probe (.backingOff request 14))).chan 1 .probe).phase.outstanding = true ∧
      ((on (channel .probe (.granted 5 9000000))).chan 1 .probe).phase = .granted 5 9000000 ∧
      ((on id).chan 1 .probe).phase.outstanding = false := ⟨by decide, by decide, by decide⟩

/-- A hunt whose current candidate is the entry of TN 9, the last one. -/
def hunt (step : HuntStep) : Hunt :=
  { candidates := [⟨9, 7⟩], rest := [], current := ⟨9, 7⟩, step := step, checked := 0, skipped := 0 }

/-- The entry of TN 9 OPERATING since before epoch 10. -/
def running (d : Drift) : Tree → Tree := holding (entry (.operating d))

/-- A hunt whose candidate of TN 120 is followed by one that has gone and by the entry of TN 9. -/
def huntLeft (step : HuntStep) : Hunt :=
  { candidates := [⟨120, 7⟩, ⟨3, 7⟩, ⟨9, 7⟩], rest := [⟨3, 7⟩, ⟨9, 7⟩], current := ⟨120, 7⟩, step := step, checked := 0
    skipped := 0 }

theorem witness_SilenceChecksSent_next :
    (on fun T => { T with light := { T.light with nextCheck := some 10, pause := true } }).Taking ∧
      EpochAction.nextCheckEpoch 1 ∈ (on fun T => { T with light := { T.light with nextCheck := some 10, pause := true } }).due :=
  ⟨taking _, due _ _ (by decide)⟩

theorem witness_SilenceChecksSent_hunt :
    (on fun T => { T with light := { T.light with hunt := some (hunt (.settling 10)) } }).Taking ∧
      EpochAction.huntCheckEpoch 1 ∈
        (on fun T => { T with light := { T.light with hunt := some (hunt (.settling 10)) } }).due ∧
      ((on fun T => { T with light := { T.light with hunt := some (hunt (.settling 10)) } }).tree 1).light.hunt =
        some (hunt (.settling 10)) ∧
      ((on id).tree 1).light.hunt = none := ⟨taking _, due _ _ (by decide), by decide, by decide⟩

/-- A calibration run that has placed markers and taken records. -/
def run (run start : Nat) (markers : List Nat) (pis : List Int) : CalRun :=
  { run := run, start := start, markers := markers, pis := pis, restarts := 0, first := none }

/-- Tree 1 with a calibration run. -/
def calibrating (r : CalRun) (T : Tree) : Tree := { T with ctl := { T.ctl with state := .calibrating r } }

theorem witness_LoopMarkersPlaced_placed :
    (on (calibrating (run 1 10 [] []))).Taking ∧
      EpochAction.loopMarkerEpoch 1 ∈ (on (calibrating (run 1 10 [] []))).due ∧
      ((on (calibrating (run 1 10 [] []))).tree 1).ctl.state = .calibrating (run 1 10 [] []) ∧
      (((run 1 10 [] []).markers.drop (run 1 10 [] []).pis.length).all fun m => m + 4 ≠ 10) = true ∧
      (on (calibrating (run 1 10 [] []))).epoch = 10 := ⟨taking _, due _ _ (by decide), by decide, by decide, by decide⟩

theorem witness_LoopMarkersPlaced_missing :
    ((on (calibrating (run 1 5 [5, 6, 7] [3000]))).tree 1).ctl.state = .calibrating (run 1 5 [5, 6, 7] [3000]) ∧
      6 ∈ (run 1 5 [5, 6, 7] [3000]).markers.drop (run 1 5 [5, 6, 7] [3000]).pis.length ∧
      6 + 4 = (on (calibrating (run 1 5 [5, 6, 7] [3000]))).epoch ∧ (run 1 5 [5, 6, 7] [3000]).run = 1 :=
  ⟨by decide, by decide, by decide, by decide⟩

/-- Tree 1 in its second run with no window, as a CALIBRATING tree is. -/
theorem witness_LoopMarkersPlaced_fails :
    ((on (calibrating (run 2 5 [5, 6, 7] [3000]))).tree 1).ctl.state = .calibrating (run 2 5 [5, 6, 7] [3000]) ∧
      6 ∈ (run 2 5 [5, 6, 7] [3000]).markers.drop (run 2 5 [5, 6, 7] [3000]).pis.length ∧
      6 + 4 = (on (calibrating (run 2 5 [5, 6, 7] [3000]))).epoch ∧ (run 2 5 [5, 6, 7] [3000]).run = 2 ∧
      ((on (calibrating (run 2 5 [5, 6, 7] [3000]))).tree 1).disc.state = .stopped :=
  ⟨by decide, by decide, by decide, by decide, by decide⟩

theorem witness_LoopMarkersPlaced_other (r : CalRun) : ((on id).tree 1).ctl.state ≠ .calibrating r := by
  rw [show ((on id).tree 1).ctl.state = .active by decide]; simp

/-- Tree 1 with these messages queued. -/
def queued (l : List Item) (T : Tree) : Tree := { T with msgq := { T.msgq with items := l } }

/-- A queued message of the Registry. -/
def item (m : Message) : Item := { msg := m, issuer := .registry, inst := 7, deadline := none }

/-- Tree 1 with an entry in TN 9 and one message queued. -/
def telling (st : EntryState) (m : Message) (T : Tree) : Tree := queued [item m] (holding (entry st) T)

theorem telling_owes (st : EntryState) (m : Message) (tn : Nat) (e : Entry)
    (h : (on (telling st m)).entry? 1 tn = some e) : e.owed = none :=
  holding_all (e := entry st) (P := fun e => e.owed = none) rfl tn e h

theorem witness_SlotCallsHandOver :
    (on (telling (.muted .host) (.mute 9))).Taking ∧
      (∀ it ∈ ((on (telling (.muted .host) (.mute 9))).tree 1).msgq.items,
        it.late (on (telling (.muted .host) (.mute 9))).epoch = false) ∧
      (∀ tn e, (on (telling (.muted .host) (.mute 9))).entry? 1 tn = some e → e.owed = none) ∧
      ((on (telling (.muted .host) (.mute 9))).tree 1).msgq.broadcastStands = false ∧
      ((on (telling (.muted .host) (.mute 9))).tree 1).seq.op = none :=
  ⟨taking _, by decide, telling_owes _ _, by decide, by decide⟩

/-- The placement of a probe on the reference entry. -/
def placed : Placement := { floor := 13, ldp := 382497, cp := 1017508, half := 564, length := 1384 }

/-- The owner of each tag asks, and an owner that does not (R82, R106, R164 in epoch 10: 13·625,000 and what is added). -/
theorem witness_RequestsSentAgain_forms :
    (on (discovering (.requesting ctx 9000000))).FormsAnew 1 .window request 8460000
        (fun x => x.setDisc 1 (.requesting ctx 8460000)) ∧
      (on (probed (entry (.ranging 300)) (probing .measure .ranging (.requesting placed 9000000) 2))).FormsAnew 1 .probe request
        9524441
        (fun x => x.setOp 1 (some (probing .measure .ranging (.requesting placed 9524441) 2))) ∧
      (on fun T => { T with light := { T.light with check := some ⟨.opening, 9000000, .requesting⟩ } }).FormsAnew 1 .silence
        request 8125000
        (fun x => x.modLight 1 fun l => { l with check := some ⟨.opening, 8125000, .requesting⟩ }) ∧
      (on id).FormsAnew 1 .silence request 9000000 id :=
  ⟨.inl ⟨ctx, 9000000, by decide, by decide, rfl⟩,
    .inl ⟨probing .measure .ranging (.requesting placed 9000000) 2, placed, 9000000, by decide, rfl, by decide, rfl⟩,
    .inl ⟨.opening, 9000000, by decide, by decide, rfl⟩,
    .inr ⟨fun p q => by rw [show ((on id).tree 1).light.check = none by decide]; simp, rfl, rfl⟩⟩

/-- Tree 1 with the PROBE of a POSTED operation queued, its grant held, and a check listening. -/
def slipping (T : Tree) : Tree :=
  { channel .probe (.granted 5 9000000) (probed (entry (.ranging 300))
      (probing .measure .ranging (.posted placed 9000000 9000000 7600000) 2) T) with
    msgq := { T.msgq with
      items := [{ item (.probe 9 7600000) with issuer := .sequencer, deadline := some 11 }, item (.mute 3)] }
    light := { T.light with check := some ⟨.opening, 9000000, .listening 9000000 0⟩ } }

/-- R120, R173: a marker 1 sx late withdraws the PROBE of a POSTED operation and requests it anew; a check is sent anew. -/
theorem test_slip_requests_anew :
    (((after (.epochMarker 1 []) (on slipping)).tree 1).msgq.items, ((after (.epochMarker 1 []) (on slipping)).tree 1).out.grant) =
      ([item (.mute 3)], [.allOff, .release .probe 5, .request .probe 6 .quiet 1384 9524441,
        .request .silence 1 .silence 20000 8125000]) := by decide

/-- Tree 1 CLOSING with the broadcast RETIRE at the head of its queue. -/
def closing (T : Tree) : Tree :=
  queued [broadcastItem, item (.mute 9)] { holding (entry (.operating (Drift.fresh 0))) T with
    ctl := { T.ctl with state := .closing } }

/-- A queued INVITE or PROBE of deadline 9. -/
def late (m : Message) (by_ : Issuer) : Item := { msg := m, issuer := by_, inst := 7, deadline := some 9 }

/-- Tree 1 with a PROBE of TN 9 posted. -/
def posting : ProbeOp := probing .measure .ranging (.posted placed 9000000 9000000 6875000) 2

/-- Tree 1 with a late INVITE of its posted window. -/
def lateInvite : Tree → Tree := fun T =>
  queued [item (.mute 9), late (.invite 17 4096 6875000) .discovery] (discovering (.posted ctx 17 9000000 6875000) T)

theorem witness_SlotCallsHandOver_invite :
    (on lateInvite).Taking ∧
      ((on lateInvite).tree 1).msgq.items = [item (.mute 9)] ++ late (.invite 17 4096 6875000) .discovery :: [] ∧
      (∀ x ∈ [item (.mute 9)], x.late (on lateInvite).epoch = false) ∧
      (late (.invite 17 4096 6875000) .discovery).late (on lateInvite).epoch = true ∧
      ((on lateInvite).tree 1).disc.state = .posted ctx 17 9000000 6875000 :=
  ⟨taking _, by decide, by decide, by decide, by decide⟩

/-- Tree 1 with a late PROBE of its posted operation. -/
def lateProbe : Tree → Tree := fun T =>
  queued [late (.probe 9 6875000) .sequencer, item (.mute 9)] (probed (entry (.ranging 300)) posting T)

theorem witness_SlotCallsHandOver_probe :
    ((on lateProbe).tree 1).msgq.items = [] ++ late (.probe 9 6875000) .sequencer :: [item (.mute 9)] ∧
      (late (.probe 9 6875000) .sequencer).late (on lateProbe).epoch = true ∧
      ((on lateProbe).tree 1).seq.op = some posting ∧ posting.phase = .posted placed 9000000 9000000 6875000 ∧
      posting.tn = 9 ∧ posting.inst = (late (.probe 9 6875000) .sequencer).inst :=
  ⟨by decide, by decide, by decide, rfl, rfl, rfl⟩

theorem witness_SlotCallsHandOver_ownerless :
    ((on fun T => queued [late (.probe 9 6875000) .sequencer] T).tree 1).seq.op = none ∧
      ((on fun T => queued [late (.invite 17 4096 6875000) .discovery] T).tree 1).disc.state = .stopped :=
  ⟨by decide, by decide⟩

theorem witness_SlotCallsHandOver_broadcast :
    ((on fun T => { T with msgq := { T.msgq with owedBroadcast := true } }).tree 1).msgq.owedBroadcast = true ∧
      ((on fun T => { T with msgq := { T.msgq with owedBroadcast := true } }).tree 1).msgq.items.length < 32 :=
  ⟨by decide, by decide⟩

/-- A muted entry that owes a message. -/
def owing (m : Message) (mark : Bool) : Entry := { entry (.muted .host) with owed := some ⟨m, .registry⟩, resend := mark }

/-- Tree 1 with `n` messages queued and an entry in TN 9 that owes one. -/
def owed (n : Nat) (m : Message) (mark : Bool) : Tree → Tree := fun T =>
  queued (List.replicate n (item (.mute 3))) (holding (owing m mark) T)

theorem owed_below (n : Nat) (m : Message) (mark : Bool) (k : Nat) (x : Entry) (hk : k < 9)
    (h : (on (owed n m mark)).entry? 1 k = some x) : x.owed = none := by
  have h9 := holding_only (e := owing m mark) k x h
  omega

theorem witness_SlotCallsHandOver_owed :
    (on (owed 1 (.nudge 9 4) true)).Taking ∧
      (∀ it ∈ ((on (owed 1 (.nudge 9 4) true)).tree 1).msgq.items,
        it.late (on (owed 1 (.nudge 9 4) true)).epoch = false) ∧
      ((on (owed 1 (.nudge 9 4) true)).tree 1).msgq.broadcastStands = false ∧
      (on (owed 1 (.nudge 9 4) true)).entry? 1 9 = some (owing (.nudge 9 4) true) ∧
      (∀ k x, k < 9 → (on (owed 1 (.nudge 9 4) true)).entry? 1 k = some x → x.owed = none) ∧
      ((on (owed 1 (.nudge 9 4) true)).tree 1).msgq.items.length < 32 ∧ (Message.nudge 9 4).isMuting = false :=
  ⟨taking _, by decide, by decide, by decide, fun k x hk h => owed_below _ _ _ k x hk h, by decide, rfl⟩

theorem witness_SlotCallsHandOver_resend :
    (on (owed 30 (.mute 9) true)).entry? 1 9 = some (owing (.mute 9) true) ∧
      ((Message.mute 9).isMuting && (owing (.mute 9) true).resend) = true ∧
      ((on (owed 30 (.mute 9) true)).tree 1).msgq.items.length < 31 ∧
      ((on (owed 31 (.mute 9) true)).tree 1).msgq.items.length = 31 ∧
      (∀ it ∈ ((on (owed 31 (.mute 9) true)).tree 1).msgq.items,
        it.late (on (owed 31 (.mute 9) true)).epoch = false) :=
  ⟨by decide, rfl, by decide, by decide, fun _ h => by rw [List.eq_of_mem_replicate h]; rfl⟩

/-- The owed MUTE of a marked entry enters the list with the DELAY of its LD behind it (R27, R28). -/
theorem test_resend_behind_mute :
    (((enterOwed 1 (on (owed 0 (.mute 9) true)) 9).tree 1).msgq.items.map Item.msg) = [.mute 9, .delay 9 382497] := by decide

theorem witness_SlotCallsHandOver_posting :
    (on (owed 0 (.delay 9 5) false)).entry? 1 9 = some (owing (.delay 9 5) false) ∧
      (owing (.delay 9 5) false).owed = some ⟨.delay 9 5, .registry⟩ ∧ (Message.delay 9 5).setsDelay = true ∧
      (Message.nudge 9 4).isNudge = true ∧ (Message.unmute 9).isMuting = true ∧ (Message.retire 9).isRetire = true ∧
      (owing (.retire 9) true).owed = some ⟨.retire 9, .registry⟩ ∧ (Message.mute 9).isRetire = false ∧
      ((Message.mute 9).setsDelay && ((Message.nudge 9 4).isNudge || (Message.nudge 9 4).isMuting)) = false ∧
      (entry (.muted .host)).owed = none ∧ ((on (queued (List.replicate 32 (item (.mute 3))))).tree 1).msgq.items.length = 32 ∧
      ((on closing).tree 1).msgq.broadcastStands = true :=
  ⟨by decide, rfl, rfl, rfl, rfl, rfl, rfl, rfl, rfl, rfl, by decide, by decide⟩

/-- The table of R27: a NUDGE on an owed NUDGE is merged into a DELAY of the entry's LD; a MUTE takes its place and marks the
entry; a DELAY behind an owed RETIRE is discarded. -/
theorem test_merge :
    (mergeOwed ⟨.nudge 9 4, .drift⟩ 9 382497 false (.nudge 9 5) .drift = ⟨⟨.delay 9 382497, .drift⟩, false, .merged⟩) ∧
      (mergeOwed ⟨.nudge 9 4, .drift⟩ 9 382497 false (.mute 9) .registry = ⟨⟨.mute 9, .registry⟩, true, .owed⟩) ∧
      (mergeOwed ⟨.retire 9, .registry⟩ 9 382497 false (.delay 9 1) .registry =
        ⟨⟨.retire 9, .registry⟩, false, .discarded⟩) := by decide

theorem witness_SlotCallsTellTheRegistry_assign :
    (on (telling (.assigning 410) (.assign 9 ⟨0x4A52444D, 4711⟩))).Taking ∧
      ((on (telling (.assigning 410) (.assign 9 ⟨0x4A52444D, 4711⟩))).tree 1).msgq.items =
        [item (.assign 9 ⟨0x4A52444D, 4711⟩)] ∧
      ((on (telling (.assigning 410) (.assign 9 ⟨0x4A52444D, 4711⟩))).tree 1).msgq.owedBroadcast = false ∧
      (∀ tn e, (on (telling (.assigning 410) (.assign 9 ⟨0x4A52444D, 4711⟩))).entry? 1 tn = some e → e.owed = none) ∧
      ((on (telling (.assigning 410) (.assign 9 ⟨0x4A52444D, 4711⟩))).tree 1).msgq.count < 4 ∧
      (on (telling (.assigning 410) (.assign 9 ⟨0x4A52444D, 4711⟩))).entry? 1 9 = some (entry (.assigning 410)) :=
  ⟨taking _, by decide, by decide, telling_owes _ _, by decide, by decide⟩

theorem witness_SlotCallsTellTheRegistry_retire :
    ((on (telling .retiring (.retire 9))).tree 1).msgq.items = [item (.retire 9)] ∧
      (on (telling .retiring (.retire 9))).entry? 1 9 = some (entry .retiring) ∧ (item (.retire 9)).inst = (entry .retiring).inst :=
  ⟨by decide, by decide, by decide⟩

/-- What a slot call finds ready: nothing late, nothing owed by the entry of TN 9, no broadcast standing. -/
theorem ready {f : Tree → Tree} {e : Entry}
    (h1 : ∀ it ∈ ((on f).tree 1).msgq.items, it.late (on f).epoch = false)
    (h2 : ∀ tn x, (on f).entry? 1 tn = some x → (holding e (opened (base.tree 1))).entry? tn = some x)
    (h3 : e.owed = none) (h4 : ((on f).tree 1).msgq.broadcastStands = false) : (on f).SlotReady 1 :=
  ⟨h1, fun tn x hx => holding_all (P := fun y => y.owed = none) h3 tn x (h2 tn x hx), h4⟩

/-- A released hunt candidate whose UNMUTE is queued. -/
theorem witness_SlotCallsTellTheRegistry_unmute :
    ((on (telling (.muted (.hunt true)) (.unmute 9))).tree 1).msgq.items = [item (.unmute 9)] ∧
      (on (telling (.muted (.hunt true)) (.unmute 9))).entry? 1 9 = some (entry (.muted (.hunt true))) ∧
      (item (.unmute 9)).inst = (entry (.muted (.hunt true))).inst ∧ (item (.unmute 9)).deadline = none :=
  ⟨by decide, by decide, by decide, rfl⟩

/-- Tree 1 with an INVITE of its posted window at the head of two items. -/
def inviting (T : Tree) : Tree :=
  queued [{ late (.invite 17 4096 8750000) .discovery with deadline := some 12 }, item (.mute 9)]
    (discovering (.posted ctx 17 9000000 8750000) (holding (entry (.muted .host)) T))

theorem witness_SlotCallsTellTheRegistry_invite :
    (on inviting).Taking ∧ (on inviting).SlotReady 1 ∧ ((on inviting).tree 1).msgq.count < 4 ∧
      ((on inviting).tree 1).msgq.items =
        { late (.invite 17 4096 8750000) .discovery with deadline := some 12 } :: [item (.mute 9)] ∧
      ((on inviting).tree 1).disc.state = .posted ctx 17 9000000 8750000 :=
  ⟨taking _, ready (e := entry (.muted .host)) (by decide) (fun _ _ h => h) rfl (by decide), by decide, by decide, by decide⟩

/-- Tree 1 with a PROBE of its posted operation at the head of its queue. -/
def asksEcho (T : Tree) : Tree :=
  queued [{ late (.probe 9 8750000) .sequencer with deadline := some 12 }] (probed (entry (.ranging 300)) posting T)

theorem witness_SlotCallsTellTheRegistry_probe :
    (on asksEcho).SlotReady 1 ∧
      ((on asksEcho).tree 1).msgq.items = { late (.probe 9 8750000) .sequencer with deadline := some 12 } :: [] ∧
      ((on asksEcho).tree 1).seq.op = some posting ∧ posting.phase = .posted placed 9000000 9000000 6875000 ∧
      posting.tn = 9 ∧ posting.inst = 7 :=
  ⟨ready (e := entry (.ranging 300)) (by decide) (fun _ _ h => h) rfl (by decide), by decide, by decide, rfl, rfl, rfl⟩

/-- An operation that waits for the DELAY of its VERIFYING entry. -/
def awaiting : ProbeOp := probing (.verify none) .verifying .waitDelay 2

/-- Tree 1 with that DELAY at the head of its queue. -/
def delaying (T : Tree) : Tree := queued [item (.delay 9 382497)] (probed (entry (.verifying 300)) awaiting T)

theorem witness_SlotCallsTellTheRegistry_delay :
    (on delaying).SlotReady 1 ∧ ((on delaying).tree 1).msgq.items = item (.delay 9 382497) :: [] ∧
      (item (.delay 9 382497)).issuer ≠ .drift ∧ (on delaying).entry? 1 9 = some (entry (.verifying 300)) ∧
      (entry (.verifying 300)).inst = (item (.delay 9 382497)).inst ∧ ((on delaying).tree 1).seq.op = some awaiting ∧
      awaiting.phase = .waitDelay ∧ awaiting.tn = 9 ∧ awaiting.inst = 7 :=
  ⟨ready (e := entry (.verifying 300)) (by decide) (fun _ _ h => h) rfl (by decide), by decide, by decide, by decide,
    by decide, by decide, rfl, rfl, rfl⟩

theorem witness_SlotCallsTellTheRegistry_nudge :
    (on (telling (.operating (Drift.fresh 0)) (.nudge 9 (-3)))).SlotReady 1 ∧
      ((on (telling (.operating (Drift.fresh 0)) (.nudge 9 (-3)))).tree 1).msgq.items = item (.nudge 9 (-3)) :: [] ∧
      (on (telling (.operating (Drift.fresh 0)) (.nudge 9 (-3)))).entry? 1 9 = some (entry (.operating (Drift.fresh 0))) ∧
      (entry (.operating (Drift.fresh 0))).inst = (item (.nudge 9 (-3))).inst :=
  ⟨ready (e := entry (.operating (Drift.fresh 0))) (by decide) (fun _ _ h => h) rfl (by decide), by decide, by decide, rfl⟩

/-- Tree 1 with the MUTE of its hunt's candidate at the head of its queue. -/
def silencing (T : Tree) : Tree :=
  { telling (.muted (.hunt false)) (.mute 9) T with light := { T.light with light := .suspect, hunt := some (hunt .muting) } }

theorem witness_SlotCallsTellTheRegistry_mute :
    (on silencing).SlotReady 1 ∧ ((on silencing).tree 1).msgq.items = item (.mute 9) :: [] ∧
      ((on silencing).tree 1).light.hunt = some (hunt .muting) ∧
      (hunt .muting).current = { tn := 9, inst := (item (.mute 9)).inst } ∧ (hunt .muting).step = .muting :=
  ⟨ready (e := entry (.muted (.hunt false))) (by decide) (fun _ _ h => h) rfl (by decide), by decide, by decide, rfl, rfl⟩

/-- Tree 1 with a MUTE of an instance that its entry has left. -/
def outdated (T : Tree) : Tree := queued [{ item (.mute 9) with inst := 6 }] (holding (entry (.muted .host)) T)

theorem witness_SlotCallsTellTheRegistry_ignored :
    (on outdated).SlotReady 1 ∧ ((on outdated).tree 1).msgq.items = { item (.mute 9) with inst := 6 } :: [] ∧
      (∀ e, (on outdated).entry? 1 9 = some e → e.inst ≠ 6) ∧ ((on outdated).tree 1).light.hunt = none :=
  ⟨ready (e := entry (.muted .host)) (by decide) (fun _ _ h => h) rfl (by decide), by decide,
    fun e h => holding_all (e := entry (.muted .host)) (P := fun y => y.inst ≠ 6) (by decide) 9 e h, by decide⟩

theorem witness_CloseCompletes :
    (on closing).Taking ∧ ((on closing).tree 1).ctl.state = .closing ∧
      ((on closing).tree 1).msgq.items = broadcastItem :: [item (.mute 9)] ∧
      (∀ it ∈ [item (.mute 9)], it.late (on closing).epoch = false) ∧ ((on closing).tree 1).msgq.count < 4 :=
  ⟨taking _, by decide, by decide, by decide, by decide⟩

/-- The collection of a window that has heard nothing. -/
def heardNothing : Collection := Collection.empty

/-- Tree 1 with a window open since epoch 5. -/
def collecting (coll : Collection) : Tree → Tree := discovering (.collecting ctx 17 4000000 3665000 5 coll)

/-- An ANNOUNCE of serial 4A52444DH, 4711, with delay 1,000 in window 17 (R24). -/
def announce : List Byte :=
  [0x61, 0x4A, 0x52, 0x44, 0x4D, 0x00, 0x00, 0x12, 0x67, 0x00, 0x01, 0x03, 0xE8, 0x11]

/-- Echoes with one that matches. -/
def oneEcho (first : Int) : Echoes := { matching := 1, first := first, foreign := 0, garbled := 0 }

theorem witness_QuietRecordsTaken_closed : (base.tree 0).routesBursts = false := by decide

theorem witness_QuietRecordsTaken_stale :
    (on fun T => { T with seq := { T.seq with stale := 1 } }).Taking ∧
      ((on fun T => { T with seq := { T.seq with stale := 1 } }).tree 1).routesBursts = true ∧
      ((on fun T => { T with seq := { T.seq with stale := 1 } }).tree 1).stale .probe ≠ 0 :=
  ⟨taking _, by decide, by decide⟩

theorem witness_QuietRecordsTaken_collision :
    ((on (collecting heardNothing)).tree 1).routesBursts = true ∧ ((on (collecting heardNothing)).tree 1).disc.stale = 0 ∧
      ((on (collecting heardNothing)).tree 1).disc.state = .collecting ctx 17 4000000 3665000 5 heardNothing ∧
      announceOf .garbled [] = none := ⟨by decide, by decide, by decide, by decide⟩

/-- ANNOUNCEs of the window in flight that are dropped: of window 16, of a delay at the span, of a heard serial, of a new serial
with 128 heard, and of an estimate one bt beyond the reach. -/
theorem witness_QuietRecordsTaken_dropped :
    (announceOf .clean announce).map (fun a => (a.window, a.d, a.serial)) = some (17, 1000, ⟨0x4A52444D, 4711⟩) ∧
      ((17 : Byte) ≠ 16) ∧ ({ ctx with dspan := 1000 }).dspan ≤ 1000 ∧
      (⟨0x4A52444D, 4711⟩ : Serial) ∈ { heardNothing with heard := [⟨0x4A52444D, 4711⟩] }.heard ∧
      128 ≤ { heardNothing with heard := List.replicate 128 ⟨1, 1⟩ }.heard.length ∧
      (⟨0x4A52444D, 4711⟩ : Serial) ∉ { heardNothing with heard := List.replicate 128 ⟨1, 1⟩ }.heard ∧
      (⟨0x4A52444D, 4711⟩ : Serial) ∉ heardNothing.heard ∧ heardNothing.heard.length < 128 ∧
      ((80051000 : BitVec 64).toNat - 16 * (3665000 + 1000 : Int) - 3000 + 8) / 16 = 1337000 ∧
      ((80051008 : BitVec 64).toNat - 16 * (3665000 + 1000 : Int) - 3000 + 8) / 16 = 1337001 ∧
      ((paramsOf refParams).frtMax + (paramsOf refParams).arMin + (paramsOf refParams).arSpread : Int) < 1337001 :=
  ⟨by decide, by decide, by decide, by decide, by simp, fun h => absurd (List.eq_of_mem_replicate h) (by decide), by decide,
    by decide, by decide, by decide, by decide⟩

theorem witness_QuietRecordsTaken_echo :
    ((on (probed (entry (.ranging 300)) (probing .measure .ranging (.listening placed 9000000 0 0 Echoes.empty) 2))).tree 1).seq.op =
      some (probing .measure .ranging (.listening placed 9000000 0 0 Echoes.empty) 2) := by decide

/-- Tree 1 with a silence check that listens. -/
def listening (p : Purpose) (n : Nat) (h : Option Hunt) (T : Tree) : Tree :=
  { T with light := { T.light with check := some ⟨p, 9000000, .listening 9000000 n⟩, hunt := h } }

theorem witness_QuietRecordsTaken_silence :
    ((on (listening .strike 255 none)).tree 1).light.stale = 0 ∧
      ((on (listening .strike 255 none)).tree 1).light.check = some ⟨.strike, 9000000, .listening 9000000 255⟩ :=
  ⟨by decide, by decide⟩

theorem witness_QuietRecordsTaken_none :
    ((on id).tree 1).routesBursts = true ∧ (∀ tag, ((on id).tree 1).stale tag = 0) ∧ ((on id).tree 1).seq.op = none ∧
      ((on id).tree 1).light.check = none ∧ ((on id).tree 1).disc.state = .stopped :=
  ⟨by decide, fun tag => by cases tag <;> decide, by decide, by decide, by decide⟩

theorem witness_AnnouncesAdmitted :
    (on (collecting heardNothing)).Taking ∧ ((on (collecting heardNothing)).tree 1).isActive = true ∧
      ((on (collecting heardNothing)).tree 1).disc.stale = 0 ∧
      ((on (collecting heardNothing)).tree 1).disc.state = .collecting ctx 17 4000000 3665000 5 heardNothing ∧
      (parseAnnounce announce).map (fun a => (a.window, a.d, a.serial)) = some (17, 1000, ⟨0x4A52444D, 4711⟩) ∧
      1000 < ctx.dspan ∧ inReach ((on (collecting heardNothing)).params 1) 1000000 = true ∧
      (on (collecting heardNothing)).lookup ⟨0x4A52444D, 4711⟩ = none ∧
      (on (collecting heardNothing)).admission.barred ⟨0x4A52444D, 4711⟩ = false ∧
      ((on (collecting heardNothing)).tree 1).pendingOf ⟨0x4A52444D, 4711⟩ = none ∧
      (on (collecting heardNothing)).admission.matching 0x4A52444D 1 = none ∧
      ((on (collecting heardNothing)).tree 1).lowestFree = some 1 ∧
      ((on (collecting heardNothing)).tree 1).msgq.broadcastStands = false ∧
      ((on (collecting heardNothing)).tree 1).msgq.items.length < 24 :=
  ⟨taking _, by decide, by decide, by decide, by decide, by decide, by decide, by decide, by decide, by decide, by decide,
    by decide, by decide, by decide⟩

/-- The arrival whose coarse estimate is 1,000,000 bt. -/
theorem witness_AnnouncesAdmitted_estimate :
    (((74659000 : BitVec 64).toNat : Int) - 16 * (3665000 + 1000) - 3000 + 8) / 16 = 1000000 := by decide

theorem witness_AnnouncesAdmitted_ask :
    ((on (discovering (.collecting { ctx with mode := .ask } 17 4000000 3665000 5 heardNothing))).tree 1).pendingList.length < 8 := by
  decide

/-- The item of the reference terminal in the directory, on tree `t`. -/
def listed (t : TreeId) : DirItem := ⟨⟨0x4A52444D, 4711⟩, t, 9⟩

/-- Tree 1 collecting, the reference terminal registered in TN 9. -/
def known (st : EntryState) (l : List Item) : State :=
  { on fun T => queued l (collecting heardNothing (holding (entry st) T)) with directory := [listed 1] }

theorem known_taking (st : EntryState) (l : List Item) : (known st l).Taking := ⟨rfl, base_taking.entered⟩

/-- Tree 1 collecting, the reference terminal LOST on tree 2. -/
def elsewhere : State :=
  { (on (collecting heardNothing)).modTree 2 fun T => holding (entry (.lost 300)) T with directory := [listed 2] }

theorem witness_AnnouncesAdmitted_clash :
    (known (.operating (Drift.fresh 0)) []).Taking ∧
      (known (.operating (Drift.fresh 0)) []).lookup ⟨0x4A52444D, 4711⟩ = some (listed 1) ∧
      ∀ e hold, (known (.operating (Drift.fresh 0)) []).entry? 1 9 = some e → e.state ≠ .lost hold :=
  ⟨known_taking _ _, by decide, fun e hold h =>
    holding_all (e := entry (.operating (Drift.fresh 0))) (P := fun y => y.state ≠ .lost hold) (by simp [entry]) 9 e h⟩

theorem witness_AnnouncesAdmitted_reactivated :
    (known (.lost 300) []).lookup ⟨0x4A52444D, 4711⟩ = some (listed 1) ∧
      (known (.lost 300) []).entry? 1 9 = some (entry (.lost 300)) ∧
      ((known (.lost 300) []).tree 1).msgq.broadcastStands = false ∧
      ((known (.lost 300) []).tree 1).msgq.items.length < 24 ∧
      24 ≤ ((known (.lost 300) (List.replicate 24 (item (.mute 3)))).tree 1).msgq.items.length :=
  ⟨by decide, by decide, by decide, by decide, by decide⟩

theorem witness_AnnouncesAdmitted_moved :
    elsewhere.Taking ∧ elsewhere.lookup ⟨0x4A52444D, 4711⟩ = some (listed 2) ∧ (listed 2).tree ≠ 1 ∧
      elsewhere.entry? 2 9 = some (entry (.lost 300)) ∧ (entry (.lost 300)).serial = ⟨0x4A52444D, 4711⟩ :=
  ⟨⟨rfl, base_taking.entered⟩, by decide, by decide, by decide, rfl⟩

/-- Tree 1 collecting with the terminal pending, a bar on it, or a catalogue entry that refuses its model. -/
theorem witness_AnnouncesAdmitted_refused :
    { (on (collecting heardNothing)).admission with
        bars := (on (collecting heardNothing)).admission.bars.set 7 ⟨true, 0x4A52444D, 4711, 4711⟩ }.barred
      ⟨0x4A52444D, 4711⟩ = true ∧
      ({ (on (collecting heardNothing)).admission with
          cat := (on (collecting heardNothing)).admission.cat.set 63 ⟨true, 0x4A52444D, 1, true, 0, 0, 0, 64, 0⟩ }.matching
        0x4A52444D 1).map CatEntry.refuse = some true ∧
      ((on fun T =>
          { collecting heardNothing T with
            pendingList :=
              [{ serial := ⟨0x4A52444D, 4711⟩, model := 1, c := 1000001, profile := prof, deadline := 90 }] }).tree 1).pendingOf
        ⟨0x4A52444D, 4711⟩ =
      some { serial := ⟨0x4A52444D, 4711⟩, model := 1, c := 1000001, profile := prof, deadline := 90 } :=
  ⟨by decide, by decide, by decide⟩

/-- A table whose every slot holds an entry has no FREE slot; a list of eight pending records is full. -/
theorem witness_AnnouncesAdmitted_full :
    ((on fun T => { T with slots := Vector.replicate 120 (slotOf (entry (.lost 300))) }).tree 1).lowestFree = none ∧
      24 ≤ ((on (queued (List.replicate 24 (item (.mute 3))))).tree 1).msgq.items.length ∧
      8 ≤ ((on fun T =>
        { T with
          pendingList :=
            List.replicate 8 { serial := ⟨1, 1⟩, model := 1, c := 0, profile := prof, deadline := 90 } }).tree 1).pendingList.length :=
  ⟨by decide, by decide, by decide⟩

theorem witness_WindowsClose_ends :
    ((on (collecting heardNothing)).tree 1).disc.flushed = false ∧ heardNothing.collisions = 0 := ⟨by decide, rfl⟩

theorem witness_WindowsClose_repeats :
    ((on (collecting { heardNothing with collisions := 1 })).tree 1).disc.flushed = false ∧
      0 < { heardNothing with collisions := 1 }.collisions ∧
      ((on (collecting { heardNothing with collisions := 1 })).tree 1).disc.repeatIndex < ctx.repeats :=
  ⟨by decide, by decide, by decide⟩

/-- An operation that listens, with one matching ECHO of the reference round trip. -/
def measuring : ProbeOp := probing .measure .ranging (.listening placed 9000000 9000000 8000000 (oneEcho 150403004)) 2

theorem witness_ProbeAttemptsEnd_measured :
    (on (probed (entry (.ranging 300)) measuring)).Taking ∧
      ((on (probed (entry (.ranging 300)) measuring)).tree 1).routesBursts = true ∧
      ((on (probed (entry (.ranging 300)) measuring)).tree 1).seq.stale = 0 ∧
      ((on (probed (entry (.ranging 300)) measuring)).tree 1).seq.op = some measuring ∧
      (on (probed (entry (.ranging 300)) measuring)).entry? 1 9 = some (entry (.ranging 300)) ∧
      (entry (.ranging 300)).ld = placed.ldp ∧
      measure ((on (probed (entry (.ranging 300)) measuring)).params 1) prof (150403004 - 16 * (8000000 + 382497) - 3000) =
        .value 16280052 382497 (-4) ∧
      (entry (.ranging 300)).owed = none ∧
      ((on (probed (entry (.ranging 300)) measuring)).tree 1).msgq.items.length < 32 :=
  ⟨taking _, by decide, by decide, by decide, by decide, by decide, by decide, by decide, by decide⟩

/-- A verify that listens, with one matching ECHO 4 sx from where it is expected. -/
def verifying : ProbeOp :=
  probing (.verify (some 8)) .verifying (.listening placed 9000000 9000000 8000000 (oneEcho 150403008)) 2

theorem witness_ProbeAttemptsEnd_verified :
    ((on (probed (entry (.verifying 300)) verifying)).tree 1).seq.op = some verifying ∧
      (on (probed (entry (.verifying 300)) verifying)).entry? 1 9 = some (entry (.verifying 300)) ∧
      (deviation 1400000 3000 (-4) 8000000 150403008).natAbs ≤ 200 := ⟨by decide, by decide, by decide⟩

theorem witness_ProbeAttemptsEnd_silent :
    (entry (.ranging 300)).state.name = Expected.ranging.name ∧ Echoes.empty.garbled = 0 ∧ Echoes.empty.foreign = 0 ∧
      Echoes.empty.matching = 0 := ⟨rfl, rfl, rfl, rfl⟩

theorem witness_ProbeAttemptsEnd_failures :
    { Echoes.empty with garbled := 1 }.garbled ≠ 0 ∧ { oneEcho 0 with foreign := 1 }.foreign ≠ 0 ∧
      { oneEcho 0 with matching := 2 }.matching ≠ 1 ∧ (oneEcho 0).garbled = 0 ∧ (oneEcho 0).foreign = 0 ∧
      measure (paramsOf refParams) prof (0 - 16 * (8000000 + 382497) - 3000) = .outOfReach ∧
      ((on id).params 1).probeRetries + 1 ≤ 2 + 1 ∧ ¬ ((on id).params 1).probeRetries + 1 ≤ 1 + 1 :=
  ⟨by decide, by decide, by decide, rfl, rfl, by decide, by decide, by decide⟩

/-- A verify that listens, with one matching ECHO 201 sx late. -/
def off : ProbeOp :=
  probing (.verify (some 8)) .verifying (.listening placed 9000000 9000000 8000000 (oneEcho 150403205)) 2

theorem witness_ProbeAttemptsEnd_off :
    (on (probed (entry (.verifying 300)) off)).Taking ∧
      ((on (probed (entry (.verifying 300)) off)).tree 1).seq.op = some off ∧
      (on (probed (entry (.verifying 300)) off)).entry? 1 9 = some (entry (.verifying 300)) ∧
      (entry (.verifying 300)).ld = placed.ldp ∧
      ((on (probed (entry (.verifying 300)) off)).params 1).wout < (deviation 1400000 3000 (-4) 8000000 150403205).natAbs ∧
      (entry (.verifying 300)).attempts.getD 0 + 1 < ((on (probed (entry (.verifying 300)) off)).params 1).probeRetries + 1 ∧
      ((on id).params 1).probeRetries + 1 ≤ { entry (.verifying 300) with attempts := some 2 }.attempts.getD 0 + 1 ∧
      (entry (.verifying 300)).rrt = some 16280052 ∧ (entry (.verifying 300)).owed = none ∧
      validTrip (paramsOf refParams) prof (150403205 - 16 * (8000000 + 382497) - 3000) = true :=
  ⟨taking _, by decide, by decide, by decide, by decide, by decide, by decide, by decide, by decide, by decide⟩

/-- An audit that listens, with one matching ECHO. -/
def auditing (first : Int) : ProbeOp :=
  { probing .measure .operating (.listening placed 9000000 9000000 8000000 (oneEcho first)) 2 with kind := .audit }

/-- Round trips of the reference terminal that leave LD 382,497, lower it by one, by N and by N + 1. -/
theorem witness_ProbeAttemptsEnd_audit :
    (on (probed (entry (.operating (Drift.fresh 0))) (auditing 150403004))).Taking ∧
      ((on (probed (entry (.operating (Drift.fresh 0))) (auditing 150403004))).tree 1).seq.op = some (auditing 150403004) ∧
      (on (probed (entry (.operating (Drift.fresh 0))) (auditing 150403004))).entry? 1 9 =
        some (entry (.operating (Drift.fresh 0))) ∧
      measure (paramsOf refParams) prof (150403052 - 16 * (8000000 + 382497) - 3000) = .value 16280100 382494 (-4) ∧
      measure (paramsOf refParams) prof (150403260 - 16 * (8000000 + 382497) - 3000) = .value 16280308 382481 (-4) ∧
      measure (paramsOf refParams) prof (150403276 - 16 * (8000000 + 382497) - 3000) = .value 16280324 382480 (-4) ∧
      (382494 : Int) - 382497 ≠ 0 ∧ ((382481 : Int) - 382497).natAbs ≤ ((on id).params 1).n ∧
      ((on id).params 1).n < ((382480 : Int) - 382497).natAbs :=
  ⟨taking _, by decide, by decide, by decide, by decide, by decide, by decide, by decide, by decide⟩

theorem witness_ProbeAttemptsEnd_changed (e : Entry) (h : (on (probed (entry .retiring) measuring)).entry? 1 9 = some e) :
    e.inst ≠ measuring.inst ∨ e.state.name ≠ measuring.expected.name :=
  holding_all (e := entry .retiring) (P := fun y => y.inst ≠ measuring.inst ∨ y.state.name ≠ measuring.expected.name)
    (.inr (by decide)) 9 e h

/-- An entry whose LD was corrected behind the probe, its NUDGE still queued. -/
def corrected : Entry := { entry (.ranging 300) with ld := 382496 }

theorem witness_ProbeAttemptsEnd_ldChanged :
    (on (probed corrected measuring)).entry? 1 9 = some corrected ∧ corrected.inst = measuring.inst ∧
      corrected.state.name = measuring.expected.name ∧ corrected.ld ≠ placed.ldp ∧ measuring.stage = .measure ∧
      corrected.rrt ≠ none ∧
      ((on fun T => queued [item (.nudge 9 (-1))] (probed corrected measuring T)).tree 1).delayStands 9 corrected = true :=
  ⟨by decide, rfl, by decide, by decide, rfl, by decide, by decide⟩

theorem witness_SilenceChecksEnd :
    (on (listening .hunt 1 (some (hunt .checking)))).Taking ∧
      ((on (listening .hunt 1 (some (hunt .checking)))).tree 1).routesBursts = true ∧
      ((on (listening .hunt 1 (some (hunt .checking)))).tree 1).light.stale = 0 ∧
      ((on (listening .hunt 1 (some (hunt .checking)))).tree 1).light.check = some ⟨.hunt, 9000000, .listening 9000000 1⟩ ∧
      ((on (listening .hunt 1 (some (hunt .checking)))).tree 1).light.hunt = some (hunt .checking) ∧
      (hunt .checking).rest = [] := ⟨taking _, by decide, by decide, by decide, by decide, rfl⟩

theorem witness_SilenceChecksEnd_strike :
    ((on (listening .strike 1 none)).tree 1).light.strikes + 1 < ((on (listening .strike 1 none)).params 1).strikeLimit ∧
      ((on (listening .strike 0 none)).tree 1).light.check = some ⟨.strike, 9000000, .listening 9000000 0⟩ ∧
      ((on (listening .opening 0 none)).tree 1).light.check = some ⟨.opening, 9000000, .listening 9000000 0⟩ ∧
      ((on (listening .opening 1 none)).tree 1).light.check = some ⟨.opening, 9000000, .listening 9000000 1⟩ ∧
      ((on (listening .pause 1 none)).tree 1).light.check = some ⟨.pause, 9000000, .listening 9000000 1⟩ :=
  ⟨by decide, by decide, by decide, by decide, by decide⟩

/-- A third strike of three, and a hunt with a candidate that is gone before one that is left. -/
theorem witness_SilenceChecksEnd_hunts :
    ((on fun T => { listening .strike 1 none T with light := { (listening .strike 1 none T).light with strikes := 2 } }).params
          1).strikeLimit ≤
        min 15
          (((on fun T =>
                { listening .strike 1 none T with
                  light := { (listening .strike 1 none T).light with strikes := 2 } }).tree 1).light.strikes + 1) ∧
      (huntLeft .checking).rest = [⟨3, 7⟩] ++ ⟨9, 7⟩ :: [] ∧
      (on fun T => listening .hunt 1 (some (huntLeft .checking)) (running (Drift.fresh 10) T)).offers 1 ⟨9, 7⟩ = true ∧
      (on fun T => listening .hunt 1 (some (huntLeft .checking)) (running (Drift.fresh 10) T)).offers 1 ⟨3, 7⟩ = false ∧
      ((on fun T => listening .hunt 1 (some (huntLeft .checking)) (holding (entry (.muted (.hunt false))) T)).entry? 1
          (hunt .checking).current.tn) = some (entry (.muted (.hunt false))) :=
  ⟨by decide, rfl, by decide, by decide, by decide⟩

theorem witness_GrantedBurstsSampled :
    (on (running (Drift.fresh 10))).Taking ∧ ((on (running (Drift.fresh 10))).tree 1).isActive = true ∧
      (on (running (Drift.fresh 10))).entry? 1 (9 : Byte).toNat = some (entry (.operating (Drift.fresh 10))) ∧
      (Drift.fresh 10).settled (on (running (Drift.fresh 10))).epoch 5000000 = true ∧
      (Drift.fresh 11).settled (on (running (Drift.fresh 11))).epoch 5000000 = false ∧
      (entry (.lost 300)).operating = false := ⟨taking _, by decide, by decide, by decide, by decide, by decide⟩

/-- A deviation of 4,000 sx is within Wgross, one of 4,001 is not; a second sample of four is not the last; an average of 8 is
within Win, one of 201 beyond Wout. -/
theorem witness_GrantedBurstsSampled_bounds :
    ((102407004 : Int) - (16 * (5000000 + 1400000) + 3000 - -4) = 4000) ∧
      (4000 : Int).natAbs ≤ (paramsOf refParams).wgross ∧ (paramsOf refParams).wgross < (4001 : Int).natAbs ∧
      1 + 1 < 2 ^ (paramsOf refParams).k ∧ 2 ^ (paramsOf refParams).k ≤ 3 + 1 ∧
      (average (paramsOf refParams).k (24 + 8)).natAbs ≤ (paramsOf refParams).win ∧
      (paramsOf refParams).wout < (average (paramsOf refParams).k (603 + 201)).natAbs ∧
      (paramsOf refParams).win < (average (paramsOf refParams).k (603 + 201)).natAbs :=
  ⟨by decide, by decide, by decide, by decide, by decide, by decide, by decide, by decide⟩

theorem witness_DriftCorrectionsNudge :
    (paramsOf refParams).win < (average (paramsOf refParams).k (36 + 12)).natAbs ∧
      (average (paramsOf refParams).k (36 + 12)).natAbs ≤ (paramsOf refParams).wout ∧
      (16 * (382497 : Int) + -4 - 12 + 8) / 16 = 382496 ∧ (0 : Int) ≤ 382496 ∧ (382496 : Int) ≤ (paramsOf refParams).art ∧
      (382496 : Int) ≠ ((entry (.operating (Drift.fresh 10))).ld : Int) ∧
      (entry (.operating (Drift.fresh 10))).owed = none := ⟨by decide, by decide, by decide, by decide, by decide, by decide, rfl⟩

/-- An average of -9 sx on residual -4 leaves LD as it is. -/
theorem witness_DriftCorrectionsNudge_residual :
    (paramsOf refParams).win < (-9 : Int).natAbs ∧ (16 * (382497 : Int) + -4 - -9 + 8) / 16 = 382497 := ⟨by decide, by decide⟩

theorem witness_DriftCorrectionsNudge_owed :
    32 ≤ ((on (queued (List.replicate 32 (item (.mute 3))))).tree 1).msgq.items.length ∧
      { entry (.operating (Drift.fresh 10)) with owed := some ⟨.nudge 9 4, .drift⟩ }.owed = some ⟨.nudge 9 4, .drift⟩ ∧
      (Message.nudge 9 4).setsDelay = true := ⟨by decide, rfl, rfl⟩

/-- An average of 12 sx at LD 0 leaves it below 0; one of -12 sx at LD 1,400,000 takes it beyond ART. -/
theorem witness_DriftCorrectionsNudge_unusable :
    (16 * (0 : Int) + -4 - 12 + 8) / 16 < 0 ∧
      ((paramsOf refParams).art : Int) < (16 * (1400000 : Int) + -4 - -12 + 8) / 16 := ⟨by decide, by decide⟩

theorem witness_MissesCounted :
    (on (running { Drift.fresh 10 with misses := 11 })).Taking ∧
      ((on (running { Drift.fresh 10 with misses := 11 })).tree 1).isActive = true ∧
      (on (running { Drift.fresh 10 with misses := 11 })).entry? 1 (9 : Byte).toNat =
        some (entry (.operating { Drift.fresh 10 with misses := 11 })) ∧
      (paramsOf refParams).missLimit ≤ 11 + 1 ∧ 10 + 1 < (paramsOf refParams).missLimit :=
  ⟨taking _, by decide, by decide, by decide, by decide⟩

theorem witness_MissesCounted_free (e : Entry) (h : (on id).entry? 1 (120 : Byte).toNat = some e) : e.operating = false := by
  rw [show (on id).entry? 1 (120 : Byte).toNat = none by decide] at h; cases h

/-- A tree that is not ACTIVE but routes its light records, with an OPERATING entry (R136). -/
theorem witness_MissesCounted_closing :
    (on closing).Taking ∧ ((on closing).tree 1).isActive = false ∧ ((on closing).tree 1).routesBursts = true ∧
      (on closing).entry? 1 (9 : Byte).toNat = some (entry (.operating (Drift.fresh 0))) :=
  ⟨taking _, by decide, by decide, by decide⟩

theorem witness_UnexplainedLightStrikes :
    (on (running (Drift.fresh 10))).Taking ∧ ((on (running (Drift.fresh 10))).tree 1).isActive = true ∧
      ((on (running (Drift.fresh 10))).tree 1).light.light = .quiet ∧
      (on (running (Drift.fresh 10))).entry? 1 (255 : Byte).toNat = none ∧
      min 15 (((on (running (Drift.fresh 10))).tree 1).light.strikes + 1) < ((on (running (Drift.fresh 10))).params 1).strikeLimit ∧
      ((on (running (Drift.fresh 10))).tree 1).candidates = [⟨9, 7⟩] ∧ ((on id).tree 1).candidates = [] :=
  ⟨taking _, by decide, by decide, by decide, by decide, by decide, by decide⟩

theorem witness_UnexplainedLightStrikes_limit :
    ((on fun T => { T with light := { T.light with strikes := 2 } }).params 1).strikeLimit ≤
        min 15 (((on fun T => { T with light := { T.light with strikes := 2 } }).tree 1).light.strikes + 1) ∧
      ((on fun T => { T with light := LightMonitor.reset }).tree 1).light.light ≠ .quiet := ⟨by decide, by decide⟩

theorem witness_UnexplainedLightStrikes_closed :
    waiting.Taking ∧ (waiting.tree 1).isActive = false ∧ waiting.ClosedLawful ∧ (waiting.tree 1).routesBursts = false :=
  ⟨⟨rfl, by decide⟩, by decide, witness_ClosedLawKept, by decide⟩

/-- Fifteen offsets of a run about 3,000. -/
def fifteen : List Int := List.replicate 15 3000

theorem witness_LoopRecordsTaken_stored :
    (on (calibrating (run 1 6 [6, 7, 8] [3000]))).Taking ∧
      ((on (calibrating (run 1 6 [6, 7, 8] [3000]))).tree 1).ctl.state = .calibrating (run 1 6 [6, 7, 8] [3000]) ∧
      10000000 * 6 ≤ (70003000 : BitVec 64).toNat ∧ (run 1 6 [6, 7, 8] [3000]).markers[1]? = some 7 :=
  ⟨taking _, by decide, by decide, by decide⟩

theorem witness_LoopRecordsTaken_discarded (r : CalRun) : ((on id).tree 1).ctl.state ≠ .calibrating r :=
  witness_LoopMarkersPlaced_other r

theorem witness_LoopRecordsTaken_judged :
    ((on (calibrating (run 1 6 (List.range' 6 16) fifteen))).tree 1).ctl.state =
        .calibrating (run 1 6 (List.range' 6 16) fifteen) ∧
      (run 1 6 (List.range' 6 16) fifteen).markers[15]? = some 21 ∧ (fifteen ++ [3016]).length = 16 ∧
      judgePis 16 (fifteen ++ [3016]) = none ∧ judgePis 16 (fifteen ++ [3017]) = some .spread ∧
      judgePis 16 (fifteen ++ [-1]) = some .range := ⟨by decide, by decide, by decide, by decide, by decide, by decide⟩

theorem witness_LoopRecordsTaken_fails :
    ((on (calibrating (run 2 6 (List.range' 6 16) fifteen))).tree 1).ctl.state =
        .calibrating (run 2 6 (List.range' 6 16) fifteen) ∧
      (run 2 6 (List.range' 6 16) fifteen).run = 2 ∧
      ((on (calibrating (run 2 6 (List.range' 6 16) fifteen))).tree 1).disc.state = .stopped :=
  ⟨by decide, rfl, by decide⟩

theorem witness_GrantsJudged_stray (req : Request) (d : Nat) (h : ((on id).chan 1 .probe).phase = .awaiting req d) :
    (0 : Byte) ≠ ((on id).chan 1 .probe).number := by
  rw [show ((on id).chan 1 .probe).phase = .idle by decide] at h; cases h

/-- Tree 1 with its window requested from 9,000,000 bt. -/
def asking : Tree → Tree := fun T => channel .window (.awaiting request 18) (discovering (.requesting ctx 9000000) T)

theorem witness_GrantsJudged_window :
    (on asking).Taking ∧ ((on asking).chan 1 .window) = { phase := .awaiting request 18, number := 5 } ∧
      ((on asking).tree 1).disc.state = .requesting ctx 9000000 ∧
      ((9000000 : BitVec 60).toNat : Int) - ((on asking).params 1).frtMin - ((on asking).params 1).arMin = 8665000 ∧
      ((on asking).epoch : Int) ≤ 8665000 / 625000 - 2 ∧ ((29000000 : BitVec 60).toNat : Int) ≤ 9000000 + 32 * 625000 ∧
      (9000000 : Int) + 32 * 625000 < (29000001 : BitVec 60).toNat ∧ ((8999999 : BitVec 60).toNat : Int) < 9000000 ∧
      ((on asking).tree 1).msgq.broadcastStands = false ∧ ((on asking).tree 1).msgq.items.length < 24 :=
  ⟨taking _, by decide, by decide, by decide, by decide, by decide, by decide, by decide, by decide, by decide⟩

/-- Tree 1 with its probe requested from 9,000,000 bt. -/
def asked : Tree → Tree := fun T =>
  channel .probe (.awaiting request 18)
    (probed (entry (.ranging 300)) (probing .measure .ranging (.requesting placed 9000000) 10) T)

theorem witness_GrantsJudged_probe :
    ((on asked).chan 1 .probe) = { phase := .awaiting request 18, number := 5 } ∧
      ((on asked).tree 1).seq.op = some (probing .measure .ranging (.requesting placed 9000000) 10) ∧
      (on asked).entry? 1 9 = some (entry (.ranging 300)) ∧
      ((10000000 : BitVec 60).toNat : Int) + placed.half - placed.ldp - placed.cp = 8600559 ∧
      ((on asked).epoch : Int) ≤ 8600559 / 625000 - 2 := ⟨by decide, by decide, by decide, by decide, by decide⟩

/-- Tree 1 with a silence check requested. -/
def hushing (T : Tree) : Tree :=
  channel .silence (.awaiting request 18) { T with light := { T.light with check := some ⟨.strike, 9000000, .requesting⟩ } }

theorem witness_GrantsJudged_silence :
    ((on hushing).chan 1 .silence) = { phase := .awaiting request 18, number := 5 } ∧
      ((on hushing).tree 1).light.check = some ⟨.strike, 9000000, .requesting⟩ := ⟨by decide, by decide⟩

theorem witness_RangingAligns :
    measure (paramsOf refParams) prof 16280052 = .value 16280052 382497 (-4) ∧ (-8 : Int) ≤ -4 ∧ (-4 : Int) ≤ 7 ∧
      (200 : Int).natAbs ≤ 200 ∧ ((200 : Nat) : Int) ≤ 16 * ((16 : Nat) : Int) - 8 :=
  ⟨by decide, by decide, by decide, by decide, by decide⟩

theorem witness_FramesAnswered :
    base.Taking ∧ base.port.holder = none ∧
      { base.port with holder := some ⟨1, .ok, [2]⟩ }.holder = some ⟨1, .ok, [2]⟩ := ⟨base_taking, rfl, rfl⟩

/-- A record to fill a queue with. -/
def record : Record := { body := .light .unknown .quiet .checkPassed 0 0, poster := 1, epoch := 10, lostBefore := 0 }

theorem witness_ReportsQueuedAndFetched :
    { base.port with queue := List.replicate 64 record }.queue.length = 64 ∧ base.port.queue.length < 64 ∧
      base.port.policy = .keepOldest ∧ { base.port with policy := .keepNewest }.policy = .keepNewest ∧
      1 ≤ (8 : Byte).toNat ∧ (8 : Byte).toNat ≤ 8 ∧ 8 < (9 : Byte).toNat :=
  ⟨by decide, by decide, rfl, rfl, by decide, by decide, by decide⟩

/-- A port whose trees 2 and 3 hold a record each, tree 1 last served. -/
def handing : Port :=
  { base.port with lastServed := 1, delivered := ((base.port.delivered.set 2 [record]).set 3 [record]) }

theorem witness_ReportsQueuedAndFetched_arbiter :
    handing.delivered[(2 : Poster)] = record :: [] ∧
      (∀ j : Poster, j - (handing.lastServed + 1) < 2 - (handing.lastServed + 1) → handing.delivered[j] = []) ∧
      (∀ j : Poster, base.port.delivered[j] = []) := ⟨by decide, by decide, by decide⟩

theorem witness_RefusalsChangeNothing :
    base.Taking ∧ (Instr.treeClose 4 1).isRequest = true ∧
      (∃ s' r, exec (.treeClose 4 1) base = .next s' ∧ s'.port.holder = some r ∧ r.code ≠ .ok ∧ r.code ≠ .barred ∧
        r.code ≠ .tableFull) := ⟨base_taking, rfl, _, _, rfl, rfl, by decide, by decide, by decide⟩

theorem witness_RefusalsChangeNothing_trees :
    1 ≤ (120 : Byte).toNat ∧ (120 : Byte).toNat ≤ 120 ∧ 4 ≤ (4 : Byte).toNat ∧ (3 : Byte).toNat = (3 : TreeId) ∧
      ((on closing).tree 1).ctl.state = .closing ∧ (base.tree 3).ctl.state = .closed :=
  ⟨by decide, by decide, by decide, by decide, by decide, by decide⟩

theorem witness_CatalogueRequests : (63 : Byte).toNat = (63 : Fin 64) ∧ 64 ≤ (64 : Byte).toNat := ⟨by decide, by decide⟩

theorem witness_BarredListRequests : (7 : Byte).toNat = (7 : Fin 8) ∧ 8 ≤ (8 : Byte).toNat := ⟨by decide, by decide⟩

theorem witness_TreesConfigured : base.Taking ∧ 4 ≤ (4 : Byte).toNat ∧ (3 : Byte).toNat = (3 : TreeId) :=
  ⟨base_taking, by decide, by decide⟩

theorem witness_TreesOpened : base.Taking ∧ (0 : Byte).toNat = (0 : TreeId) := ⟨base_taking, by decide⟩

theorem witness_TreesClosed :
    (on (running (Drift.fresh 10))).Taking ∧ (1 : Byte).toNat = (1 : TreeId) ∧
      ((on (running (Drift.fresh 10))).tree 1).ctl.state = .active ∧ ((on closing).tree 1).ctl.state = .closing ∧
      (base.tree 1).ctl.state ≠ .closing ∧ (base.tree 1).ctl.state ≠ .active :=
  ⟨taking _, by decide, by decide, by decide, by decide, by decide⟩

theorem witness_ReadsChangeNothing :
    (1 : Byte).toNat = (1 : TreeId) ∧ ((on id).tree 1).isActive = true ∧ 1 ≤ (1 : Byte).toNat ∧ (1 : Byte).toNat ≤ 120 ∧
      4 ≤ (255 : Byte).toNat := ⟨by decide, by decide, by decide, by decide, by decide⟩

/-- `base` with the entry of TN 9 of tree 1 in the directory. -/
def registered : State :=
  { on (running (Drift.fresh 10)) with directory := [⟨⟨0x4A52444D, 4711⟩, 1, 9⟩] }

theorem registered_other (t : TreeId) (tn : Nat) (e : Entry) (h : registered.entry? t tn = some e) : t = 1 ∧ tn = 9 := by
  by_cases ht : t = 1
  · subst ht
    refine ⟨rfl, ?_⟩
    by_contra hn
    have h1 : ((running (Drift.fresh 10) (opened (base.tree 1))).entry? tn) = some e := h
    rw [running, holding, entry?_setSlot_other _ _ _ _ hn, opened_entry?] at h1
    cases h1
  · have h1 : (base.tree t).entry? tn = some e := by
      have h2 : registered.tree t = base.tree t := by
        show ((on (running (Drift.fresh 10))).tree t) = _
        exact tree_modTree_other base 1 t _ ht
      rwa [State.entry?, h2] at h
    rw [closed_entry?] at h1
    cases h1

theorem witness_SerialsFound :
    registered.Taking ∧ registered.DirectoryLawful ∧
      registered.entry? 1 9 = some (entry (.operating (Drift.fresh 10))) := by
  have he : registered.entry? 1 9 = some (entry (.operating (Drift.fresh 10))) := by decide
  refine ⟨⟨rfl, base_taking.entered⟩, ⟨by decide, ?_, ?_⟩, he⟩
  · intro d hd
    simp only [registered, List.mem_singleton] at hd
    subst hd
    exact ⟨_, he, rfl⟩
  · intro t tn e h
    obtain ⟨rfl, rfl⟩ := registered_other t tn e h
    rw [he] at h
    cases h
    exact List.mem_singleton.2 rfl

theorem witness_SerialsFound_absent (t : TreeId) (tn : Nat) (e : Entry) (h : registered.entry? t tn = some e) :
    e.serial ≠ ⟨1, 2⟩ := by
  obtain ⟨rfl, rfl⟩ := registered_other t tn e h
  rw [witness_SerialsFound.2.2] at h
  cases h
  decide

theorem witness_ContextRequests :
    (on id).Taking ∧ (1 : Byte).toNat = (1 : TreeId) ∧ ((on id).tree 1).ctl.state ≠ .closed ∧
      ((on id).tree 1).ctl.state ≠ .closing ∧ parseContext ⟨4096, 1, 2, 40⟩ = some ctx ∧
      ((on id).tree 1).disc.state = .stopped ∧ ((on id).tree 1).gateOpen = true ∧ ((on id).tree 1).disc.contexts = [] ∧
      parseContext ⟨0, 1, 2, 40⟩ = none ∧ ((on (discovering (.spacing 11))).tree 1).disc.state ≠ .stopped ∧
      ((on (calibrating (run 1 11 [] []))).tree 1).gateOpen = false :=
  ⟨taking _, by decide, by decide, by decide, by decide, by decide, by decide, by decide, by decide, by decide, by decide⟩

theorem witness_ContextRequests_full :
    4 ≤ ((on fun T => { T with disc := { T.disc with contexts := List.replicate 4 ⟨ctx, false⟩ } }).tree 1).disc.contexts.length := by
  decide

theorem witness_SuspendAndResume :
    ((on sweeping).tree 1).ctl.state ≠ .closed ∧ ((on sweeping).tree 1).ctl.state ≠ .closing ∧
      ((on sweeping).tree 1).ctl.suspended = true ∧ ((on id).tree 1).ctl.suspended = false ∧
      ((on fun T => { sweeping T with light := LightMonitor.reset }).tree 1).light.light ≠ .quiet :=
  ⟨by decide, by decide, by decide, by decide, by decide⟩

/-- Tree 1 SUSPECT, the entry of TN 9 muted by the hunt. -/
def hunting (T : Tree) : Tree :=
  { holding (entry (.muted (.hunt false))) T with
    light := { T.light with light := .suspect, hunt := some (hunt .muting) } }

/-- Tree 1 SUSPECT, TN 120 muted by a hunt that has TN 9 left. -/
def huntingOn (T : Tree) : Tree :=
  { (running (Drift.fresh 10) T).setSlot 120 (slotOf (entry (.muted (.hunt false)))) with
    light := { T.light with light := .suspect, hunt := some (huntLeft .muting) } }

theorem witness_QuietForced :
    (on hunting).Taking ∧ ((on hunting).tree 1).isActive = true ∧ ((on hunting).tree 1).light.light ≠ .quiet ∧
      ((on hunting).tree 1).light.hunt = some (hunt .muting) ∧
      (on hunting).entry? 1 (hunt .muting).current.tn = some (entry (.muted (.hunt false))) ∧
      ((on id).tree 1).light.light = .quiet := ⟨taking _, by decide, by decide, by decide, by decide, by decide⟩

/-- A pending record of the reference terminal. -/
def held : PendingRec := { serial := ⟨0x4A52444D, 4711⟩, model := 1, c := 1000000, profile := prof, deadline := 10 }

/-- Tree 1 with the record pending. -/
def pending (T : Tree) : Tree := { T with pendingList := [held] }

theorem witness_PendingSerialsDecided :
    (on pending).Taking ∧ ((on pending).tree 1).isActive = true ∧
      ((on pending).tree 1).pendingOf ⟨0x4A52444D, 4711⟩ = some held ∧ ((on pending).tree 1).pendingOf ⟨1, 2⟩ = none ∧
      (on pending).admission.barred ⟨0x4A52444D, 4711⟩ = false ∧ (on pending).lookup ⟨0x4A52444D, 4711⟩ = none ∧
      ((on pending).tree 1).lowestFree = some 1 ∧ ((on pending).tree 1).msgq.broadcastStands = false ∧
      ((on pending).tree 1).msgq.items.length < 24 :=
  ⟨taking _, by decide, by decide, by decide, by decide, by decide, by decide, by decide, by decide⟩

theorem witness_PendingSerialsDecided_barred :
    { (on pending).admission with bars := (on pending).admission.bars.set 7 ⟨true, 0x4A52444D, 4711, 4711⟩ }.barred
      ⟨0x4A52444D, 4711⟩ = true := by decide

theorem witness_TerminalRequests :
    (on (running (Drift.fresh 10))).Taking ∧ (1 : Byte).toNat = (1 : TreeId) ∧
      ((on (running (Drift.fresh 10))).tree 1).isActive = true ∧ 1 ≤ (9 : Byte).toNat ∧ (9 : Byte).toNat ≤ 120 ∧
      (on (running (Drift.fresh 10))).entry? 1 (9 : Byte).toNat = some (entry (.operating (Drift.fresh 10))) ∧
      (on (running (Drift.fresh 10))).entry? 1 (120 : Byte).toNat = none ∧
      acceptsMute (.operating (Drift.fresh 10)) = true ∧ acceptsRangeNow (.operating (Drift.fresh 10)) = true ∧
      acceptsRetire .retiring = true ∧ acceptsUnmute (.muted .host) = true ∧
      acceptsUnmute (.operating (Drift.fresh 10)) = false :=
  ⟨taking _, by decide, by decide, by decide, by decide, by decide, by decide, rfl, rfl, rfl, rfl, rfl⟩

/-- The candidate of a hunt's step, with none left behind it, or with one that is gone and one that is left. -/
theorem witness_TerminalRequests_candidate :
    ((on hunting).tree 1).light.hunt = some (hunt .muting) ∧ (hunt .muting).current = { tn := (9 : Byte).toNat, inst := 7 } ∧
      acceptsUnmute (entry (.muted (.hunt false))).state = true ∧ (hunt .muting).rest = [] ∧
      (huntLeft .muting).current = { tn := (120 : Byte).toNat, inst := 7 } ∧
      (huntLeft .muting).rest = [⟨3, 7⟩] ++ ⟨9, 7⟩ :: [] ∧ (on (huntingOn)).offers 1 ⟨9, 7⟩ = true ∧
      (on huntingOn).offers 1 ⟨3, 7⟩ = false ∧
      (on huntingOn).entry? 1 (120 : Byte).toNat = some (entry (.muted (.hunt false))) ∧
      ((on huntingOn).tree 1).light.hunt = some (huntLeft .muting) :=
  ⟨by decide, rfl, by decide, rfl, rfl, rfl, by decide, by decide, by decide, by decide⟩

/-- R146, R54: the UNMUTE of a muted entry is queued and its task asked for. -/
theorem test_unmuteTn_posts :
    (((after (.unmuteTn 1 1 9) (on fun T => { holding (entry (.muted .host)) T with
        ctl := { T.ctl with suspended := true } })).tree 1).msgq.items,
      ((after (.unmuteTn 1 1 9) (on fun T => { holding (entry (.muted .host)) T with
        ctl := { T.ctl with suspended := true } })).tree 1).seq.tasks) =
      ([item (.unmute 9)], [{ tn := 9, inst := 7, kind := .unmute }]) := by decide

/-- R171: with the candidate of TN 120 unmuted by the host, TN 3 is skipped and TN 9 muted and taken off the air. -/
theorem test_unmuteTn_next_candidate :
    (((after (.unmuteTn 1 1 120) (on huntingOn)).tree 1).light.hunt.map fun h => (h.current, h.rest, h.skipped)) =
        some (⟨9, 7⟩, [], 2) ∧
      ((after (.unmuteTn 1 1 120) (on huntingOn)).tree 1).out.grant = [.allOff, .terminalOff 9] := by decide

end Sys2Proof.Tests
end

section
/-! PROOF. The rules of the timebase family: what the end of an event, a reply and a delivery leave alone, and what each
command may touch (O12, O13). -/

namespace Sys2Proof.Machine

/-! ### The end of an event, and a reply -/

section
variable (s : State) (j : TreeId) (tag : Byte) (code : ReplyCode) (body : List Byte)
@[simp] theorem tree_settle : s.settle.tree j = s.tree j := rfl
@[simp] theorem pending_settle : s.settle.pending = s.pending := rfl
@[simp] theorem resetPin_settle : s.settle.resetPin = s.resetPin := rfl
@[simp] theorem timebase_settle : s.settle.timebase = s.timebase := rfl
@[simp] theorem due_settle : s.settle.due = s.due := rfl
@[simp] theorem admission_settle : s.settle.admission = s.admission := rfl
@[simp] theorem epoch_settle : s.settle.epoch = s.epoch := rfl
@[simp] theorem tree_reply : (s.reply tag code body).tree j = s.tree j := rfl
end

/-! ### Deliveries (R3, R10) -/

section
variable {s : State} {a : EpochAction}

theorem takeDelivery_of_mem (h : a ∈ s.due) : takeDelivery a s = (deliveryEffect a (s.taken a)).settle := if_pos h

theorem takeDelivery_of_not_mem (h : a ∉ s.due) : takeDelivery a s = s := if_neg h

/-- A delivery acts on its own tree (R3). -/
theorem within_deliveryEffect_self : Within (· = deliveryTree a) s (deliveryEffect a s) := within_deliveryEffect a rfl

@[simp] theorem timebase_takeDelivery (a : EpochAction) (s : State) : (takeDelivery a s).timebase = s.timebase := by
  by_cases h : a ∈ s.due
  · rw [takeDelivery_of_mem h]
    exact within_deliveryEffect_self.timebase
  · rw [takeDelivery_of_not_mem h]

@[simp] theorem timebase_takeDeliveries (l : List EpochAction) (s : State) :
    (takeDeliveries l s).timebase = s.timebase := by
  induction l generalizing s with
  | nil => rfl
  | cons a l ih => exact (ih _).trans (timebase_takeDelivery a s)

/-- The command of a delivery takes it. -/
theorem exec_command (a : EpochAction) (s : State) : exec a.command s = s.take (takeDelivery a) := by cases a <;> rfl

end

end Sys2Proof.Machine

namespace Sys2Proof

open Machine

/-! ### The trees a command may act on -/

/-- Tree `j` is one on which the command may act: the one it names, or, where it names none, any. -/
def Instr.Reaches (c : Instr) (j : TreeId) : Prop := ∀ t, c.onlyTree = some t → j = t

/-- A command that names a tree may act on it. -/
theorem Instr.reaches_of_onlyTree {c : Instr} {t : TreeId} (h : c.onlyTree = some t) : c.Reaches t := by
  intro u hu
  exact Option.some.inj (h.symm.trans hu)

/-- A command that names no tree may act on any. -/
theorem Instr.reaches_of_none {c : Instr} (h : c.onlyTree = none) (j : TreeId) : c.Reaches j := by
  intro u hu
  simp [h] at hu

/-- A command for the tree of a byte may act on the tree that the byte names. -/
theorem Instr.reaches_of_parse {c : Instr} {b : Byte} (h : c.onlyTree = parseTree b) (t : TreeId)
    (ht : parseTree b = some t) : c.Reaches t := Instr.reaches_of_onlyTree (h.trans ht)

end Sys2Proof

namespace Sys2Proof.Machine

/-! ### What a command may touch -/

/-- What every command leaves: the queue of waiting commands, what its kind does not write, and the trees it does not name. -/
structure Framed (c : Instr) (s s' : State) : Prop where
  pending   : s'.pending = s.pending
  timebase  : c.resets = false → c.setsTimebase = false → s'.timebase = s.timebase
  admission : c.resets = false → c.writesAdmission = false → s'.admission = s.admission
  resetPin  : c.movesPin = false → s'.resetPin = s.resetPin
  params    : c.resets = false → c.writesParams = false → ∀ t, s'.params t = s.params t
  others    : ∀ t, c.onlyTree = some t → ∀ j, j ≠ t → s'.tree j = s.tree j

section
variable {c : Instr} {s s' s'' : State}

@[refl] theorem Framed.refl (s : State) : Framed c s s :=
  ⟨rfl, fun _ _ => rfl, fun _ _ => rfl, fun _ => rfl, fun _ _ _ => rfl, fun _ _ _ _ => rfl⟩

theorem Framed.trans (h : Framed c s s') (k : Framed c s' s'') : Framed c s s'' where
  pending := k.pending.trans h.pending
  timebase hr hw := (k.timebase hr hw).trans (h.timebase hr hw)
  admission hr hw := (k.admission hr hw).trans (h.admission hr hw)
  resetPin hw := (k.resetPin hw).trans (h.resetPin hw)
  params hr hw t := (k.params hr hw t).trans (h.params hr hw t)
  others t ht j hj := (k.others t ht j hj).trans (h.others t ht j hj)

/-- The work of the tree blocks, on the trees the command may act on. -/
theorem Beside.framed (h : Beside c.Reaches s s') (hk : ∀ j, TreeKeeps (s.tree j) (s'.tree j)) : Framed c s s' where
  pending := h.pending
  timebase _ _ := h.timebase
  admission _ _ := h.admission
  resetPin _ := h.resetPin
  params _ _ t := (hk t).params
  others t ht j hj := h.others j fun hr => hj (hr t ht)

theorem Within.framed (h : Within c.Reaches s s') : Framed c s s' := h.toBeside.framed h.keeps

theorem framed_port (p : Port) : Framed c s { s with port := p } :=
  ⟨rfl, fun _ _ => rfl, fun _ _ => rfl, fun _ => rfl, fun _ _ _ => rfl, fun _ _ _ _ => rfl⟩

theorem framed_settle : Framed c s s.settle := framed_port _

theorem framed_due (l : List EpochAction) : Framed c s { s with due := l } :=
  ⟨rfl, fun _ _ => rfl, fun _ _ => rfl, fun _ => rfl, fun _ _ _ => rfl, fun _ _ _ _ => rfl⟩

/-- What the Timebase's own commands write beside the trees: the Timebase, the deliveries, the free values used. -/
theorem framed_clock (hc : c.setsTimebase = true) (tb : Timebase) (l : List EpochAction) (n : Nat) :
    Framed c s { s with timebase := tb, due := l, freeIndex := n } :=
  ⟨rfl, fun _ h => by simp [hc] at h, fun _ _ => rfl, fun _ => rfl, fun _ _ _ => rfl, fun _ _ _ _ => rfl⟩

theorem framed_admission (hc : c.writesAdmission = true) (a : Admission) : Framed c s { s with admission := a } :=
  ⟨rfl, fun _ _ => rfl, fun _ h => by simp [hc] at h, fun _ => rfl, fun _ _ _ => rfl, fun _ _ _ _ => rfl⟩

/-- An event ends with the entry of its records, and nothing of it is taken while the reset pin is asserted (R190, R191). -/
theorem framed_take {f : State → State} (hf : Framed c s (f s)) (h : s.take f = .next s') : Framed c s s' := by
  obtain rfl : s.event f = s' := by simpa [State.take] using h
  unfold State.event
  split
  · exact Framed.refl s
  · exact hf.trans framed_settle

/-- A request ends with its reply placed, and is not taken while the reset pin is asserted (R186, R190). -/
theorem framed_request {tag : Byte} {f : State → Answer} (hf : Framed c s (f s).state) (h : s.request tag f = .next s') :
    Framed c s s' := by
  simp only [State.request, Host.Outcome.next.injEq] at h
  subst h
  split
  · exact Framed.refl s
  · exact (hf.trans framed_settle).trans (framed_port _)

/-! ### Epochs -/

theorem framed_takeDelivery {a : EpochAction} (ha : c.Reaches (deliveryTree a)) : Framed c s (takeDelivery a s) := by
  by_cases h : a ∈ s.due
  · rw [takeDelivery_of_mem h]
    exact ((framed_due _).trans (within_deliveryEffect a ha).framed).trans framed_settle
  · rw [takeDelivery_of_not_mem h]

theorem framed_takeDeliveries (hc : ∀ j, c.Reaches j) (l : List EpochAction) : Framed c s (takeDeliveries l s) := by
  induction l generalizing s with
  | nil => exact Framed.refl s
  | cons a l ih => exact (framed_takeDelivery (hc _)).trans ih

theorem framed_setCount (hc : c.setsTimebase = true) (n : Nat) : Framed c s (s.setCount n) := by
  unfold State.setCount
  split
  · exact framed_clock hc _ _ _
  · exact framed_clock hc _ _ _

theorem framed_beginEpoch (hc : c.setsTimebase = true) (hr : ∀ j, c.Reaches j) (k : Nat) : Framed c s (beginEpoch k s) :=
  ((framed_takeDeliveries hr _).trans (framed_setCount hc _)).trans (framed_due _)

theorem framed_epochStart (hc : c.setsTimebase = true) (hr : ∀ j, c.Reaches j) : Framed c s (epochStart s) := by
  unfold epochStart
  split
  · exact Framed.refl s
  · exact framed_beginEpoch hc hr _

theorem framed_raiseSlips (hc : c.setsTimebase = true) (n : Nat) : Framed c s (raiseSlips { s with freeIndex := n }) :=
  framed_clock hc _ _ _

theorem framed_afterRealignment (hr : ∀ j, c.Reaches j) (m : BitVec 64) (f : Nat) (x : Int) :
    Framed c s (afterRealignment m f x s) := ((within_slipTrees hr).trans (within_deliver _ _)).framed

theorem framed_epochMarker (hc : c.setsTimebase = true) (hr : ∀ j, c.Reaches j) (f : Nat) (early : List EpochAction) :
    Framed c s (epochMarker f early s) := by
  unfold epochMarker
  split
  · exact framed_clock hc _ _ _
  split
  · exact Framed.refl s
  split
  · exact ((framed_raiseSlips hc _).trans (framed_setCount hc _)).trans (framed_afterRealignment hr _ _ _)
  · exact (((framed_raiseSlips hc _).trans (framed_beginEpoch hc hr _)).trans (framed_takeDeliveries hr _)).trans
      (framed_afterRealignment hr _ _ _)

end

/-! ### The tree a request names -/

section
variable {s : State} {b n : Byte} {t : TreeId}

theorem parseTree_of_openTree (h : openTree s b = .ok t) : parseTree b = some t := by
  unfold openTree at h
  split at h
  · cases h
  · split at h
    · cases h
    · cases h
    all_goals
      cases h
      assumption

theorem parseTree_of_activeTree (h : activeTree s b = .ok t) : parseTree b = some t := by
  unfold activeTree at h
  split at h
  · cases h
  · split at h
    · cases h
    · cases h
    · cases h
    · cases h
      assumption

theorem parseTree_of_namedEntry {x : Named} (h : namedEntry s b n = .ok x) : parseTree b = some x.tree := by
  unfold namedEntry at h
  split at h
  · next u m hu _ =>
    split at h
    · cases h
    · cases h
    · cases h
    · split at h <;> cases h
      exact hu
  · cases h

end

/-! ### Requests -/

section
variable {P : TreeId → Prop} {s : State} {b n : Byte}

theorem state_ok (s : State) : (ok s).state = s := rfl

theorem within_treeOpenRequest (hP : ∀ t, parseTree b = some t → P t) : Within P s (treeOpenRequest b s).state := by
  unfold treeOpenRequest
  split
  · exact Within.refl s
  · next t ht =>
    split
    · exact Within.refl s
    · exact Within.refl s
    · exact Within.refl s
    · split
      · exact Within.refl s
      · exact (within_treeState (hP t ht) _).trans (within_treeReport _ _ _ _ _ _ _ _)

theorem within_treeReadConfigRequest : Within P s (treeReadConfigRequest b s).state := by
  unfold treeReadConfigRequest
  split
  · exact Within.refl s
  · split <;> exact Within.refl s

theorem within_treeCloseRequest (hP : ∀ t, parseTree b = some t → P t) : Within P s (treeCloseRequest b s).state := by
  unfold treeCloseRequest
  split
  · exact Within.refl s
  · next t ht =>
    split
    · exact Within.refl s
    · exact Within.refl s
    · exact Within.refl s
    · rw [state_ok]
      exact within_beginClose (hP t ht)

theorem within_treeStatusRequest : Within P s (treeStatusRequest b s).state := by
  unfold treeStatusRequest
  split <;> exact Within.refl s

theorem within_treeSuspendRequest (hP : ∀ t, parseTree b = some t → P t) : Within P s (treeSuspendRequest b s).state := by
  unfold treeSuspendRequest
  split
  · exact Within.refl s
  · next t ht => exact within_setSuspended (hP t (parseTree_of_openTree ht)) _

theorem within_treeResumeRequest (hP : ∀ t, parseTree b = some t → P t) : Within P s (treeResumeRequest b s).state := by
  unfold treeResumeRequest
  split
  · exact Within.refl s
  · next t ht =>
    have hp : P t := hP t (parseTree_of_openTree ht)
    split
    · exact ((within_setSuspended hp _).trans (within_startWindow hp)).trans (within_takeTasks hp)
    · exact Within.refl s

theorem within_ctxPushRequest (hP : ∀ t, parseTree b = some t → P t) (raw : RawContext) :
    Within P s (ctxPushRequest b raw s).state := by
  unfold ctxPushRequest
  split
  · exact Within.refl s
  · next t ht =>
    split
    · exact Within.refl s
    · split
      · exact Within.refl s
      · next hroom => exact within_pushContext (hP t (parseTree_of_openTree ht)) _ (Nat.lt_of_not_le hroom)

theorem within_ctxFlushRequest (hP : ∀ t, parseTree b = some t → P t) : Within P s (ctxFlushRequest b s).state := by
  unfold ctxFlushRequest
  split
  · exact Within.refl s
  · next t ht => exact within_flush (hP t (parseTree_of_openTree ht))

theorem within_forceQuietRequest (hP : ∀ t, parseTree b = some t → P t) : Within P s (forceQuietRequest b s).state := by
  unfold forceQuietRequest
  split
  · exact Within.refl s
  · next t ht =>
    split
    · exact Within.refl s
    · exact within_forceQuiet (hP t (parseTree_of_activeTree ht))

theorem within_refuseRequest (hP : ∀ t, parseTree b = some t → P t) (serial : Serial) :
    Within P s (refuseRequest b serial s).state := by
  unfold refuseRequest
  split
  · exact Within.refl s
  · next t ht =>
    split
    · exact Within.refl s
    · exact (within_removePending (hP t (parseTree_of_activeTree ht)) _).trans (within_pendingReport _ _ _ _ _)

/-- ADMIT can reach the pending lists of other trees (R74). -/
theorem within_admitRequest (hP : ∀ j, P j) (serial : Serial) : Within P s (admitRequest b serial s).state := by
  unfold admitRequest
  split
  · exact Within.refl s
  · next t _ =>
    split
    · exact Within.refl s
    · next r _ =>
      have hc : Within P s (createEntry t serial r.model r.c r.profile s).state := within_createEntry (hP t) _ _ _ _
      split
      · exact (within_removePending (hP t) _).trans (within_pendingReport _ _ _ _ _)
      · simp only
        split
        · exact ((hc.trans (within_removePending (hP t) _)).trans (within_pendingReport _ _ _ _ _)).trans
            (within_supersede hP _ _ _)
        · exact (hc.trans (within_removePending (hP t) _)).trans (within_pendingReport _ _ _ _ _)
        all_goals exact Within.refl s

theorem within_terminalRequest (hP : ∀ t, parseTree b = some t → P t) {accepts : EntryState → Bool}
    {act : Named → State → State} (hact : ∀ x : Named, P x.tree → Within P s (act x s)) :
    Within P s (terminalRequest b n accepts act s).state := by
  unfold terminalRequest
  split
  · exact Within.refl s
  · next x hx =>
    split
    · exact hact x (hP _ (parseTree_of_namedEntry hx))
    · exact Within.refl s

theorem within_readEntryRequest : Within P s (readEntryRequest b n s).state := by
  unfold readEntryRequest
  split <;> exact Within.refl s

theorem within_findSerialRequest (serial : Serial) : Within P s (findSerialRequest serial s).state := by
  unfold findSerialRequest
  split
  · exact Within.refl s
  · split <;> exact Within.refl s

end

section
variable {c : Instr} {s : State} {b : Byte}

/-- TREE_CONFIG writes the parameter set of the tree it names (R176). -/
theorem framed_treeConfigRequest (tag : Byte) (raw : RawParams) :
    Framed (.treeConfig tag b raw) s (treeConfigRequest b raw s).state := by
  unfold treeConfigRequest
  split
  · exact Framed.refl s
  · next t ht =>
    split
    · exact Framed.refl s
    · exact Framed.refl s
    · exact Framed.refl s
    · split
      · exact Framed.refl s
      · refine ⟨rfl, fun _ _ => rfl, fun _ _ => rfl, fun _ => rfl, fun _ h => by simp [Instr.writesParams] at h, ?_⟩
        intro u hu j hj
        obtain rfl : t = u := Option.some.inj (ht.symm.trans hu)
        exact tree_modTree_other s t j _ hj

theorem framed_catWriteRequest (hc : c.writesAdmission = true) (raw : RawCatEntry) :
    Framed c s (catWriteRequest b raw s).state := by
  unfold catWriteRequest
  split
  · exact Framed.refl s
  split
  · exact Framed.refl s
  split
  · exact Framed.refl s
  · exact framed_admission hc _

theorem framed_barWriteRequest (hc : c.writesAdmission = true) (raw : RawBarRange) :
    Framed c s (barWriteRequest b raw s).state := by
  unfold barWriteRequest
  split
  · exact Framed.refl s
  split
  · exact Framed.refl s
  split
  · exact Framed.refl s
  · exact framed_admission hc _

theorem framed_catReadRequest : Framed c s (catReadRequest b s).state := by
  unfold catReadRequest
  split <;> exact Framed.refl s

theorem framed_barReadRequest : Framed c s (barReadRequest b s).state := by
  unfold barReadRequest
  split <;> exact Framed.refl s

theorem framed_partSetupRequest (settings : Option (Byte × Byte)) : Framed c s (partSetupRequest settings s).state := by
  unfold partSetupRequest
  split
  · exact Framed.refl s
  split
  · exact Framed.refl s
  split
  · exact framed_port _
  · exact Framed.refl s

theorem framed_fetchReportsRequest : Framed c s (fetchReportsRequest b s).state := by
  unfold fetchReportsRequest
  split
  · exact framed_port _
  · exact Framed.refl s

end

/-! ### Records of a burst report link (R21) -/

section
variable {P : TreeId → Prop} {s : State} {t : TreeId}

/-- A quiet-interval burst stays on its tree but for tag 0, whose announce is judged against every tree (R46, R74). -/
theorem within_routeBurst (ht : P t) (tag : Tag) (hP : tag = .window → ∀ j, P j) (arrival : Int) (q : Quality)
    (payload : List Byte) : Within P s (routeBurst t tag arrival q payload s) := by
  cases tag with
  | window => exact within_windowBurst (hP rfl) _ _ _
  | probe => exact within_probeBurst ht _ _ _
  | silence => exact within_silenceBurst ht

end

/-! ### Every command -/

/-- The command of a delivery names the tree that the delivery is made to. -/
theorem onlyTree_command (a : EpochAction) : a.command.onlyTree = some (deliveryTree a) := by cases a <;> rfl

theorem framed_command {a : EpochAction} {s s' : State} (h : exec a.command s = .next s') : Framed a.command s s' := by
  rw [exec_command] at h
  exact framed_take (framed_takeDelivery (Instr.reaches_of_onlyTree (onlyTree_command a))) h

/-- What each command may touch. -/
theorem exec_framed {c : Instr} {s s' : State} (h : exec c s = .next s') : Framed c s s' := by
  cases c with
  | powerOn strap =>
    cases h
    exact ⟨rfl, nofun, nofun, fun _ => rfl, nofun, nofun⟩
  | resetPinAssert =>
    cases h
    exact ⟨rfl, fun _ _ => rfl, fun _ _ => rfl, nofun, fun _ _ _ => rfl, nofun⟩
  | resetPinRelease strap =>
    cases h
    exact ⟨rfl, nofun, nofun, nofun, nofun, nofun⟩
  | epochMarker f early => exact framed_take (framed_epochMarker rfl (Instr.reaches_of_none rfl) _ _) h
  | epochStart => exact framed_take (framed_epochStart rfl (Instr.reaches_of_none rfl)) h
  | activationDeadline t => exact framed_command (a := .activationDeadline t) h
  | lostHoldDeadline t => exact framed_command (a := .lostHoldDeadline t) h
  | pendingHoldDeadline t => exact framed_command (a := .pendingHoldDeadline t) h
  | spacingEnd t => exact framed_command (a := .spacingEnd t) h
  | probeWaitExpiry t => exact framed_command (a := .probeWaitExpiry t) h
  | auditSweep t => exact framed_command (a := .auditSweep t) h
  | heldRecheck t => exact framed_command (a := .heldRecheck t) h
  | responseDeadline t tag => exact framed_command (a := .responseDeadline t tag) h
  | resendEpoch t tag => exact framed_command (a := .resendEpoch t tag) h
  | nextCheckEpoch t => exact framed_command (a := .nextCheckEpoch t) h
  | huntCheckEpoch t => exact framed_command (a := .huntCheckEpoch t) h
  | loopMarkerEpoch t => exact framed_command (a := .loopMarkerEpoch t) h
  | slotCall t =>
    obtain ⟨hb, hk⟩ := slotCall_keeps (s := s) (P := (Instr.slotCall t).Reaches) (Instr.reaches_of_onlyTree rfl)
    exact framed_take (hb.framed hk) h
  | quietIntervalBurst t tag arrival q payload =>
    have hself : (Instr.quietIntervalBurst t tag arrival q payload).Reaches t := by
      intro u hu
      simp only [Instr.onlyTree] at hu
      split at hu
      · cases hu
      · exact Option.some.inj hu
    refine framed_take (within_routed t _ (within_routeBurst hself tag (fun hw => ?_) _ _ _)).framed h
    exact Instr.reaches_of_none (by simp [Instr.onlyTree, hw])
  | intervalEnd t tag =>
    exact framed_take (within_routed t _ (within_routeEnd (Instr.reaches_of_onlyTree rfl) tag)).framed h
  | grantedBurst t tn g arrival =>
    exact framed_take (within_routed t _ (within_routeGranted (Instr.reaches_of_onlyTree rfl) _ _ _)).framed h
  | miss t tn g => exact framed_take (within_routed t _ (within_routeMiss (Instr.reaches_of_onlyTree rfl) _)).framed h
  | ungrantedLight t arrival =>
    exact framed_take (within_routed t _ (within_unexplained (Instr.reaches_of_onlyTree rfl) _)).framed h
  | continuousLight t arrival =>
    exact framed_take (within_routed t _ (within_continuous (Instr.reaches_of_onlyTree rfl) _)).framed h
  | loop t arrival => exact framed_take (within_loopTaken (Instr.reaches_of_onlyTree rfl) _).framed h
  | grant t tag number start => exact framed_take (within_grantTaken (Instr.reaches_of_onlyTree rfl) _ _ _).framed h
  | defer t tag number e => exact framed_take (within_deferTaken (Instr.reaches_of_onlyTree rfl) _ _ _).framed h
  | schedulerRefuse t tag number => exact framed_take (within_refuseTaken (Instr.reaches_of_onlyTree rfl) _ _).framed h
  | malformedFrame => exact framed_request (tag := 0) (f := fun s => Machine.refuse s .malformed) (Framed.refl s) h
  | readTransaction clocked => exact framed_take (framed_port _) h
  | identify tag => exact framed_request (Framed.refl s) h
  | partSetup tag settings => exact framed_request (framed_partSetupRequest _) h
  | partReset tag =>
    refine framed_request ?_ h
    exact ⟨rfl, nofun, nofun, fun _ => rfl, nofun, nofun⟩
  | fetchReports tag n => exact framed_request framed_fetchReportsRequest h
  | catWrite tag index raw => exact framed_request (framed_catWriteRequest rfl _) h
  | catRead tag index => exact framed_request framed_catReadRequest h
  | catLock tag => exact framed_request (framed_admission rfl _) h
  | barWrite tag index raw => exact framed_request (framed_barWriteRequest rfl _) h
  | barRead tag index => exact framed_request framed_barReadRequest h
  | treeConfig tag b raw => exact framed_request (framed_treeConfigRequest tag raw) h
  | treeReadConfig tag b => exact framed_request within_treeReadConfigRequest.framed h
  | treeOpen tag b => exact framed_request (within_treeOpenRequest (Instr.reaches_of_parse rfl)).framed h
  | treeClose tag b => exact framed_request (within_treeCloseRequest (Instr.reaches_of_parse rfl)).framed h
  | treeStatus tag b => exact framed_request within_treeStatusRequest.framed h
  | ctxPush tag b raw => exact framed_request (within_ctxPushRequest (Instr.reaches_of_parse rfl) _).framed h
  | ctxFlush tag b => exact framed_request (within_ctxFlushRequest (Instr.reaches_of_parse rfl)).framed h
  | treeSuspend tag b => exact framed_request (within_treeSuspendRequest (Instr.reaches_of_parse rfl)).framed h
  | treeResume tag b => exact framed_request (within_treeResumeRequest (Instr.reaches_of_parse rfl)).framed h
  | forceQuiet tag b => exact framed_request (within_forceQuietRequest (Instr.reaches_of_parse rfl)).framed h
  | admitSerial tag b serial => exact framed_request (within_admitRequest (Instr.reaches_of_none rfl) _).framed h
  | refuse tag b serial => exact framed_request (within_refuseRequest (Instr.reaches_of_parse rfl) _).framed h
  | rangeNow tag b n =>
    exact framed_request (within_terminalRequest (Instr.reaches_of_parse rfl) fun x => within_rangeNow x).framed h
  | retireTn tag b n =>
    exact framed_request (within_terminalRequest (Instr.reaches_of_parse rfl) fun x => within_retireTn x).framed h
  | muteTn tag b n =>
    exact framed_request (within_terminalRequest (Instr.reaches_of_parse rfl) fun x => within_muteTn x).framed h
  | unmuteTn tag b n =>
    exact framed_request (within_terminalRequest (Instr.reaches_of_parse rfl) fun x => within_unmuteTn x).framed h
  | readEntry tag b n => exact framed_request within_readEntryRequest.framed h
  | findSerial tag serial => exact framed_request (within_findSerialRequest _).framed h

/-- Settles O12: a command touches no tree but the one it names. -/
theorem otherTreesUntouched : Obligations.OtherTreesUntouched :=
  fun _ t _ _ ht h => (exec_framed h).others t ht

/-- Settles O13: each block is left by every command but those that write it. -/
theorem partWideFrame : Obligations.PartWideFrame := by
  intro c s s' h
  obtain ⟨hpending, htimebase, hadmission, hpin, hparams, -⟩ := exec_framed h
  exact ⟨hpending, htimebase, hadmission, hpin, hparams⟩

end Sys2Proof.Machine
end

section
/-! PROOF. The part after reset (O2, O3), the resets (O14), and the Timebase in step (O16, O17). -/

namespace Sys2Proof.Machine

/-! ### The values after reset -/

/-- After power-on every tree is a tree just reset, with one ALL_OFF sent. -/
@[simp] theorem tree_reset (t : TreeId) : State.reset.tree t = Tree.resetWith LinkOut.empty := by
  simp [State.tree, State.reset]

section
variable (out : LinkOut) (tn : Nat) (tag : Tag)

@[simp] theorem entry?_resetWith : (Tree.resetWith out).entry? tn = none := by
  cases h : slotIndex tn <;> simp [Tree.entry?, h, Tree.resetWith, Slot.reset]

@[simp] theorem slotInst_resetWith : (Tree.resetWith out).slotInst tn = 0 := by
  cases h : slotIndex tn <;> simp [Tree.slotInst, h, Tree.resetWith, Slot.reset]

@[simp] theorem chan_resetWith : (Tree.resetWith out).chan tag = Channel.reset := by cases tag <;> rfl

end

/-- Settles O2: block by block, each tree being one just reset. -/
theorem resetValues : Obligations.ResetValues := by
  refine ⟨rfl, ⟨rfl, rfl, rfl, rfl, rfl, rfl, rfl⟩, ⟨rfl, fun i => ?_, fun i => ?_⟩, rfl, fun t => ?_⟩
  · simp [State.reset, Admission.reset, BarRange.reset]
  · simp [State.reset, Admission.reset, CatEntry.reset]
  · rw [tree_reset]
    exact ⟨⟨rfl, rfl, rfl, rfl, rfl⟩, fun tn => ⟨entry?_resetWith _ tn, slotInst_resetWith _ tn⟩, ⟨rfl, rfl⟩,
      ⟨rfl, rfl, rfl⟩, fun tag => chan_resetWith _ tag, rfl, rfl, rfl, rfl⟩

/-! ### The laws after reset -/

theorem delivered_reset (i : Poster) : Port.reset.delivered[i] = [] := by simp [Port.reset]

theorem portLawful_reset : Port.reset.Lawful false :=
  ⟨by simp [Port.reset], by simp [Port.reset], by simp [Port.reset], delivered_reset, rfl⟩

section
variable (out : LinkOut)

theorem tasksLawful_resetWith : (Tree.resetWith out).TasksLawful :=
  ⟨Nat.zero_le _, List.nodup_nil, List.Pairwise.nil, fun tn e he => by simp at he⟩

theorem residualsLawful_resetWith : (Tree.resetWith out).ResidualsLawful := fun tn e r he => by simp at he

theorem fits_resetWith : (Tree.resetWith out).Fits :=
  ⟨Nat.zero_le _, Nat.zero_le _, Nat.zero_le _, List.nodup_nil, Nat.zero_le _, ⟨Nat.zero_le _, List.nodup_nil⟩,
    Nat.zero_le _⟩

/-- A tree just reset has nothing asked for, so Law 12 finds it CLOSED, at rest and empty. -/
theorem closedLawful_resetWith : (Tree.resetWith out).ClosedLawful where
  owned := ⟨nofun, nofun, nofun⟩
  owes tn e o he := by simp at he
  byState :=
    ⟨⟨rfl, rfl, rfl, fun tn e he => by simp at he, rfl, rfl, fun tag => by simp; rfl⟩,
      ⟨entry?_resetWith out, rfl, rfl⟩, .inl ⟨rfl, rfl⟩⟩

/-- The ALL_OFF of the reset spells an empty on-air set. -/
theorem entriesLawful_resetWith : (Tree.resetWith out).EntriesLawful where
  notices := by simp [Tree.resetWith, GrantMsg.announce]
  ordered := List.Pairwise.nil
  onAir tn := ⟨nofun, fun ⟨e, he, _⟩ => by simp at he⟩
  delay tn e he := by simp at he
  samples tn e d he := by simp at he

end

/-- Settles O3: the laws of a tree just reset, for each of the four, and of the port's initial values. -/
theorem lawsAtReset : Obligations.LawsAtReset := by
  refine ⟨portLawful_reset, ?_, ?_, ?_, ⟨List.nodup_nil, nofun, ?_⟩, ?_, ?_⟩
  · exact fun t => tree_reset t ▸ tasksLawful_resetWith _
  · exact fun t => tree_reset t ▸ residualsLawful_resetWith _
  · exact fun t => tree_reset t ▸ fits_resetWith _
  · exact fun t tn e he => by simp [State.entry?] at he
  · exact fun t => tree_reset t ▸ closedLawful_resetWith _
  · exact fun t => tree_reset t ▸ entriesLawful_resetWith _

/-! ### The resets (R190) -/

/-- A part reset leaves no record to the arbiter. -/
theorem settle_partReset (adm : Admission) (s : State) : (partReset adm s).settle = partReset adm s :=
  settle_of_entered delivered_reset

/-- Settles O14: PART_RESET leaves no record to enter before its reply; the others are their values outright. -/
theorem resetsSetTheBlocks : Obligations.ResetsSetTheBlocks := by
  refine ⟨fun s tag hpin => ?_, fun _ _ => rfl, fun _ _ => rfl, fun _ => rfl⟩
  show s.request tag partResetRequest = _
  have hreq : (partResetRequest s).state.settle = partReset s.admission s := settle_partReset _ _
  rw [State.request, if_neg (by simp [hpin]), hreq]
  rfl

/-! ### Between epochs (R1..R4) -/

section
variable {s : State}

theorem running_ne_waiting (h : s.timebase.status = .running) : s.timebase.status ≠ .waiting := by simp [h]

/-- An event that delivers no record and leaves the port ends as its effect left the part. -/
theorem take_of_same_port (hs : s.Taking) {f : State → State} {x : State} (hf : f s = x) (hp : x.port = s.port) :
    s.take f = .next x := by
  rw [take_of_taking hs, hf, settle_of_entered (hp ▸ hs.entered)]

/-- Within its span, the count takes the value it is set to, and no free value is used. -/
theorem setCount_eq (s : State) {n : Nat} (h : n < 2 ^ 64) :
    s.setCount n = { s with timebase := { s.timebase with count := BitVec.ofNat 64 n } } := if_pos h

/-- A state whose count is that of the start of epoch `k`, within the span, is in epoch `k`. -/
theorem epoch_of_count {k : Nat} (hc : s.timebase.count = BitVec.ofNat 64 (10000000 * k)) (h : 10000000 * k < 2 ^ 64) :
    s.epoch = k := by
  simp only [State.epoch, hc, BitVec.toNat_ofNat, Nat.mod_eq_of_lt h]
  exact Nat.mul_div_cancel_left k (by decide)

theorem timebase_beginEpoch {k : Nat} (h : 10000000 * k < 2 ^ 64) :
    (beginEpoch k s).timebase = { s.timebase with count := BitVec.ofNat 64 (10000000 * k) } := by
  simp only [beginEpoch, setCount_eq _ h, flushDeliveries, timebase_takeDeliveries]

/-- Where no delivery stands, the next epoch begins with nothing taken before it. -/
theorem beginEpoch_of_none_due {k : Nat} (h : 10000000 * k < 2 ^ 64) (hd : s.due = []) :
    beginEpoch k s =
      { s with
        timebase := { s.timebase with count := BitVec.ofNat 64 (10000000 * k) }
        due := allDeliveries } := by
  simp only [beginEpoch, setCount_eq _ h, flushDeliveries, hd, takeDeliveries, List.foldl_nil]

theorem epochStart_of_running (h : s.timebase.status = .running) : epochStart s = beginEpoch (s.epoch + 1) s :=
  if_neg (running_ne_waiting h)

end

/-- Settles O16: branch by branch of EPOCH_MARKER and EPOCH_START. -/
theorem timebaseRuns : Obligations.TimebaseRuns := by
  intro s hs
  refine ⟨fun f early hw => take_of_same_port hs (if_pos hw) rfl, fun early hr => take_of_same_port hs ?_ rfl,
    fun hw => take_of_same_port hs (if_pos hw) rfl, fun hr hspan => ?_, fun hr hspan hd => ?_⟩
  · show epochMarker 0 early s = s
    rw [epochMarker, if_neg (running_ne_waiting hr), if_pos rfl]
  · refine ⟨(epochStart s).settle, take_of_taking hs _, ?_⟩
    rw [timebase_settle, epoch_settle, due_settle, epochStart_of_running hr]
    have htb := timebase_beginEpoch (s := s) hspan
    exact ⟨htb, epoch_of_count (by rw [htb]) hspan, rfl⟩
  · have hstart := (epochStart_of_running hr).trans (beginEpoch_of_none_due hspan hd)
    exact take_of_same_port hs hstart rfl

/-- Settles O17: a delivery acts on its tree alone, so neither the Timebase nor another delivery is touched. -/
theorem deliveriesTakenOnce : Obligations.DeliveriesTakenOnce := by
  intro a s hs
  refine ⟨fun h => ?_, fun h => ⟨(takeDelivery a s).settle, ?_, ?_, timebase_takeDelivery a s⟩⟩
  · rw [exec_command]
    exact take_of_same_port hs (takeDelivery_of_not_mem h) rfl
  · rw [exec_command]
    exact take_of_taking hs _
  · rw [due_settle, takeDelivery_of_mem h, due_settle]
    exact within_deliveryEffect_self.due

end Sys2Proof.Machine
end

section
/-! PROOF. A time slip (O15): what the slip event does to one tree, step by step through its blocks, what the arbiter makes of
the records delivered in one event, and the realignment of the count. -/

namespace Sys2Proof.Machine

/-! ### What an operation on a grant link leaves of its tree -/

/-- Two trees that differ at most in their channels, in what has left on their links, in the on-air set and in the pending
list. -/
structure SameBlocks (T U : Tree) : Prop where
  ctl   : U.ctl = T.ctl
  slots : U.slots = T.slots
  msgq  : U.msgq = T.msgq
  disc  : U.disc = T.disc
  seq   : U.seq = T.seq
  light : U.light = T.light

section
variable {T U V : Tree} {s : State} {t : TreeId}

@[refl] theorem SameBlocks.refl (T : Tree) : SameBlocks T T := ⟨rfl, rfl, rfl, rfl, rfl, rfl⟩

theorem SameBlocks.trans (h : SameBlocks T U) (k : SameBlocks U V) : SameBlocks T V :=
  ⟨k.ctl.trans h.ctl, k.slots.trans h.slots, k.msgq.trans h.msgq, k.disc.trans h.disc, k.seq.trans h.seq,
    k.light.trans h.light⟩

theorem sameBlocks_setChan (T : Tree) (tag : Tag) (c : Channel) : SameBlocks T (T.setChan tag c) :=
  ⟨ctl_setChan T tag c, slots_setChan T tag c, msgq_setChan T tag c, disc_setChan T tag c, seq_setChan T tag c,
    light_setChan T tag c⟩

theorem sameBlocks_sendLink (m : GrantMsg) : SameBlocks (s.tree t) ((sendLink t m s).tree t) := by
  rw [sendLink, tree_modOut_same]
  exact ⟨rfl, rfl, rfl, rfl, rfl, rfl⟩

theorem sameBlocks_chanSend (tag : Tag) (req : Request) : SameBlocks (s.tree t) ((chanSend t tag req s).tree t) := by
  refine SameBlocks.trans ?_ (sameBlocks_sendLink _)
  rw [tree_setChan_same]
  exact sameBlocks_setChan _ _ _

theorem sameBlocks_chanWithdraw (tag : Tag) : SameBlocks (s.tree t) ((chanWithdraw t tag s).tree t) := by
  rw [chanWithdraw, tree_setChan_same]
  exact sameBlocks_setChan _ _ _

theorem sameBlocks_chanRelease (tag : Tag) : SameBlocks (s.tree t) ((chanRelease t tag s).tree t) := by
  unfold chanRelease
  split
  · refine SameBlocks.trans ?_ (sameBlocks_sendLink _)
    rw [tree_setChan_same]
    exact sameBlocks_setChan _ _ _
  all_goals exact SameBlocks.refl _

/-! ### The blocks of a tree on a slip, in the order of the slip event -/

/-- The controller of a tree after a slip in epoch `e`: a calibration run begins anew (R179). -/
def Controller.slipped (e : Nat) (c : Controller) : Controller :=
  match c.state with
  | .calibrating r => { c with state := .calibrating (CalRun.fresh r.run (e + 4) (raiseTo 255 r.restarts) r.first) }
  | .closed | .active | .closing => c

theorem calibrationSlip_tree :
    (calibrationSlip t s).tree t = { s.tree t with ctl := (s.tree t).ctl.slipped s.epoch } := by
  unfold calibrationSlip Controller.slipped
  split <;> simp [State.setTreeState, *]

/-- A window after a slip in epoch `e` on a tree with these parameters and this light condition (R96). -/
def DiscState.slipped (pr : Params) (light : Light) (e : Nat) (d : DiscState) : DiscState :=
  match d with
  | .requesting w _ | .posted w _ _ _ => .requesting w (windowEarliest pr e)
  | .collecting w _ _ _ _ _ => if light = .quiet then .requesting w (windowEarliest pr e) else .due (some w)
  | .stopped | .spacing _ | .due _ => d

/-- A request for a window sets the discovery state alone (R82). -/
theorem sendWindow_tree (w : Context) (h : SameBlocks T (s.tree t)) {e : Nat} (he : s.epoch = e) :
    SameBlocks { T with disc := { T.disc with state := .requesting w (windowEarliest T.ctl.params e) } }
      ((sendWindow t w s).tree t) := by
  obtain ⟨hctl, hslots, hmsgq, hdisc, hseq, hlight⟩ :=
    h.trans (sameBlocks_chanSend .window
      { kind := .quiet, length := windowLength (s.params t) w, earliest := windowEarliest (s.params t) s.epochInt })
  rw [sendWindow, State.setDisc, tree_modDisc_same]
  refine ⟨hctl, hslots, hmsgq, ?_, hseq, hlight⟩
  rw [hdisc, State.params, h.ctl, State.epochInt, he]

theorem raiseDiscStale_tree :
    (s.raiseDiscStale t).tree t =
      { s.tree t with disc := { (s.tree t).disc with stale := s.raisedStale (s.tree t).disc.stale } } :=
  tree_modDisc_same s t fun d => { d with stale := s.raisedStale d.stale }

/-- The queue once the items of one poster have been withdrawn (R29). -/
theorem withdrawItems_tree (by_ : Issuer) :
    (withdrawItems t by_ s).tree t =
      { s.tree t with
        msgq := { (s.tree t).msgq with items := (s.tree t).msgq.items.filter fun it => !(it.issuer == by_) } } :=
  tree_modMsgq_same s t _

theorem itemsKept_none (T : Tree) : T.itemsKept false false = T.msgq.items := by simp [Tree.itemsKept]

/-- The Discovery Unit of a tree after a slip in epoch `e`, with its stale count `n`: the INVITE of a POSTED window is
withdrawn (R96). -/
def Tree.windowSlipped (T : Tree) (e : Nat) (n : Byte) : Tree :=
  { T with
    msgq := { T.msgq with items := T.itemsKept T.windowPosted false }
    disc := { T.disc with state := T.disc.state.slipped T.ctl.params T.light.light e, stale := n } }

theorem discSlip_tree : ∃ n, SameBlocks ((s.tree t).windowSlipped s.epoch n) ((discSlip t s).tree t) := by
  unfold discSlip
  split
  · next w qe hd =>
    have h := sendWindow_tree w (sameBlocks_chanWithdraw (s := s) (t := t) .window) (calm_chanWithdraw _).epoch
    refine ⟨(s.tree t).disc.stale, h.ctl, h.slots, ?_, ?_, h.seq, h.light⟩
    · rw [h.msgq]
      simp [Tree.windowSlipped, Tree.windowPosted, hd, itemsKept_none]
    · rw [h.disc]
      simp [Tree.windowSlipped, DiscState.slipped, hd]
  · next w number qs gw hd =>
    have h := sendWindow_tree w (sameBlocks_chanRelease (s := withdrawItems t .discovery s) (t := t) .window)
      ((calm_withdrawItems _).trans (calm_chanRelease _)).epoch
    rw [withdrawItems_tree] at h
    refine ⟨(s.tree t).disc.stale, h.ctl, h.slots, ?_, ?_, h.seq, h.light⟩
    · rw [h.msgq]
      simp [Tree.windowSlipped, Tree.windowPosted, hd, Tree.itemsKept]
    · rw [h.disc]
      simp [Tree.windowSlipped, DiscState.slipped, hd]
  · next w number qs gw dispatch coll hd =>
    have h1 : SameBlocks
        { s.tree t with disc := { (s.tree t).disc with stale := s.raisedStale (s.tree t).disc.stale } }
        ((windowReport t number (s.tree t).disc.repeatIndex .slip (some .rerun) w dispatch coll
          (s.raiseDiscStale t)).tree t) := by
      rw [windowReport, tree_report, raiseDiscStale_tree]
    refine ⟨s.raisedStale (s.tree t).disc.stale, ?_⟩
    simp only
    split
    · next hq =>
      have h := sendWindow_tree w h1 (within_raiseDiscStale (P := (· = t)) (s := s) rfl).epoch
      refine ⟨h.ctl, h.slots, ?_, ?_, h.seq, h.light⟩
      · rw [h.msgq]
        simp [Tree.windowSlipped, Tree.windowPosted, hd, itemsKept_none]
      · rw [h.disc]
        simp [Tree.windowSlipped, DiscState.slipped, hd, hq]
    · next hq =>
      rw [State.setDisc, tree_modDisc_same]
      refine ⟨h1.ctl, h1.slots, ?_, ?_, h1.seq, h1.light⟩
      · refine h1.msgq.trans ?_
        simp [Tree.windowSlipped, Tree.windowPosted, hd, itemsKept_none]
      · rw [h1.disc]
        simp [Tree.windowSlipped, DiscState.slipped, hd, hq]
  all_goals
    next hd =>
    have hstay : (s.tree t).disc.state.slipped (s.tree t).ctl.params (s.tree t).light.light s.epoch =
        (s.tree t).disc.state := by
      rw [hd]
      rfl
    refine ⟨(s.tree t).disc.stale, rfl, rfl, ?_, ?_, rfl, rfl⟩
    · simp [Tree.windowSlipped, Tree.windowPosted, hd, itemsKept_none]
    · simp [Tree.windowSlipped, hstay]

/-- A request for a probe interval sets the operation alone (R106). -/
theorem sendProbe_tree (o : ProbeOp) (pl : Placement) (h : SameBlocks T (s.tree t)) {e : Nat} (he : s.epoch = e) :
    SameBlocks
      { T with seq := { T.seq with
          op := some { o with phase := .requesting pl (probeEarliest e pl), waitStart := o.waitFrom e } } }
      ((sendProbe t o pl s).tree t) := by
  obtain ⟨hctl, hslots, hmsgq, hdisc, hseq, hlight⟩ :=
    h.trans (sameBlocks_chanSend .probe
      { kind := .quiet, length := pl.length, earliest := probeEarliest s.epochInt pl })
  rw [sendProbe, State.setOp, tree_modSeq_same]
  refine ⟨hctl, hslots, hmsgq, hdisc, ?_, hlight⟩
  rw [hseq, State.epochInt, he]

theorem raiseSeqStale_tree :
    (s.raiseSeqStale t).tree t =
      { s.tree t with seq := { (s.tree t).seq with stale := s.raisedStale (s.tree t).seq.stale } } :=
  tree_modSeq_same s t fun q => { q with stale := s.raisedStale q.stale }

/-- The operation of a tree after a slip in epoch `e`: its interval is requested anew (R120, R145). -/
def ProbeOp.slipped (e : Nat) (o : ProbeOp) : ProbeOp :=
  match o.phase with
  | .held | .waitDelay => o
  | .requesting pl _ | .posted pl _ _ _ | .listening pl _ _ _ _ =>
    { o with phase := .requesting pl (probeEarliest e pl), waitStart := o.waitFrom e }

/-- The Task Sequencer of a tree after a slip in epoch `e`, with its stale count `n`: the PROBE of a POSTED operation is
withdrawn (R120). -/
def Tree.opSlipped (T : Tree) (e : Nat) (n : Byte) : Tree :=
  { T with
    msgq := { T.msgq with items := T.itemsKept false T.opPosted }
    seq := { T.seq with op := T.seq.op.map (ProbeOp.slipped e), stale := n } }

theorem opPosted_iff : T.opPosted = true ↔ ∃ o pl qe qs g, T.seq.op = some o ∧ o.phase = .posted pl qe qs g := by
  unfold Tree.opPosted
  split
  · next h => simp [h]
  · next h =>
    simp only [Bool.false_eq_true, false_iff, not_exists, not_and]
    rintro ⟨tn, inst, serial, kind, expected, stage, phase, waitStart⟩ pl qe qs g ho rfl
    exact h _ _ _ _ _ _ _ _ _ _ _ ho

/-- The operation in another phase than POSTED has no PROBE in the queue. -/
theorem opPosted_of_other {o : ProbeOp} (ho : T.seq.op = some o) (hp : ∀ pl qe qs g, o.phase ≠ .posted pl qe qs g) :
    T.opPosted = false := by
  rw [← Bool.not_eq_true, opPosted_iff]
  rintro ⟨o', pl, qe, qs, g, ho', hpo⟩
  obtain rfl := Option.some.inj (ho.symm.trans ho')
  exact hp pl qe qs g hpo

/-- A tree whose operation, if any, asks for no interval keeps its sequencer. -/
theorem opSlipped_of_stays {e : Nat} (hp : T.opPosted = false) (ho : T.seq.op.map (ProbeOp.slipped e) = T.seq.op) :
    T.opSlipped e T.seq.stale = T := by
  simp [Tree.opSlipped, hp, ho, itemsKept_none]

theorem probeSlip_tree : ∃ n, SameBlocks ((s.tree t).opSlipped s.epoch n) ((probeSlip t s).tree t) := by
  unfold probeSlip
  split
  · next ho =>
    refine ⟨(s.tree t).seq.stale, ?_⟩
    rw [opSlipped_of_stays (by simp [← Bool.not_eq_true, opPosted_iff, ho]) (by simp [ho])]
  · next o ho =>
    split
    case h_1 | h_2 =>
      next hph =>
      refine ⟨(s.tree t).seq.stale, ?_⟩
      rw [opSlipped_of_stays (opPosted_of_other ho (by simp [hph])) (by simp [ho, ProbeOp.slipped, hph])]
    case h_3 =>
      next pl qe hph =>
      have hp := opPosted_of_other ho (by simp [hph])
      have h := sendProbe_tree o pl (sameBlocks_chanWithdraw (s := s) (t := t) .probe) (calm_chanWithdraw _).epoch
      refine ⟨(s.tree t).seq.stale, h.ctl, h.slots, ?_, h.disc, ?_, h.light⟩
      · rw [h.msgq]
        simp [Tree.opSlipped, hp, itemsKept_none]
      · rw [h.seq]
        simp [Tree.opSlipped, ProbeOp.slipped, ho, hph]
    case h_4 =>
      next pl qe qs g hph =>
      have hp : (s.tree t).opPosted = true := opPosted_iff.2 ⟨o, pl, qe, qs, g, ho, hph⟩
      have h := sendProbe_tree o pl (sameBlocks_chanRelease (s := withdrawItems t .sequencer s) (t := t) .probe)
        ((calm_withdrawItems _).trans (calm_chanRelease _)).epoch
      rw [withdrawItems_tree] at h
      refine ⟨(s.tree t).seq.stale, h.ctl, h.slots, ?_, h.disc, ?_, h.light⟩
      · rw [h.msgq]
        simp [Tree.opSlipped, hp, Tree.itemsKept]
      · rw [h.seq]
        simp [Tree.opSlipped, ProbeOp.slipped, ho, hph]
    case h_5 =>
      next pl qe qs g ec hph =>
      have hp := opPosted_of_other ho (by simp [hph])
      have h := sendProbe_tree o pl (SameBlocks.refl ((s.raiseSeqStale t).tree t))
        (within_raiseSeqStale (P := (· = t)) (s := s) rfl).epoch
      rw [raiseSeqStale_tree] at h
      refine ⟨s.raisedStale (s.tree t).seq.stale, h.ctl, h.slots, ?_, h.disc, ?_, h.light⟩
      · rw [h.msgq]
        simp [Tree.opSlipped, hp, itemsKept_none]
      · rw [h.seq]
        simp [Tree.opSlipped, ProbeOp.slipped, ho, hph]

/-- The drift fields of an entry after a slip in epoch `e` (R135). -/
def Drift.slipped (e : Nat) (d : Drift) : Drift := { d with sum := 0, n := 0, settle := d.settle.slipped e }

theorem driftSlip_tree :
    (driftSlip t s).tree t = (s.tree t).mapEntries fun x => x.modDrift (Drift.slipped s.epoch) :=
  tree_modTree_same s t _

/-- A silence check sent sets the check alone (R164). -/
theorem sendCheck_tree (p : Purpose) (h : SameBlocks T (s.tree t)) {e : Nat} (he : s.epoch = e) :
    SameBlocks
      { T with light := { T.light with check := some { purpose := p, qe := silenceEarliest e, phase := .requesting } } }
      ((sendCheck t p s).tree t) := by
  obtain ⟨hctl, hslots, hmsgq, hdisc, hseq, hlight⟩ :=
    h.trans (sameBlocks_chanSend .silence
      { kind := .silence, length := (s.params t).silenceLen, earliest := silenceEarliest s.epochInt })
  rw [sendCheck, tree_modLight_same]
  refine ⟨hctl, hslots, hmsgq, hdisc, hseq, ?_⟩
  rw [hlight, State.epochInt, he]

theorem raiseLightStale_tree :
    (s.raiseLightStale t).tree t =
      { s.tree t with light := { (s.tree t).light with stale := s.raisedStale (s.tree t).light.stale } } :=
  tree_modLight_same s t fun l => { l with stale := s.raisedStale l.stale }

/-- A check given up is gone, and a listening one counts its interval stale (R164). -/
theorem giveUpCheck_tree :
    ∃ n, SameBlocks { s.tree t with light := { (s.tree t).light with check := none, stale := n } }
      ((giveUpCheck t s).tree t) := by
  unfold giveUpCheck
  split
  · next hc =>
    exact ⟨(s.tree t).light.stale, rfl, rfl, rfl, rfl, rfl, by rw [← hc]⟩
  · simp only
    rw [tree_modLight_same]
    split
    · obtain ⟨hctl, hslots, hmsgq, hdisc, hseq, hlight⟩ := sameBlocks_chanWithdraw (s := s) (t := t) .silence
      exact ⟨(s.tree t).light.stale, hctl, hslots, hmsgq, hdisc, hseq, by rw [hlight]⟩
    · rw [raiseLightStale_tree]
      exact ⟨_, rfl, rfl, rfl, rfl, rfl, rfl⟩

/-- The Light Monitor of a tree after a slip in epoch `e`, with its stale count `n`: a check in flight is sent anew under its
purpose (R173). -/
def Tree.checkSlipped (T : Tree) (e : Nat) (n : Byte) : Tree :=
  { T with
    light := { T.light with
      stale := n
      check := T.light.check.map fun c => { purpose := c.purpose, qe := silenceEarliest e, phase := .requesting } } }

theorem lightSlip_tree : ∃ n, SameBlocks ((s.tree t).checkSlipped s.epoch n) ((lightSlip t s).tree t) := by
  unfold lightSlip
  split
  · next c hc =>
    obtain ⟨n, hg⟩ := giveUpCheck_tree (s := s) (t := t)
    have h := sendCheck_tree c.purpose hg (within_giveUpCheck (P := (· = t)) rfl).epoch
    refine ⟨n, h.ctl, h.slots, h.msgq, h.disc, h.seq, ?_⟩
    rw [h.light]
    simp [Tree.checkSlipped, hc]
  · next hc =>
    refine ⟨(s.tree t).light.stale, rfl, rfl, rfl, rfl, rfl, ?_⟩
    rw [Tree.checkSlipped, hc, Option.map_none, ← hc]

/-! ### The slip event at one tree -/

theorem params_slipped (e : Nat) (c : Controller) : (c.slipped e).params = c.params := by
  unfold Controller.slipped
  split <;> rfl

/-- Both withdrawals of a slip, one after the other. -/
theorem itemsKept_itemsKept (T : Tree) (a b : Bool) {U : Tree} (h : U.msgq.items = T.itemsKept a false) :
    U.itemsKept false b = T.itemsKept a b := by
  simp only [Tree.itemsKept, h, List.filter_filter]
  refine List.filter_congr fun it _ => ?_
  cases a <;> cases b <;> simp [Bool.and_comm]

theorem opPosted_of_seq (h : U.seq = T.seq) : U.opPosted = T.opPosted := by simp only [Tree.opPosted, h]

/-- A drift update of a slip as `Tree.Slipped` says it. -/
theorem modDrift_slipped (e : Nat) (x : Entry) :
    x.modDrift (Drift.slipped e) =
      { x with
        state :=
          match x.state with
          | .operating d =>
            .operating
              { d with
                sum := 0, n := 0
                settle :=
                  match d.settle with
                  | .epoch k => .epoch (max k (e + 2))
                  | .notYet => .notYet }
          | st => st } := by
  obtain ⟨inst, st, serial, model, profile, c, rrt, ld, r, ever, attempts, waiting, owed, resend⟩ := x
  cases st <;> rfl

/-- A tree that has gone through the slip of each of its blocks in epoch `e`, from `T` by `U` and `V` to `W`: the controller
and the Discovery Unit, then the Task Sequencer, then the Drift Tracker and the Light Monitor. -/
theorem slipped_of_blocks {W : Tree} {e : Nat} {n m k : Byte}
    (hU : SameBlocks (({ T with ctl := T.ctl.slipped e } : Tree).windowSlipped e n) U)
    (hV : SameBlocks (U.opSlipped e m) V)
    (hW : SameBlocks ((V.mapEntries fun x => x.modDrift (Drift.slipped e)).checkSlipped e k) W) : T.Slipped W e where
  queue := by
    have hitems : U.itemsKept false U.opPosted = T.itemsKept T.windowPosted T.opPosted := by
      rw [opPosted_of_seq hU.seq]
      exact itemsKept_itemsKept T _ _ (by rw [hU.msgq]; rfl)
    calc W.msgq = V.msgq := hW.msgq
      _ = { U.msgq with items := U.itemsKept false U.opPosted } := hV.msgq
      _ = { T.msgq with items := T.itemsKept T.windowPosted T.opPosted } := by rw [hitems, hU.msgq]; rfl
  window := by
    have hstate : W.disc.state = T.disc.state.slipped T.ctl.params T.light.light e := by
      rw [hW.disc, ← params_slipped e T.ctl]
      exact (congrArg Discovery.state hV.disc).trans (congrArg Discovery.state hU.disc)
    rw [hstate]
    cases T.disc.state <;> rfl
  op := by
    have hop : W.seq.op = T.seq.op.map (ProbeOp.slipped e) := by
      rw [hW.seq, ← show U.seq = T.seq from hU.seq]
      exact congrArg Sequencer.op hV.seq
    rw [hop]
    refine Option.map_congr fun o _ => ?_
    obtain ⟨tn, inst, serial, kind, expected, stage, phase, waitStart⟩ := o
    cases phase <;> rfl
  check := by
    have hlight : V.light = T.light := hV.light.trans hU.light
    rw [hW.light, Tree.checkSlipped, show (V.mapEntries _).light = V.light from rfl, hlight]
    rfl
  entries tn := by
    have hslots : V.slots = T.slots := hV.slots.trans hU.slots
    rw [entry?_of_slots hW.slots]
    refine (entry?_mapEntries V _ tn).trans ?_
    rw [entry?_of_slots hslots]
    exact Option.map_congr fun x _ => modDrift_slipped e x
  run := by
    have hctl : W.ctl = T.ctl.slipped e := hW.ctl.trans (hV.ctl.trans hU.ctl)
    rw [hctl]
    unfold Controller.slipped
    cases T.ctl.state <;> rfl

theorem slipTree_slipped (s : State) (t : TreeId) : (s.tree t).Slipped ((slipTree s t).tree t) s.epoch := by
  have w1 : Within (· = t) s (calibrationSlip t s) := within_calibrationSlip rfl
  have w2 : Within (· = t) s (discSlip t (calibrationSlip t s)) := w1.trans (within_discSlip rfl)
  have w3 : Within (· = t) s (probeSlip t (discSlip t (calibrationSlip t s))) := w2.trans (within_probeSlip rfl)
  have w4 : Within (· = t) s (driftSlip t (probeSlip t (discSlip t (calibrationSlip t s)))) :=
    w3.trans (within_driftSlip rfl)
  obtain ⟨n, hU⟩ := discSlip_tree (s := calibrationSlip t s) (t := t)
  obtain ⟨m, hV⟩ := probeSlip_tree (s := discSlip t (calibrationSlip t s)) (t := t)
  obtain ⟨k, hW⟩ := lightSlip_tree (s := driftSlip t (probeSlip t (discSlip t (calibrationSlip t s)))) (t := t)
  rw [w1.epoch, calibrationSlip_tree] at hU
  rw [w2.epoch] at hV
  rw [w4.epoch, driftSlip_tree, w3.epoch] at hW
  exact slipped_of_blocks hU hV hW

/-- After a slip no window stands in a reference-timed phase. -/
theorem Tree.Slipped.window_timed {e : Nat} (h : T.Slipped U e) : U.disc.state.timed = false := by
  rw [h.window]
  cases T.disc.state with
  | collecting w number qs gw dispatch coll =>
    simp only
    split <;> rfl
  | _ => rfl

/-- After a slip no operation stands in a reference-timed phase. -/
theorem Tree.Slipped.op_timed {e : Nat} (h : T.Slipped U e) {o : ProbeOp} (ho : U.seq.op = some o) :
    o.phase.timed = false := by
  rw [h.op, Option.map_eq_some_iff] at ho
  obtain ⟨⟨tn, inst, serial, kind, expected, stage, phase, waitStart⟩, -, rfl⟩ := ho
  cases phase <;> rfl

/-- After a slip no check listens. -/
theorem Tree.Slipped.check_timed {e : Nat} (h : T.Slipped U e) {c : Check} (hc : U.light.check = some c) :
    c.phase.timed = false := by
  rw [h.check, Option.map_eq_some_iff] at hc
  obtain ⟨x, -, rfl⟩ := hc
  rfl

/-- After a slip the drift sums of the OPERATING entries are clear. -/
theorem Tree.Slipped.drift_clear {e tn : Nat} (h : T.Slipped U e) {x : Entry} {d : Drift} (hx : U.entry? tn = some x)
    (hd : x.state = .operating d) : d.sum = 0 ∧ d.n = 0 := by
  rw [h.entries, Option.map_eq_some_iff] at hx
  obtain ⟨⟨inst, st, serial, model, profile, c, rrt, ld, r, ever, attempts, waiting, owed, resend⟩, -, rfl⟩ := hx
  cases st <;> cases hd
  exact ⟨rfl, rfl⟩

/-! ### The slip event at every tree -/

/-- Operations one after another, each on a tree of its own, leave each tree what its own operation makes of it, from a state
that holds the tree as it was, at the same time. -/
theorem foldl_slipTree (l : List TreeId) (hl : l.Nodup) (s : State) (ht : t ∈ l) :
    ∃ x : State, x.tree t = s.tree t ∧ x.timebase = s.timebase ∧ (l.foldl slipTree s).tree t = (slipTree x t).tree t := by
  have hstep : ∀ (u : TreeId) (s : State), Within (· = u) s (slipTree s u) := fun _ _ => within_slipTree rfl
  have hrest : ∀ (l : List TreeId) (s : State), t ∉ l → (l.foldl slipTree s).tree t = s.tree t := by
    intro l
    induction l with
    | nil => exact fun _ _ => rfl
    | cons u l ih =>
      intro s hn
      rw [List.mem_cons, not_or] at hn
      exact (ih _ hn.2).trans ((hstep u s).others t hn.1)
  induction l generalizing s with
  | nil => cases ht
  | cons u l ih =>
    rw [List.nodup_cons] at hl
    by_cases hu : t = u
    · subst hu
      exact ⟨s, rfl, rfl, hrest l _ hl.1⟩
    · obtain ⟨x, hx, htb, hfold⟩ := ih hl.2 (slipTree s u) (List.mem_of_ne_of_mem hu ht)
      exact ⟨x, hx.trans ((hstep u s).others t hu), htb.trans (hstep u s).timebase, hfold⟩

theorem slipTrees_slipped (s : State) (t : TreeId) : (s.tree t).Slipped ((slipTrees s).tree t) s.epoch := by
  obtain ⟨x, hx, htb, hfold⟩ := foldl_slipTree allTrees (by decide) s (t := t) (by revert t; decide)
  have he : x.epoch = s.epoch := by simp only [State.epoch, htb]
  rw [slipTrees, hfold, ← hx, ← he]
  exact slipTree_slipped x t

/-! ### The records of one event (R191) -/

section
variable {p : Port}

theorem deliveredCount_eq (p : Port) :
    p.deliveredCount =
      p.delivered[0].length + p.delivered[1].length + p.delivered[2].length + p.delivered[3].length +
        p.delivered[4].length := by
  obtain ⟨_, _, ⟨⟨l⟩, hl⟩, _, _, _, _, _, _⟩ := p
  match l, hl with
  | [a, b, c, d, e], _ => simp [Port.deliveredCount, Nat.add_assoc]

theorem deliveredCount_eq_zero : p.deliveredCount = 0 ↔ ∀ i : Poster, p.delivered[i] = [] := by
  simp only [deliveredCount_eq, Nat.add_eq_zero_iff, List.length_eq_zero_iff]
  refine ⟨fun ⟨⟨⟨⟨h0, h1⟩, h2⟩, h3⟩, h4⟩ i => ?_, fun h => ⟨⟨⟨⟨h 0, h 1⟩, h 2⟩, h 3⟩, h 4⟩⟩
  fin_cases i
  exacts [h0, h1, h2, h3, h4]

/-- The arbiter serves a poster wherever one holds a record. -/
theorem delivered_of_nextPoster_none (h : p.nextPoster = none) (i : Poster) : p.delivered[i] = [] := by
  have hall : i ∈ cycleAfter p.lastServed := by
    generalize p.lastServed = last
    revert i last
    decide
  simpa using List.find?_eq_none.1 h i hall

theorem delivered_of_nextPoster {i : Poster} (h : p.nextPoster = some i) : ∃ r rest, p.delivered[i] = r :: rest := by
  have hne := List.find?_some h
  cases hd : p.delivered[i] with
  | nil => simp [hd] at hne
  | cons r rest => exact ⟨r, rest, rfl⟩

theorem deliveredCount_set {i : Poster} {r : Record} {rest : List Record} (h : p.delivered[i] = r :: rest) :
    ({ p with delivered := p.delivered.set i rest } : Port).deliveredCount + 1 = p.deliveredCount := by
  simp only [deliveredCount_eq]
  fin_cases i <;> simp_all <;> omega

/-- A record entered while there is room joins the tail (R191). -/
theorem queue_enterRecord (r : Record) (h : p.queue.length < 64) :
    (p.enterRecord r).queue = p.queue ++ [{ r with lostBefore := p.lost }] := by
  rw [Port.enterRecord, if_pos h]

theorem enterFrom_of_room {i : Poster} {r : Record} {rest : List Record} (h : p.delivered[i] = r :: rest)
    (hroom : p.queue.length < 64) :
    (p.enterFrom i).queue = p.queue ++ [{ r with lostBefore := p.lost }] ∧
      (p.enterFrom i).delivered = p.delivered.set i rest := by
  rw [Port.enterFrom, h]
  exact ⟨queue_enterRecord r hroom, enterRecord_delivered _ r⟩

/-- Where the queue has room for all that the posters hold, every record of theirs is entered and none is lost (R191). -/
theorem enterUpTo_of_room (n : Nat) (p : Port) (hn : p.deliveredCount = n) (hroom : p.queue.length + n ≤ 64) :
    (∀ x ∈ p.queue, x ∈ (Port.enterUpTo n p).queue) ∧
      ∀ i : Poster, ∀ r ∈ p.delivered[i], ∃ lost, { r with lostBefore := lost } ∈ (Port.enterUpTo n p).queue := by
  induction n generalizing p with
  | zero =>
    refine ⟨fun x hx => hx, fun i r hr => ?_⟩
    rw [deliveredCount_eq_zero.1 hn i] at hr
    cases hr
  | succ n ih =>
    rw [Port.enterUpTo]
    cases hnext : p.nextPoster with
    | none =>
      rw [deliveredCount_eq_zero.2 (delivered_of_nextPoster_none hnext)] at hn
      cases hn
    | some i =>
      obtain ⟨r, rest, hd⟩ := delivered_of_nextPoster hnext
      obtain ⟨hqueue, hdelivered⟩ := enterFrom_of_room hd (by omega)
      have hcount : (p.enterFrom i).deliveredCount = n := by
        have := deliveredCount_set hd
        rw [← hdelivered] at this
        exact Nat.succ.inj (this.trans hn)
      have hlen : (p.enterFrom i).queue.length + n ≤ 64 := by
        rw [hqueue, List.length_append, List.length_singleton]
        omega
      obtain ⟨hkept, hentered⟩ := ih (p.enterFrom i) hcount hlen
      refine ⟨fun x hx => hkept x (by rw [hqueue]; exact List.mem_append_left _ hx), fun j x hx => ?_⟩
      by_cases hj : j = i
      · subst hj
        rw [hd, List.mem_cons] at hx
        rcases hx with rfl | hx
        · exact ⟨p.lost, hkept _ (by simp [hqueue])⟩
        · exact hentered j x (by simpa [hdelivered] using hx)
      · exact hentered j x (by simpa [hdelivered, Vector.getElem_set, Fin.val_inj, Ne.symm hj] using hx)

end

/-! ### The records of a time slip -/

theorem deliveredCount_report (s : State) (q : Poster) (b : ReportBody) :
    (s.deliver q b).port.deliveredCount = s.port.deliveredCount + 1 := by
  simp only [deliveredCount_eq, State.deliver]
  fin_cases q <;> simp <;> omega

theorem port_sendWindow (w : Context) : (sendWindow t w s).port = s.port := rfl

theorem port_sendProbe (o : ProbeOp) (pl : Placement) : (sendProbe t o pl s).port = s.port := rfl

theorem port_sendCheck (p : Purpose) : (sendCheck t p s).port = s.port := rfl

theorem port_chanRelease (tag : Tag) : (chanRelease t tag s).port = s.port := by
  unfold chanRelease
  split <;> rfl

theorem port_calibrationSlip : (calibrationSlip t s).port = s.port := by
  unfold calibrationSlip
  split <;> rfl

/-- The WINDOW report of a collecting window is all that the Discovery Unit delivers on a slip (R96). -/
theorem deliveredCount_discSlip : (discSlip t s).port.deliveredCount ≤ s.port.deliveredCount + 1 := by
  unfold discSlip
  split
  · rw [port_sendWindow]
    exact Nat.le_succ _
  · rw [port_sendWindow, port_chanRelease]
    exact Nat.le_succ _
  · have hreport : ∀ b, ((s.raiseDiscStale t).report t b).port.deliveredCount = s.port.deliveredCount + 1 :=
      fun b => deliveredCount_report (s.raiseDiscStale t) _ b
    simp only [windowReport]
    split
    · rw [port_sendWindow]
      exact (hreport _).le
    · exact (hreport _).le
  all_goals exact Nat.le_succ _

theorem port_probeSlip : (probeSlip t s).port = s.port := by
  unfold probeSlip
  split
  · rfl
  · split
    case h_4 =>
      rw [port_sendProbe, port_chanRelease]
      rfl
    case h_3 | h_5 =>
      rw [port_sendProbe]
      rfl
    all_goals rfl

theorem port_lightSlip : (lightSlip t s).port = s.port := by
  have hgive : (giveUpCheck t s).port = s.port := by
    unfold giveUpCheck
    split
    · rfl
    · simp only [State.modLight, port_modTree]
      split <;> rfl
  unfold lightSlip
  split
  · rw [port_sendCheck, hgive]
  · rfl

/-- A slip delivers at most one record of each tree (R96). -/
theorem deliveredCount_slipTree (s : State) (t : TreeId) :
    (slipTree s t).port.deliveredCount ≤ s.port.deliveredCount + 1 := by
  have hport : (slipTree s t).port = (discSlip t (calibrationSlip t s)).port := by
    rw [slipTree, port_lightSlip]
    exact port_probeSlip
  rw [hport, ← port_calibrationSlip (s := s) (t := t)]
  exact deliveredCount_discSlip

theorem deliveredCount_foldl_slipTree (l : List TreeId) (s : State) :
    (l.foldl slipTree s).port.deliveredCount ≤ s.port.deliveredCount + l.length := by
  induction l generalizing s with
  | nil => exact le_rfl
  | cons u l ih =>
    have := ih (slipTree s u)
    have := deliveredCount_slipTree s u
    simp only [List.foldl_cons, List.length_cons]
    omega

/-- What the slip event leaves of the report queue: no record has been entered yet, and each tree has delivered at most one. -/
theorem slipTrees_port (s : State) :
    (slipTrees s).port.queue = s.port.queue ∧ (slipTrees s).port.deliveredCount ≤ s.port.deliveredCount + 4 := by
  obtain ⟨d, hd⟩ := (within_slipTrees (P := fun _ => True) (s := s) fun _ => trivial).port
  exact ⟨by rw [hd], deliveredCount_foldl_slipTree allTrees s⟩

/-- A record delivered last is entered at the end of the event where the queue has room for all (R191). -/
theorem deliver_entered (s : State) (q : Poster) (b : ReportBody)
    (hroom : s.port.queue.length + (s.port.deliveredCount + 1) ≤ 64) :
    ∃ lost, { newRecord q s.epoch b with lostBefore := lost } ∈ (s.deliver q b).settle.port.queue := by
  rw [← deliveredCount_report s q b] at hroom
  obtain ⟨-, hentered⟩ := enterUpTo_of_room _ (s.deliver q b).port rfl hroom
  exact hentered q _ (by simp [State.deliver])

/-- Where the queue has room for the TIME_SLIP report and one record of each tree, the report is entered (R6, R191). -/
theorem timeSlip_entered {x : State} (marker : BitVec 64) (f : Nat) (correction : Int)
    (hd : ∀ i : Poster, x.port.delivered[i] = []) (hroom : x.port.queue.length ≤ 59) :
    ∃ lost,
      { body := .timeSlip marker f correction x.timebase.slipCount, poster := partWide, epoch := x.epoch % 2 ^ 32,
        lostBefore := lost } ∈ (afterRealignment marker f correction x).settle.port.queue := by
  obtain ⟨hqueue, hcount⟩ := slipTrees_port x
  rw [deliveredCount_eq_zero.2 hd] at hcount
  have hw : Within (fun _ => True) x (slipTrees x) := within_slipTrees fun _ => trivial
  rw [← hw.epoch, ← hw.timebase]
  exact deliver_entered (slipTrees x) partWide _ (by rw [hqueue]; omega)

/-! ### The realignment (R5) -/

section
variable (marker : BitVec 64) (f : Nat) (correction : Int) (x : State)

theorem tree_afterRealignment (t : TreeId) :
    (afterRealignment marker f correction x).tree t = (slipTrees x).tree t := by
  rw [afterRealignment, slipReport, tree_deliver]

theorem timebase_afterRealignment : (afterRealignment marker f correction x).timebase = x.timebase := by
  rw [afterRealignment, slipReport, timebase_deliver]
  exact (within_slipTrees (P := fun _ => True) fun _ => trivial).timebase

theorem epoch_afterRealignment : (afterRealignment marker f correction x).epoch = x.epoch := by
  simp only [State.epoch, timebase_afterRealignment]

end

/-- The Timebase after a time slip that leaves the part at the start of epoch `k`. -/
def Timebase.slipped (k : Nat) (tb : Timebase) : Timebase :=
  { status := tb.status, count := BitVec.ofNat 64 (10000000 * k), slipCount := min 255 (tb.slipCount + 1) }

/-- A marker's count within the span is no free value. -/
theorem markerCount_eq {f : Nat} (h : 10000000 * s.epoch + f < 2 ^ 64) :
    s.markerCount f = BitVec.ofNat 64 (10000000 * s.epoch + f) ∧ s.freeAfterMarker f = s.freeIndex :=
  ⟨if_pos h, if_pos h⟩

/-- The epoch that a marker `f` sx into epoch `k` realigns the part to (R5). -/
def realignedEpoch (k f : Nat) : Nat := if f < 5000000 then k else k + 1

/-- The correction of the count by that realignment (R6). -/
def correctionOf (f : Nat) : Int := if f < 5000000 then -(f : Int) else 10000000 - (f : Int)

/-- A marker off the boundary is the slip events and the report, from the part `x` once it is realigned; where no delivery is
taken with the marker, the trees and the port are then as they were (R5, R6). -/
theorem epochMarker_realigns {f : Nat} {early : List EpochAction} (hr : s.timebase.status = .running) (h0 : 0 < f)
    (hf : f < 10000000) (hspan : 10000000 * (s.epoch + 1) < 2 ^ 64) :
    ∃ x : State,
      epochMarker f early s =
          afterRealignment (BitVec.ofNat 64 (10000000 * s.epoch + f)) f (correctionOf f) x ∧
        x.timebase = s.timebase.slipped (realignedEpoch s.epoch f) ∧
        (f < 5000000 ∨ (s.due = [] ∧ early = []) → x.trees = s.trees ∧ x.port = s.port) := by
  obtain ⟨hmarker, hfree⟩ := markerCount_eq (s := s) (f := f) (by omega)
  rw [epochMarker, if_neg (running_ne_waiting hr), if_neg h0.ne']
  by_cases hb : f < 5000000
  · rw [if_pos hb, slipBackward, hmarker, hfree, setCount_eq _ (show 10000000 * s.epoch < 2 ^ 64 by omega),
      correctionOf, if_pos hb, realignedEpoch, if_pos hb]
    exact ⟨_, rfl, rfl, fun _ => ⟨rfl, rfl⟩⟩
  · rw [if_neg hb, slipForward, hmarker, hfree, correctionOf, if_neg hb, realignedEpoch, if_neg hb]
    refine ⟨_, rfl, ?_, fun hnone => ?_⟩
    · rw [timebase_takeDeliveries, timebase_beginEpoch hspan]
      rfl
    · obtain ⟨hdue, rfl⟩ := hnone.resolve_left hb
      have hbegin := beginEpoch_of_none_due (s := raiseSlips { s with freeIndex := s.freeIndex }) hspan hdue
      rw [takeDeliveries, List.foldl_nil, hbegin]
      exact ⟨rfl, rfl⟩

/-- Settles O15: the realigned part goes through the slip event, which leaves each tree slipped and delivers few enough
records for the TIME_SLIP report to be entered. -/
theorem markersRealign : Obligations.MarkersRealign := by
  intro s f early hs hr h0 hspan
  obtain ⟨x, hmarker, htb, hsame⟩ := epochMarker_realigns (early := early) hr h0 f.isLt hspan
  have hslipped : ∀ t, (x.tree t).Slipped ((slipTrees x).tree t) x.epoch := slipTrees_slipped x
  have hexec := take_of_taking hs (epochMarker f.val early)
  rw [hmarker] at hexec
  refine ⟨_, hexec, ?_, fun hnone hroom => ?_, fun t => ?_⟩
  · rw [timebase_settle, timebase_afterRealignment, htb, Timebase.slipped, hr]
    rfl
  · obtain ⟨-, hport⟩ := hsame hnone
    have hentered := timeSlip_entered (x := x) (BitVec.ofNat 64 (10000000 * s.epoch + f.val)) f.val (correctionOf f.val)
      (hport ▸ hs.entered) (hport ▸ hroom)
    rw [htb] at hentered
    rw [epoch_settle, epoch_afterRealignment]
    exact hentered
  · simp only [State.entry?, tree_settle, tree_afterRealignment, epoch_settle, epoch_afterRealignment]
    have h := hslipped t
    refine ⟨h.window_timed, fun o => h.op_timed, fun c => h.check_timed, fun tn e d => h.drift_clear, fun hnone => ?_⟩
    have htree : x.tree t = s.tree t := congrArg (fun v : Vector Tree 4 => v[t]) (hsame hnone).1
    rw [← htree]
    exact h

end

end Sys2Proof.Machine
end

section
/-! PROOF. The capacities of a tree through every command (O9), and with them the two laws of a tree that its blocks' work
keeps whatever else stands: Law 10 of its tasks and Law 8 of its residuals. -/

namespace Sys2Proof.Machine

/-! ### The laws of a tree that every operation keeps -/

/-- From one state to another, the capacities, Law 10 and Law 8 are kept. -/
structure LawsKept (s s' : State) : Prop where
  fits      : s.Fits → s'.Fits
  tasks     : s.TasksLawful → s'.TasksLawful
  residuals : s.ResidualsLawful → s'.ResidualsLawful

section
variable {s s' s'' : State} {P : TreeId → Prop} {tag b : Byte}

theorem LawsKept.trans (h : LawsKept s s') (k : LawsKept s' s'') : LawsKept s s'' :=
  ⟨k.fits ∘ h.fits, k.tasks ∘ h.tasks, k.residuals ∘ h.residuals⟩

theorem LawsKept.of_keeps (h : ∀ j, TreeKeeps (s.tree j) (s'.tree j)) : LawsKept s s' :=
  ⟨fun k j => (h j).fits (k j), fun k j => (h j).tasks (k j), fun k j => (h j).residuals (k j)⟩

theorem LawsKept.of_trees (h : s'.trees = s.trees) : LawsKept s s' := by
  have ht : ∀ j, s'.tree j = s.tree j := fun j => congrArg (fun v : Vector Tree 4 => v[j]) h
  exact .of_keeps fun j => ht j ▸ TreeKeeps.refl _

@[refl] theorem LawsKept.refl (s : State) : LawsKept s s := .of_trees rfl

theorem Within.lawsKept (h : Within P s s') : LawsKept s s' := .of_keeps h.keeps

/-- A part whose trees have all just been reset is lawful, whatever stood before. -/
theorem LawsKept.of_reset (h : ∀ j, ∃ out, s'.tree j = Tree.resetWith out) : LawsKept s s' := by
  refine ⟨fun _ j => ?_, fun _ j => ?_, fun _ j => ?_⟩ <;> obtain ⟨out, hj⟩ := h j <;> rw [hj]
  · exact fits_resetWith out
  · exact tasksLawful_resetWith out
  · exact residualsLawful_resetWith out

theorem lawsKept_settle : LawsKept s s.settle := .of_trees rfl

theorem lawsKept_taken {a : EpochAction} : LawsKept s (s.taken a) := .of_trees rfl

theorem lawsKept_take {f : State → State} (hf : LawsKept s (f s)) (h : s.take f = .next s') : LawsKept s s' := by
  obtain rfl : s.event f = s' := by simpa [State.take] using h
  unfold State.event
  split
  · exact LawsKept.refl s
  · exact hf.trans lawsKept_settle

theorem lawsKept_request {f : State → Answer} (hf : LawsKept s (f s).state) (h : s.request tag f = .next s') :
    LawsKept s s' := by
  simp only [State.request, Host.Outcome.next.injEq] at h
  subst h
  split
  · exact LawsKept.refl s
  · exact hf.trans (.of_trees rfl)

/-! ### Epochs -/

theorem lawsKept_takeDelivery (a : EpochAction) : LawsKept s (takeDelivery a s) := by
  by_cases h : a ∈ s.due
  · rw [takeDelivery_of_mem h]
    exact (lawsKept_taken.trans within_deliveryEffect_self.lawsKept).trans lawsKept_settle
  · rw [takeDelivery_of_not_mem h]

theorem lawsKept_takeDeliveries (l : List EpochAction) : LawsKept s (takeDeliveries l s) := by
  induction l generalizing s with
  | nil => exact LawsKept.refl s
  | cons a l ih => exact (lawsKept_takeDelivery a).trans ih

theorem lawsKept_setCount (n : Nat) : LawsKept s (s.setCount n) := by
  unfold State.setCount
  split <;> exact .of_trees rfl

theorem lawsKept_due (l : List EpochAction) : LawsKept s { s with due := l } := .of_trees rfl

theorem lawsKept_beginEpoch (k : Nat) : LawsKept s (beginEpoch k s) :=
  ((lawsKept_takeDeliveries s.due).trans (lawsKept_setCount _)).trans (lawsKept_due _)

theorem lawsKept_epochStart : LawsKept s (epochStart s) := by
  unfold epochStart
  split
  · exact LawsKept.refl s
  · exact lawsKept_beginEpoch _

theorem lawsKept_afterRealignment (m : BitVec 64) (f : Nat) (x : Int) : LawsKept s (afterRealignment m f x s) :=
  ((within_slipTrees fun _ => trivial).trans (within_deliver (P := fun _ => True) _ _)).lawsKept

theorem lawsKept_raiseSlips (n : Nat) : LawsKept s (raiseSlips { s with freeIndex := n }) := .of_trees rfl

theorem lawsKept_epochMarker (f : Nat) (early : List EpochAction) : LawsKept s (epochMarker f early s) := by
  unfold epochMarker
  split
  · exact .of_trees rfl
  split
  · exact LawsKept.refl s
  split
  · exact ((lawsKept_raiseSlips _).trans (lawsKept_setCount _)).trans (lawsKept_afterRealignment _ _ _)
  · exact (((lawsKept_raiseSlips _).trans (lawsKept_beginEpoch _)).trans (lawsKept_takeDeliveries _)).trans
      (lawsKept_afterRealignment _ _ _)

/-! ### Requests that leave the trees, and TREE_CONFIG -/

theorem trees_catWriteRequest (raw : RawCatEntry) : (catWriteRequest b raw s).state.trees = s.trees := by
  unfold catWriteRequest
  split
  · rfl
  split
  · rfl
  split <;> rfl

theorem trees_barWriteRequest (raw : RawBarRange) : (barWriteRequest b raw s).state.trees = s.trees := by
  unfold barWriteRequest
  split
  · rfl
  split
  · rfl
  split <;> rfl

theorem trees_catReadRequest : (catReadRequest b s).state.trees = s.trees := by unfold catReadRequest; split <;> rfl

theorem trees_barReadRequest : (barReadRequest b s).state.trees = s.trees := by unfold barReadRequest; split <;> rfl

theorem trees_partSetupRequest (settings : Option (Byte × Byte)) :
    (partSetupRequest settings s).state.trees = s.trees := by
  unfold partSetupRequest
  split
  · rfl
  split
  · rfl
  split <;> rfl

theorem trees_fetchReportsRequest : (fetchReportsRequest b s).state.trees = s.trees := by
  unfold fetchReportsRequest; split <;> rfl

/-- No capacity, no task and no residual depends on the parameters, which TREE_CONFIG alone writes (R176). -/
theorem lawsKept_config (t : TreeId) (c : Params) :
    LawsKept s (s.modCtl t fun x => { x with params := c, configured := true }) := by
  refine ⟨fun h j => ?_, fun h j => ?_, fun h j => ?_⟩ <;> rw [State.modCtl, tree_modTree] <;> split
  · subst j; exact ⟨(h t).items, (h t).count, (h t).pending, (h t).serials, (h t).contexts, (h t).heard, (h t).strikes⟩
  · exact h j
  · subst j; exact ⟨(h t).room, (h t).once, (h t).ordered, (h t).waiting⟩
  · exact h j
  · subst j; exact h t
  · exact h j

theorem lawsKept_treeConfigRequest (raw : RawParams) : LawsKept s (treeConfigRequest b raw s).state := by
  unfold treeConfigRequest
  split
  · exact LawsKept.refl s
  · next t ht =>
    split
    · exact LawsKept.refl s
    · exact LawsKept.refl s
    · exact LawsKept.refl s
    · split
      · exact LawsKept.refl s
      · exact lawsKept_config t _

/-! ### The resets (R190) -/

theorem lawsKept_partReset (adm : Admission) (pin : Bool) : LawsKept s { partReset adm s with resetPin := pin } := by
  refine .of_reset fun j => ?_
  fin_cases j <;> exact ⟨_, rfl⟩

/-! ### Every command -/

theorem lawsKept_command {a : EpochAction} (h : exec a.command s = .next s') : LawsKept s s' := by
  rw [exec_command] at h
  exact lawsKept_take (lawsKept_takeDelivery a) h

/-- The trees that the work of a command may be on, where which they are does not matter. -/
def anyTree : TreeId → Prop := fun _ => True

theorem anyTree_any (t : TreeId) : anyTree t := trivial

/-- Every command keeps the laws of the trees: their resets make them lawful, and all other work on them is the blocks'. -/
theorem exec_lawsKept {c : Instr} (h : exec c s = .next s') : LawsKept s s' := by
  have any : ∀ t : TreeId, anyTree t := anyTree_any
  cases c with
  | powerOn strap => cases h; exact .of_reset fun j => ⟨_, tree_reset j⟩
  | resetPinAssert => cases h; exact .of_trees rfl
  | resetPinRelease strap => cases h; exact lawsKept_partReset _ _
  | partReset tag => exact lawsKept_request (lawsKept_partReset _ _) h
  | epochMarker f early => exact lawsKept_take (lawsKept_epochMarker _ _) h
  | epochStart => exact lawsKept_take lawsKept_epochStart h
  | activationDeadline t => exact lawsKept_command (a := .activationDeadline t) h
  | lostHoldDeadline t => exact lawsKept_command (a := .lostHoldDeadline t) h
  | pendingHoldDeadline t => exact lawsKept_command (a := .pendingHoldDeadline t) h
  | spacingEnd t => exact lawsKept_command (a := .spacingEnd t) h
  | probeWaitExpiry t => exact lawsKept_command (a := .probeWaitExpiry t) h
  | auditSweep t => exact lawsKept_command (a := .auditSweep t) h
  | heldRecheck t => exact lawsKept_command (a := .heldRecheck t) h
  | responseDeadline t tag => exact lawsKept_command (a := .responseDeadline t tag) h
  | resendEpoch t tag => exact lawsKept_command (a := .resendEpoch t tag) h
  | nextCheckEpoch t => exact lawsKept_command (a := .nextCheckEpoch t) h
  | huntCheckEpoch t => exact lawsKept_command (a := .huntCheckEpoch t) h
  | loopMarkerEpoch t => exact lawsKept_command (a := .loopMarkerEpoch t) h
  | slotCall t => exact lawsKept_take (.of_keeps (slotCall_keeps (any t)).2) h
  | quietIntervalBurst t tag arrival q payload =>
    exact lawsKept_take (within_routed t _ (within_routeBurst (any t) tag (fun _ => any) _ _ _)).lawsKept h
  | intervalEnd t tag => exact lawsKept_take (within_routed t _ (within_routeEnd (any t) tag)).lawsKept h
  | grantedBurst t tn g arrival => exact lawsKept_take (within_routed t _ (within_routeGranted (any t) _ _ _)).lawsKept h
  | miss t tn g => exact lawsKept_take (within_routed t _ (within_routeMiss (any t) _)).lawsKept h
  | ungrantedLight t arrival => exact lawsKept_take (within_routed t _ (within_unexplained (any t) _)).lawsKept h
  | continuousLight t arrival => exact lawsKept_take (within_routed t _ (within_continuous (any t) _)).lawsKept h
  | loop t arrival => exact lawsKept_take (within_loopTaken (any t) _).lawsKept h
  | grant t tag number start => exact lawsKept_take (within_grantTaken (any t) _ _ _).lawsKept h
  | defer t tag number e => exact lawsKept_take (within_deferTaken (any t) _ _ _).lawsKept h
  | schedulerRefuse t tag number => exact lawsKept_take (within_refuseTaken (any t) _ _).lawsKept h
  | malformedFrame => exact lawsKept_request (f := fun s => Machine.refuse s .malformed) (LawsKept.refl s) h
  | readTransaction clocked => exact lawsKept_take (.of_trees rfl) h
  | identify tag => exact lawsKept_request (LawsKept.refl s) h
  | partSetup tag settings => exact lawsKept_request (.of_trees (trees_partSetupRequest _)) h
  | fetchReports tag n => exact lawsKept_request (.of_trees trees_fetchReportsRequest) h
  | catWrite tag index raw => exact lawsKept_request (.of_trees (trees_catWriteRequest _)) h
  | catRead tag index => exact lawsKept_request (.of_trees trees_catReadRequest) h
  | catLock tag => exact lawsKept_request (.of_trees rfl) h
  | barWrite tag index raw => exact lawsKept_request (.of_trees (trees_barWriteRequest _)) h
  | barRead tag index => exact lawsKept_request (.of_trees trees_barReadRequest) h
  | treeConfig tag b raw => exact lawsKept_request (lawsKept_treeConfigRequest raw) h
  | treeReadConfig tag b => exact lawsKept_request (within_treeReadConfigRequest (P := anyTree)).lawsKept h
  | treeOpen tag b => exact lawsKept_request (within_treeOpenRequest fun t _ => any t).lawsKept h
  | treeClose tag b => exact lawsKept_request (within_treeCloseRequest fun t _ => any t).lawsKept h
  | treeStatus tag b => exact lawsKept_request (within_treeStatusRequest (P := anyTree)).lawsKept h
  | ctxPush tag b raw => exact lawsKept_request (within_ctxPushRequest (fun t _ => any t) _).lawsKept h
  | ctxFlush tag b => exact lawsKept_request (within_ctxFlushRequest fun t _ => any t).lawsKept h
  | treeSuspend tag b => exact lawsKept_request (within_treeSuspendRequest fun t _ => any t).lawsKept h
  | treeResume tag b => exact lawsKept_request (within_treeResumeRequest fun t _ => any t).lawsKept h
  | forceQuiet tag b => exact lawsKept_request (within_forceQuietRequest fun t _ => any t).lawsKept h
  | admitSerial tag b serial => exact lawsKept_request (within_admitRequest any _).lawsKept h
  | refuse tag b serial => exact lawsKept_request (within_refuseRequest (fun t _ => any t) _).lawsKept h
  | rangeNow tag b n =>
    exact lawsKept_request (within_terminalRequest (fun t _ => any t) fun x => within_rangeNow x).lawsKept h
  | retireTn tag b n =>
    exact lawsKept_request (within_terminalRequest (fun t _ => any t) fun x => within_retireTn x).lawsKept h
  | muteTn tag b n =>
    exact lawsKept_request (within_terminalRequest (fun t _ => any t) fun x => within_muteTn x).lawsKept h
  | unmuteTn tag b n =>
    exact lawsKept_request (within_terminalRequest (fun t _ => any t) fun x => within_unmuteTn x).lawsKept h
  | readEntry tag b n => exact lawsKept_request (within_readEntryRequest (P := anyTree)).lawsKept h
  | findSerial tag serial => exact lawsKept_request (within_findSerialRequest (P := anyTree) _).lawsKept h

/-- A step takes the command at the front of the queue, which no law reads, or idles. -/
theorem step_lawsKept (h : step s = .next s') : LawsKept s s' := by
  unfold step at h
  split at h
  · cases h; exact LawsKept.refl s
  · next c rest _ =>
    have hfront : LawsKept s { s with pending := rest } := .of_trees rfl
    exact hfront.trans (exec_lawsKept h)

end

/-- Settles O9: a step keeps the laws of the trees, their capacities among them. -/
theorem capacitiesKept : Obligations.CapacitiesKept := fun _ _ hfits h => (step_lawsKept h).fits hfits

end Sys2Proof.Machine
end

section
/-! PROOF. Updates of one tree composed: two updates are one, an update is known by what it makes of the tree as it stands, and
the updates of an entry compose likewise. With them, what each quiet-interval record does (O33). -/

namespace Sys2Proof.Machine

/-! ### Updates composed -/

section
variable {s : State} {t : TreeId} {T : Tree} {tn : Nat} {e : Entry}

theorem modTree_modTree (f g : Tree → Tree) : (s.modTree t f).modTree t g = s.modTree t fun T => g (f T) := by
  simp [State.modTree, Vector.set_set]

theorem modTree_congr {f g : Tree → Tree} (h : f (s.tree t) = g (s.tree t)) : s.modTree t f = s.modTree t g := by
  simp only [State.modTree]
  rw [show f s.trees[t] = g s.trees[t] from h]

theorem modTree_self {f : Tree → Tree} (h : f (s.tree t) = s.tree t) : s.modTree t f = s := by
  simp only [State.modTree]
  rw [show f s.trees[t] = s.trees[t] from h, Fin.getElem_fin, Vector.set_getElem_self]

theorem treeModEntry_congr {f g : Entry → Entry} (he : T.entry? tn = some e) (h : f e = g e) :
    T.modEntry tn f = T.modEntry tn g := by
  unfold Tree.modEntry
  split
  · next i hi =>
    have hslot : T.slots[i].entry = some e := (entry?_slot hi).symm.trans he
    simp only [hslot, Option.map_some, h]
  · rfl

theorem treeModEntry_modEntry (f g : Entry → Entry) : (T.modEntry tn f).modEntry tn g = T.modEntry tn (g ∘ f) := by
  unfold Tree.modEntry
  cases slotIndex tn with
  | none => rfl
  | some i => simp [Vector.set_set]

theorem treeModEntry_self {f : Entry → Entry} (h : ∀ e, T.entry? tn = some e → f e = e) : T.modEntry tn f = T := by
  unfold Tree.modEntry
  split
  · next i hi =>
    have hslot : T.slots[i].entry.map f = T.slots[i].entry := by
      rw [← entry?_slot hi]
      cases he : T.entry? tn with
      | none => rfl
      | some e => simp [h e he]
    simp only [hslot]
    rw [show ({ T.slots[i] with entry := T.slots[i].entry } : Slot) = T.slots[i] from rfl, Fin.getElem_fin,
      Vector.set_getElem_self]
  · rfl

theorem modEntry_congr {f g : Entry → Entry} (he : s.entry? t tn = some e) (h : f e = g e) :
    s.modEntry t tn f = s.modEntry t tn g := modTree_congr (treeModEntry_congr he h)

theorem modEntry_modEntry (f g : Entry → Entry) :
    (s.modEntry t tn f).modEntry t tn g = s.modEntry t tn (g ∘ f) := by
  simp only [State.modEntry, modTree_modTree, treeModEntry_modEntry]

theorem modEntry_self {f : Entry → Entry} (h : ∀ e, s.entry? t tn = some e → f e = e) : s.modEntry t tn f = s :=
  modTree_self (treeModEntry_self h)

theorem modDrift_of_operating {d : Drift} (h : e.state = .operating d) (f : Drift → Drift) :
    e.modDrift f = { e with state := .operating (f d) } := by simp [Entry.modDrift, h]

end

/-! ### Records of a burst report link, routed (R21) -/

section
variable {s x : State} {t : TreeId} {f : State → State}

theorem routed_of_routes (h : (s.tree t).routesBursts = true) : routed t f s = f s := if_pos h

theorem routed_of_not_routes (h : (s.tree t).routesBursts = false) : routed t f s = s := by simp [routed, h]

theorem routesBursts_of_active (h : (s.tree t).isActive = true) : (s.tree t).routesBursts = true := by
  simp [Tree.routesBursts, h]

/-- A record that its tree's state does not route changes nothing. -/
theorem take_not_routed (hs : s.Taking) (h : (s.tree t).routesBursts = false) : s.take (routed t f) = .next s :=
  take_of_same_port hs (routed_of_not_routes h) rfl

/-- A routed record whose owner leaves `x`, with no report. -/
theorem take_routed (hs : s.Taking) (h : (s.tree t).routesBursts = true) (hf : f s = x) (hp : x.port = s.port) :
    s.take (routed t f) = .next x :=
  take_of_same_port hs ((routed_of_routes h).trans hf) hp

/-- A routed record whose owner leaves `x` and one report. -/
theorem take_routed_report (hs : s.Taking) (h : (s.tree t).routesBursts = true) {b : ReportBody}
    (hf : f s = x.report t b) (hp : x.port = s.port) :
    s.take (routed t f) = .next (x.entering (treePoster t) b) := by
  rw [take_of_taking hs, routed_of_routes h, hf, settle_report t b (hp ▸ hs.entered)]

end

/-! ### Quiet-interval records (R85..R89, R111, R165) -/

section
variable {s : State} {t : TreeId} {arrival : Int} {quality : Quality} {payload : List Byte}

/-- Behind a stale count a burst is discarded, whatever its tag. -/
theorem routeBurst_of_stale {tag : Tag} (h : (s.tree t).stale tag ≠ 0) : routeBurst t tag arrival quality payload s = s := by
  cases tag with
  | window => exact if_pos h
  | probe => exact if_pos h
  | silence => exact if_pos h

/-- Behind a stale count an end lowers it, whatever its tag. -/
theorem routeEnd_of_stale {tag : Tag} (h : (s.tree t).stale tag ≠ 0) :
    routeEnd t tag s = s.modTree t fun T => T.absorb tag := by
  cases tag with
  | window => exact if_pos h
  | probe => exact if_pos h
  | silence => exact if_pos h

/-- An interval of a tag is in flight where its owner collects or listens (R80, R104, R162). -/
def Tree.NoInterval (T : Tree) : Tag → Prop
  | .window => ∀ w number qs gw dispatch coll, T.disc.state ≠ .collecting w number qs gw dispatch coll
  | .probe => ∀ o pl qe qs g ec, T.seq.op = some o → o.phase ≠ .listening pl qe qs g ec
  | .silence => ∀ p qe qs n, T.light.check ≠ some { purpose := p, qe := qe, phase := .listening qs n }

theorem windowRecords_of_none (h0 : (s.tree t).disc.stale = 0) (h : (s.tree t).NoInterval .window) :
    windowBurst t arrival quality payload s = s ∧ windowEnd t s = s := by
  unfold windowBurst windowEnd
  rw [if_neg (not_not.mpr h0), if_neg (not_not.mpr h0)]
  cases hd : (s.tree t).disc.state with
  | collecting w number qs gw dispatch coll => exact absurd hd (h _ _ _ _ _ _)
  | stopped | spacing | due | requesting | posted => exact ⟨rfl, rfl⟩

theorem probeRecords_of_none (h0 : (s.tree t).seq.stale = 0) (h : (s.tree t).NoInterval .probe) :
    probeBurst t arrival quality payload s = s ∧ probeEnd t s = s := by
  unfold probeBurst probeEnd
  rw [if_neg (not_not.mpr h0), if_neg (not_not.mpr h0)]
  cases ho : (s.tree t).seq.op with
  | none => exact ⟨rfl, rfl⟩
  | some o =>
    cases hp : o.phase with
    | listening pl qe qs g ec => exact absurd hp (h _ _ _ _ _ _ ho)
    | held | waitDelay | requesting | posted => simp [hp]

theorem silenceRecords_of_none (h0 : (s.tree t).light.stale = 0) (h : (s.tree t).NoInterval .silence) :
    silenceBurst t s = s ∧ silenceEnd t s = s := by
  unfold silenceBurst silenceEnd
  simp only [if_neg (not_not.mpr h0)]
  cases hc : (s.tree t).light.check with
  | none => exact ⟨rfl, rfl⟩
  | some c =>
    obtain ⟨p, qe, ph⟩ := c
    cases ph with
    | requesting => exact ⟨rfl, rfl⟩
    | listening qs n => exact absurd hc (h _ _ _ _)

/-- With no interval of the tag in flight, a burst and an end are discarded. -/
theorem route_of_none {tag : Tag} (h0 : (s.tree t).stale tag = 0) (h : (s.tree t).NoInterval tag) :
    routeBurst t tag arrival quality payload s = s ∧ routeEnd t tag s = s := by
  cases tag with
  | window => exact windowRecords_of_none h0 h
  | probe => exact probeRecords_of_none h0 h
  | silence => exact silenceRecords_of_none h0 h

section
variable {w : Context} {number : Byte} {qs gw : Int} {dispatch : Nat} {coll : Collection}

/-- A burst of a collecting window, by its ANNOUNCE. -/
theorem windowBurst_of_collecting (h0 : (s.tree t).disc.stale = 0)
    (hd : (s.tree t).disc.state = .collecting w number qs gw dispatch coll) :
    windowBurst t arrival quality payload s =
      match announceOf quality payload with
      | none =>
        s.setDisc t (.collecting w number qs gw dispatch { coll with collisions := min 65535 (coll.collisions + 1) })
      | some a => windowAnnounce t ⟨w, number, qs, gw, dispatch⟩ coll arrival a s := by
  unfold windowBurst
  rw [if_neg (not_not.mpr h0), hd]
  rfl

variable {a : Announce}

theorem windowAnnounce_malformed (h : a.window ≠ number ∨ w.dspan ≤ a.d) :
    windowAnnounce t ⟨w, number, qs, gw, dispatch⟩ coll arrival a s =
      (s.setDisc t
        (.collecting w number qs gw dispatch { coll with malformed := min 65535 (coll.malformed + 1) })).report t
        (.admission .malformed .announce number a.serial a.model 0 none 0 none) := if_pos h

section
variable (hw : a.window = number) (hd : a.d < w.dspan)
include hw hd

theorem windowAnnounce_duplicate (h : a.serial ∈ coll.heard) :
    windowAnnounce t ⟨w, number, qs, gw, dispatch⟩ coll arrival a s =
      s.setDisc t (.collecting w number qs gw dispatch { coll with duplicates := min 65535 (coll.duplicates + 1) }) := by
  unfold windowAnnounce
  rw [if_neg (by simp [hw, hd]), if_pos h]
  rfl

theorem windowAnnounce_excess (h : a.serial ∉ coll.heard) (hl : 128 ≤ coll.heard.length) :
    windowAnnounce t ⟨w, number, qs, gw, dispatch⟩ coll arrival a s =
      s.setDisc t (.collecting w number qs gw dispatch { coll with excess := min 65535 (coll.excess + 1) }) := by
  unfold windowAnnounce
  rw [if_neg (by simp [hw, hd]), if_neg h, if_pos hl]
  rfl

theorem windowAnnounce_heard (h : a.serial ∉ coll.heard) (hl : coll.heard.length < 128) :
    windowAnnounce t ⟨w, number, qs, gw, dispatch⟩ coll arrival a s =
      announceHeard t ⟨w, number, qs, gw, dispatch⟩ { coll with heard := coll.heard ++ [a.serial] } arrival a s := by
  unfold windowAnnounce
  rw [if_neg (by simp [hw, hd]), if_neg h, if_neg (by simpa [Config.heardLimit] using hl)]

end

/-- An announce whose coarse estimate lies outside the reach joins the heard set alone (R89). -/
theorem announceHeard_outOfReach {c : Int} (hc : c = (arrival - 16 * (gw + a.d) - (s.tree t).ctl.p + 8) / 16)
    (hr : c < (s.params t).frtMin + (s.params t).arMin ∨
      (s.params t).frtMax + (s.params t).arMin + (s.params t).arSpread < c) :
    announceHeard t ⟨w, number, qs, gw, dispatch⟩ coll arrival a s =
      (s.setDisc t
        (.collecting w number qs gw dispatch { coll with outOfReach := min 65535 (coll.outOfReach + 1) })).report t
        (.admission .outOfReach .announce number a.serial a.model c none 0 none) := by
  have hcoarse : roundBt (coarseSx arrival a.d gw (s.tree t).ctl.p) = c := hc.symm
  unfold announceHeard
  simp only [hcoarse]
  rw [if_neg (by simp only [inReach, decide_eq_true_eq]; omega)]
  rfl

end

end

/-- Settles O33: each record by its tag and the interval in flight. -/
theorem quietRecordsTaken : Obligations.QuietRecordsTaken := by
  intro s t arrival quality payload hs
  refine ⟨fun tag hr => ⟨take_not_routed hs hr, take_not_routed hs hr⟩, fun tag hr h => ⟨?_, ?_⟩,
    fun w number qs gw dispatch coll hr h0 hd ha => ?_, fun w number qs gw dispatch coll a c hr h0 hd ha hc => ?_,
    fun o pl qe qs g ec hr h0 ho hp => ?_, fun p qe qs n hr h0 hc => ?_, fun tag hr h0 hn => ?_⟩
  · exact take_routed hs hr (routeBurst_of_stale h) rfl
  · exact take_routed hs hr (routeEnd_of_stale h) rfl
  · refine take_routed hs hr ?_ rfl
    show windowBurst t _ _ _ s = _
    rw [windowBurst_of_collecting h0 hd, ha]
  · have hburst : routeBurst t .window arrival.toNat quality payload s =
        windowAnnounce t ⟨w, number, qs, gw, dispatch⟩ coll arrival.toNat a s := by
      show windowBurst t _ _ _ s = _
      rw [windowBurst_of_collecting h0 hd, ha]
    refine ⟨fun h => ?_, fun hw hdd h => ?_, fun hw hdd h hl => ?_, fun hw hdd h hl hreach => ?_⟩
    · exact take_routed_report hs hr (hburst.trans (windowAnnounce_malformed h)) rfl
    · exact take_routed hs hr (hburst.trans (windowAnnounce_duplicate hw hdd h)) rfl
    · exact take_routed hs hr (hburst.trans (windowAnnounce_excess hw hdd h hl)) rfl
    · exact take_routed_report hs hr
        ((hburst.trans (windowAnnounce_heard hw hdd h hl)).trans (announceHeard_outOfReach hc hreach)) rfl
  · refine take_routed hs hr ?_ rfl
    show probeBurst t _ _ _ s = _
    unfold probeBurst
    rw [if_neg (not_not.mpr h0), ho]
    simp only [hp]
    rfl
  · refine take_routed hs hr ?_ rfl
    show silenceBurst t s = _
    unfold silenceBurst
    simp only [if_neg (not_not.mpr h0), hc]
    rfl
  · have hnone : (s.tree t).NoInterval tag := by cases tag <;> exact hn
    obtain ⟨hburst, hend⟩ := route_of_none (arrival := arrival.toNat) (quality := quality) (payload := payload) h0 hnone
    exact ⟨take_routed hs hr hburst rfl, take_routed hs hr hend rfl⟩

end Sys2Proof.Machine
end

section
/-! PROOF. What the Task Sequencer's work leaves of a tree's downstream traffic: it posts nothing (`Quiet`), keeps a terminal
without work as it is (`Dormant`), and puts no operation in POSTED. Then what withdrawing an entry's work does (R142), and a
transition into another state than OPERATING with it (R38). -/

namespace Sys2Proof.Machine

/-! ### Operations that post nothing -/

/-- What the posting of a message reads and writes in an entry (R27). -/
def Entry.owing (e : Entry) : Option OwedMsg × Bool := (e.owed, e.resend)

/-- From `s` to `s'` nothing is posted on tree `t`, no owed message moves, and the grant link carries only more. -/
structure Quiet (t : TreeId) (s s' : State) : Prop where
  posted : s'.PostedAs s t
  sent   : ∃ more, (s'.tree t).out.grant = (s.tree t).out.grant ++ more

section
variable {s s' s'' : State} {t : TreeId}

@[refl] theorem Quiet.refl (s : State) : Quiet t s s := ⟨PostedAs_refl s t, [], (List.append_nil _).symm⟩

theorem Quiet.trans (h : Quiet t s s') (k : Quiet t s' s'') : Quiet t s s'' := by
  obtain ⟨more, hmore⟩ := h.sent
  obtain ⟨more', hmore'⟩ := k.sent
  exact ⟨PostedAs_trans t k.posted h.posted, more ++ more', by rw [hmore', hmore, List.append_assoc]⟩

theorem quiet_foldl {α : Type} (f : State → α → State) (h : ∀ s a, Quiet t s (f s a)) (l : List α) :
    ∀ s, Quiet t s (l.foldl f s) := by
  induction l with
  | nil => exact fun s => Quiet.refl s
  | cons a l ih => exact fun s => (h s a).trans (ih _)

/-- An update that leaves the queue, the slots and the grant link. -/
theorem quiet_modTree {f : Tree → Tree} (hm : (f (s.tree t)).msgq = (s.tree t).msgq)
    (hs : (f (s.tree t)).slots = (s.tree t).slots) (ho : (f (s.tree t)).out = (s.tree t).out) :
    Quiet t s (s.modTree t f) := by
  refine ⟨⟨by rw [tree_modTree_same, hm], fun tn => ?_⟩, [], by rw [tree_modTree_same, ho, List.append_nil]⟩
  rw [State.entry?, tree_modTree_same, entry?_of_slots hs]
  rfl

theorem quiet_modSeq (f : Sequencer → Sequencer) : Quiet t s (s.modSeq t f) := quiet_modTree rfl rfl rfl

theorem quiet_modLight (f : LightMonitor → LightMonitor) : Quiet t s (s.modLight t f) := quiet_modTree rfl rfl rfl

theorem quiet_modDisc (f : Discovery → Discovery) : Quiet t s (s.modDisc t f) := quiet_modTree rfl rfl rfl

theorem quiet_modAir (f : List Nat → List Nat) : Quiet t s (s.modAir t f) := quiet_modTree rfl rfl rfl

theorem quiet_setChan (tag : Tag) (c : Channel) : Quiet t s (s.setChan t tag c) :=
  quiet_modTree (by simp) (by simp) (by simp)

theorem quiet_report (b : ReportBody) : Quiet t s (s.report t b) := ⟨⟨rfl, fun _ => rfl⟩, [], (List.append_nil _).symm⟩

theorem quiet_freeIndex (n : Nat) : Quiet t s { s with freeIndex := n } :=
  ⟨⟨rfl, fun _ => rfl⟩, [], (List.append_nil _).symm⟩

theorem quiet_sendLink (m : GrantMsg) : Quiet t s (sendLink t m s) := by
  refine ⟨⟨by simp [sendLink], fun tn => ?_⟩, [m], by simp [sendLink]⟩
  rw [State.entry?, sendLink, tree_modOut_same]
  rfl

/-- An update of an entry that leaves what it owes. -/
theorem quiet_modEntry (tn : Nat) {f : Entry → Entry} (h : ∀ e, (f e).owing = e.owing) :
    Quiet t s (s.modEntry t tn f) := by
  refine ⟨⟨by simp, fun k => ?_⟩, [], by simp⟩
  rw [State.entry?, tree_modEntry_same]
  by_cases hk : k = tn
  · subst hk
    rw [entry?_modEntry_same, Option.map_map]
    exact congrArg (fun g => Option.map g ((s.tree t).entry? k)) (funext h)
  · rw [entry?_modEntry_other _ _ _ _ hk]
    rfl

theorem quiet_chanSend (tag : Tag) (req : Request) : Quiet t s (chanSend t tag req s) :=
  (quiet_setChan _ _).trans (quiet_sendLink _)

theorem quiet_chanWithdraw (tag : Tag) : Quiet t s (chanWithdraw t tag s) := quiet_setChan _ _

theorem quiet_chanRelease (tag : Tag) : Quiet t s (chanRelease t tag s) := by
  unfold chanRelease
  split
  · exact (quiet_setChan _ _).trans (quiet_sendLink _)
  all_goals exact Quiet.refl s

theorem quiet_raiseSeqStale : Quiet t s (s.raiseSeqStale t) :=
  Quiet.trans (s' := s.modSeq t _) (quiet_modSeq _) (quiet_freeIndex _)

theorem quiet_raiseLightStale : Quiet t s (s.raiseLightStale t) :=
  Quiet.trans (s' := s.modLight t _) (quiet_modLight _) (quiet_freeIndex _)

theorem quiet_setOp (o : Option ProbeOp) : Quiet t s (s.setOp t o) := quiet_modSeq _

theorem quiet_sendProbe (o : ProbeOp) (pl : Placement) : Quiet t s (sendProbe t o pl s) :=
  (quiet_chanSend _ _).trans (quiet_setOp _)

theorem quiet_beginAttempt (o : ProbeOp) : Quiet t s (beginAttempt t o s) := by
  unfold beginAttempt
  split
  · exact quiet_setOp _
  split
  · exact quiet_sendProbe _ _
  · exact quiet_setOp _
  split
  · exact quiet_sendProbe _ _
  split
  · exact quiet_setOp _
  · exact quiet_sendProbe _ _

theorem quiet_startOp (k : Task) (e : Entry) : Quiet t s (startOp t k e s) := by
  refine Quiet.trans ?_ (quiet_beginAttempt _)
  exact quiet_modEntry _ fun _ => rfl

theorem quiet_discardOp : Quiet t s (discardOp t s) := by
  unfold discardOp
  split
  · exact Quiet.refl s
  · refine Quiet.trans ?_ (quiet_setOp _)
    exact quiet_modEntry _ fun e => by split <;> rfl

theorem quiet_setTasks (l : List Task) : Quiet t s (s.setTasks t l) := quiet_modSeq _

theorem quiet_refill : Quiet t s (refill t s) := by
  refine quiet_foldl _ (fun s tn => ?_) _ _
  unfold refillOne
  split
  · split
    · refine Quiet.trans ?_ (quiet_setTasks _)
      exact quiet_modEntry tn fun _ => rfl
    · exact Quiet.refl s
  · exact Quiet.refl s

theorem quiet_takeLoop (n : Nat) : Quiet t s (takeLoop t n s) := by
  induction n generalizing s with
  | zero => exact Quiet.refl s
  | succ n ih =>
    unfold takeLoop
    split
    · split
      · exact Quiet.refl s
      · next k rest _ =>
        have h : Quiet t s (refill t (s.setTasks t rest)) := (quiet_setTasks rest).trans quiet_refill
        simp only
        split
        · exact h.trans (quiet_startOp _ _)
        · exact h.trans ih
    · exact Quiet.refl s

theorem quiet_takeTasks : Quiet t s (takeTasks t s) := quiet_takeLoop _

theorem quiet_judgeTask (k : Task) : Quiet t s (judgeTask t k s).state := by
  unfold judgeTask
  simp only
  split
  · exact Quiet.refl s
  split
  · exact Quiet.refl s
  split
  · split
    · exact quiet_setTasks _
    · exact Quiet.refl s
  split
  · exact quiet_setTasks _
  split
  · split
    · exact quiet_modEntry _ fun _ => rfl
    · exact (quiet_setTasks _).trans quiet_refill
  · exact Quiet.refl s

theorem quiet_addTask (k : Task) : Quiet t s (addTask t k s).state := (quiet_judgeTask k).trans quiet_takeTasks

theorem quiet_sendWindow (w : Context) : Quiet t s (sendWindow t w s) := by
  unfold sendWindow State.setDisc
  refine Quiet.trans ?_ (quiet_modDisc _)
  exact quiet_chanSend _ _

theorem quiet_startWindow : Quiet t s (startWindow t s) := by
  unfold startWindow
  split
  · split
    · exact quiet_sendWindow _
    · split
      · exact Quiet.refl s
      · exact (quiet_modDisc _).trans (quiet_sendWindow _)
    all_goals exact Quiet.refl s
  · exact Quiet.refl s

theorem quiet_terminalOff (tn : Nat) : Quiet t s (terminalOff t tn s) := by
  refine Quiet.trans ?_ (quiet_sendLink _)
  exact quiet_modAir _

theorem quiet_terminalOn (tn : Nat) (prof : Profile) : Quiet t s (terminalOn t tn prof s) := by
  refine Quiet.trans ?_ (quiet_sendLink _)
  exact quiet_modAir _

theorem quiet_ite {c : Prop} [Decidable c] (h : Quiet t s s') : Quiet t s (if c then s' else s) := by
  split
  · exact h
  · exact Quiet.refl s

/-- A transition that leaves what its entry owes. -/
theorem quiet_transit (tn : Nat) (cause : Cause) {f : Entry → Entry} (h : ∀ e, (f e).owing = e.owing) :
    Quiet t s (transit t tn cause f s) := by
  unfold transit
  split
  · exact Quiet.refl s
  · next e _ =>
    simp only
    refine Quiet.trans ?_ (quiet_report _)
    refine Quiet.trans ?_ (quiet_ite (quiet_terminalOn _ _))
    refine Quiet.trans ?_ (quiet_modEntry tn h)
    exact quiet_ite (quiet_terminalOff _)

end

/-! ### A terminal without work -/

/-- Nothing of the Task Sequencer's is for this entry of the TN: no task, no wait for one, no operation. -/
structure Dormant (T : Tree) (tn : Nat) (inst : BitVec 16) : Prop where
  tasks   : ∀ k ∈ T.seq.tasks, k.tn ≠ tn
  waiting : ∀ e, T.entry? tn = some e → e.waiting = false
  op      : ∀ o, T.seq.op = some o → o.tn ≠ tn ∨ o.inst ≠ inst

section
variable {s : State} {t : TreeId} {T U : Tree} {tn : Nat} {inst : BitVec 16}

theorem Dormant.idles (h : Dormant (s.tree t) tn inst) : s.Idles t tn inst := ⟨h.tasks, h.op⟩

/-- The channels and what they send are no part of it. -/
theorem Dormant.of_blocks (h : Dormant T tn inst) (hs : SameBlocks T U) : Dormant U tn inst :=
  ⟨hs.seq ▸ h.tasks, fun e he => h.waiting e (entry?_of_slots hs.slots tn ▸ he), hs.seq ▸ h.op⟩

/-- It reads the tasks, the operation and the wait of the TN's entry alone. -/
theorem Dormant.of_same (h : Dormant T tn inst) (hq : U.seq.tasks = T.seq.tasks) (ho : U.seq.op = T.seq.op)
    (hw : (U.entry? tn).map Entry.waiting = (T.entry? tn).map Entry.waiting) : Dormant U tn inst := by
  refine ⟨hq ▸ h.tasks, fun e he => ?_, ho ▸ h.op⟩
  rw [he, Option.map_some] at hw
  obtain ⟨e', he', hwait⟩ := Option.map_eq_some_iff.mp hw.symm
  exact hwait ▸ h.waiting e' he'

theorem dormant_modEntry (k : Nat) {f : Entry → Entry} (hf : ∀ e, e.waiting = false → (f e).waiting = false)
    (h : Dormant (s.tree t) tn inst) : Dormant ((s.modEntry t k f).tree t) tn inst := by
  rw [tree_modEntry_same]
  refine ⟨by simpa using h.tasks, fun e he => ?_, by simpa using h.op⟩
  by_cases hk : tn = k
  · subst hk
    rw [entry?_modEntry_same, Option.map_eq_some_iff] at he
    obtain ⟨e', he', rfl⟩ := he
    exact hf e' (h.waiting e' he')
  · exact h.waiting e (by simpa [hk] using he)

theorem dormant_modMsgq (h : Dormant (s.tree t) tn inst) (f : MsgQueue → MsgQueue) :
    Dormant ((s.modMsgq t f).tree t) tn inst := by
  rw [tree_modMsgq_same]
  exact h.of_same rfl rfl rfl

theorem dormant_setOp (h : Dormant (s.tree t) tn inst) {o : Option ProbeOp}
    (ho : ∀ x, o = some x → x.tn ≠ tn ∨ x.inst ≠ inst) : Dormant ((s.setOp t o).tree t) tn inst := by
  rw [State.setOp, tree_modSeq_same]
  exact ⟨h.tasks, h.waiting, ho⟩

theorem dormant_setSome (h : Dormant (s.tree t) tn inst) {o : ProbeOp} (ho : o.tn ≠ tn ∨ o.inst ≠ inst) :
    Dormant ((s.setOp t (some o)).tree t) tn inst := by
  refine dormant_setOp h fun x hx => ?_
  obtain rfl := Option.some.inj hx
  exact ho

theorem dormant_setTasks (h : Dormant (s.tree t) tn inst) {l : List Task} (hl : ∀ k ∈ l, k.tn ≠ tn) :
    Dormant ((s.setTasks t l).tree t) tn inst := by
  rw [State.setTasks, tree_modSeq_same]
  exact ⟨hl, h.waiting, h.op⟩

theorem dormant_sendProbe (h : Dormant (s.tree t) tn inst) {o : ProbeOp} (pl : Placement)
    (ho : o.tn ≠ tn ∨ o.inst ≠ inst) : Dormant ((sendProbe t o pl s).tree t) tn inst :=
  dormant_setOp (h.of_blocks (sameBlocks_chanSend _ _)) fun _ hx => Option.some.inj hx ▸ ho

theorem dormant_beginAttempt (h : Dormant (s.tree t) tn inst) {o : ProbeOp} (ho : o.tn ≠ tn ∨ o.inst ≠ inst) :
    Dormant ((beginAttempt t o s).tree t) tn inst := by
  unfold beginAttempt
  split
  · exact dormant_setSome h ho
  split
  · exact dormant_sendProbe h _ ho
  · exact dormant_setSome h ho
  split
  · exact dormant_sendProbe h _ ho
  split
  · exact dormant_setSome h ho
  · exact dormant_sendProbe h _ ho

theorem dormant_startOp (h : Dormant (s.tree t) tn inst) {k : Task} (hk : k.tn ≠ tn) (e : Entry) :
    Dormant ((startOp t k e s).tree t) tn inst := by
  unfold startOp
  refine dormant_beginAttempt ?_ (.inl hk)
  exact dormant_modEntry _ (fun _ he => he) h

theorem dormant_discardOp (h : Dormant (s.tree t) tn inst) : Dormant ((discardOp t s).tree t) tn inst := by
  unfold discardOp
  split
  · exact h
  · refine dormant_setOp ?_ (fun x hx => absurd hx (by simp))
    exact dormant_modEntry _ (fun e he => by split <;> exact he) h

theorem dormant_giveUpProbe (h : Dormant (s.tree t) tn inst) (o : ProbeOp) :
    Dormant ((giveUpProbe t o s).tree t) tn inst := by
  unfold giveUpProbe
  split
  · exact h
  · exact h
  · exact h.of_blocks (sameBlocks_chanWithdraw _)
  · refine Dormant.of_blocks ?_ (sameBlocks_chanRelease _)
    exact dormant_modMsgq h _
  · rw [raiseSeqStale_tree]
    exact h.of_same rfl rfl rfl

theorem dormant_abandonOp (h : Dormant (s.tree t) tn inst) : Dormant ((abandonOp t s).tree t) tn inst := by
  unfold abandonOp
  split
  · exact h
  · exact dormant_discardOp (dormant_giveUpProbe h _)

/-- The refill queues waiting entries alone (R141). -/
theorem dormant_refill (h : Dormant (s.tree t) tn inst) : Dormant ((refill t s).tree t) tn inst := by
  have hone : ∀ (x : State) (k : Nat), Dormant (x.tree t) tn inst → Dormant ((refillOne t x k).tree t) tn inst := by
    intro x k hx
    unfold refillOne
    split
    · split
      · next e he =>
        have hwaits := Option.filter_eq_some_iff.mp he
        have hk : k ≠ tn := by
          rintro rfl
          simp [hx.waiting e hwaits.1] at hwaits
        refine dormant_setTasks ?_ fun y hy => ?_
        · exact dormant_modEntry k (fun _ _ => rfl) hx
        have hmem : y.tn = k ∨ y.tn ∈ (x.tree t).seq.tasks.map (·.tn) := mem_placeUrgent.mp (List.mem_map_of_mem hy)
        rcases hmem with hy | hy
        · exact hy ▸ hk
        · obtain ⟨z, hz, hzy⟩ := List.mem_map.mp hy
          exact hzy ▸ hx.tasks z hz
      · exact hx
    · exact hx
  unfold refill
  generalize (s.tree t).tnsWith _ = l
  induction l generalizing s with
  | nil => exact h
  | cons k l ih => exact ih (hone s k h)

/-- Taking starts operations of queued tasks alone (R143). -/
theorem dormant_takeTasks (h : Dormant (s.tree t) tn inst) : Dormant ((takeTasks t s).tree t) tn inst := by
  unfold takeTasks
  generalize takeBound = n
  induction n generalizing s with
  | zero => exact h
  | succ n ih =>
    unfold takeLoop
    split
    · split
      · exact h
      · next k rest hl =>
        have hk : k.tn ≠ tn := h.tasks k (hl ▸ List.mem_cons_self)
        have h1 : Dormant ((refill t (s.setTasks t rest)).tree t) tn inst :=
          dormant_refill (dormant_setTasks h fun x hx => h.tasks x (hl ▸ List.mem_cons_of_mem _ hx))
        simp only
        split
        · exact dormant_startOp h1 hk _
        · exact ih h1
    · exact h

theorem dormant_withdrawn (h : Dormant (s.tree t) tn inst) (k : Nat) (i : BitVec 16) :
    Dormant ((withdrawn t k i s).tree t) tn inst := by
  have h1 : Dormant ((s.setTasks t ((s.tree t).seq.tasks.filter fun x => x.tn ≠ k)).tree t) tn inst :=
    dormant_setTasks h fun x hx => h.tasks x (List.mem_of_mem_filter hx)
  unfold withdrawn
  refine dormant_takeTasks (dormant_refill ?_)
  split
  · split
    · exact dormant_abandonOp h1
    · exact h1
  · exact h1

theorem dormant_postMust (h : Dormant (s.tree t) tn inst) (k : Nat) (m : Message) (by_ : Issuer) :
    Dormant ((postMust t k m by_ s).state.tree t) tn inst := by
  unfold postMust
  split
  · exact h
  split
  · exact h
  simp only
  split
  · exact dormant_modEntry k (fun _ he => he) h
  split
  · unfold enqueue
    refine dormant_modMsgq ?_ _
    exact dormant_modEntry k (fun _ he => he) h
  · exact dormant_modEntry k (fun _ he => he) h

theorem op_discardOp : ((discardOp t s).tree t).seq.op = none := by
  unfold discardOp
  split
  · assumption
  · simp [State.setOp]

theorem op_abandonOp : ((abandonOp t s).tree t).seq.op = none := by
  unfold abandonOp
  split
  · assumption
  · exact op_discardOp

/-- The state once the Task Sequencer has dropped a withdrawn entry's task and operation (R142). -/
def workDropped (t : TreeId) (tn : Nat) (inst : BitVec 16) (s : State) : State :=
  let s1 := s.setTasks t ((s.tree t).seq.tasks.filter fun k => k.tn ≠ tn)
  match (s1.tree t).seq.op with
  | some o => if o.tn = tn ∧ o.inst = inst then abandonOp t s1 else s1
  | none => s1

theorem withdrawn_eq : withdrawn t tn inst s = takeTasks t (refill t (workDropped t tn inst s)) := rfl

theorem workDropped_of_named {o : ProbeOp} (ho : (s.tree t).seq.op = some o) (hn : o.tn = tn ∧ o.inst = inst) :
    workDropped t tn inst s = abandonOp t (s.setTasks t ((s.tree t).seq.tasks.filter fun k => k.tn ≠ tn)) := by
  simp [workDropped, State.setTasks, ho, hn]

theorem workDropped_of_other (h : ∀ o, (s.tree t).seq.op = some o → ¬(o.tn = tn ∧ o.inst = inst)) :
    workDropped t tn inst s = s.setTasks t ((s.tree t).seq.tasks.filter fun k => k.tn ≠ tn) := by
  unfold workDropped
  simp only
  split
  · next o ho =>
    rw [State.setTasks, tree_modSeq_same] at ho
    rw [if_neg (h o ho)]
  · rfl

/-- An entry that does not wait has no work left once it has been withdrawn (R142). -/
theorem dormant_of_withdrawn (hw : ∀ e, s.entry? t tn = some e → e.waiting = false) :
    Dormant ((withdrawn t tn inst s).tree t) tn inst := by
  rw [withdrawn_eq]
  refine dormant_takeTasks (dormant_refill ?_)
  by_cases h : ∀ o, (s.tree t).seq.op = some o → ¬(o.tn = tn ∧ o.inst = inst)
  · rw [workDropped_of_other h, State.setTasks, tree_modSeq_same]
    exact ⟨by simp, hw, fun o ho => not_and_or.mp (h o ho)⟩
  · push Not at h
    obtain ⟨o, ho, hn⟩ := h
    rw [workDropped_of_named ho hn]
    -- Giving up the operation touches no task and no wait: for another entry of the TN nothing was there to give up.
    have hother : inst + 1 ≠ inst := by bv_omega
    have h1 : Dormant ((s.setTasks t ((s.tree t).seq.tasks.filter fun k => k.tn ≠ tn)).tree t) tn (inst + 1) := by
      rw [State.setTasks, tree_modSeq_same]
      exact ⟨by simp, hw, fun x hx => .inr fun hi => hother (by simp_all)⟩
    obtain ⟨htasks, hwaiting, -⟩ := dormant_abandonOp h1
    exact ⟨htasks, hwaiting, fun x hx => by simp [op_abandonOp] at hx⟩

end

/-! ### Operations put in POSTED -/

section
variable {s : State} {t : TreeId}

theorem op_refill : ((refill t s).tree t).seq.op = (s.tree t).seq.op := by
  have hone : ∀ (x : State) (k : Nat), ((refillOne t x k).tree t).seq.op = (x.tree t).seq.op := by
    intro x k
    unfold refillOne
    split
    · split
      · simp [State.setTasks]
      · rfl
    · rfl
  unfold refill
  generalize (s.tree t).tnsWith _ = l
  induction l generalizing s with
  | nil => rfl
  | cons k l ih => exact ih.trans (hone s k)

/-- An attempt begins in its operation's own phase, held, or requesting (R105, R106). -/
theorem op_beginAttempt (o : ProbeOp) :
    ∃ ph w, ((beginAttempt t o s).tree t).seq.op = some { o with phase := ph, waitStart := w } ∧
      (ph = o.phase ∨ ph.timed = false) := by
  have hset : ∀ (x : State) (y : ProbeOp), ((x.setOp t (some y)).tree t).seq.op = some y := fun x y => by
    rw [State.setOp, tree_modSeq_same]
  unfold beginAttempt
  split
  · exact ⟨_, _, hset _ _, .inl rfl⟩
  split
  · exact ⟨_, _, hset _ _, .inr rfl⟩
  · exact ⟨_, _, hset _ _, .inl rfl⟩
  split
  · exact ⟨_, _, hset _ _, .inr rfl⟩
  split
  · exact ⟨_, _, hset _ _, .inr rfl⟩
  · exact ⟨_, _, hset _ _, .inr rfl⟩

/-- An operation that a task starts: for the task's own entry, measuring, with no message posted (R105). -/
theorem op_startOp (k : Task) (e : Entry) :
    ∃ ph w, ((startOp t k e s).tree t).seq.op =
        some { tn := k.tn, inst := k.inst, serial := e.serial, kind := k.kind.opKind,
               expected := k.kind.opKind.expected, stage := .measure, phase := ph, waitStart := w } ∧
      ph.timed = false := by
  obtain ⟨ph, w, hop, hph⟩ := op_beginAttempt (t := t) (s := s.modEntry t k.tn fun e => { e with attempts := some 0 })
    { tn := k.tn, inst := k.inst, serial := e.serial, kind := k.kind.opKind, expected := k.kind.opKind.expected,
      stage := .measure, phase := .waitDelay, waitStart := s.epoch }
  refine ⟨ph, w, hop, ?_⟩
  rcases hph with rfl | hph
  · rfl
  · exact hph

theorem opPosted_of_timed {T : Tree} {o : ProbeOp} (ho : T.seq.op = some o) (h : o.phase.timed = false) :
    T.opPosted = false := by
  refine opPosted_of_other ho fun pl qe qs g hp => ?_
  simp [hp, OpPhase.timed] at h

/-- Taking leaves an operation in flight, and starts none in POSTED (R143). -/
theorem op_takeTasks :
    ((takeTasks t s).tree t).seq.op = (s.tree t).seq.op ∨
      ((s.tree t).seq.op = none ∧ ((takeTasks t s).tree t).opPosted = false) := by
  unfold takeTasks
  generalize takeBound = n
  induction n generalizing s with
  | zero => exact .inl rfl
  | succ n ih =>
    unfold takeLoop
    split
    · next hmay =>
      have hnone : (s.tree t).seq.op = none := by
        cases ho : (s.tree t).seq.op with
        | none => rfl
        | some o => simp [Tree.mayTake, ho] at hmay
      split
      · exact .inl rfl
      · next k rest _ =>
        have h1 : ((refill t (s.setTasks t rest)).tree t).seq.op = none := by
          rw [op_refill, State.setTasks, tree_modSeq_same]
          exact hnone
        simp only
        split
        · next e _ =>
          obtain ⟨ph, w, hop, hph⟩ := op_startOp (s := refill t (s.setTasks t rest)) (t := t) k e
          exact .inr ⟨hnone, opPosted_of_timed hop hph⟩
        · rcases ih (s := refill t (s.setTasks t rest)) with h | h
          · rw [h, h1]
            exact .inl hnone.symm
          · exact .inr ⟨hnone, h.2⟩
    · exact .inl rfl

/-- An operation POSTED after taking was in flight before. -/
theorem op_takeTasks_of_posted (h : ((takeTasks t s).tree t).opPosted = true) :
    ((takeTasks t s).tree t).seq.op = (s.tree t).seq.op := by
  rcases op_takeTasks (s := s) (t := t) with ho | ⟨-, ho⟩
  · exact ho
  · simp [ho] at h

/-- An operation POSTED once an entry has been withdrawn was in flight before, for another (R142). -/
theorem op_withdrawn_of_posted {tn : Nat} {inst : BitVec 16} (h : ((withdrawn t tn inst s).tree t).opPosted = true) :
    ((withdrawn t tn inst s).tree t).seq.op = (s.tree t).seq.op := by
  have hop : ((withdrawn t tn inst s).tree t).seq.op = ((workDropped t tn inst s).tree t).seq.op :=
    (op_takeTasks_of_posted h).trans op_refill
  refine hop.trans ?_
  by_cases hn : ∀ o, (s.tree t).seq.op = some o → ¬(o.tn = tn ∧ o.inst = inst)
  · rw [workDropped_of_other hn, State.setTasks, tree_modSeq_same]
  · push Not at hn
    obtain ⟨o, ho, hn⟩ := hn
    rw [workDropped_of_named ho hn, op_abandonOp] at hop
    simp [Tree.opPosted, hop] at h

end

/-! ### A withdrawn entry's message -/

section
variable {s : State} {t : TreeId} {tn : Nat} {inst : BitVec 16}

theorem quiet_giveUpProbe {o : ProbeOp} (h : ∀ pl qe qs g, o.phase ≠ .posted pl qe qs g) :
    Quiet t s (giveUpProbe t o s) := by
  unfold giveUpProbe
  split
  · exact Quiet.refl s
  · exact Quiet.refl s
  · exact quiet_chanWithdraw _
  · next hp => exact absurd hp (h _ _ _ _)
  · exact quiet_raiseSeqStale

theorem probePosted_iff {T : Tree} :
    T.probePosted tn inst = true ↔
      ∃ o pl qe qs g, T.seq.op = some o ∧ o.phase = .posted pl qe qs g ∧ o.tn = tn ∧ o.inst = inst := by
  unfold Tree.probePosted
  split
  · next k i pl qe qs g serial kind expected stage w ho => simp [ho]
  · next hne =>
    refine iff_of_false (by simp) ?_
    rintro ⟨⟨k, i, serial, kind, expected, stage, phase, w⟩, pl, qe, qs, g, ho, hp, -, -⟩
    cases hp
    exact hne _ _ _ _ _ _ _ _ _ _ _ ho

theorem probeGone_of_posted (h : (s.tree t).probePosted tn inst = true) :
    s.probeGone t tn inst = withdrawItems t .sequencer s := by
  simp only [State.probeGone, State.withItems, withdrawItems, State.modMsgq, h]
  refine modTree_congr ?_
  simp [Tree.itemsKept]

theorem probeGone_of_not_posted (h : (s.tree t).probePosted tn inst = false) : s.probeGone t tn inst = s := by
  have hitems : (s.tree t).itemsKept false ((s.tree t).probePosted tn inst) = (s.tree t).msgq.items := by
    rw [h, itemsKept_none]
  unfold State.probeGone State.withItems State.modMsgq
  rw [hitems]
  exact modTree_self rfl

/-- Withdrawing an entry posts nothing and takes back its PROBE where that is posted (R37, R107, R142). -/
theorem quiet_withdrawn : Quiet t (s.probeGone t tn inst) (withdrawn t tn inst s) := by
  rw [withdrawn_eq]
  refine Quiet.trans ?_ (quiet_refill.trans quiet_takeTasks)
  generalize hl : ((s.tree t).seq.tasks.filter fun k => k.tn ≠ tn) = l
  have hop : ∀ o, (s.tree t).seq.op = some o → ((s.setTasks t l).tree t).seq.op = some o := fun o ho => by
    rw [State.setTasks, tree_modSeq_same, ← ho]
  by_cases h : (s.tree t).probePosted tn inst = true
  · obtain ⟨o, pl, qe, qs, g, ho, hp, hn⟩ := probePosted_iff.mp h
    rw [probeGone_of_posted h, workDropped_of_named ho hn, hl]
    have hgiven : abandonOp t (s.setTasks t l) =
        discardOp t (chanRelease t .probe ((withdrawItems t .sequencer s).setTasks t l)) := by
      have hcomm : withdrawItems t .sequencer (s.setTasks t l) = (withdrawItems t .sequencer s).setTasks t l := by
        simp only [withdrawItems, State.setTasks, State.modMsgq, State.modSeq, modTree_modTree]
      simp only [abandonOp, hop o ho, giveUpProbe, hp, hcomm]
    rw [hgiven]
    exact ((quiet_setTasks l).trans (quiet_chanRelease _)).trans quiet_discardOp
  · rw [probeGone_of_not_posted (by simpa using h)]
    by_cases hn : ∀ o, (s.tree t).seq.op = some o → ¬(o.tn = tn ∧ o.inst = inst)
    · rw [workDropped_of_other hn]
      exact quiet_setTasks _
    · push Not at hn
      obtain ⟨o, ho, hn⟩ := hn
      have hphase : ∀ pl qe qs g, o.phase ≠ .posted pl qe qs g := fun pl qe qs g hp =>
        h (probePosted_iff.mpr ⟨o, pl, qe, qs, g, ho, hp, hn⟩)
      rw [workDropped_of_named ho hn, hl]
      have hgiven : abandonOp t (s.setTasks t l) = discardOp t (giveUpProbe t o (s.setTasks t l)) := by
        simp only [abandonOp, hop o ho]
      rw [hgiven]
      exact ((quiet_setTasks l).trans (quiet_giveUpProbe hphase)).trans quiet_discardOp

theorem sent_probeGone : ((s.probeGone t tn inst).tree t).out = (s.tree t).out := by simp [State.probeGone]

theorem sent_withdrawn : ∃ more, ((withdrawn t tn inst s).tree t).out.grant = (s.tree t).out.grant ++ more := by
  obtain ⟨more, h⟩ := (quiet_withdrawn (s := s) (t := t) (tn := tn) (inst := inst)).sent
  exact ⟨more, by rw [h, sent_probeGone]⟩

end

end Sys2Proof.Machine
end

section
/-! PROOF. An entry that leaves OPERATING goes off the air (R38), and the misses that take it to LOST (O40). -/

namespace Sys2Proof.Machine

/-! ### Leaving the air -/

section
variable {s s' : State} {t : TreeId} {tn : Nat} {e : Entry} {f : Entry → Entry} {cause : Cause}

theorem operating_of_state {d : Drift} (h : e.state = .operating d) : e.operating = true := by simp [Entry.operating, h]

theorem not_closing_of_active (h : (s.tree t).isActive = true) : (s.tree t).isClosing = false := by
  simp only [Tree.isActive, beq_iff_eq] at h
  simp [Tree.isClosing, h]

theorem closing_of_routes (hr : (s.tree t).routesBursts = true) (ha : (s.tree t).isActive = false) :
    (s.tree t).isClosing = true := by simpa [Tree.routesBursts, ha] using hr

theorem grant_transit_off (he : s.entry? t tn = some e) (ho : e.operating = true) (hf : (f e).operating = false) :
    ((transit t tn cause f s).tree t).out.grant = (s.tree t).out.grant ++ [.terminalOff tn] := by
  unfold transit
  rw [he]
  simp [ho, hf, terminalOff, sendLink]

/-- What has been handed to the grant link stays handed, whatever follows it. -/
theorem sends_of_more {r : State} {m : GrantMsg} (h : (r.tree t).out.grant = (s.tree t).out.grant ++ [m])
    (hs : ∃ more, (s'.tree t).out.grant = (r.tree t).out.grant ++ more) : s.Sends s' t m := by
  obtain ⟨more, hmore⟩ := hs
  exact ⟨m :: more, by rw [hmore, h, List.append_assoc]; rfl, List.mem_cons_self⟩

/-- An entry that leaves OPERATING is off the air, and TERMINAL_OFF has been sent, whatever calm work follows (R38). -/
theorem offAir_of_transit (he : s.entry? t tn = some e) (ho : e.operating = true) (hf : (f e).operating = false)
    (hc : Calm (transit t tn cause f s) s')
    (hs : ∃ more, (s'.tree t).out.grant = ((transit t tn cause f s).tree t).out.grant ++ more) :
    tn ∉ (s'.tree t).onAir ∧ s.Sends s' t (.terminalOff tn) := by
  refine ⟨?_, sends_of_more (grant_transit_off he ho hf) hs⟩
  rw [(hc.trees t).onAir, onAir_transit he, if_pos ⟨ho, hf⟩]
  simp

/-- The sequencer's own state is all that decides which PROBE is posted. -/
theorem probePosted_of_op {T U : Tree} (h : U.seq.op = T.seq.op) (inst : BitVec 16) :
    U.probePosted tn inst = T.probePosted tn inst := by simp only [Tree.probePosted, h]

/-- Where two states post alike and agree on the PROBE, they post alike with it gone. -/
theorem PostedAs.probeGone {inst : BitVec 16} (h : s'.PostedAs s t)
    (hp : (s'.tree t).probePosted tn inst = (s.tree t).probePosted tn inst) :
    (s'.probeGone t tn inst).PostedAs (s.probeGone t tn inst) t := by
  obtain ⟨hm, ho⟩ := h
  refine ⟨?_, fun k => by simpa using ho k⟩
  simp [State.probeGone, Tree.itemsKept, hm, hp]

end

/-! ### Going to LOST -/

section
variable {s : State} {t : TreeId} {tn : Nat} {e : Entry} {cause : Cause}

theorem enterLost_eq (he : s.entry? t tn = some e) :
    enterLost t tn cause s =
      withdrawn t tn e.inst (transit t tn cause (Entry.toLost (s.epoch + (s.params t).lostHold)) s) := by
  simp only [enterLost, he]

/-- An entry that goes to LOST leaves no work behind (R44, R142). -/
theorem enterLost_idles (he : s.entry? t tn = some e) : (enterLost t tn cause s).Idles t tn e.inst := by
  rw [enterLost_eq he]
  refine (dormant_of_withdrawn fun x hx => ?_).idles
  rw [(transited_transit he).self, he, Option.map_some] at hx
  cases hx
  rfl

/-- An entry that goes to LOST posts nothing, and its PROBE is taken back (R44, R107). -/
theorem enterLost_posted (he : s.entry? t tn = some e) :
    (enterLost t tn cause s).PostedAs (s.probeGone t tn e.inst) t := by
  rw [enterLost_eq he]
  refine PostedAs_trans t quiet_withdrawn.posted (PostedAs.probeGone ?_ ?_)
  · exact (quiet_transit (f := Entry.toLost _) _ _ fun _ => rfl).posted
  · exact probePosted_of_op (by rw [(transited_transit he).seq]) _

theorem enterLost_offAir (he : s.entry? t tn = some e) (ho : e.operating = true) :
    tn ∉ ((enterLost t tn cause s).tree t).onAir ∧ s.Sends (enterLost t tn cause s) t (.terminalOff tn) := by
  rw [enterLost_eq he]
  exact offAir_of_transit he ho rfl (calm_withdrawn _ _) sent_withdrawn

end

/-! ### Misses (R133) -/

section
variable {s : State} {t : TreeId} {tn : Nat} {e : Entry} {d : Drift}

theorem driftMiss_of_not_operating (ho : e.operating = false) : driftMiss t tn e s = s := by
  unfold driftMiss
  split
  · rfl
  · cases hst : e.state with
    | operating d => simp [Entry.operating, hst] at ho
    | assigning | ranging | verifying | muted | lost | retiring => simp [Entry.drift?, hst]

theorem driftMiss_of_operating (ha : (s.tree t).isActive = true) (hst : e.state = .operating d) :
    driftMiss t tn e s =
      if (s.params t).missLimit ≤ d.misses + 1 then enterLost t tn .misses s
      else s.modEntry t tn fun e => e.modDrift fun d => { d with misses := d.misses + 1 } := by
  simp [driftMiss, not_closing_of_active ha, Entry.drift?, hst]

theorem routeMiss_of_entry (he : s.entry? t tn = some e) : routeMiss t tn s = driftMiss t tn e s := by
  simp only [routeMiss, he]

/-- A miss for no OPERATING entry of an ACTIVE tree is discarded (R21, R133, R136). -/
theorem routeMiss_discarded
    (hr : (s.tree t).routesBursts = true)
    (h : (s.tree t).isActive = false ∨ ∀ e, s.entry? t tn = some e → e.operating = false) : routeMiss t tn s = s := by
  cases he : s.entry? t tn with
  | none => simp only [routeMiss, he]
  | some e =>
    rw [routeMiss_of_entry he]
    rcases h with ha | ho
    · exact if_pos (closing_of_routes hr ha)
    · exact driftMiss_of_not_operating (ho e he)

end

/-- Settles O40: the miss is discarded, counted, or takes the entry to LOST. -/
theorem missesCounted : Obligations.MissesCounted := by
  intro s t tn g hs
  refine ⟨fun h => ?_, fun e d ha he hst hlim => ?_, fun e d ha he hst hlim => ?_⟩
  · by_cases hr : (s.tree t).routesBursts = true
    · exact take_routed hs hr (routeMiss_discarded hr h) rfl
    · exact take_not_routed hs (by simpa using hr)
  · refine take_routed hs (routesBursts_of_active ha) ?_ rfl
    rw [routeMiss_of_entry he, driftMiss_of_operating ha hst, if_neg (by omega)]
    exact modEntry_congr he (modDrift_of_operating hst _)
  · have hlost : routed t (routeMiss t tn.toNat) s = enterLost t tn.toNat .misses s := by
      rw [routed_of_routes (routesBursts_of_active ha), routeMiss_of_entry he, driftMiss_of_operating ha hst, if_pos hlim]
    have hbecomes := enterLost_becomes (s := s) (t := t) (tn := tn.toNat) (cause := .misses)
    obtain ⟨hair, hsends⟩ := enterLost_offAir (cause := .misses) he (operating_of_state hst)
    refine ⟨_, take_of_taking hs _, ?_⟩
    rw [hlost]
    refine ⟨?_, hair, hsends, enterLost_idles he, enterLost_posted he, hbecomes.directory,
      fun k hk => hbecomes.other t k (.inr hk)⟩
    exact hbecomes.self.trans (by rw [he]; rfl)

end Sys2Proof.Machine
end

section
/-! PROOF. The Drift Tracker's samples (O38): what a granted burst does to an OPERATING entry, and the move to RANGING with the
task it asks for (R129, R139, R140, R143). -/

namespace Sys2Proof.Machine

/-! ### What a request for an URGENT task does -/

section
variable {s s' : State} {t : TreeId} {k : Task} {tn : Nat} {e : Entry}

theorem takeTasks_of_not_mayTake (h : (s.tree t).mayTake = false) : takeTasks t s = s := by
  simp [takeTasks, takeLoop, h]

/-- With an operation in flight or the gate closed, no task is taken (R143). -/
theorem mayTake_of_busy {T : Tree} (h : T.gateOpen = false ∨ T.seq.op ≠ none) : T.mayTake = false := by
  rcases h with h | h
  · simp [Tree.mayTake, h]
  · cases ho : T.seq.op with
    | none => exact absurd ho h
    | some o => simp [Tree.mayTake, ho]

/-- A list with no room is not refilled (R141). -/
theorem refill_of_full (h : 16 ≤ (s.tree t).seq.tasks.length) : refill t s = s := by
  have hone : ∀ k, refillOne t s k = s := fun k => if_neg (by simpa [Config.taskLimit] using h)
  unfold refill
  generalize (s.tree t).tnsWith _ = l
  induction l with
  | nil => rfl
  | cons a l ih => rw [List.foldl_cons, hone a, ih]

theorem setTasks_self : s.setTasks t (s.tree t).seq.tasks = s := by
  unfold State.setTasks State.modSeq
  exact modTree_self rfl

/-- The task list that a request for an URGENT task leaves, before taking is judged (R139, R140). -/
def askedTasks (k : Task) (wait : Bool) (old : List Task) : List Task :=
  if wait then old
  else
    match old.find? fun x => x.tn = k.tn with
    | some x => if x.urgent then old else placeUrgent k (old.filter fun x => x.tn ≠ k.tn)
    | none =>
      if old.length < 16 then placeUrgent k old
      else if old.all Task.urgent then old
      else placeUrgent k old.dropLast

/-- Whether the entry waits once an URGENT task has been asked for it (R140). -/
def askedWait (k : Task) (wait : Bool) (old : List Task) : Bool :=
  wait || ((old.find? fun x => x.tn = k.tn).isNone && !decide (old.length < 16) && old.all Task.urgent)

/-- A request for an URGENT task changes the task list and the entry's wait, by R139 and R140. -/
theorem judgeTask_urgent (hu : k.urgent = true) (hc : (s.tree t).isClosing = false) (he : s.entry? t k.tn = some e) :
    (judgeTask t k s).state =
      (s.modEntry t k.tn fun x => { x with waiting := askedWait k e.waiting (s.tree t).seq.tasks }).setTasks t
        (askedTasks k e.waiting (s.tree t).seq.tasks) := by
  have hkept (h : askedWait k e.waiting (s.tree t).seq.tasks = e.waiting) :
      s.modEntry t k.tn (fun x => { x with waiting := askedWait k e.waiting (s.tree t).seq.tasks }) = s := by
    refine modEntry_self fun x hx => ?_
    obtain rfl : e = x := Option.some.inj (he.symm.trans hx)
    rw [h]
  unfold judgeTask askedTasks
  simp only [hc, he, hu, Option.map_some, Option.getD_some, Bool.false_eq_true, if_false, if_true, Bool.true_and,
    Bool.not_eq_true', Config.taskLimit]
  by_cases hw : e.waiting = true
  · rw [if_pos hw, if_pos hw, hkept (by simp [askedWait, hw]), setTasks_self]
  rw [if_neg hw, if_neg hw]
  have hw' : e.waiting = false := by simpa using hw
  cases hf : (s.tree t).seq.tasks.find? fun x => decide (x.tn = k.tn) with
  | some x =>
    rw [hkept (by simp [askedWait, hf])]
    by_cases hx : x.urgent = true
    · simp [hx, setTasks_self]
    · simp [hx]
  | none =>
    by_cases hl : (s.tree t).seq.tasks.length < 16
    · rw [hkept (by simp [askedWait, hl])]
      simp [hl]
    by_cases hall : (s.tree t).seq.tasks.all Task.urgent = true
    · have hwait : askedWait k e.waiting (s.tree t).seq.tasks = true := by simp [askedWait, hf, hl, hall]
      have hset : ∀ r : State, (r.tree t).seq.tasks = (s.tree t).seq.tasks → r.setTasks t (s.tree t).seq.tasks = r :=
        fun r hr => hr ▸ setTasks_self
      rw [hwait]
      simp only [hl, hall, if_true, if_false]
      exact (hset _ (by simp)).symm
    · have hfull : 16 ≤ ((s.setTasks t (placeUrgent k (s.tree t).seq.tasks.dropLast)).tree t).seq.tasks.length := by
        simp only [State.setTasks, tree_modSeq_same, length_placeUrgent, List.length_dropLast]
        omega
      rw [hkept (by simp [askedWait, hall])]
      simp only [hl, hall, if_false, Bool.false_eq_true, refill_of_full hfull]

/-- A lone task that fits its entry is taken: its operation measures, with no message posted (R105, R143, R144). -/
theorem op_takeTasks_of_lone (hg : (s.tree t).gateOpen = true) (ho : (s.tree t).seq.op = none)
    (hl : (s.tree t).seq.tasks = [k]) (he : s.entry? t k.tn = some e) (hfit : taskFits k e = true) :
    ∃ o, ((takeTasks t s).tree t).seq.op = some o ∧
      (o.tn, o.inst, o.kind, o.expected, o.stage, o.phase.timed) =
        (k.tn, k.inst, k.kind.opKind, k.kind.opKind.expected, .measure, false) := by
  have hcalm : Calm s (refill t (s.setTasks t [])) := (calm_setTasks []).trans calm_refill
  obtain ⟨x, hx⟩ : ∃ x, (refill t (s.setTasks t [])).entry? t k.tn = some x :=
    Option.isSome_iff_exists.mp (by rw [hcalm.isSome, he]; rfl)
  have hid : x.identity = e.identity := by
    have := hcalm.identity t k.tn
    rw [hx, he] at this
    exact Option.some.inj this
  have hxfit : taskFits k x = true := by
    simp only [Entry.identity, Prod.mk.injEq] at hid
    simpa [taskFits, hid.1, hid.2.2] using hfit
  have hmay : (s.tree t).mayTake = true := by simp [Tree.mayTake, hg, ho, hl]
  have htaken : takeTasks t s = startOp t k x (refill t (s.setTasks t [])) := by
    simp only [takeTasks, takeLoop, hmay, if_true, hl, hx, Option.filter_some, hxfit]
  obtain ⟨ph, w, hop, hph⟩ := op_startOp (s := refill t (s.setTasks t [])) (t := t) k x
  rw [htaken]
  exact ⟨_, hop, by simp [hph]⟩

/-- The request for an URGENT task of an entry that has just come to RANGING, in a state `r` that has the sequencer, the
gate and the entry's wait of `s` (R139, R140, R143). -/
theorem taskAsked_addTask {r : State} (hu : k.urgent = true) (hq : (r.tree t).seq = (s.tree t).seq)
    (hctl : (r.tree t).ctl = (s.tree t).ctl) (hlight : (r.tree t).light = (s.tree t).light)
    (hs : s.entry? t k.tn = some e) {x : Entry} (hr : r.entry? t k.tn = some x) (hwait : x.waiting = e.waiting)
    (hinst : x.inst = k.inst) (hstate : x.state.name = .ranging) (hopen : (s.tree t).isClosing = false) :
    s.TaskAsked (addTask t k r).state t k := by
  have hgate : (r.tree t).gateOpen = (s.tree t).gateOpen := by simp only [Tree.gateOpen, Tree.isActive, hctl, hlight]
  have hclosing : (r.tree t).isClosing = false := by rw [← hopen]; simp only [Tree.isClosing, hctl]
  have hjudged := judgeTask_urgent hu hclosing hr
  rw [hq, hwait] at hjudged
  have hadd : (addTask t k r).state = takeTasks t (judgeTask t k r).state := rfl
  have hseq : ((judgeTask t k r).state.tree t).seq =
      { (s.tree t).seq with tasks := askedTasks k e.waiting (s.tree t).seq.tasks } := by
    rw [hjudged, State.setTasks, tree_modSeq_same, tree_modEntry_same, seq_modEntry, hq]
  have hgate' : ((judgeTask t k r).state.tree t).gateOpen = (s.tree t).gateOpen := by
    rw [← hgate, hjudged]
    simp [Tree.gateOpen, Tree.isActive, State.setTasks]
  have hentry : (judgeTask t k r).state.entry? t k.tn =
      some { x with waiting := askedWait k e.waiting (s.tree t).seq.tasks } := by
    rw [hjudged, State.entry?, State.setTasks, tree_modSeq_same]
    show ((r.modEntry t k.tn _).tree t).entry? k.tn = _
    rw [tree_modEntry_same, entry?_modEntry_same]
    exact congrArg (Option.map _) hr
  rw [hadd]
  refine ⟨fun _ hbusy old e' hold he' => ?_, fun hg ho ht hw => ?_⟩
  · obtain rfl : e = e' := Option.some.inj (hs.symm.trans he')
    subst hold
    rw [takeTasks_of_not_mayTake (mayTake_of_busy (by rwa [hgate', hseq]))]
    rw [hseq, hentry]
    exact ⟨rfl, rfl⟩
  · have hnowait : e.waiting = false := hw e hs
    have hlone : ((judgeTask t k r).state.tree t).seq.tasks = [k] := by
      rw [hseq, ht, hnowait]
      simp [askedTasks, placeUrgent]
    obtain ⟨o, hop, hfields⟩ := op_takeTasks_of_lone (hgate'.trans hg) (by rw [hseq]; exact ho) hlone hentry
      (by simp [taskFits, hinst, hstate, hu])
    have hkind : k.kind.opKind = .range := by
      cases hk : k.kind <;> simp_all [Task.urgent, TaskKind.urgent, TaskKind.opKind]
    rw [hop, Option.map_some, hfields, hkind]
    rfl

end

/-- The entry of records reads and writes nothing of a tree (R191). -/
theorem State.TaskAsked.settle {s s' : State} {t : TreeId} {k : Task} (h : s.TaskAsked s' t k) :
    s.TaskAsked s'.settle t k := ⟨h.held, h.begun⟩

/-! ### The drift fields of an OPERATING entry -/

/-- The entry of a TN in OPERATING with these drift fields. -/
def driftSet (t : TreeId) (tn : Nat) (d : Drift) (s : State) : State :=
  s.modEntry t tn fun y => { y with state := .operating d }

section
variable {s : State} {t : TreeId} {tn : Nat} {e : Entry} {d d' : Drift}

theorem modDrift_eq_driftSet (he : s.entry? t tn = some e) (hst : e.state = .operating d) (f : Drift → Drift) :
    s.modEntry t tn (fun y => y.modDrift f) = driftSet t tn (f d) s :=
  modEntry_congr he (modDrift_of_operating hst f)

theorem driftSet_modDrift (f : Drift → Drift) :
    (driftSet t tn d s).modEntry t tn (fun y => y.modDrift f) = driftSet t tn (f d) s := modEntry_modEntry _ _

theorem entry?_driftSet (he : s.entry? t tn = some e) :
    (driftSet t tn d s).entry? t tn = some { e with state := .operating d } := by
  rw [State.entry?, driftSet, tree_modEntry_same, entry?_modEntry_same]
  exact congrArg (Option.map _) he

theorem params_driftSet : (driftSet t tn d s).params t = s.params t := by simp [driftSet, State.params]

theorem quiet_driftSet : Quiet t s (driftSet t tn d s) := by
  unfold driftSet
  exact quiet_modEntry tn fun _ => rfl

end

/-! ### Moves to RANGING (R129) -/

/-- What a move of an OPERATING entry to RANGING leaves of the state it was in (R129, R139). -/
structure MovedToRanging (s s' : State) (t : TreeId) (tn : Nat) (kind : TaskKind) (e : Entry) : Prop where
  entry  : (s'.entry? t tn).map Entry.identity = some (e.inst, e.serial, .ranging (s.epoch + (s.params t).budget))
  offAir : tn ∉ (s'.tree t).onAir ∧ s.Sends s' t (.terminalOff tn)
  posted : s'.PostedAs s t
  asked  : s.TaskAsked s' t { tn := tn, inst := e.inst, kind := kind }

section
variable {s : State} {t : TreeId} {tn : Nat} {e : Entry} {d : Drift} {cause : Cause} {kind : TaskKind}

/-- A move from OPERATING to RANGING, the drift fields having been set, asks for its URGENT task, posts nothing and takes the
entry off the air (R129). -/
theorem moveToRanging_moved (hk : kind.urgent = true) (ha : (s.tree t).isActive = true) (he : s.entry? t tn = some e) :
    MovedToRanging s (moveToRanging t tn cause kind (driftSet t tn d s)) t tn kind e := by
  have he' := entry?_driftSet (d := d) he
  generalize hr : driftSet t tn d s = r at he'
  have hset : Quiet t s r := hr ▸ quiet_driftSet
  have hrs : (r.tree t).seq = (s.tree t).seq ∧ (r.tree t).ctl = (s.tree t).ctl ∧ (r.tree t).light = (s.tree t).light ∧
      (r.tree t).out = (s.tree t).out := by
    rw [← hr, driftSet, tree_modEntry_same]
    simp
  obtain ⟨hseq, hctl, hlight, hout⟩ := hrs
  have hbudget : r.budgetEnd t = s.epoch + (s.params t).budget := by rw [← hr, State.budgetEnd, params_driftSet]; rfl
  have htr := transited_transit (cause := cause) (f := Entry.toRanging (r.budgetEnd t)) he'
  generalize hm : transit t tn cause (Entry.toRanging (r.budgetEnd t)) r = m at htr
  have hmove : moveToRanging t tn cause kind r = (addTask t { tn := tn, inst := e.inst, kind := kind } m).state := by
    simp only [moveToRanging, he', ← hm]
  have hcalm := calm_addTask (s := m) (t := t) { tn := tn, inst := e.inst, kind := kind }
  have hquiet := quiet_addTask (s := m) (t := t) { tn := tn, inst := e.inst, kind := kind }
  have hentry : m.entry? t tn = some (({ e with state := .operating d } : Entry).toRanging (r.budgetEnd t)) := by
    rw [htr.self, he']
    rfl
  have hmoved : Quiet t r m := hm ▸ quiet_transit (f := Entry.toRanging _) tn cause fun _ => rfl
  rw [hmove]
  refine ⟨?_, ?_, PostedAs_trans t (hmoved.trans hquiet).posted hset.posted, ?_⟩
  · rw [hcalm.identity, hentry, ← hbudget]
    rfl
  · obtain ⟨hair, hsends⟩ := offAir_of_transit
      (s' := (addTask t { tn := tn, inst := e.inst, kind := kind } m).state) (f := Entry.toRanging (r.budgetEnd t))
      (cause := cause) he' rfl rfl
      (by rw [hm]; exact hcalm) (by rw [hm]; exact hquiet.sent)
    exact ⟨hair, by simpa [State.Sends, hout] using hsends⟩
  · exact taskAsked_addTask hk ((htr.seq t).trans hseq) ((htr.ctl t).trans hctl) ((htr.light t).trans hlight) he hentry
      rfl rfl rfl (not_closing_of_active ha)

end

/-! ### Samples (R123..R127) -/

section
variable {s : State} {t : TreeId} {tn : Nat} {e : Entry} {d : Drift} {g a x : Int}

theorem driftBurst_discarded (hr : (s.tree t).routesBursts = true)
    (h : (s.tree t).isActive = false ∨ e.operating = false) : driftBurst t tn e g a s = s := by
  unfold driftBurst
  rcases h with ha | ho
  · exact if_pos (closing_of_routes hr ha)
  · split
    · rfl
    · cases hst : e.state with
      | operating d => simp [Entry.operating, hst] at ho
      | assigning | ranging | verifying | muted | lost | retiring => simp [Entry.drift?, hst]

/-- A granted burst of an OPERATING entry clears its misses and, once settled, is a sample (R123, R124). -/
theorem driftBurst_of_operating (ha : (s.tree t).isActive = true) (he : s.entry? t tn = some e)
    (hst : e.state = .operating d) :
    driftBurst t tn e g a s =
      if d.settled s.epoch g then
        driftSample t tn e d (e.deviationOf (s.tree t).ctl g a) (driftSet t tn { d with misses := 0 } s)
      else driftSet t tn { d with misses := 0 } s := by
  simp [driftBurst, not_closing_of_active ha, Entry.drift?, hst, modDrift_eq_driftSet he hst]

theorem driftSample_gross (h : (s.params t).wgross < x.natAbs) :
    driftSample t tn e d x (driftSet t tn { d with misses := 0 } s) =
      driftMove t tn .driftGross (driftSet t tn { d with misses := 0 } s) := by
  rw [driftSample, params_driftSet, if_pos h]

theorem driftSample_counted (h : x.natAbs ≤ (s.params t).wgross) (hn : d.n + 1 < 2 ^ (s.params t).k) :
    driftSample t tn e d x (driftSet t tn { d with misses := 0 } s) =
      driftSet t tn { d with sum := d.sum + x, n := d.n + 1, misses := 0 } s := by
  rw [driftSample, params_driftSet, if_neg (by omega), if_pos hn]
  exact driftSet_modDrift _

/-- The last sample of a full sum clears it, and the average is judged (R126, R127). -/
theorem driftSample_full (h : x.natAbs ≤ (s.params t).wgross) (hn : 2 ^ (s.params t).k ≤ d.n + 1) :
    driftSample t tn e d x (driftSet t tn { d with misses := 0 } s) =
      judgeAverage t tn e (average (s.params t).k (d.sum + x))
        (driftSet t tn { d with sum := 0, n := 0, misses := 0 } s) := by
  rw [driftSample, params_driftSet, if_neg (by omega), if_neg (by omega)]
  exact congrArg _ (driftSet_modDrift _)

theorem judgeAverage_within (h : a.natAbs ≤ (s.params t).win) : judgeAverage t tn e a s = s := if_pos h

theorem judgeAverage_between (h : (s.params t).win < a.natAbs) (hw : a.natAbs ≤ (s.params t).wout) :
    judgeAverage t tn e a s = driftCorrection t tn e a s := by
  rw [judgeAverage, if_neg (by omega), if_pos hw]

theorem judgeAverage_beyond (h : (s.params t).win < a.natAbs) (hw : (s.params t).wout < a.natAbs) :
    judgeAverage t tn e a s = driftMove t tn .driftWindow s := by
  rw [judgeAverage, if_neg (by omega), if_neg (by omega)]

theorem routeGranted_of_entry (he : s.entry? t tn = some e) : routeGranted t tn g a s = driftBurst t tn e g a s := by
  simp only [routeGranted, he]

/-- A sample beyond the gross window, or a full sum whose average lies beyond the outer one, moves the entry (R125, R127). -/
theorem driftSample_moves (h : (s.params t).wgross < x.natAbs ∨
      (2 ^ (s.params t).k ≤ d.n + 1 ∧ (s.params t).wout < (average (s.params t).k (d.sum + x)).natAbs ∧
        (s.params t).win < (average (s.params t).k (d.sum + x)).natAbs)) :
    ∃ cause d', driftSample t tn e d x (driftSet t tn { d with misses := 0 } s) =
      driftMove t tn cause (driftSet t tn d' s) := by
  by_cases hg : (s.params t).wgross < x.natAbs
  · exact ⟨_, _, driftSample_gross hg⟩
  · obtain ⟨hn, hout, hin⟩ := h.resolve_left hg
    refine ⟨.driftWindow, _, (driftSample_full (by omega) hn).trans (judgeAverage_beyond ?_ ?_)⟩
    · rw [params_driftSet]; exact hin
    · rw [params_driftSet]; exact hout

end

/-- Settles O38: the burst is discarded, clears the misses, is counted, is dropped with its sum, or moves the entry. -/
theorem grantedBurstsSampled : Obligations.GrantedBurstsSampled := by
  intro s t tn g arrival e hs he
  refine ⟨fun h => ?_, fun d ha hst hset => ?_, fun d x ha hst hset hx => ?_⟩
  · by_cases hr : (s.tree t).routesBursts = true
    · exact take_routed hs hr ((routeGranted_of_entry he).trans (driftBurst_discarded hr h)) rfl
    · exact take_not_routed hs (by simpa using hr)
  · refine take_routed hs (routesBursts_of_active ha) ?_ rfl
    rw [routeGranted_of_entry he, driftBurst_of_operating ha he hst, hset]
    rfl
  · have hroutes := routesBursts_of_active ha
    have hsample : routeGranted t tn.toNat g.toNat arrival.toNat s =
        driftSample t tn.toNat e d x (driftSet t tn.toNat { d with misses := 0 } s) := by
      rw [routeGranted_of_entry he, driftBurst_of_operating ha he hst, if_pos hset, hx]
      rfl
    refine ⟨fun hg hn => ?_, fun hg hn hin => ?_, fun h => ?_⟩
    · exact take_routed hs hroutes (hsample.trans (driftSample_counted hg hn)) rfl
    · refine take_routed hs hroutes (hsample.trans ((driftSample_full hg hn).trans (judgeAverage_within ?_))) rfl
      rw [params_driftSet]
      exact hin
    · obtain ⟨cause, d', hmove⟩ := driftSample_moves (tn := tn.toNat) (e := e) h
      have hmoved := moveToRanging_moved (cause := cause) (kind := .rerange) (d := d') rfl ha he
      refine ⟨_, take_of_taking hs _, ?_⟩
      rw [routed_of_routes hroutes, hsample, hmove]
      exact ⟨hmoved.entry, hmoved.offAir.1, hmoved.offAir.2, hmoved.posted, hmoved.asked.settle⟩

end Sys2Proof.Machine
end

section
/-! PROOF. Posting a must-deliver message (R26, R27, R30), line by line of R27's table, and the corrections that post a NUDGE
(O39). -/

namespace Sys2Proof.Machine

/-! ### Posting a must-deliver message -/

section
variable {s : State} {t : TreeId} {tn : Nat} {m : Message} {poster : Issuer} {e : Entry} {o : OwedMsg}

theorem modMsgq_items (l : List Item) : (s.modMsgq t fun q => { q with items := q.items ++ l }) =
    s.withItems t ((s.tree t).msgq.items ++ l) := modTree_congr rfl

theorem enqueue_eq (it : Item) : enqueue t it s = s.withItems t ((s.tree t).msgq.items ++ [it]) := modMsgq_items [it]

/-- Behind a broadcast RETIRE a message is discarded (R30). -/
theorem postMust_broadcast (hb : (s.tree t).msgq.broadcastStands = true) :
    postMust t tn m poster s = { state := s, answer := .discarded } := if_pos hb

section
variable (hb : (s.tree t).msgq.broadcastStands = false) (he : s.entry? t tn = some e)
include hb he

theorem postMust_queued (hn : e.owed = none) (hl : (s.tree t).msgq.items.length < 32) :
    postMust t tn m poster s =
      { state :=
          (s.modEntry t tn fun x => { x with resend := e.resend && !m.isDelay }).withItems t
            ((s.tree t).msgq.items ++ [{ msg := m, issuer := poster, inst := e.inst, deadline := none }])
        answer := .accepted } := by
  simp [postMust, hb, he, hn, Config.queueLimit, hl, enqueue_eq]

theorem postMust_owed (hn : e.owed = none) (hl : 32 ≤ (s.tree t).msgq.items.length) :
    postMust t tn m poster s =
      { state :=
          s.modEntry t tn fun x =>
            { x with owed := some { msg := m, issuer := poster }, resend := e.resend && !m.isDelay }
        answer := .owed } := by
  simp [postMust, hb, he, hn, Config.queueLimit, Nat.not_lt.mpr hl]

/-- A message that meets an owed one is merged with it by the table of R27. -/
theorem postMust_merge (ho : e.owed = some o) :
    postMust t tn m poster s =
      { state :=
          s.modEntry t tn fun x =>
            { x with
              owed := some (mergeOwed o tn e.ld (e.resend && !m.isDelay) m poster).owed
              resend := (mergeOwed o tn e.ld (e.resend && !m.isDelay) m poster).resend }
        answer := (mergeOwed o tn e.ld (e.resend && !m.isDelay) m poster).answer } := by
  simp [postMust, hb, he, ho]

end

theorem setsDelay_not_retire {m : Message} (h : m.setsDelay = true) : m.isRetire = false := by
  cases m <;> simp_all [Message.setsDelay, Message.isRetire]

theorem nudge_not_delay {m : Message} (h : m.isNudge = true) : m.isDelay = false := by
  cases m <;> simp_all [Message.isNudge, Message.isDelay]

theorem muting_not_nudge {m : Message} (h : m.isMuting = true) : m.isNudge = false := by
  cases m <;> simp_all [Message.isNudge, Message.isMuting]

section
variable {ld : Nat} {mark : Bool}

theorem mergeOwed_retire (h : o.msg.isRetire = true) :
    mergeOwed o tn ld mark m poster = { owed := o, resend := mark, answer := .discarded } := if_pos h

theorem mergeOwed_nudge (h : o.msg.setsDelay = true) (hm : m.isNudge = true) :
    mergeOwed o tn ld mark m poster = { owed := ⟨.delay tn ld, poster⟩, resend := mark, answer := .merged } := by
  simp [mergeOwed, setsDelay_not_retire h, h, hm]

theorem mergeOwed_muting (h : o.msg.setsDelay = true) (hm : m.isMuting = true) :
    mergeOwed o tn ld mark m poster = { owed := ⟨m, poster⟩, resend := true, answer := .owed } := by
  simp [mergeOwed, setsDelay_not_retire h, h, hm, muting_not_nudge hm]

theorem mergeOwed_other (hr : o.msg.isRetire = false) (h : (o.msg.setsDelay && (m.isNudge || m.isMuting)) = false) :
    mergeOwed o tn ld mark m poster = { owed := ⟨m, poster⟩, resend := mark, answer := .owed } := by
  cases ho : o.msg.setsDelay <;> simp_all [mergeOwed]

end

end

/-! ### Corrections (R128) -/

section
variable {s : State} {t : TreeId} {tn : Nat} {e : Entry} {d : Drift} {a ld' r' : Int}

/-- What a correction is made of (R102). -/
theorem correct_eq (hld : ld' = (16 * (e.ld : Int) + e.r.getD 0 - a + 8) / 16)
    (hr : r' = 16 * (e.ld : Int) + e.r.getD 0 - a - 16 * ld') :
    correct e.ld (e.r.getD 0) a = { ld := ld', r := r', change := ld' - e.ld } := by
  subst hr hld
  rfl

/-- The entry once a correction has moved its launch delay: figures set, drift fields fresh but for settle-until (R128). -/
def Entry.corrected (ld : Nat) (r : Int) (e : Entry) : Entry :=
  { e with ld := ld, r := some r, state := .operating { sum := 0, n := 0, settle := .notYet, misses := 0 } }

theorem driftSet_corrected (ld : Nat) (r : Int) :
    (driftSet t tn { d with sum := 0, n := 0, misses := 0 } s).modEntry t tn
        (fun e => { e with ld := ld, r := some r }.modDrift fun d => { d with settle := .notYet }) =
      s.modEntry t tn (Entry.corrected ld r) := modEntry_modEntry _ _

section
variable (hc : correct e.ld (e.r.getD 0) a = { ld := ld', r := r', change := ld' - e.ld })
include hc

/-- A correction that leaves the launch delay sets the residual alone (R128). -/
theorem driftCorrection_residual (h0 : 0 ≤ ld') (hart : ld' ≤ (s.params t).art) (hld : ld' = e.ld) :
    driftCorrection t tn e a (driftSet t tn { d with sum := 0, n := 0, misses := 0 } s) =
      (s.modEntry t tn fun y =>
          { y with r := some r', state := .operating { d with sum := 0, n := 0, misses := 0 } }).report t
        (.nudged tn e.inst .residual a (2 ^ (s.params t).k) 0 e.ld r' none) := by
  unfold driftCorrection
  simp only [hc, params_driftSet]
  rw [if_neg (by omega), if_neg (by omega), if_pos (by omega)]
  exact congrArg (fun x => State.report x t _) (modEntry_modEntry _ _)

/-- A correction that moves the launch delay posts its NUDGE and reports how the queue took it (R128, R132). -/
theorem driftCorrection_nudge (h0 : 0 ≤ ld') (hart : ld' ≤ (s.params t).art) (hld : ld' ≠ e.ld) {x : State}
    {ans : PostAnswer}
    (hp : postMust t tn (.nudge tn (ld' - e.ld)) .drift (s.modEntry t tn (Entry.corrected ld'.toNat r')) =
      { state := x, answer := ans }) :
    driftCorrection t tn e a (driftSet t tn { d with sum := 0, n := 0, misses := 0 } s) =
      x.report t
        (.nudged tn e.inst .nudge a (2 ^ (s.params t).k) (ld' - e.ld) ld'.toNat r' ans.delivery) := by
  unfold driftCorrection postNudge
  simp only [hc, params_driftSet, driftSet_corrected, hp]
  rw [if_neg (by omega), if_neg (by omega), if_neg (by omega)]
  rfl

/-- A correction beyond the adjustment range moves the entry (R128, R129). -/
theorem driftCorrection_moves (h : ld' < 0 ∨ (s.params t).art < ld') :
    ∃ cause, driftCorrection t tn e a (driftSet t tn d s) = driftMove t tn cause (driftSet t tn d s) := by
  unfold driftCorrection
  simp only [hc, params_driftSet]
  by_cases hneg : ld' < 0
  · exact ⟨_, if_pos hneg⟩
  · exact ⟨_, by rw [if_neg hneg, if_pos (by omega)]⟩

end

theorem entry?_corrected (he : s.entry? t tn = some e) (ld : Nat) (r : Int) :
    (s.modEntry t tn (Entry.corrected ld r)).entry? t tn = some (e.corrected ld r) := by
  rw [State.entry?, tree_modEntry_same, entry?_modEntry_same]
  exact congrArg (Option.map _) he

end

/-- Settles O39: the correction keeps the launch delay, posts its NUDGE as the queue takes it, or moves the entry. -/
theorem driftCorrectionsNudge : Obligations.DriftCorrectionsNudge := by
  intro s t tn g arrival e d x a ld' r' hs ha he hst hset hx hg hn hav hin hout hld hr
  have hroutes := routesBursts_of_active ha
  have hc := correct_eq hld hr
  have hcorr : routeGranted t tn.toNat g.toNat arrival.toNat s =
      driftCorrection t tn.toNat e a (driftSet t tn.toNat { d with sum := 0, n := 0, misses := 0 } s) := by
    rw [routeGranted_of_entry he, driftBurst_of_operating ha he hst, if_pos hset]
    have hdev : e.deviationOf (s.tree t).ctl g.toNat arrival.toNat = x := hx.symm
    rw [hdev, driftSample_full hg hn, ← hav]
    exact judgeAverage_between (by rw [params_driftSet]; exact hin) (by rw [params_driftSet]; exact hout)
  have he' := entry?_corrected he ld'.toNat r'
  have hqueue : ((s.modEntry t tn.toNat (Entry.corrected ld'.toNat r')).tree t).msgq = (s.tree t).msgq := by simp
  refine ⟨fun h0 hart hl => ?_, fun h0 hart hl hown hb hroom => ?_, fun h0 hart hl hown hb hroom => ?_,
    fun o h0 hart hl hown hdel hb => ?_, fun h => ?_⟩
  · exact take_routed_report hs hroutes (hcorr.trans (driftCorrection_residual hc h0 hart hl)) rfl
  · have hp := postMust_queued (m := .nudge tn.toNat (ld' - e.ld)) (poster := .drift) (hqueue ▸ hb) he' hown
      (hqueue ▸ hroom)
    rw [hqueue, modEntry_modEntry] at hp
    refine take_routed_report hs hroutes (hcorr.trans ((driftCorrection_nudge hc h0 hart hl hp).trans ?_)) rfl
    refine congrArg (fun r : State => State.report (r.withItems t _) t _) (modEntry_congr he ?_)
    simp [Entry.corrected, Message.isDelay]
  · have hp := postMust_owed (m := .nudge tn.toNat (ld' - e.ld)) (poster := .drift) (hqueue ▸ hb) he' hown
      (hqueue ▸ hroom)
    rw [modEntry_modEntry] at hp
    refine take_routed_report hs hroutes (hcorr.trans ((driftCorrection_nudge hc h0 hart hl hp).trans ?_)) rfl
    refine congrArg (fun r : State => State.report r t _) (modEntry_congr he ?_)
    simp [Entry.corrected, Message.isDelay]
  · have hp := postMust_merge (m := .nudge tn.toNat (ld' - e.ld)) (poster := .drift) (hqueue ▸ hb) he' hown
    rw [modEntry_modEntry, mergeOwed_nudge hdel rfl] at hp
    refine take_routed_report hs hroutes (hcorr.trans ((driftCorrection_nudge hc h0 hart hl hp).trans ?_)) rfl
    refine congrArg (fun r : State => State.report r t _) (modEntry_congr he ?_)
    simp [Entry.corrected, Message.isDelay]
  · obtain ⟨cause, hmove⟩ := driftCorrection_moves (tn := tn.toNat) (d := { d with sum := 0, n := 0, misses := 0 }) hc h
    have hmoved := moveToRanging_moved (cause := cause) (kind := .rerange)
      (d := { d with sum := 0, n := 0, misses := 0 }) rfl ha he
    refine ⟨_, take_of_taking hs _, ?_⟩
    rw [routed_of_routes hroutes, hcorr, hmove]
    exact ⟨hmoved.entry, hmoved.offAir.1, hmoved.offAir.2, hmoved.posted, hmoved.asked.settle⟩

end Sys2Proof.Machine
end

section
/-! PROOF. The light condition: a change to QUIET by FORCE_QUIET (O58), a strike below the limit, and the move to SUSPECT with
the hunt that it starts (O41). -/

namespace Sys2Proof.Machine

/-! ### Posting alike -/

/-- What the posting of a message reads of an entry (R27). -/
def Entry.posting (e : Entry) : BitVec 16 × Nat × Option OwedMsg × Bool := (e.inst, e.ld, e.owed, e.resend)

/-- Two states post alike on tree `t`: the queue, and of each entry what a posting reads. -/
structure PostsAlike (t : TreeId) (r s : State) : Prop where
  msgq    : (r.tree t).msgq = (s.tree t).msgq
  entries : ∀ tn, (r.entry? t tn).map Entry.posting = (s.entry? t tn).map Entry.posting

section
variable {r s q : State} {t : TreeId} {tn : Nat}

@[refl] theorem PostsAlike.refl (s : State) : PostsAlike t s s := ⟨rfl, fun _ => rfl⟩

theorem PostsAlike.trans (h : PostsAlike t r s) (k : PostsAlike t s q) : PostsAlike t r q :=
  ⟨h.msgq.trans k.msgq, fun tn => (h.entries tn).trans (k.entries tn)⟩

theorem PostsAlike.postedAs (h : PostsAlike t r s) : r.PostedAs s t := by
  refine ⟨h.msgq, fun tn => ?_⟩
  have := congrArg (Option.map fun x : BitVec 16 × Nat × Option OwedMsg × Bool => x.2.2) (h.entries tn)
  rwa [Option.map_map, Option.map_map] at this

/-- Where nothing is posted and every entry is kept but its working fields, a posting reads the same. -/
theorem PostsAlike.of_figures (hp : r.PostedAs s t)
    (hf : ∀ tn, (r.entry? t tn).map Entry.figures = (s.entry? t tn).map Entry.figures) : PostsAlike t r s := by
  refine ⟨hp.1, fun tn => ?_⟩
  have hown := hp.2 tn
  have hfig := hf tn
  cases hr : r.entry? t tn <;> cases hs : s.entry? t tn <;> simp_all [Entry.posting, Entry.figures]

/-- Trees with the same queue and slots post alike. -/
theorem PostsAlike.of_slots (hm : (r.tree t).msgq = (s.tree t).msgq) (hs : (r.tree t).slots = (s.tree t).slots) :
    PostsAlike t r s := ⟨hm, fun tn => congrArg (Option.map Entry.posting) (entry?_of_slots hs tn)⟩

theorem PostsAlike.modEntry (h : PostsAlike t r s) {f g : Entry → Entry}
    (hfg : ∀ e e', e.posting = e'.posting → (f e).posting = (g e').posting) :
    PostsAlike t (r.modEntry t tn f) (s.modEntry t tn g) := by
  refine ⟨by simpa using h.msgq, fun k => ?_⟩
  simp only [State.entry?, tree_modEntry_same]
  by_cases hk : k = tn
  · subst hk
    have he := h.entries k
    simp only [entry?_modEntry_same]
    change ((r.entry? t k).map f).map Entry.posting = ((s.entry? t k).map g).map Entry.posting
    cases hr : r.entry? t k with
    | none => cases hs : s.entry? t k <;> simp_all
    | some x =>
      cases hs : s.entry? t k with
      | none => simp_all
      | some y =>
        rw [hr, hs] at he
        exact congrArg some (hfg x y (Option.some.inj he))
  · simpa [hk, State.entry?] using h.entries k

theorem PostsAlike.withItems (h : PostsAlike t r s) (l : List Item) :
    PostsAlike t (r.withItems t l) (s.withItems t l) := ⟨by simp [h.msgq], fun k => by simpa using h.entries k⟩

theorem PostsAlike.probeGone {inst : BitVec 16} (h : PostsAlike t r s)
    (hp : (r.tree t).probePosted tn inst = (s.tree t).probePosted tn inst) :
    PostsAlike t (r.probeGone t tn inst) (s.probeGone t tn inst) := by
  have hitems : (r.tree t).itemsKept false ((r.tree t).probePosted tn inst) =
      (s.tree t).itemsKept false ((s.tree t).probePosted tn inst) := by simp only [Tree.itemsKept, h.msgq, hp]
  unfold State.probeGone
  rw [hitems]
  exact h.withItems _

/-- A posting on states that post alike leaves them so (R26, R27). -/
theorem PostsAlike.postMust (h : PostsAlike t r s) (m : Message) (by_ : Issuer) :
    PostsAlike t (postMust t tn m by_ r).state (postMust t tn m by_ s).state := by
  by_cases hb : (s.tree t).msgq.broadcastStands = true
  · rw [postMust_broadcast hb, postMust_broadcast (h.msgq ▸ hb)]
    exact h
  have hb : (s.tree t).msgq.broadcastStands = false := by simpa using hb
  have hbr : (r.tree t).msgq.broadcastStands = false := h.msgq ▸ hb
  have hent := h.entries tn
  cases hs : s.entry? t tn with
  | none =>
    have hr : r.entry? t tn = none := by simpa [hs] using hent
    simp only [Machine.postMust, hb, hbr, hs, hr, Bool.false_eq_true, if_false]
    exact h
  | some e =>
    obtain ⟨x, hx, hpost⟩ := Option.map_eq_some_iff.mp (hent.trans (by rw [hs]; rfl))
    simp only [Entry.posting, Prod.mk.injEq] at hpost
    obtain ⟨hinst, hld, howed, hresend⟩ := hpost
    cases ho : e.owed with
    | some o =>
      rw [postMust_merge hb hs ho, postMust_merge hbr hx (howed.trans ho), hld, hresend]
      exact h.modEntry fun _ _ heq => by simp_all [Entry.posting]
    | none =>
      by_cases hl : (s.tree t).msgq.items.length < 32
      · rw [postMust_queued hb hs ho hl, postMust_queued hbr hx (howed.trans ho) (h.msgq ▸ hl), hinst, hresend, h.msgq]
        exact (h.modEntry fun _ _ heq => by simp_all [Entry.posting]).withItems _
      · rw [postMust_owed hb hs ho (by omega), postMust_owed hbr hx (howed.trans ho) (by rw [h.msgq]; omega), hresend]
        exact h.modEntry fun _ _ heq => by simp_all [Entry.posting]

end

/-! ### The condition changes (R81, R95, R162) -/

section
variable {s : State} {t : TreeId}

/-- A window that starts is the Discovery Unit's own business (R81). -/
theorem startWindow_blocks : ∃ d, SameBlocks { s.tree t with disc := d } ((startWindow t s).tree t) := by
  unfold startWindow
  split
  · split
    · exact ⟨_, sendWindow_tree _ (SameBlocks.refl _) rfl⟩
    · split
      · exact ⟨_, SameBlocks.refl _⟩
      · next h rest _ =>
        have hw := sendWindow_tree (t := t) h.ctx (SameBlocks.refl ((s.modDisc t fun d =>
          { d with contexts := { h with held := false } :: rest, repeatIndex := 0, flushed := false }).tree t)) rfl
        rw [tree_modDisc_same] at hw
        exact ⟨_, hw⟩
    all_goals exact ⟨_, SameBlocks.refl _⟩
  · exact ⟨_, SameBlocks.refl _⟩

theorem startWindow_of_closed (h : (s.tree t).gateOpen = false) : startWindow t s = s := by simp [startWindow, h]

theorem endCycle_tree (w : Context) : ∃ d, (endCycle t w s).tree t = { s.tree t with disc := d } :=
  ⟨_, tree_modDisc_same s t _⟩

theorem deferWindow_tree (w : Context) : ∃ d, (deferWindow t w s).tree t = { s.tree t with disc := d } := by
  unfold deferWindow
  split
  · exact endCycle_tree w
  · exact ⟨_, tree_modDisc_same s t _⟩

/-- The Discovery Unit on the condition leaving QUIET: its window in DUE or gone, and its INVITE withdrawn (R95). -/
theorem discLeavesQuiet_blocks :
    ∃ d, SameBlocks
      { s.tree t with
        msgq := { (s.tree t).msgq with items := (s.tree t).itemsKept (s.tree t).windowPosted false }, disc := d }
      ((discLeavesQuiet t s).tree t) := by
  have hstay : ∀ d, (s.tree t).windowPosted = false → SameBlocks { s.tree t with disc := d }
      { s.tree t with
        msgq := { (s.tree t).msgq with items := (s.tree t).itemsKept (s.tree t).windowPosted false }, disc := d } := by
    intro d hp
    refine ⟨rfl, rfl, ?_, rfl, rfl, rfl⟩
    rw [hp, itemsKept_none]
  unfold discLeavesQuiet
  cases hd : (s.tree t).disc.state with
  | requesting w qe =>
    obtain ⟨d, hdefer⟩ := deferWindow_tree (s := chanWithdraw t .window s) (t := t) w
    have h := sameBlocks_chanWithdraw (s := s) (t := t) .window
    refine ⟨d, ?_⟩
    simp only [hdefer]
    refine ⟨h.ctl, h.slots, ?_, rfl, h.seq, h.light⟩
    rw [h.msgq, Tree.windowPosted, hd, itemsKept_none]
  | posted w number qs gw =>
    obtain ⟨d, hdefer⟩ := deferWindow_tree (s := chanRelease t .window (withdrawItems t .discovery s)) (t := t) w
    have h := sameBlocks_chanRelease (s := withdrawItems t .discovery s) (t := t) .window
    rw [withdrawItems_tree] at h
    refine ⟨d, ?_⟩
    simp only [hdefer]
    refine ⟨h.ctl, h.slots, ?_, rfl, h.seq, h.light⟩
    rw [h.msgq]
    simp [Tree.windowPosted, hd, Tree.itemsKept]
  | stopped | spacing | due | collecting =>
    refine ⟨(s.tree t).disc, rfl, rfl, ?_, rfl, rfl, rfl⟩
    simp [Tree.windowPosted, hd, itemsKept_none]

theorem sent_discLeavesQuiet :
    ∃ more, ((discLeavesQuiet t s).tree t).out.grant = (s.tree t).out.grant ++ more := by
  have hdefer : ∀ (x : State) (w : Context), ((deferWindow t w x).tree t).out = (x.tree t).out := fun x w => by
    obtain ⟨d, h⟩ := deferWindow_tree (s := x) (t := t) w
    rw [h]
  unfold discLeavesQuiet
  split
  · rw [hdefer]
    exact (quiet_chanWithdraw _).sent
  · rw [hdefer]
    obtain ⟨more, h⟩ := (quiet_chanRelease (s := withdrawItems t .discovery s) (t := t) .window).sent
    exact ⟨more, by rw [h, withdrawItems_tree]⟩
  all_goals exact ⟨[], (List.append_nil _).symm⟩

theorem quiet_giveUpCheck : Quiet t s (giveUpCheck t s) := by
  unfold giveUpCheck
  split
  · exact Quiet.refl s
  · refine Quiet.trans ?_ (quiet_modLight _)
    split
    · exact quiet_chanWithdraw _
    · exact quiet_raiseLightStale

end

/-! ### Requests that name an ACTIVE tree -/

section
variable {s : State} {t : TreeId} {tree tag : Byte} {f : State → Answer}

theorem parseTree_eq (h : tree.toNat = t) : parseTree tree = some t := by
  have hlt : tree.toNat < 4 := h ▸ t.isLt
  simp [parseTree, h]

theorem activeTree_of_active (h : tree.toNat = t) (ha : (s.tree t).isActive = true) :
    activeTree s tree = .ok t := by
  have hst : (s.tree t).ctl.state = .active := by simpa [Tree.isActive] using ha
  simp only [activeTree, parseTree_eq h, hst]

/-- A request that leaves the state as it is, with its reply placed (R186). -/
theorem request_same (hs : s.Taking) {code : ReplyCode} {body : List Byte}
    (hf : f s = { state := s, code := code, body := body }) :
    s.request tag f = .next (s.reply tag code body) := by
  rw [request_of_taking hs, hf, settle_of_entered hs.entered]

/-- A request answered OK with its work done (R186). -/
theorem request_ok (hs : s.Taking) {x : State} (hf : f s = ok x) :
    s.request tag f = .next (x.settle.reply tag .ok []) := by
  rw [request_of_taking hs, hf]
  rfl

end

/-! ### FORCE_QUIET (R172) -/

section
variable {s : State} {t : TreeId} {c : Candidate} {e : Entry}

/-- A release changes its candidate's entry and the queue alone (R170). -/
theorem light_huntRelease : ((huntRelease t c s).tree t).light = (s.tree t).light := by
  unfold huntRelease
  split
  · rfl
  · split
    · rw [((calm_postMust _ _ _).trees t).light]
      simp
    · rfl

theorem light_abortHunt : ((abortHunt t s).tree t).light = { (s.tree t).light with hunt := none } := by
  unfold abortHunt
  split
  · next h =>
    rw [← h]
  · rw [huntReport, tree_report, light_huntRelease, tree_modLight_same]

/-- Becoming QUIET from another condition leaves the monitor's other fields; the two units judge their gates (R81, R143). -/
theorem becomeQuiet_eq {cause : LightCause} (h : (s.tree t).light.light ≠ .quiet) :
    becomeQuiet t cause s =
      (takeTasks t (startWindow t (s.modLight t fun l => { l with light := .quiet, strikes := 0 }))).report t
        (.light (s.tree t).light.light .quiet cause 0 0) := by
  simp [becomeQuiet, setLight, h]

theorem light_becomeQuiet {cause : LightCause} (h : (s.tree t).light.light ≠ .quiet) :
    ((becomeQuiet t cause s).tree t).light = { (s.tree t).light with light := .quiet, strikes := 0 } := by
  obtain ⟨d, hw⟩ := startWindow_blocks (s := s.modLight t fun l => { l with light := .quiet, strikes := 0 }) (t := t)
  rw [becomeQuiet_eq h, tree_report, (calm_takeTasks.trees t).light, hw.light, tree_modLight_same]

theorem becomeQuiet_identity {cause : LightCause} (h : (s.tree t).light.light ≠ .quiet) (tn : Nat) :
    ((becomeQuiet t cause s).entry? t tn).map Entry.identity = (s.entry? t tn).map Entry.identity := by
  obtain ⟨d, hw⟩ := startWindow_blocks (s := s.modLight t fun l => { l with light := .quiet, strikes := 0 }) (t := t)
  rw [becomeQuiet_eq h]
  refine (calm_takeTasks.identity t tn).trans ?_
  rw [State.entry?, entry?_of_slots hw.slots, tree_modLight_same]
  rfl

theorem quiet_becomeQuiet {cause : LightCause} (h : (s.tree t).light.light ≠ .quiet) :
    Quiet t s (becomeQuiet t cause s) := by
  rw [becomeQuiet_eq h]
  exact (((quiet_modLight _).trans quiet_startWindow).trans quiet_takeTasks).trans (quiet_report _)

theorem huntRelease_of_muted (he : s.entry? t c.tn = some e) (hi : e.inst = c.inst) (hm : e.state = .muted (.hunt false)) :
    huntRelease t c s =
      (postMust t c.tn (.unmute c.tn) .registry
        (s.modEntry t c.tn fun e => { e with state := .muted (.hunt true) })).state := by
  simp [huntRelease, he, hi, Entry.huntMuted, hm]

/-- The state of FORCE_QUIET before the condition changes (R172). -/
def lightCleared (t : TreeId) (s : State) : State :=
  (abortHunt t ((giveUpCheck t s).modLight t fun l => { l with nextCheck := none })).modLight t fun l =>
    { l with pause := false }

theorem forceQuiet_eq : forceQuiet t s = becomeQuiet t .forced (lightCleared t s) := rfl

theorem light_lightCleared :
    ∃ n, ((lightCleared t s).tree t).light =
      { (s.tree t).light with check := none, nextCheck := none, stale := n, hunt := none, pause := false } := by
  obtain ⟨n, hg⟩ := giveUpCheck_tree (s := s) (t := t)
  refine ⟨n, ?_⟩
  rw [lightCleared, tree_modLight_same, light_abortHunt, tree_modLight_same, hg.light]

/-- An aborted hunt whose candidate it muted: the candidate's release and its report (R172). -/
theorem abortHunt_of_muted {h : Hunt} (hh : (s.tree t).light.hunt = some h)
    (he : s.entry? t h.current.tn = some e) (hi : e.inst = h.current.inst) (hm : e.state = .muted (.hunt false)) :
    ∃ b, abortHunt t s =
      (postMust t h.current.tn (.unmute h.current.tn) .registry
        ((s.modLight t fun l => { l with hunt := none }).modEntry t h.current.tn
          fun e => { e with state := .muted (.hunt true) })).state.report t b := by
  have hslots : ((s.modLight t fun l => { l with hunt := none }).tree t).slots = (s.tree t).slots := by
    rw [tree_modLight_same]
  have her := (entry?_of_slots hslots _).trans he
  simp only [abortHunt, hh]
  rw [huntRelease_of_muted her hi hm]
  simp only [huntReport]
  exact ⟨_, rfl⟩

/-- A release that is posted leaves its candidate MUTED with its release marked (R170). -/
theorem released_identity (he : s.entry? t c.tn = some e) :
    ((postMust t c.tn (.unmute c.tn) .registry
        (s.modEntry t c.tn fun e => { e with state := .muted (.hunt true) })).state.entry? t c.tn).map Entry.identity =
      some (e.inst, e.serial, .muted (.hunt true)) := by
  rw [(calm_postMust c.tn (.unmute c.tn) .registry).identity, State.entry?, tree_modEntry_same, entry?_modEntry_same]
  change ((s.entry? t c.tn).map _).map _ = _
  rw [he]
  rfl

/-- An entry's state is none of what a posting reads. -/
theorem postsAlike_setState {tn : Nat} (st : EntryState) :
    PostsAlike t (s.modEntry t tn fun e => { e with state := st }) s := by
  refine ⟨by simp, fun k => ?_⟩
  rw [State.entry?, tree_modEntry_same]
  by_cases hk : k = tn
  · subst hk
    rw [entry?_modEntry_same, Option.map_map]
    rfl
  · rw [entry?_modEntry_other _ _ _ _ hk]
    rfl

/-- The candidate of an aborted hunt is MUTED with its release marked, and its UNMUTE posted (R170, R172). -/
theorem lightCleared_releases {h : Hunt} (hh : (s.tree t).light.hunt = some h)
    (he : s.entry? t h.current.tn = some e) (hi : e.inst = h.current.inst) (hm : e.state = .muted (.hunt false)) :
    ((lightCleared t s).entry? t h.current.tn).map Entry.identity =
        some (e.inst, e.serial, .muted (.hunt true)) ∧
      (lightCleared t s).PostedAs (postMust t h.current.tn (.unmute h.current.tn) .registry s).state t := by
  obtain ⟨n, hg⟩ := giveUpCheck_tree (s := s) (t := t)
  generalize hr : (giveUpCheck t s).modLight t (fun l => { l with nextCheck := none }) = r
  have hblocks : r.tree t =
      { (giveUpCheck t s).tree t with light := { ((giveUpCheck t s).tree t).light with nextCheck := none } } := by
    rw [← hr, tree_modLight_same]
  have hhunt : (r.tree t).light.hunt = some h := by rw [hblocks, hg.light]; exact hh
  have hslots : (r.tree t).slots = (s.tree t).slots := by rw [hblocks]; exact hg.slots
  have hmsgq : (r.tree t).msgq = (s.tree t).msgq := by rw [hblocks]; exact hg.msgq
  have her : r.entry? t h.current.tn = some e := (entry?_of_slots hslots _).trans he
  obtain ⟨b, hb⟩ := abortHunt_of_muted hhunt her hi hm
  have heq : lightCleared t s = (abortHunt t r).modLight t fun l => { l with pause := false } := by rw [← hr]; rfl
  rw [heq, hb]
  have halike : PostsAlike t (r.modLight t fun l => { l with hunt := none }) s :=
    (PostsAlike.of_slots (by simp) (by simp)).trans (.of_slots hmsgq hslots)
  have heq : (r.modLight t fun l => { l with hunt := none }).entry? t h.current.tn = some e := by
    rw [← her]
    exact entry?_of_slots (by simp) _
  generalize r.modLight t (fun l => { l with hunt := none }) = q at *
  refine ⟨?_, ?_⟩
  · rw [State.entry?, tree_modLight_same]
    exact released_identity heq
  · have hquiet := (quiet_report (t := t) (s := (postMust t h.current.tn (.unmute h.current.tn) .registry
      (q.modEntry t h.current.tn fun e => { e with state := .muted (.hunt true) })).state) b).trans
      (quiet_modLight fun l => { l with pause := false })
    exact PostedAs_trans t hquiet.posted (((postsAlike_setState _).trans halike).postMust _ _).postedAs

end

/-- Settles O58: the monitor is cleared and its candidate released before the condition becomes QUIET. -/
theorem quietForced : Obligations.QuietForced := by
  intro s tag tree t hs htree ha
  have hactive := activeTree_of_active htree ha
  have hrequest : exec (.forceQuiet tag tree) s = s.request tag (forceQuietRequest tree) := rfl
  rw [hrequest]
  refine ⟨fun hq => ?_, fun hq => ?_⟩
  · refine request_same hs (f := forceQuietRequest tree) ?_
    simp only [forceQuietRequest, hactive, hq, if_true]
    rfl
  have hok : forceQuietRequest tree s = ok (forceQuiet t s) := by simp only [forceQuietRequest, hactive, hq, if_false]
  obtain ⟨n, hcleared⟩ := light_lightCleared (s := s) (t := t)
  have hq' : ((lightCleared t s).tree t).light.light ≠ .quiet := by rw [hcleared]; exact hq
  have hlight := light_becomeQuiet (cause := .forced) hq'
  have hothers := (within_forceQuiet (P := (· = t)) (s := s) rfl).others
  rw [hcleared] at hlight
  rw [forceQuiet_eq] at hok hothers
  have hreleased := fun h e => lightCleared_releases (s := s) (t := t) (h := h) (e := e)
  have hident := becomeQuiet_identity (cause := .forced) hq'
  have hposted := (quiet_becomeQuiet (cause := .forced) hq').posted
  generalize becomeQuiet t .forced (lightCleared t s) = r at *
  refine ⟨_, request_ok hs hok, rfl, ?_⟩
  rw [tree_reply, tree_settle, hlight]
  refine ⟨rfl, rfl, rfl, rfl, rfl, rfl, fun h e hh he hi hm => ?_, fun j hj => ?_⟩
  · obtain ⟨hent, hreleases⟩ := hreleased h e hh he hi hm
    exact ⟨(hident _).trans hent, PostedAs_trans t hposted hreleases⟩
  · rw [tree_reply, tree_settle]
    exact hothers j hj

end Sys2Proof.Machine
end

section
/-! PROOF. Unexplained light (O41): a strike below the limit, the move to SUSPECT, and the hunt that it starts (R166..R168). -/

namespace Sys2Proof.Machine

/-! ### A hunt's step (R168) -/

section
variable {s q r : State} {t : TreeId} {tn : Nat} {e : Entry} {x : Candidate} {h : Hunt} {cause : Cause}

/-- A transition that leaves what a posting reads. -/
theorem postsAlike_transit {f : Entry → Entry} (hf : ∀ e, (f e).posting = e.posting) :
    PostsAlike t (transit t tn cause f s) s := by
  cases he : s.entry? t tn with
  | none =>
    unfold transit
    rw [he]
  | some e =>
    have htr := transited_transit (cause := cause) (f := f) he
    refine ⟨htr.msgq t, fun k => ?_⟩
    by_cases hk : k = tn
    · subst hk
      rw [htr.self, he]
      exact congrArg some (hf e)
    · rw [htr.other t k (.inr hk)]

theorem postsAlike_withdrawn {inst : BitVec 16} : PostsAlike t (withdrawn t tn inst s) (s.probeGone t tn inst) := by
  have hgone : Calm s (s.probeGone t tn inst) := by
    unfold State.probeGone State.withItems
    exact calm_modMsgq _
  exact .of_figures quiet_withdrawn.posted fun k =>
    (((calm_withdrawn tn inst).trees t).entries k).trans ((hgone.trees t).entries k).symm

theorem calm_huntMute : Calm (transit t x.tn .huntMute (Entry.toMuted (.hunt false)) r) (huntMute t x r) := by
  unfold huntMute
  exact (calm_withdrawn _ _).trans (calm_postMust _ _ _)

theorem light_huntMute (he : r.entry? t x.tn = some e) : ((huntMute t x r).tree t).light = (r.tree t).light :=
  (calm_huntMute.trees t).light.trans ((transited_transit he).light t)

/-- The posting of a message hands nothing to the grant link. -/
theorem grant_postMust (m : Message) (by_ : Issuer) :
    ((postMust t tn m by_ s).state.tree t).out.grant = (s.tree t).out.grant := by
  unfold postMust
  split
  · rfl
  split
  · rfl
  simp only
  split
  · simp
  split
  · simp [enqueue]
  · simp

theorem sent_huntMute :
    ∃ more, ((huntMute t x r).tree t).out.grant =
      ((transit t x.tn .huntMute (Entry.toMuted (.hunt false)) r).tree t).out.grant ++ more := by
  obtain ⟨more, hmore⟩ := sent_withdrawn (s := transit t x.tn .huntMute (Entry.toMuted (.hunt false)) r) (t := t)
    (tn := x.tn) (inst := x.inst)
  exact ⟨more, by rw [huntMute, grant_postMust, hmore]⟩

/-- What the hunt's mute of a candidate posts: its MUTE, with the PROBE of its operation gone (R107, R142, R168). -/
theorem huntMute_posted (hq : PostsAlike t r q)
    (hp : (r.tree t).probePosted x.tn x.inst = (q.tree t).probePosted x.tn x.inst)
    (he : r.entry? t x.tn = some e) :
    (huntMute t x r).PostedAs (postMust t x.tn (.mute x.tn) .registry (q.probeGone t x.tn x.inst)).state t := by
  have hseq := (transited_transit (cause := .huntMute) (f := Entry.toMuted (.hunt false)) he).seq t
  have halike : PostsAlike t (transit t x.tn .huntMute (Entry.toMuted (.hunt false)) r) q :=
    (postsAlike_transit (f := Entry.toMuted _) fun _ => rfl).trans hq
  unfold huntMute
  generalize transit t x.tn .huntMute (Entry.toMuted (.hunt false)) r = m at *
  have hprobe : (m.tree t).probePosted x.tn x.inst = (q.tree t).probePosted x.tn x.inst := by
    rw [← hp]
    exact probePosted_of_op (by rw [hseq]) _
  exact ((postsAlike_withdrawn.trans (halike.probeGone hprobe)).postMust _ _).postedAs

/-- The hunt's mute of an OPERATING candidate begins its step (R168). -/
theorem huntMute_begun (hhunt : (r.tree t).light.hunt = some h) (he : r.entry? t x.tn = some e)
    (hi : e.inst = x.inst) (ho : e.operating = true)
    (hsent : ∃ more, (r.tree t).out.grant = (s.tree t).out.grant ++ more) (hq : PostsAlike t r q)
    (hp : (r.tree t).probePosted x.tn x.inst = (q.tree t).probePosted x.tn x.inst) :
    s.StepBegun q (huntMute t x r) t h x := by
  have hself := (transited_transit (cause := .huntMute) (f := Entry.toMuted (.hunt false)) he).self
  rw [he, Option.map_some] at hself
  have hair := offAir_of_transit (s' := huntMute t x r) he ho rfl calm_huntMute sent_huntMute
  refine ⟨by rw [light_huntMute he, hhunt], ?_, ⟨hair.1, ?_⟩, ?_, huntMute_posted hq hp he⟩
  · have hid := (calm_huntMute (r := r) (t := t) (x := x)).identity t x.tn
    rw [hself] at hid
    obtain ⟨y, hy, hyid⟩ := Option.map_eq_some_iff.mp hid
    simp only [Entry.identity, Entry.toMuted, Prod.mk.injEq] at hyid
    rw [hy, Option.map_some, hyid.1, hyid.2.2, hi]
  · obtain ⟨more, hmore⟩ := hsent
    obtain ⟨more', hmore', hmem⟩ := hair.2
    exact ⟨more ++ more', by rw [hmore', hmore, List.append_assoc], List.mem_append_right _ hmem⟩
  · unfold huntMute
    refine (dormant_postMust (dormant_of_withdrawn fun y hy => ?_) _ _ _).idles
    rw [hself] at hy
    cases hy
    rfl

end

/-! ### The move to SUSPECT (R167, R168) -/

section
variable {s r : State} {t : TreeId} {n : Nat} {cause : LightCause} {raw : Int}

/-- An OPERATING entry stands behind each candidate (R168). -/
theorem entry?_of_candidate {T : Tree} {x : Candidate} (h : x ∈ T.candidates) :
    ∃ e, T.entry? x.tn = some e ∧ e.inst = x.inst ∧ e.operating = true := by
  obtain ⟨⟨tn, e⟩, hmem, rfl⟩ := List.mem_map.mp h
  obtain ⟨hmem, ho⟩ := List.mem_filter.mp hmem
  obtain ⟨k, -, hk⟩ := List.mem_filterMap.mp hmem
  obtain ⟨y, hy, hxy⟩ := Option.map_eq_some_iff.mp hk
  cases hxy
  exact ⟨e, hy, rfl, ho⟩

theorem candidates_of_slots {T U : Tree} (h : U.slots = T.slots) : U.candidates = T.candidates := by
  simp only [Tree.candidates, Tree.entries, entry?_of_slots h]

theorem name_of_operating {e : Entry} (h : e.operating = true) : e.state.name = .operating := by
  cases hst : e.state <;> simp_all [Entry.operating, EntryState.name]

/-- The tree on leaving QUIET for SUSPECT: no check, and no INVITE of a POSTED window (R95, R167). -/
structure Suspected (s r : State) (t : TreeId) (n : Nat) : Prop where
  light  : ∃ m, (r.tree t).light = { (s.tree t).light with light := .suspect, strikes := n, check := none, stale := m }
  ctl    : (r.tree t).ctl = (s.tree t).ctl
  slots  : (r.tree t).slots = (s.tree t).slots
  seq    : (r.tree t).seq = (s.tree t).seq
  msgq   : (r.tree t).msgq =
    { (s.tree t).msgq with
      items := (s.tree t).itemsKept ((s.tree t).light.light == .quiet && (s.tree t).windowPosted) false }
  sent   : ∃ more, (r.tree t).out.grant = (s.tree t).out.grant ++ more
  epoch  : r.epoch = s.epoch

theorem suspected_setLight (hq : (s.tree t).light.light = .quiet) (hn : (s.tree t).light.strikes ≤ 15 → n ≤ 15) :
    Suspected s (setLight t .suspect n cause raw (giveUpCheck t s)) t n := by
  obtain ⟨m, hgiven⟩ := giveUpCheck_tree (s := s) (t := t)
  have hquiet := quiet_giveUpCheck (s := s) (t := t)
  have hstrikes : ((giveUpCheck t s).tree t).light.strikes ≤ 15 → n ≤ 15 := by rw [hgiven.light]; exact hn
  have hepoch : (setLight t .suspect n cause raw (giveUpCheck t s)).epoch = s.epoch := by
    have hw : Within (· = t) s (setLight t .suspect n cause raw (giveUpCheck t s)) :=
      Within.trans (within_giveUpCheck (P := (· = t)) rfl) (within_setLight (P := (· = t)) rfl _ _ _ _ hstrikes)
    simp only [State.epoch, hw.timebase]
  have hq' : ((giveUpCheck t s).tree t).light.light = .quiet := by rw [hgiven.light]; exact hq
  have hset : ∃ b, setLight t .suspect n cause raw (giveUpCheck t s) =
      (discLeavesQuiet t ((giveUpCheck t s).modLight t fun l => { l with light := .suspect, strikes := n })).report t b := by
    simp only [setLight, hq']
    exact ⟨_, rfl⟩
  obtain ⟨b, hset⟩ := hset
  rw [hset] at hepoch ⊢
  generalize giveUpCheck t s = g at *
  obtain ⟨d, hleft⟩ := discLeavesQuiet_blocks (s := g.modLight t fun l => { l with light := .suspect, strikes := n }) (t := t)
  obtain ⟨more, hmore⟩ := sent_discLeavesQuiet
    (s := g.modLight t fun l => { l with light := .suspect, strikes := n }) (t := t)
  obtain ⟨more', hmore'⟩ := hquiet.sent
  rw [tree_modLight_same] at hleft hmore
  refine ⟨⟨m, ?_⟩, ?_, ?_, ?_, ?_, ⟨more' ++ more, ?_⟩, hepoch⟩
  · rw [tree_report, hleft.light, hgiven.light]
  · rw [tree_report, hleft.ctl, hgiven.ctl]
  · rw [tree_report, hleft.slots, hgiven.slots]
  · rw [tree_report, hleft.seq, hgiven.seq]
  · rw [tree_report, hleft.msgq]
    simp [Tree.windowPosted, Tree.itemsKept, hgiven.msgq, hgiven.disc, hq]
  · rw [tree_report, hmore, hmore', List.append_assoc]

/-- A hunt's candidates are offered their steps, the pause being over (R168). -/
theorem startHunt_eq {cs : List Candidate} (hc : (r.tree t).candidates = cs) :
    ∃ z, startHunt t r =
        huntNext t { candidates := cs, rest := cs, current := ⟨0, 0⟩, step := .muting, checked := 0, skipped := 0 } cs z ∧
      z.tree t = { r.tree t with light := { (r.tree t).light with pause := false } } ∧ z.epoch = r.epoch := by
  subst hc
  exact ⟨_, rfl, by rw [huntReport, tree_report, tree_modLight_same], rfl⟩

/-- The tree of `s` once the INVITE of a POSTED window has left its queue with the condition leaving QUIET (R95). -/
def inviteGone (t : TreeId) (s : State) : State :=
  s.withItems t ((s.tree t).itemsKept ((s.tree t).light.light == .quiet && (s.tree t).windowPosted) false)

theorem inviteGone_tree : (inviteGone t s).tree t =
    { s.tree t with
      msgq := { (s.tree t).msgq with
        items := (s.tree t).itemsKept ((s.tree t).light.light == .quiet && (s.tree t).windowPosted) false } } := by
  simp [inviteGone, State.withItems]

/-- A hunt without candidates ends at once, and the pause begins (R171). -/
theorem startHunt_none (hr : Suspected s r t n) (hc : (s.tree t).candidates = []) :
    s.HuntUnresolved (startHunt t r) t ∧ (startHunt t r).PostedAs (inviteGone t s) t ∧
      ∃ m, ((startHunt t r).tree t).light =
        { (s.tree t).light with
          light := .suspect, strikes := n, check := none, stale := m, hunt := none, pause := true
          nextCheck := some (s.epoch + (s.params t).huntPause) } := by
  obtain ⟨m, hlight⟩ := hr.light
  obtain ⟨z, heq, hztree, hzepoch⟩ := startHunt_eq ((candidates_of_slots hr.slots).trans hc)
  have hparams : z.params t = s.params t := by rw [State.params, hztree, hr.ctl, State.params]
  rw [heq, huntNext, huntUnresolved, huntReport, hzepoch, hr.epoch, hparams]
  have hfinal : ((z.modLight t fun l =>
      { l with hunt := none, pause := true, nextCheck := some (s.epoch + (s.params t).huntPause) }).tree t).light =
        { (s.tree t).light with
          light := .suspect, strikes := n, check := none, stale := m, hunt := none, pause := true
          nextCheck := some (s.epoch + (s.params t).huntPause) } := by
    rw [tree_modLight_same, hztree, hlight]
  have hposts : PostsAlike t (z.modLight t fun l =>
      { l with hunt := none, pause := true, nextCheck := some (s.epoch + (s.params t).huntPause) }) (inviteGone t s) := by
    refine .of_slots ?_ ?_
    · rw [tree_modLight_same, hztree, hr.msgq, inviteGone_tree]
    · rw [tree_modLight_same, hztree, hr.slots, inviteGone_tree]
  generalize z.modLight t _ = y at *
  refine ⟨⟨?_, ?_, ?_⟩, PostedAs_trans t (quiet_report _).posted hposts.postedAs, m, ?_⟩
  all_goals rw [tree_report, hfinal]

/-- A hunt with candidates mutes the first, which is OPERATING (R168). -/
theorem startHunt_first {x : Candidate} {rest : List Candidate} (hr : Suspected s r t n)
    (hc : (s.tree t).candidates = x :: rest) :
    s.StepBegun (inviteGone t s) (startHunt t r) t
        { candidates := x :: rest, rest := rest, current := x, step := .muting, checked := 0, skipped := 0 } x ∧
      ∃ m h, ((startHunt t r).tree t).light =
        { (s.tree t).light with
          light := .suspect, strikes := n, check := none, stale := m, pause := false, hunt := some h } := by
  obtain ⟨m, hlight⟩ := hr.light
  obtain ⟨z, heq, hztree, hzepoch⟩ := startHunt_eq ((candidates_of_slots hr.slots).trans hc)
  obtain ⟨e, he, hi, ho⟩ := entry?_of_candidate (T := s.tree t) (x := x) (by rw [hc]; exact List.mem_cons_self)
  have hze : z.entry? t x.tn = some e := (entry?_of_slots (by rw [hztree, hr.slots]) _).trans he
  have hoffer : ((z.entry? t x.tn).map (·.isIn x.inst .operating)).getD false = true := by
    simp [hze, Entry.isIn, hi, name_of_operating ho]
  rw [heq, huntNext, if_pos hoffer]
  generalize hh : ({ candidates := x :: rest, rest := rest, current := x, step := .muting, checked := 0, skipped := 0 } : Hunt)
    = h
  generalize hy : z.modLight t (fun l => { l with hunt := some h }) = y
  have hytree : y.tree t = { z.tree t with light := { (z.tree t).light with hunt := some h } } := by
    rw [← hy, tree_modLight_same]
  have hye : y.entry? t x.tn = some e := (entry?_of_slots (by rw [hytree]) _).trans hze
  have hylight : (y.tree t).light =
      { (s.tree t).light with
        light := .suspect, strikes := n, check := none, stale := m, pause := false, hunt := some h } := by
    rw [hytree, hztree, hlight]
  refine ⟨huntMute_begun ?_ hye hi ho ?_ (.of_slots ?_ ?_) (probePosted_of_op ?_ _), m, h, ?_⟩
  · rw [hylight]
  · obtain ⟨more, hmore⟩ := hr.sent
    exact ⟨more, by rw [hytree, hztree, hmore]⟩
  · rw [hytree, hztree, hr.msgq, inviteGone_tree]
  · rw [hytree, hztree, hr.slots, inviteGone_tree]
  · rw [hytree, hztree, hr.seq, inviteGone_tree]
  · rw [light_huntMute hye, hylight]

/-- The move from QUIET to SUSPECT, with its hunt (R167). -/
theorem becomeSuspect_starts (hq : (s.tree t).light.light = .quiet) (hn : (s.tree t).light.strikes ≤ 15 → n ≤ 15) :
    ((becomeSuspect t n cause raw s).tree t).light.light = .suspect ∧
      ((becomeSuspect t n cause raw s).tree t).light.strikes = n ∧
      ((becomeSuspect t n cause raw s).tree t).light.check = none ∧ s.HuntStarted (becomeSuspect t n cause raw s) t := by
  have hr := suspected_setLight (cause := cause) (raw := raw) hq hn
  unfold becomeSuspect
  generalize setLight t .suspect n cause raw (giveUpCheck t s) = r at hr
  simp only [State.HuntStarted]
  cases hc : (s.tree t).candidates with
  | nil =>
    obtain ⟨hunresolved, hposted, m, hlight⟩ := startHunt_none hr hc
    rw [hlight]
    exact ⟨rfl, rfl, rfl, hunresolved, hposted⟩
  | cons x rest =>
    obtain ⟨hbegun, m, h, hlight⟩ := startHunt_first hr hc
    rw [hlight]
    exact ⟨rfl, rfl, rfl, hbegun⟩

end

/-! ### Records of unexplained light (R166, R167) -/

section
variable {s : State} {t : TreeId} {arrival : BitVec 64} {c : Instr}

/-- The entry of records reads and writes nothing of a tree (R191). -/
theorem State.HuntStarted.settle {s' : State} (h : s.HuntStarted s' t) : s.HuntStarted s'.settle t := by
  unfold State.HuntStarted at *
  split at h
  · next hc =>
    obtain ⟨⟨hhunt, hpause, hnext⟩, hposted⟩ := h
    exact ⟨⟨hhunt, hpause, hnext⟩, hposted⟩
  · next hc =>
    obtain ⟨hhunt, hmuted, hair, hidle, hposted⟩ := h
    exact ⟨hhunt, hmuted, hair, hidle, hposted⟩

/-- What a record of unexplained light does in QUIET, by its kind (R166, R167). -/
def lightWork (t : TreeId) (arrival : BitVec 64) (continuous : Bool) (s : State) : State :=
  if continuous then becomeSuspect t (s.tree t).light.strikes .continuous arrival.toNat s else strike t arrival.toNat s

/-- Ungranted light, a granted burst for a TN without an entry, and continuous light are routed alike (R21). -/
theorem exec_lightRecord
    (hc : c = .ungrantedLight t arrival ∨ (∃ tn g, c = .grantedBurst t tn g arrival ∧ s.entry? t tn.toNat = none) ∨
      c = .continuousLight t arrival) :
    ∃ f, exec c s = s.take (routed t f) ∧
      f s = if (s.tree t).light.light = .quiet then lightWork t arrival (decide (c = .continuousLight t arrival)) s
        else s := by
  rcases hc with rfl | ⟨tn, g, rfl, he⟩ | rfl
  · exact ⟨unexplained t arrival.toNat, rfl, rfl⟩
  · exact ⟨routeGranted t tn.toNat g.toNat arrival.toNat, rfl, by simp only [routeGranted, he]; rfl⟩
  · refine ⟨continuous t arrival.toNat, rfl, ?_⟩
    simp [lightWork, continuous]

/-- On a tree that is neither ACTIVE nor CLOSED the Light Monitor is at rest, by Law 12 (R173, R183). -/
theorem light_of_closing (ha : (s.tree t).routesBursts = true) (hi : (s.tree t).isActive = false) (hl : s.ClosedLawful) :
    (s.tree t).light.light ≠ .quiet := by
  have hclosing := closing_of_routes ha hi
  have hstate : (s.tree t).ctl.state = .closing := by simpa [Tree.isClosing] using hclosing
  have hby := (hl t).byState
  rw [hstate] at hby
  obtain ⟨hrest, -⟩ := hby
  rw [hrest.light]
  exact nofun

/-- A request leaves the Light Monitor as it is (R151). -/
theorem chanSend_modLight (tag : Tag) (req : Request) (f : LightMonitor → LightMonitor) :
    chanSend t tag req (s.modLight t f) = (chanSend t tag req s).modLight t f := by
  have hchan : (s.modLight t f).chan t tag = s.chan t tag := by
    cases tag <;> simp only [State.chan, tree_modLight_same] <;> rfl
  have hepoch : (s.modLight t f).epoch = s.epoch := rfl
  simp only [chanSend, hchan, hepoch]
  simp only [sendLink, State.setChan, State.modOut, State.modLight, modTree_modTree]
  refine modTree_congr ?_
  cases tag <;> rfl

/-- A strike below the limit: the count, and a check where none is in flight (R166). -/
theorem strike_below (h : min 15 ((s.tree t).light.strikes + 1) < (s.params t).strikeLimit) (raw : Int) :
    strike t raw s =
      if (s.tree t).light.check = none then
        (chanSend t .silence
            { kind := .silence, length := (s.params t).silenceLen, earliest := (s.epoch + 3) * 625000 } s).modLight
          t fun l =>
          { l with
            strikes := min 15 ((s.tree t).light.strikes + 1)
            check := some { purpose := .strike, qe := (s.epoch + 3) * 625000, phase := .requesting } }
      else s.modLight t fun l => { l with strikes := min 15 ((s.tree t).light.strikes + 1) } := by
  have hn : (s.tree t).light.struck = min 15 ((s.tree t).light.strikes + 1) := rfl
  rw [strike, hn, if_neg (by omega)]
  cases hc : (s.tree t).light.check with
  | some x => simp
  | none =>
    have hparams : ∀ f, (s.modLight t f).params t = s.params t := fun f => by simp [State.params]
    simp only [Option.isNone_none, if_true, sendCheck, chanSend_modLight, hparams]
    unfold State.modLight
    rw [modTree_modTree]
    rfl

end

/-- Settles O41: the record is discarded, counts as a strike, or moves the condition to SUSPECT with its hunt. -/
theorem unexplainedLightStrikes : Obligations.UnexplainedLightStrikes := by
  intro s t arrival c strikes hs hc hstrikes
  obtain ⟨f, hexec, hf⟩ := exec_lightRecord hc
  rw [hexec]
  refine ⟨fun h => ?_, fun ha hne hq hlim => ?_, fun ha hwhen hq => ?_⟩
  · by_cases hr : (s.tree t).routesBursts = true
    · refine take_routed hs hr (hf.trans (if_neg ?_)) rfl
      rcases h with h | h | ⟨hi, hl⟩
      · simp [hr] at h
      · exact h
      · exact light_of_closing hr hi hl
    · exact take_not_routed hs (by simpa using hr)
  · rw [if_neg hne] at hstrikes
    subst hstrikes
    refine take_routed hs (routesBursts_of_active ha) (hf.trans ?_) ?_
    · simp only [hq, if_true, lightWork, hne, decide_false, Bool.false_eq_true, if_false]
      exact strike_below hlim _
    · split <;> rfl
  · have hwork : ∃ cause raw, f s = becomeSuspect t strikes cause raw s ∧
        ((s.tree t).light.strikes ≤ 15 → strikes ≤ 15) := by
      rw [hf, if_pos hq]
      by_cases hcont : c = .continuousLight t arrival
      · rw [if_pos hcont] at hstrikes
        exact ⟨.continuous, arrival.toNat, by simp [lightWork, hcont, hstrikes], fun h => hstrikes ▸ h⟩
      · rw [if_neg hcont] at hstrikes
        have hlim := hwhen.resolve_left hcont
        refine ⟨.strikes, arrival.toNat, ?_, fun _ => by omega⟩
        have hn : (s.tree t).light.struck = strikes := hstrikes.symm
        simp only [lightWork, hcont, decide_false, Bool.false_eq_true, if_false, strike, hn, hlim, if_true]
    obtain ⟨cause, raw, hwork, hn⟩ := hwork
    have hstarts := becomeSuspect_starts (cause := cause) (raw := raw) hq hn
    rw [← hwork] at hstarts
    refine ⟨_, take_of_taking hs _, ?_⟩
    rw [routed_of_routes (routesBursts_of_active ha)]
    generalize f s = r at *
    obtain ⟨hlight, hn, hcheck, hstarted⟩ := hstarts
    exact ⟨hlight, hn, hcheck, hstarted.settle⟩

end Sys2Proof.Machine
end

section
/-! PROOF. TREE_CLOSE (O53): what each block of a tree gives up as the tree begins to close (R75, R97, R121, R150, R173, R182),
and what the close leaves of the tree's entries. -/

namespace Sys2Proof.Machine

/-! ### The entries of a tree -/

/-- Every entry of tree `t` keeps its identity, and the on-air set and the directory stand. -/
structure SameRoster (t : TreeId) (s s' : State) : Prop where
  identity  : ∀ tn, (s'.entry? t tn).map Entry.identity = (s.entry? t tn).map Entry.identity
  onAir     : (s'.tree t).onAir = (s.tree t).onAir
  directory : s'.directory = s.directory

section
variable {s s' s'' : State} {t : TreeId}

@[refl] theorem SameRoster.refl (s : State) : SameRoster t s s := ⟨fun _ => rfl, rfl, rfl⟩

theorem SameRoster.trans (h : SameRoster t s s') (k : SameRoster t s' s'') : SameRoster t s s'' :=
  ⟨fun tn => (k.identity tn).trans (h.identity tn), k.onAir.trans h.onAir, k.directory.trans h.directory⟩

theorem Calm.sameRoster (h : Calm s s') : SameRoster t s s' :=
  ⟨h.identity t, (h.trees t).onAir, h.directory⟩

theorem sameRoster_modTree {f : Tree → Tree} (hs : (f (s.tree t)).slots = (s.tree t).slots)
    (ha : (f (s.tree t)).onAir = (s.tree t).onAir) : SameRoster t s (s.modTree t f) := by
  refine ⟨fun tn => ?_, by rw [tree_modTree_same, ha], rfl⟩
  rw [State.entry?, tree_modTree_same, entry?_of_slots hs]
  rfl

theorem sameRoster_sendCheck (p : Purpose) : SameRoster t s (sendCheck t p s) := by
  unfold sendCheck
  refine SameRoster.trans ?_ (sameRoster_modTree rfl rfl)
  exact (calm_chanSend _ _).sameRoster

theorem sameRoster_discLeavesQuiet : SameRoster t s (discLeavesQuiet t s) := by
  have hdisc : ∀ (x : State) (f : Discovery → Discovery), SameRoster t x (x.modDisc t f) := fun x f =>
    sameRoster_modTree rfl rfl
  have hdefer : ∀ (x : State) (w : Context), SameRoster t x (deferWindow t w x) := by
    intro x w
    unfold deferWindow
    split
    · unfold endCycle
      exact hdisc _ _
    · unfold State.setDisc
      exact hdisc _ _
  unfold discLeavesQuiet
  split
  · exact (calm_chanWithdraw _).sameRoster.trans (hdefer _ _)
  · exact ((calm_withdrawItems _).trans (calm_chanRelease _)).sameRoster.trans (hdefer _ _)
  all_goals exact SameRoster.refl s

end

/-! ### What each block gives up -/

section
variable {s : State} {t : TreeId}

theorem sameBlocks_report (b : ReportBody) : SameBlocks (s.tree t) ((s.report t b).tree t) := SameBlocks.refl _

/-- The Discovery Unit closes and leaves the other blocks (R97). -/
theorem closeDiscovery_blocks :
    SameBlocks { s.tree t with disc := (s.tree t).disc.closed } ((closeDiscovery t s).tree t) ∧
      SameRoster t s (closeDiscovery t s) := by
  have hdone : ∀ x : State, Calm s x → SameBlocks (s.tree t) (x.tree t) →
      SameBlocks { s.tree t with disc := (s.tree t).disc.closed } ((x.modDisc t Discovery.closed).tree t) ∧
        SameRoster t s (x.modDisc t Discovery.closed) := by
    intro x hc hx
    refine ⟨?_, hc.sameRoster.trans (sameRoster_modTree rfl rfl)⟩
    rw [tree_modDisc_same]
    exact ⟨hx.ctl, hx.slots, hx.msgq, by rw [hx.disc], hx.seq, hx.light⟩
  unfold closeDiscovery
  split
  · exact hdone _ (calm_chanWithdraw _) (sameBlocks_chanWithdraw _)
  · exact hdone _ (calm_chanRelease _) (sameBlocks_chanRelease _)
  · exact hdone _ (calm_report _) (sameBlocks_report _)
  all_goals exact hdone _ (Calm.refl s) (SameBlocks.refl _)

/-- The operation of a closing tree is given up; its PROBE stays in the queue for the queue's own close (R121). -/
theorem closeSequencer_eq (t : TreeId) (s : State) :
    ∃ x, closeSequencer t s =
        (x.modSeq t fun q => { q with tasks := [], stale := 0, sweepPtr := 0, nextSweep := none }).modTree t
          (fun T => T.mapEntries fun e => { e with waiting := false }) ∧
      Calm s x ∧ Quiet t s x ∧ (x.tree t).seq.op = none := by
  unfold closeSequencer
  simp only
  split
  · next o ho =>
    split
    · exact ⟨_, rfl, (calm_chanRelease _).trans calm_discardOp, (quiet_chanRelease _).trans quiet_discardOp, op_discardOp⟩
    all_goals
      next hp =>
      have hquiet : Quiet t s (abandonOp t s) := by
        simp only [abandonOp, ho]
        exact (quiet_giveUpProbe (by simp [hp])).trans quiet_discardOp
      exact ⟨_, rfl, calm_abandonOp, hquiet, op_abandonOp⟩
  · exact ⟨_, rfl, Calm.refl s, Quiet.refl s, ‹_›⟩

/-- The Task Sequencer closes: no task, no operation, no sweep, and no entry waits (R121, R150). -/
theorem closeSequencer_blocks :
    (∃ slots, SameBlocks
      { s.tree t with slots := slots, seq := { tasks := [], op := none, stale := 0, sweepPtr := 0, nextSweep := none } }
      ((closeSequencer t s).tree t)) ∧
    SameRoster t s (closeSequencer t s) := by
  obtain ⟨x, heq, hcalm, hquiet, hop⟩ := closeSequencer_eq t s
  have hc := hcalm.trees t
  rw [heq]
  refine ⟨?_, hcalm.sameRoster.trans ⟨fun tn => ?_, ?_, rfl⟩⟩
  · rw [tree_modTree_same, tree_modSeq_same]
    exact ⟨_, hc.ctl, rfl, hquiet.posted.1, hc.disc, by simp [Tree.mapEntries, hop], hc.light⟩
  · rw [State.entry?, tree_modTree_same, tree_modSeq_same, entry?_mapEntries, Option.map_map]
    rfl
  · rw [tree_modTree_same, tree_modSeq_same]
    rfl

/-- The Light Monitor closes at its reset values (R173). -/
theorem closeLight_blocks :
    SameBlocks { s.tree t with light := LightMonitor.reset } ((closeLight t s).tree t) ∧
      SameRoster t s (closeLight t s) := by
  have hdone : ∀ x : State, Calm s x → SameBlocks (s.tree t) (x.tree t) →
      SameBlocks { s.tree t with light := LightMonitor.reset } ((x.modLight t fun _ => LightMonitor.reset).tree t) ∧
        SameRoster t s (x.modLight t fun _ => LightMonitor.reset) := by
    intro x hc hx
    refine ⟨?_, hc.sameRoster.trans (sameRoster_modTree rfl rfl)⟩
    rw [tree_modLight_same]
    exact ⟨hx.ctl, hx.slots, hx.msgq, hx.disc, hx.seq, rfl⟩
  unfold closeLight
  split
  · exact hdone _ (calm_chanWithdraw _) (sameBlocks_chanWithdraw _)
  · exact hdone _ (calm_chanRelease _) (sameBlocks_chanRelease _)
  · exact hdone _ (Calm.refl s) (SameBlocks.refl _)

/-- The pending list of a closing tree is emptied, with one report for each record (R75). -/
theorem closePending_tree :
    (closePending t s).tree t = { s.tree t with pendingList := [] } ∧ SameRoster t s (closePending t s) := by
  have hfold : ∀ (l : List PendingRec) (ev : AdmitEvent) (x : State),
      (l.foldl (fun x r => pendingReport t ev .closed r 0 none x) x).tree t = x.tree t ∧
        SameRoster t x (l.foldl (fun x r => pendingReport t ev .closed r 0 none x) x) := by
    intro l ev
    induction l with
    | nil => exact fun x => ⟨rfl, SameRoster.refl x⟩
    | cons r l ih =>
      intro x
      obtain ⟨htree, hroster⟩ := ih (pendingReport t ev .closed r 0 none x)
      exact ⟨htree, (calm_report _).sameRoster.trans hroster⟩
  obtain ⟨htree, hroster⟩ :=
    hfold (s.tree t).pendingList { source := .close, window := 0 } (s.modPending t fun _ => [])
  exact ⟨htree.trans (tree_modTree_same ..), SameRoster.trans (sameRoster_modTree rfl rfl) hroster⟩

/-- The downstream queue of a closing tree: no gated message, and the broadcast RETIRE at its tail or owed (R26, R30). -/
def MsgQueue.closed (q : MsgQueue) : MsgQueue :=
  let kept := q.items.filter fun it => !it.msg.isGated
  if kept.length < 32 then { q with items := kept ++ [broadcastItem] } else { q with items := kept, owedBroadcast := true }

theorem closeQueue_tree : (closeQueue t s).tree t = { s.tree t with msgq := (s.tree t).msgq.closed } := by
  unfold closeQueue postBroadcast MsgQueue.closed
  rw [tree_modMsgq_same]
  simp only [Config.queueLimit]
  split
  · rw [enqueue, tree_modMsgq_same, tree_modMsgq_same]
  · rw [tree_modMsgq_same, tree_modMsgq_same]

end

/-! ### TREE_CLOSE (R182) -/

section
variable {s : State} {t : TreeId}

/-- What the close leaves of a tree, besides its slots (R182). -/
structure CloseBegun (s s' : State) (t : TreeId) : Prop where
  ctl     : (s'.tree t).ctl = { (s.tree t).ctl with state := .closing }
  disc    : (s'.tree t).disc = (s.tree t).disc.closed
  seq     : (s'.tree t).seq = { tasks := [], op := none, stale := 0, sweepPtr := 0, nextSweep := none }
  light   : (s'.tree t).light = LightMonitor.reset
  pending : (s'.tree t).pendingList = []
  msgq    : (s'.tree t).msgq = (s.tree t).msgq.closed
  roster  : SameRoster t s s'

theorem beginClose_begun : CloseBegun s (beginClose t s) t := by
  simp only [beginClose]
  generalize hx : treeReport t .active .closing .hostClose 0 0 none 0 (s.tree t).entries.length (s.setTreeState t .closing) = x
  have hxtree : x.tree t = { s.tree t with ctl := { (s.tree t).ctl with state := .closing } } := by
    rw [← hx, treeReport, tree_report, State.setTreeState, tree_modCtl_same]
  have hxroster : SameRoster t s x := by
    rw [← hx]
    exact (SameRoster.trans (sameRoster_modTree rfl rfl) (calm_report _).sameRoster)
  obtain ⟨hd, hdr⟩ := closeDiscovery_blocks (s := x) (t := t)
  generalize closeDiscovery t x = d at hd hdr ⊢
  obtain ⟨⟨slots, hq⟩, hqr⟩ := closeSequencer_blocks (s := d) (t := t)
  generalize closeSequencer t d = q at hq hqr ⊢
  obtain ⟨hl, hlr⟩ := closeLight_blocks (s := q) (t := t)
  generalize closeLight t q = l at hl hlr ⊢
  obtain ⟨hp, hpr⟩ := closePending_tree (s := l) (t := t)
  generalize closePending t l = p at hp hpr ⊢
  refine ⟨?_, ?_, ?_, ?_, ?_, ?_, ?_⟩
  · rw [closeQueue_tree, hp]
    simp only [hl.ctl, hq.ctl, hd.ctl, hxtree]
  · rw [closeQueue_tree, hp]
    simp only [hl.disc, hq.disc, hd.disc, hxtree]
  · rw [closeQueue_tree, hp]
    simp only [hl.seq, hq.seq]
  · rw [closeQueue_tree, hp]
    simp only [hl.light]
  · rw [closeQueue_tree, hp]
  · rw [closeQueue_tree, hp]
    simp only [hl.msgq, hq.msgq, hd.msgq, hxtree]
  · exact ((((hxroster.trans hdr).trans hqr).trans hlr).trans hpr).trans calm_closeQueue.sameRoster

end

/-- Settles O53: every block gives up its work in turn, and the queue closes last. -/
theorem treesClosed : Obligations.TreesClosed := by
  intro s tag tree t kept hs htree hkept
  have hparse := parseTree_eq htree
  have hrequest : exec (.treeClose tag tree) s = s.request tag (treeCloseRequest tree) := rfl
  rw [hrequest]
  refine ⟨fun ha => ?_, fun hc => ?_, fun hc ha => ?_⟩
  · have hok : treeCloseRequest tree s = ok (beginClose t s) := by simp only [treeCloseRequest, hparse, ha]
    have hothers := (within_beginClose (P := (· = t)) (s := s) rfl).others
    obtain ⟨hctl, hdisc, hseq, hlight, hpending, hmsgq, hroster⟩ := beginClose_begun (s := s) (t := t)
    generalize beginClose t s = r at *
    refine ⟨_, request_ok hs hok, rfl, ?_⟩
    rw [tree_reply, tree_settle, hctl, hdisc, hseq, hlight, hpending, hmsgq, hkept]
    exact ⟨rfl, rfl, rfl, rfl, rfl, rfl, hroster.identity, hroster.onAir, hroster.directory, hothers⟩
  · exact request_same hs (f := treeCloseRequest tree) (by simp only [treeCloseRequest, hparse, hc]; rfl)
  · refine request_same hs (f := treeCloseRequest tree) ?_
    simp only [treeCloseRequest, hparse]
    cases hst : (s.tree t).ctl.state with
    | closing => exact absurd hst hc
    | active => exact absurd hst ha
    | closed | calibrating => rfl

end Sys2Proof.Machine
end

section
/-! PROOF. Loop records (O42): their pairing with the markers, and what a judged calibration run leaves (R103, R179..R181). -/

namespace Sys2Proof.Machine

section
variable {s : State} {t : TreeId} {a : Int} {r : CalRun} {m : Nat} {why : CalFailure}

/-! ### Pairing (R179) -/

theorem loopTaken_of_run (hst : (s.tree t).ctl.state = .calibrating r) : loopTaken t a s = loopRecord t r a s := by
  simp only [loopTaken, hst]

/-- A record with no run that can take it is discarded (R21, R179). -/
theorem loopTaken_discarded
    (h : ∀ r, (s.tree t).ctl.state = .calibrating r → a < 10000000 * r.start ∨ r.markers.length ≤ r.pis.length) :
    loopTaken t a s = s := by
  cases hst : (s.tree t).ctl.state with
  | closed | active | closing => simp only [loopTaken, hst]
  | calibrating r =>
    rw [loopTaken_of_run hst, loopRecord]
    split
    · rfl
    · next ha =>
      rw [List.getElem?_eq_none ((h r hst).resolve_left ha)]

/-- A record behind the run's start epoch is stored with its offset from the oldest marker without one, and the sixteenth
judges the run (R179). -/
theorem loopTaken_paired (hst : (s.tree t).ctl.state = .calibrating r) (ha : 10000000 * (r.start : Int) ≤ a)
    (hm : r.markers[r.pis.length]? = some m) :
    loopTaken t a s =
      if r.pis.length + 1 = 16 then judgeRun t { r with pis := r.pis ++ [a - 10000000 * (m : Int)] } s
      else s.setTreeState t (.calibrating { r with pis := r.pis ++ [a - 10000000 * (m : Int)] }) := by
  rw [loopTaken_of_run hst, loopRecord, if_neg (by omega), hm]
  simp [loopOffset]

/-! ### A passed run (R181) -/

/-- A condition that is not QUIET is set with the windows' work put back, where the condition was QUIET (R95). -/
theorem setLight_closed {new : Light} {n : Nat} {cause : LightCause} {raw : Int} (hnew : new ≠ .quiet) :
    ((setLight t new n cause raw s).tree t).light = { (s.tree t).light with light := new, strikes := n } ∧
      ((setLight t new n cause raw s).tree t).ctl = (s.tree t).ctl ∧ SameRoster t s (setLight t new n cause raw s) := by
  have hmod : SameRoster t s (s.modLight t fun l => { l with light := new, strikes := n }) := sameRoster_modTree rfl rfl
  unfold setLight
  simp only [hnew, and_false, if_false]
  split
  · obtain ⟨d, hleft⟩ := discLeavesQuiet_blocks (s := s.modLight t fun l => { l with light := new, strikes := n }) (t := t)
    rw [tree_report, hleft.light, hleft.ctl, tree_modLight_same]
    exact ⟨rfl, rfl, (hmod.trans sameRoster_discLeavesQuiet).trans (calm_report _).sameRoster⟩
  · rw [tree_report, tree_modLight_same]
    exact ⟨rfl, rfl, hmod.trans (calm_report _).sameRoster⟩

/-- A tree whose condition is not QUIET starts no window and takes no task (R81, R143). -/
theorem units_wait (h : (s.tree t).light.light ≠ .quiet) : takeTasks t (startWindow t s) = s := by
  have hgate : (s.tree t).gateOpen = false := by simp [Tree.gateOpen, h]
  rw [startWindow_of_closed hgate, takeTasks_of_not_mayTake (mayTake_of_busy (.inl hgate))]

/-- A passed run sets P and makes the tree ACTIVE with its condition UNKNOWN, a check asked for, and nothing on the air. -/
theorem runPassed_opens :
    ((runPassed t r s).tree t).ctl = { (s.tree t).ctl with state := .active, p := pathOffset r.pis } ∧
      ((runPassed t r s).tree t).light.light = .unknown ∧
      ((runPassed t r s).tree t).light.check =
        some { purpose := .opening, qe := (s.epoch + 3) * 625000, phase := .requesting } ∧
      ((runPassed t r s).tree t).onAir = [] ∧ ((runPassed t r s).tree t).seq.sweepPtr = 0 := by
  simp only [runPassed]
  generalize hx : treeReport t .calibrating .active .calibrated r.run r.restarts r.first (r.spread none) 0 _ = x
  have hxtree : (x.tree t).ctl = { (s.tree t).ctl with state := .active, p := pathOffset r.pis } ∧ (x.tree t).onAir = [] := by
    rw [← hx, treeReport, tree_report, State.setTreeState, tree_modCtl_same, allOff, sendLink, tree_modOut_same,
      tree_modTree_same, tree_modCtl_same]
    exact ⟨rfl, rfl⟩
  obtain ⟨hxctl, hxair⟩ := hxtree
  have hxepoch : x.epoch = s.epoch := by rw [← hx]; rfl
  obtain ⟨hlight, hctl, hroster⟩ := setLight_closed (s := x) (t := t) (new := .unknown) (n := 0) (cause := .opened) (raw := 0)
    nofun
  have hyepoch : (setLight t .unknown 0 .opened 0 x).epoch = s.epoch := by
    rw [← hxepoch]
    simp only [State.epoch, (within_setLight (P := (· = t)) (s := x) rfl .unknown 0 .opened 0 (fun _ => by omega)).timebase]
  rw [lightOpened]
  generalize setLight t .unknown 0 .opened 0 x = y at hlight hctl hroster hyepoch ⊢
  have hcheck := sendCheck_tree .opening (SameBlocks.refl (y.tree t)) hyepoch
  have hair : ((sendCheck t .opening y).tree t).onAir = [] := by
    rw [(sameRoster_sendCheck .opening).onAir, hroster.onAir, hxair]
  generalize sendCheck t .opening y = z at hcheck hair ⊢
  have hswept : (sweepOn t z).tree t =
      { z.tree t with seq := { (z.tree t).seq with sweepPtr := 0, nextSweep := z.nextSweep t } } := tree_modSeq_same ..
  have hzlight : (z.tree t).light = { (x.tree t).light with
      light := .unknown, strikes := 0
      check := some { purpose := .opening, qe := (s.epoch + 3) * 625000, phase := .requesting } } := by
    rw [hcheck.light, hlight]
    rfl
  rw [units_wait (by rw [hswept, hzlight]; exact nofun), hswept, hzlight, hcheck.ctl, hctl, hxctl, hair]
  exact ⟨rfl, rfl, rfl, rfl, rfl⟩

/-! ### A failed run (R180) -/

/-- A run that records judge is never failed for a missing one: its report carries their spread (R184). -/
theorem spread_of_judged {n : Nat} (h : judgePis n r.pis = some why) : r.spread (some why) = spreadOf r.pis := by
  unfold judgePis at h
  split at h
  · cases h
    rfl
  split at h
  · cases h
    rfl
  · cases h

theorem port_closeDiscovery (h : ∀ w n qs gw d coll, (s.tree t).disc.state ≠ .collecting w n qs gw d coll) :
    (closeDiscovery t s).port = s.port := by
  unfold closeDiscovery
  split
  · rfl
  · exact port_chanRelease _
  · next hd => exact absurd hd (h _ _ _ _ _ _)
  all_goals rfl

/-- The tree of a failed opening, before its report: CLOSED, its contexts emptied, and no sweep due (R97, R148, R180). -/
def openingClosed (t : TreeId) (s : State) : State :=
  sweepOff t (closeDiscovery t (s.modCtl t fun c => { c with state := .closed, suspended := false }))

theorem openingClosed_tree :
    ((openingClosed t s).tree t).ctl = { (s.tree t).ctl with state := .closed, suspended := false } ∧
      ((openingClosed t s).tree t).disc = (s.tree t).disc.closed ∧
      ((openingClosed t s).tree t).seq.sweepPtr = 0 ∧ ((openingClosed t s).tree t).seq.nextSweep = none := by
  obtain ⟨hblocks, -⟩ := closeDiscovery_blocks
    (s := s.modCtl t fun c => { c with state := .closed, suspended := false }) (t := t)
  rw [tree_modCtl_same] at hblocks
  rw [openingClosed, sweepOff, tree_modSeq_same]
  exact ⟨hblocks.ctl, hblocks.disc, rfl, rfl⟩

theorem calFailed_eq :
    calFailed t r why s =
      (openingClosed t s).report t
        (.tree .calibrating .closed .calFailed (s.tree t).ctl.p r.run r.restarts (some why) (r.spread (some why)) 0) := by
  have hp : ((openingClosed t s).tree t).ctl.p = (s.tree t).ctl.p := by rw [openingClosed_tree.1]
  rw [← hp]
  rfl

theorem port_openingClosed (h : ∀ w n qs gw d coll, (s.tree t).disc.state ≠ .collecting w n qs gw d coll) :
    (openingClosed t s).port = s.port := by
  have hdisc : ∀ f, ((s.modCtl t f).tree t).disc = (s.tree t).disc := fun f => by simp
  exact port_closeDiscovery (by rw [hdisc]; exact h)

theorem within_openingClosed {P : TreeId → Prop} (ht : P t) : Within P s (openingClosed t s) := by
  unfold openingClosed
  refine Within.trans ?_ (within_sweepOff ht)
  refine Within.trans ?_ (within_closeDiscovery ht)
  exact within_modCtl ht _ fun _ => rfl

end

/-- Settles O42: the record is discarded, stored, or judges its run, which passes, runs again or fails. -/
theorem loopRecordsTaken : Obligations.LoopRecordsTaken := by
  intro s t arrival hs
  have hexec : exec (.loop t arrival) s = s.take (loopTaken t arrival.toNat) := rfl
  rw [hexec]
  refine ⟨fun h => ?_, fun r m hst ha hm hlen => ?_, fun r m pis hst ha hm hpis hlen => ?_⟩
  · exact take_of_same_port hs (loopTaken_discarded fun r hr => by have := h r hr; omega) rfl
  · exact take_of_same_port hs ((loopTaken_paired hst (by omega) hm).trans (if_neg hlen)) rfl
  have hjudged : loopTaken t arrival.toNat s = judgeRun t { r with pis := pis } s := by
    rw [loopTaken_paired hst (by omega) hm, ← hpis, if_pos (by simpa [hpis] using hlen)]
  refine ⟨fun hpass => ?_, fun why hfail => ⟨fun hrun => ?_, fun hrun => ?_⟩⟩
  · have hpassed : loopTaken t arrival.toNat s = runPassed t { r with pis := pis } s := by
      rw [hjudged, judgeRun, hpass]
    have hopens := runPassed_opens (s := s) (t := t) (r := { r with pis := pis })
    refine ⟨_, take_of_taking hs _, ?_⟩
    rw [hpassed]
    generalize runPassed t { r with pis := pis } s = y at *
    exact hopens
  · refine take_of_same_port hs ?_ rfl
    rw [hjudged, judgeRun, hfail]
    simp only [runFailed, hrun, if_true]
    rfl
  · have hfailed : loopTaken t arrival.toNat s =
        (openingClosed t s).report t
          (.tree .calibrating .closed .calFailed (s.tree t).ctl.p 2 r.restarts (some why) (spreadOf pis) 0) := by
      rw [hjudged, judgeRun, hfail]
      simp only [runFailed, hrun]
      rw [if_neg (by omega), calFailed_eq, spread_of_judged hfail]
    have hothers := (within_openingClosed (P := (· = t)) (s := s) rfl)
    obtain ⟨hctl, hdisc, hptr, hnext⟩ := openingClosed_tree (s := s) (t := t)
    have hport := port_openingClosed (s := s) (t := t)
    generalize openingClosed t s = y at *
    refine ⟨_, take_of_taking hs _, ?_⟩
    rw [hfailed, tree_settle, tree_report, hctl, hdisc]
    refine ⟨rfl, rfl, hptr, hnext, hothers.others, fun h => ?_⟩
    have hyepoch : y.epoch = s.epoch := by simp only [State.epoch, hothers.timebase]
    rw [settle_report t _ (hport h ▸ hs.entered)]
    simp only [State.entering, hport h, hyepoch]

end Sys2Proof.Machine
end

section
/-! PROOF. Activation deadlines (O18): the entries whose deadline is the current epoch go to RETIRING one by one, and what the
last of them leaves is what their RETIREs, posted one by one, leave (R27, R49, R149). -/

namespace Sys2Proof.Machine

/-! ### The TNs whose entry meets a condition -/

section
variable {T : Tree} {tn : Nat} {p : Entry → Bool}

theorem mem_allTns_of_entry {e : Entry} (h : T.entry? tn = some e) : tn ∈ allTns := by
  unfold Tree.entry? at h
  split at h
  · next i hi =>
    unfold slotIndex at hi
    split at hi
    · simp only [allTns, List.mem_map, List.mem_range]
      exact ⟨tn - 1, by omega, by omega⟩
    · cases hi
  · cases h

theorem mem_tnsWith : tn ∈ T.tnsWith p ↔ ∃ e, T.entry? tn = some e ∧ p e = true := by
  simp only [Tree.tnsWith, Tree.entries, List.mem_map, List.mem_filter, List.mem_filterMap]
  constructor
  · rintro ⟨⟨k, e⟩, ⟨⟨k', -, hk⟩, hp⟩, rfl⟩
    obtain ⟨y, hy, hxy⟩ := Option.map_eq_some_iff.mp hk
    cases hxy
    exact ⟨e, hy, hp⟩
  · rintro ⟨e, he, hp⟩
    exact ⟨(tn, e), ⟨⟨tn, mem_allTns_of_entry he, by simp [he]⟩, hp⟩, rfl⟩

theorem nodup_tnsWith : (T.tnsWith p).Nodup := by
  have hsub : ∀ l : List Nat, ((l.filterMap fun k => (T.entry? k).map fun e => (k, e)).map (·.1)).Sublist l := by
    intro l
    induction l with
    | nil => exact .slnil
    | cons k l ih =>
      cases he : T.entry? k with
      | none => simpa [he] using ih.cons k
      | some e => simpa [he] using ih.cons_cons k
  have hall : allTns.Nodup := List.nodup_range.map fun _ _ h => by simpa using h
  have hfiltered : ((T.entries.filter fun x => p x.2).map (·.1)).Sublist allTns :=
    (List.filter_sublist.map _).trans (hsub allTns)
  exact hfiltered.nodup hall

end

/-! ### One entry goes to RETIRING (R49) -/

section
variable {r q s : State} {t : TreeId} {tn k : Nat} {e : Entry} {cause : Cause} {inst : BitVec 16}

theorem State.entry?_modEntry_same {f : Entry → Entry} : (s.modEntry t tn f).entry? t tn = (s.entry? t tn).map f := by
  rw [State.entry?, tree_modEntry_same, Machine.entry?_modEntry_same]
  rfl

theorem State.entry?_modEntry_other {f : Entry → Entry} (h : k ≠ tn) : (s.modEntry t tn f).entry? t k = s.entry? t k := by
  rw [State.entry?, tree_modEntry_same, Machine.entry?_modEntry_other _ _ _ _ h]
  rfl

theorem enterRetiring_eq (he : r.entry? t tn = some e) :
    enterRetiring t tn cause r =
      (postMust t tn (.retire tn) .registry (withdrawn t tn e.inst (transit t tn cause Entry.toRetiring r))).state := by
  simp only [enterRetiring, he]

theorem seq_postMust (m : Message) (by_ : Issuer) : ((postMust t tn m by_ s).state.tree t).seq = (s.tree t).seq := by
  unfold postMust
  split
  · rfl
  split
  · rfl
  simp only
  split
  · simp
  split
  · simp [enqueue]
  · simp

/-- Taking leaves an operation in flight as it is (R143). -/
theorem op_takeTasks_of_some {o : ProbeOp} (h : (s.tree t).seq.op = some o) :
    ((takeTasks t s).tree t).seq.op = some o := by
  rcases op_takeTasks (s := s) (t := t) with hop | ⟨hnone, -⟩
  · rw [hop, h]
  · rw [h] at hnone
    cases hnone

/-- Withdrawing an entry leaves the PROBE of another TN's operation, and posts none (R142). -/
theorem probePosted_withdrawn (hk : k ≠ tn) {i : BitVec 16} :
    ((withdrawn t tn i s).tree t).probePosted k inst = (s.tree t).probePosted k inst := by
  rw [Bool.eq_iff_iff]
  constructor
  · intro h
    have hposted : ((withdrawn t tn i s).tree t).opPosted = true := by
      obtain ⟨o, pl, qe, qs, g, ho, hp, -⟩ := probePosted_iff.mp h
      exact opPosted_iff.mpr ⟨o, pl, qe, qs, g, ho, hp⟩
    have hsame := probePosted_of_op (tn := k) (op_withdrawn_of_posted hposted) inst
    exact hsame.symm.trans h
  · intro h
    obtain ⟨o, pl, qe, qs, g, ho, hp, hn, hi⟩ := probePosted_iff.mp h
    have hother : ∀ x, (s.tree t).seq.op = some x → ¬(x.tn = tn ∧ x.inst = i) := by
      rintro x hx ⟨hxn, -⟩
      rw [ho] at hx
      cases hx
      exact hk (hn.symm.trans hxn)
    have hop : ((withdrawn t tn i s).tree t).seq.op = some o := by
      rw [withdrawn_eq]
      refine op_takeTasks_of_some ?_
      rw [op_refill, workDropped_of_other hother, State.setTasks, tree_modSeq_same]
      exact ho
    exact probePosted_iff.mpr ⟨o, pl, qe, qs, g, hop, hp, hn, hi⟩

theorem probePosted_enterRetiring (hk : k ≠ tn) :
    ((enterRetiring t tn cause s).tree t).probePosted k inst = (s.tree t).probePosted k inst := by
  cases he : s.entry? t tn with
  | none => simp only [enterRetiring, he]
  | some e =>
    rw [enterRetiring_eq he, probePosted_of_op (congrArg Sequencer.op (seq_postMust _ _)), probePosted_withdrawn hk]
    exact probePosted_of_op (by rw [(transited_transit he).seq]) _

/-- The entry's transition posts nothing but clears its resend mark (R27, R49). -/
theorem postsAlike_toRetiring :
    PostsAlike t (transit t tn cause Entry.toRetiring s) (s.modEntry t tn fun x => { x with resend := false }) := by
  cases he : s.entry? t tn with
  | none =>
    have hsame : s.modEntry t tn (fun x => { x with resend := false }) = s :=
      modEntry_self fun x hx => by rw [he] at hx; cases hx
    rw [hsame]
    unfold transit
    rw [he]
  | some e =>
    have htr := transited_transit (cause := cause) (f := Entry.toRetiring) he
    refine ⟨by rw [htr.msgq]; simp, fun m => ?_⟩
    by_cases hm : m = tn
    · subst hm
      rw [htr.self, State.entry?_modEntry_same, Option.map_map, Option.map_map]
      rfl
    · rw [htr.other t m (.inr hm), State.entry?_modEntry_other hm]

/-- What an entry's way to RETIRING posts: its RETIRE, with its mark cleared and its PROBE gone (R27, R49). -/
theorem PostsAlike.enterRetiring (h : PostsAlike t r q) (he : r.entry? t tn = some e)
    (hp : (r.tree t).probePosted tn e.inst = (q.tree t).probePosted tn e.inst) :
    PostsAlike t (enterRetiring t tn cause r) (q.retirePosted t tn) := by
  obtain ⟨y, hy, hpost⟩ := Option.map_eq_some_iff.mp ((h.entries tn).symm.trans (by rw [he]; rfl))
  have hinst : y.inst = e.inst := congrArg (fun x : BitVec 16 × Nat × Option OwedMsg × Bool => x.1) hpost
  have hretire : q.retirePosted t tn =
      (Machine.postMust t tn (.retire tn) .registry
        ((q.modEntry t tn fun x => { x with resend := false }).probeGone t tn e.inst)).state := by
    simp only [State.retirePosted, hy, hinst]
  rw [enterRetiring_eq he, hretire]
  refine PostsAlike.postMust (postsAlike_withdrawn.trans (PostsAlike.probeGone ?_ ?_)) _ _
  · refine postsAlike_toRetiring.trans (h.modEntry fun x x' hx => ?_)
    simp_all [Entry.posting]
  · have hq : ((q.modEntry t tn fun x => { x with resend := false }).tree t).seq = (q.tree t).seq := by simp
    rw [probePosted_of_op (congrArg Sequencer.op ((transited_transit he).seq t)), hp,
      probePosted_of_op (congrArg Sequencer.op hq)]

theorem seq_retirePosted : ((q.retirePosted t tn).tree t).seq = (q.tree t).seq := by
  unfold State.retirePosted
  split
  · rfl
  · rw [seq_postMust]
    simp [State.probeGone, State.withItems]

theorem dormant_transit (hk : k ≠ tn) {f : Entry → Entry} (h : Dormant (s.tree t) k inst) :
    Dormant ((transit t tn cause f s).tree t) k inst := by
  cases he : s.entry? t tn with
  | none =>
    unfold transit
    rw [he]
    exact h
  | some e =>
    have htr := transited_transit (cause := cause) (f := f) he
    refine h.of_same (by rw [htr.seq]) (by rw [htr.seq]) ?_
    exact congrArg (Option.map Entry.waiting) (htr.other t k (.inr hk))

/-- Another entry's way to RETIRING leaves a terminal without work so. -/
theorem dormant_enterRetiring_other (hk : k ≠ tn) (h : Dormant (s.tree t) k inst) :
    Dormant ((enterRetiring t tn cause s).tree t) k inst := by
  cases he : s.entry? t tn with
  | none => simpa only [enterRetiring, he] using h
  | some e =>
    rw [enterRetiring_eq he]
    exact dormant_postMust (dormant_withdrawn (dormant_transit hk h) _ _) _ _ _

/-- An entry that goes to RETIRING has no work left (R49, R142). -/
theorem dormant_enterRetiring_same (he : s.entry? t tn = some e) :
    Dormant ((enterRetiring t tn cause s).tree t) tn e.inst := by
  rw [enterRetiring_eq he]
  refine dormant_postMust (dormant_of_withdrawn fun y hy => ?_) _ _ _
  rw [(transited_transit he).self, he] at hy
  cases hy
  rfl

/-- An entry that is not OPERATING goes to RETIRING without a change on the air (R38). -/
theorem onAir_enterRetiring (h : ∀ e, s.entry? t tn = some e → e.operating = false) :
    ((enterRetiring t tn cause s).tree t).onAir = (s.tree t).onAir := by
  cases he : s.entry? t tn with
  | none => simp only [enterRetiring, he]
  | some e =>
    have ho := h e he
    have hc : Calm (transit t tn cause Entry.toRetiring s) (enterRetiring t tn cause s) := by
      rw [enterRetiring_eq he]
      exact (calm_withdrawn _ _).trans (calm_postMust _ _ _)
    rw [(hc.trees t).onAir, onAir_transit he, ho]
    simp [Entry.operating, Entry.toRetiring]

theorem identity_eq_of_map {e' : Entry} (h : (r.entry? t k).map Entry.identity = (s.entry? t k).map Entry.identity)
    (he : r.entry? t k = some e') : ∃ e, s.entry? t k = some e ∧ e.identity = e'.identity :=
  Option.map_eq_some_iff.mp (h.symm.trans (by rw [he]; rfl))

theorem operating_of_identity {e e' : Entry} (h : e.identity = e'.identity) : e.operating = e'.operating := by
  simp only [Entry.identity, Prod.mk.injEq] at h
  simp only [Entry.operating, h.2.2]

theorem inst_of_identity {e e' : Entry} (h : e.identity = e'.identity) : e.inst = e'.inst :=
  congrArg (fun x : BitVec 16 × Serial × EntryState => x.1) h

end

/-! ### Entries go to RETIRING one by one -/

/-- The entries of these TNs go to RETIRING in turn. -/
def retireAll (t : TreeId) (cause : Cause) (l : List Nat) (s : State) : State :=
  l.foldl (fun s tn => enterRetiring t tn cause s) s

section
variable {r q : State} {t : TreeId} {cause : Cause} {a k : Nat} {l : List Nat}

theorem other_enterRetiring (h : k ≠ a) :
    ((enterRetiring t a cause r).entry? t k).map Entry.identity = (r.entry? t k).map Entry.identity :=
  enterRetiring_becomes.other t k (.inr h)

/-- What they post is what their RETIREs, posted in turn, leave (R27). -/
theorem postsAlike_retireAll (hl : l.Nodup) (h : PostsAlike t r q) (he : ∀ k ∈ l, ∃ e, r.entry? t k = some e)
    (hp : ∀ k ∈ l, ∀ i, (r.tree t).probePosted k i = (q.tree t).probePosted k i) :
    PostsAlike t (retireAll t cause l r) (l.foldl (fun q tn => q.retirePosted t tn) q) := by
  induction l generalizing r q with
  | nil => exact h
  | cons a l ih =>
    obtain ⟨ha, hl⟩ := List.nodup_cons.mp hl
    obtain ⟨e, hea⟩ := he a List.mem_cons_self
    have hne : ∀ k ∈ l, k ≠ a := fun k hk hka => ha (hka ▸ hk)
    refine ih hl (h.enterRetiring hea (hp a List.mem_cons_self _)) (fun k hk => ?_) fun k hk i => ?_
    · obtain ⟨y, hy⟩ := he k (List.mem_cons_of_mem _ hk)
      obtain ⟨y', hy', -⟩ := identity_eq_of_map (other_enterRetiring (cause := cause) (hne k hk)).symm hy
      exact ⟨y', hy'⟩
    · rw [probePosted_enterRetiring (hne k hk), hp k (List.mem_cons_of_mem _ hk)]
      exact (probePosted_of_op (congrArg Sequencer.op seq_retirePosted) i).symm

theorem dormant_retireAll_other {inst : BitVec 16} (hk : k ∉ l) (h : Dormant (r.tree t) k inst) :
    Dormant ((retireAll t cause l r).tree t) k inst := by
  induction l generalizing r with
  | nil => exact h
  | cons a l ih =>
    obtain ⟨hka, hk⟩ := not_or.mp (mt List.mem_cons.mpr hk)
    exact ih hk (dormant_enterRetiring_other hka h)

/-- Each of them is left without work (R142). -/
theorem dormant_retireAll {e : Entry} (hl : l.Nodup) (hk : k ∈ l) (he : r.entry? t k = some e) :
    Dormant ((retireAll t cause l r).tree t) k e.inst := by
  induction l generalizing r e with
  | nil => cases hk
  | cons a l ih =>
    obtain ⟨ha, hl⟩ := List.nodup_cons.mp hl
    by_cases hka : k = a
    · subst hka
      exact dormant_retireAll_other (l := l) ha (dormant_enterRetiring_same he)
    · obtain ⟨y, hy, hid⟩ := identity_eq_of_map (other_enterRetiring (cause := cause) hka).symm he
      rw [← inst_of_identity hid]
      exact ih hl ((List.mem_cons.mp hk).resolve_left hka) hy

/-- An identity, in RETIRING where the condition holds. -/
def retiringIf (c : Prop) [Decidable c] (x : BitVec 16 × Serial × EntryState) : BitVec 16 × Serial × EntryState :=
  if c then (x.1, x.2.1, .retiring) else x

theorem retiringIf_pos {c : Prop} [Decidable c] (h : c) : retiringIf c = fun x => (x.1, x.2.1, .retiring) :=
  funext fun _ => if_pos h

theorem retiringIf_neg {c : Prop} [Decidable c] (h : ¬c) : retiringIf c = id := funext fun _ => if_neg h

theorem retiringIf_congr {c c' : Prop} [Decidable c] [Decidable c'] (h : c ↔ c') : retiringIf c = retiringIf c' :=
  funext fun _ => by simp only [retiringIf, h]

/-- Each of them is RETIRING with its number and serial kept, and no other entry's identity changes (R49). -/
theorem identity_retireAll (hl : l.Nodup) (k : Nat) :
    ((retireAll t cause l r).entry? t k).map Entry.identity =
      ((r.entry? t k).map Entry.identity).map (retiringIf (k ∈ l)) := by
  induction l generalizing r with
  | nil =>
    rw [retiringIf_neg (by simp), Option.map_id]
    rfl
  | cons a l ih =>
    obtain ⟨ha, hl⟩ := List.nodup_cons.mp hl
    refine (ih (r := enterRetiring t a cause r) hl).trans ?_
    by_cases hka : k = a
    · subst hka
      rw [enterRetiring_becomes.self, retiringIf_neg ha, retiringIf_pos List.mem_cons_self, Option.map_id, Option.map_map]
      rfl
    · rw [other_enterRetiring hka, retiringIf_congr (c' := k ∈ a :: l) (by simp [hka])]

/-- What else they keep: the directory, the pending list and, none of them OPERATING, the on-air set. -/
theorem kept_retireAll (hl : l.Nodup) (ho : ∀ k ∈ l, ∀ e, r.entry? t k = some e → e.operating = false) :
    (retireAll t cause l r).directory = r.directory ∧
      ((retireAll t cause l r).tree t).pendingList = (r.tree t).pendingList ∧
      ((retireAll t cause l r).tree t).onAir = (r.tree t).onAir := by
  induction l generalizing r with
  | nil => exact ⟨rfl, rfl, rfl⟩
  | cons a l ih =>
    obtain ⟨ha, hl⟩ := List.nodup_cons.mp hl
    obtain ⟨hd, hp, hair⟩ := ih (r := enterRetiring t a cause r) hl fun k hk e he => by
      have hka : k ≠ a := fun hka => ha (hka ▸ hk)
      obtain ⟨y, hy, hid⟩ := identity_eq_of_map (other_enterRetiring hka) he
      rw [← operating_of_identity hid]
      exact ho k (List.mem_cons_of_mem _ hk) y hy
    exact ⟨hd.trans enterRetiring_becomes.directory, hp.trans (enterRetiring_becomes.pending t),
      hair.trans (onAir_enterRetiring (ho a List.mem_cons_self))⟩

end

theorem operating_of_activation {e : Entry} {n : Nat} (h : e.activation? = some n) : e.operating = false := by
  cases hst : e.state <;> simp_all [Entry.activation?, Entry.operating]

/-- Settles O18: the entries whose deadline is the current epoch go to RETIRING one by one, in ascending TN order. -/
theorem activationDeadlinesRetire : Obligations.ActivationDeadlinesRetire := by
  intro s t hs hdue
  have hexec : exec (.activationDeadline t) s = s.take (takeDelivery (.activationDeadline t)) :=
    exec_command (.activationDeadline t) s
  rw [hexec, take_of_taking hs, takeDelivery_of_mem hdue]
  generalize hx : s.taken (.activationDeadline t) = x
  have htree : x.tree t = s.tree t := by rw [← hx]; rfl
  have hentry : ∀ k, x.entry? t k = s.entry? t k := fun k => by rw [State.entry?, htree]; rfl
  have hdir : x.directory = s.directory := by rw [← hx]; rfl
  have hothers : ∀ j, j ≠ t → (activationDue t x).tree j = s.tree j := fun j hj => by
    rw [(within_activationDue (P := (· = t)) (s := x) rfl).others j hj, ← hx]
    rfl
  generalize hl : (s.tree t).tnsWith (fun e => e.activation? = some s.epoch) = l
  have hnodup : l.Nodup := hl ▸ nodup_tnsWith
  have hmem : ∀ k, k ∈ l ↔ ∃ e, s.entry? t k = some e ∧ e.activation? = some s.epoch := fun k => by
    rw [← hl, mem_tnsWith]
    simp [State.entry?]
  have hdo : deliveryEffect (.activationDeadline t) x = retireAll t .budget l x := by
    have hbeq : (fun e : Entry => e.activation? == some x.epoch) = fun e => decide (e.activation? = some s.epoch) := by
      rw [← hx]
      refine funext fun e => Bool.eq_iff_iff.mpr ?_
      rw [beq_iff_eq, decide_eq_true_iff]
      exact Iff.rfl
    have heq : deliveryEffect (.activationDeadline t) x = activationDue t x := rfl
    rw [heq, activationDue, hbeq, htree, hl]
    rfl
  have halike : PostsAlike t x s := .of_slots (by rw [htree]) (by rw [htree])
  have hposted := postsAlike_retireAll (cause := .budget) hnodup halike
    (fun k hk => by obtain ⟨e, he, -⟩ := (hmem k).mp hk; exact ⟨e, (hentry k).trans he⟩) fun k _ i => by rw [htree]
  have hdormant : ∀ k e, k ∈ l → s.entry? t k = some e → Dormant ((retireAll t .budget l x).tree t) k e.inst :=
    fun k e hk he => dormant_retireAll hnodup hk ((hentry k).trans he)
  have hid := identity_retireAll (r := x) (t := t) (cause := .budget) hnodup
  obtain ⟨hdirectory, hpending, hair⟩ := kept_retireAll (r := x) (t := t) (cause := .budget) hnodup fun k hk e he => by
    obtain ⟨y, hy, hact⟩ := (hmem k).mp hk
    rw [hentry, hy] at he
    cases he
    exact operating_of_activation hact
  have hothers' : ∀ j, j ≠ t → (retireAll t .budget l x).tree j = s.tree j := by
    rw [← hdo]
    exact hothers
  rw [hdo]
  generalize retireAll t .budget l x = y at *
  refine ⟨_, rfl, fun k => ?_, hposted.postedAs, fun k e he hact => ?_, hdirectory.trans hdir, ?_, ?_, hothers'⟩
  · refine (hid k).trans ?_
    rw [hentry, Option.map_map]
    cases he : s.entry? t k with
    | none => rfl
    | some e =>
      have hiff : k ∈ l ↔ e.activation? = some s.epoch := by simp [hmem, he]
      simp [retiringIf, hiff, Entry.identity]
  · exact (hdormant k e ((hmem k).mpr ⟨e, he, hact⟩) he).idles
  · rw [tree_settle, tree_settle, hpending, htree]
  · rw [tree_settle, tree_settle, hair, htree]

end Sys2Proof.Machine
end

section
/-! PROOF. The steps of a slot call (R28): what expires and is told, what an owed message does as it enters, and the hand-over
of the oldest items with the notices to their posters. -/

namespace Sys2Proof.Machine

/-! ### The queue's items -/

section
variable {s : State} {t : TreeId} {l l' : List Item} {tn : Nat}

theorem withItems_withItems : (s.withItems t l).withItems t l' = s.withItems t l' := by
  simp only [State.withItems, State.modMsgq, modTree_modTree]

theorem withItems_self : s.withItems t (s.tree t).msgq.items = s := by
  unfold State.withItems State.modMsgq
  exact modTree_self rfl

@[simp] theorem tree_withItems : (s.withItems t l).tree t = { s.tree t with msgq := { (s.tree t).msgq with items := l } } := by
  rw [State.withItems, tree_modMsgq_same]

theorem withItems_modEntry (f : Entry → Entry) : (s.modEntry t tn f).withItems t l = (s.withItems t l).modEntry t tn f := by
  simp only [State.withItems, State.modMsgq, State.modEntry, modTree_modTree]
  refine modTree_congr ?_
  simp only [Tree.modEntry]
  split <;> rfl

theorem withItems_setChan (tag : Tag) (c : Channel) :
    (s.setChan t tag c).withItems t l = (s.withItems t l).setChan t tag c := by
  simp only [State.withItems, State.modMsgq, State.setChan, modTree_modTree]
  cases tag <;> exact modTree_congr rfl

theorem withItems_chanSend (tag : Tag) (req : Request) :
    (chanSend t tag req s).withItems t l = chanSend t tag req (s.withItems t l) := by
  have hchan : (s.withItems t l).chan t tag = s.chan t tag := by
    cases tag <;> simp only [State.chan, tree_withItems] <;> rfl
  have hepoch : (s.withItems t l).epoch = s.epoch := rfl
  simp only [chanSend, hchan, hepoch]
  rw [← withItems_setChan]
  simp only [sendLink, State.withItems, State.modMsgq, State.modOut, modTree_modTree]

theorem params_withItems : (s.withItems t l).params t = s.params t := by simp [State.params]

theorem withItems_sendWindow (w : Context) : (sendWindow t w s).withItems t l = sendWindow t w (s.withItems t l) := by
  have hepoch : (s.withItems t l).epochInt = s.epochInt := rfl
  simp only [sendWindow, params_withItems, hepoch, ← withItems_chanSend]
  simp only [State.setDisc, State.withItems, State.modMsgq, State.modDisc, modTree_modTree]

theorem withItems_sendProbe (o : ProbeOp) (pl : Placement) :
    (sendProbe t o pl s).withItems t l = sendProbe t o pl (s.withItems t l) := by
  have hepoch : (s.withItems t l).epochInt = s.epochInt := rfl
  have hepoch' : (s.withItems t l).epoch = s.epoch := rfl
  simp only [sendProbe, hepoch, hepoch', ← withItems_chanSend]
  simp only [State.setOp, State.withItems, State.modMsgq, State.modSeq, modTree_modTree]

theorem withItems_raiseDiscStale : (s.raiseDiscStale t).withItems t l = (s.withItems t l).raiseDiscStale t := by
  have hstale : ((s.withItems t l).tree t).disc.stale = (s.tree t).disc.stale := by rw [tree_withItems]
  have hcomm : ∀ f, (s.modDisc t f).withItems t l = (s.withItems t l).modDisc t f := fun f => by
    simp only [State.withItems, State.modMsgq, State.modDisc, modTree_modTree]
  unfold State.raiseDiscStale
  rw [hstale]
  exact congrArg (fun x : State => { x with freeIndex := s.freeAfterStale (s.tree t).disc.stale }) (hcomm _)

theorem withItems_raiseSeqStale : (s.raiseSeqStale t).withItems t l = (s.withItems t l).raiseSeqStale t := by
  have hstale : ((s.withItems t l).tree t).seq.stale = (s.tree t).seq.stale := by rw [tree_withItems]
  have hcomm : ∀ f, (s.modSeq t f).withItems t l = (s.withItems t l).modSeq t f := fun f => by
    simp only [State.withItems, State.modMsgq, State.modSeq, modTree_modTree]
  unfold State.raiseSeqStale
  rw [hstale]
  exact congrArg (fun x : State => { x with freeIndex := s.freeAfterStale (s.tree t).seq.stale }) (hcomm _)

end

/-! ### Expiry (R28, R84, R110) -/

section
variable {s r : State} {t : TreeId} {it : Item} {before after : List Item} {tn : Nat}

/-- Step 1 of a slot call: the late items leave and their posters are told in list order (R28). -/
theorem slotExpiry_eq :
    slotExpiry t s =
      ((s.tree t).msgq.items.filter fun it => it.late s.epoch).foldl (expiredNotice t)
        (s.withItems t ((s.tree t).msgq.items.filter fun it => !it.late s.epoch)) := by
  have hmod : (s.modMsgq t fun q => { q with items := q.items.filter fun it => !it.late s.epoch }) =
      s.withItems t ((s.tree t).msgq.items.filter fun it => !it.late s.epoch) := by
    unfold State.withItems State.modMsgq
    exact modTree_congr rfl
  rw [← hmod]
  rfl

theorem slotExpiry_of_inTime (h : ∀ it ∈ (s.tree t).msgq.items, it.late s.epoch = false) : slotExpiry t s = s := by
  have hlate : ((s.tree t).msgq.items.filter fun it => it.late s.epoch) = [] :=
    List.filter_eq_nil_iff.mpr fun it hit => by simp [h it hit]
  have hkept : ((s.tree t).msgq.items.filter fun it => !it.late s.epoch) = (s.tree t).msgq.items :=
    List.filter_eq_self.mpr fun it hit => by simp [h it hit]
  rw [slotExpiry_eq, hlate, hkept, withItems_self]
  rfl

/-- The first late item is told to its poster as the rest expires from what that leaves, where the notice leaves the queue's
items and the epoch (R28). -/
theorem slotExpiry_first {f : State → State} (hitems : (s.tree t).msgq.items = before ++ it :: after)
    (hbefore : ∀ x ∈ before, x.late s.epoch = false) (hit : it.late s.epoch = true)
    (hf : ∀ l, expiredNotice t (s.withItems t l) it = f (s.withItems t l))
    (hkeep : ∀ l, ((f (s.withItems t l)).tree t).msgq.items = l)
    (hepoch : ∀ l, (f (s.withItems t l)).epoch = s.epoch)
    (hcomm : ∀ l l', (f (s.withItems t l)).withItems t l' = f (s.withItems t l')) :
    slotExpiry t s = slotExpiry t (f (s.withItems t (before ++ after))) := by
  have hlate : before.filter (fun it => it.late s.epoch) = [] :=
    List.filter_eq_nil_iff.mpr fun x hx => by simp [hbefore x hx]
  rw [slotExpiry_eq, slotExpiry_eq, hitems, hkeep, hepoch, hcomm]
  simp only [List.filter_append, List.filter_cons, hit, hlate, if_true, List.nil_append, Bool.not_true,
    Bool.false_eq_true, if_false, List.foldl_cons, hf]

/-- A slot call reads what its expiry leaves. -/
theorem slotCall_of_expiry (h : slotExpiry t s = slotExpiry t r) : slotCall t s = slotCall t r := by
  rw [slotCall, slotCall, h]

/-- Slot calls with the same effect answer alike. -/
theorem exec_slotCall_congr (h : slotCall t s = slotCall t r) (hp : r.resetPin = s.resetPin) (hs : s.Taking) :
    exec (.slotCall t) s = exec (.slotCall t) r := by
  have hpin : r.resetPin = false := hp.trans hs.released
  change s.take (slotCall t) = r.take (slotCall t)
  rw [State.take, State.take, State.event, State.event, hs.released, hpin, h]
  rfl

theorem msgq_sendWindow (w : Context) : ((sendWindow t w s).tree t).msgq = (s.tree t).msgq :=
  (sendWindow_tree w (SameBlocks.refl (s.tree t)) rfl).msgq

theorem epoch_sendWindow (w : Context) : (sendWindow t w s).epoch = s.epoch := rfl

theorem msgq_sendProbe (o : ProbeOp) (pl : Placement) : ((sendProbe t o pl s).tree t).msgq = (s.tree t).msgq :=
  (quiet_sendProbe o pl).posted.1

theorem epoch_sendProbe (o : ProbeOp) (pl : Placement) : (sendProbe t o pl s).epoch = s.epoch := rfl

/-- An expired INVITE's window, its interval counted stale, asks again (R84). -/
def windowAsksAgain (t : TreeId) (w : Context) (s : State) : State := sendWindow t w (s.raiseDiscStale t)

theorem resetPin_windowAsksAgain (w : Context) : (windowAsksAgain t w s).resetPin = s.resetPin := rfl

theorem windowAsksAgain_keeps (w : Context) :
    ((windowAsksAgain t w s).tree t).msgq = (s.tree t).msgq ∧ (windowAsksAgain t w s).epoch = s.epoch := by
  unfold windowAsksAgain
  rw [msgq_sendWindow, epoch_sendWindow, raiseDiscStale_tree]
  exact ⟨rfl, rfl⟩

theorem withItems_windowAsksAgain (w : Context) (l : List Item) :
    (windowAsksAgain t w s).withItems t l = windowAsksAgain t w (s.withItems t l) := by
  unfold windowAsksAgain
  rw [withItems_sendWindow, withItems_raiseDiscStale]

/-- An expired PROBE's operation, its interval counted stale, asks again (R110). -/
def probeAsksAgain (t : TreeId) (o : ProbeOp) (pl : Placement) (s : State) : State := sendProbe t o pl (s.raiseSeqStale t)

theorem resetPin_probeAsksAgain (o : ProbeOp) (pl : Placement) : (probeAsksAgain t o pl s).resetPin = s.resetPin := rfl

theorem probeAsksAgain_keeps (o : ProbeOp) (pl : Placement) :
    ((probeAsksAgain t o pl s).tree t).msgq = (s.tree t).msgq ∧ (probeAsksAgain t o pl s).epoch = s.epoch := by
  unfold probeAsksAgain
  rw [msgq_sendProbe, epoch_sendProbe, raiseSeqStale_tree]
  exact ⟨rfl, rfl⟩

theorem withItems_probeAsksAgain (o : ProbeOp) (pl : Placement) (l : List Item) :
    (probeAsksAgain t o pl s).withItems t l = probeAsksAgain t o pl (s.withItems t l) := by
  unfold probeAsksAgain
  rw [withItems_sendProbe, withItems_raiseSeqStale]

section
variable (hitems : (s.tree t).msgq.items = before ++ it :: after) (hbefore : ∀ x ∈ before, x.late s.epoch = false)
  (hit : it.late s.epoch = true)
include hitems hbefore hit

theorem slotExpiry_window {number : Byte} {span : Nat} {gw : Int} {w : Context} {n : Byte} {qs gw' : Int}
    (hmsg : it.msg = .invite number span gw) (hd : (s.tree t).disc.state = .posted w n qs gw') :
    slotExpiry t s = slotExpiry t (windowAsksAgain t w (s.withItems t (before ++ after))) := by
  refine slotExpiry_first hitems hbefore hit (fun l => ?_) (fun l => ?_) (fun l => ?_) fun l l' => ?_
  · have hd' : ((s.withItems t l).tree t).disc.state = .posted w n qs gw' := by rw [tree_withItems]; exact hd
    simp only [expiredNotice, hmsg, inviteExpired, hd', windowAsksAgain]
  · rw [(windowAsksAgain_keeps w).1, tree_withItems]
  · exact (windowAsksAgain_keeps w).2
  · rw [withItems_windowAsksAgain, withItems_withItems]

theorem slotExpiry_probe {k : Nat} {g : Int} {o : ProbeOp} {pl : Placement} {qe qs g' : Int}
    (hmsg : it.msg = .probe k g) (ho : (s.tree t).seq.op = some o) (hp : o.phase = .posted pl qe qs g')
    (hk : o.tn = k) (hi : o.inst = it.inst) :
    slotExpiry t s = slotExpiry t (probeAsksAgain t o pl (s.withItems t (before ++ after))) := by
  refine slotExpiry_first hitems hbefore hit (fun l => ?_) (fun l => ?_) (fun l => ?_) fun l l' => ?_
  · have ho' : ((s.withItems t l).tree t).seq.op = some o := by rw [tree_withItems]; exact ho
    have hn : o.named k it.inst = true := by simp [ProbeOp.named, hk, hi]
    simp only [expiredNotice, hmsg, probeExpired, ho', hp, hn, if_true, probeAsksAgain]
  · rw [(probeAsksAgain_keeps o pl).1, tree_withItems]
  · exact (probeAsksAgain_keeps o pl).2
  · rw [withItems_probeAsksAgain, withItems_withItems]

/-- A late item without a POSTED owner leaves without a notice (R28). -/
theorem slotExpiry_unheard
    (hw : ∀ number span gw w n qs gw', it.msg = .invite number span gw → (s.tree t).disc.state ≠ .posted w n qs gw')
    (hp : ∀ k g o pl qe qs g', it.msg = .probe k g → (s.tree t).seq.op = some o → o.phase = .posted pl qe qs g' →
      o.tn ≠ k ∨ o.inst ≠ it.inst) :
    slotExpiry t s = slotExpiry t (s.withItems t (before ++ after)) := by
  refine slotExpiry_first (f := id) hitems hbefore hit (fun l => ?_) (fun l => by simp) (fun l => rfl)
    fun l l' => withItems_withItems
  have hdisc : ((s.withItems t l).tree t).disc = (s.tree t).disc := by rw [tree_withItems]
  have hseq : ((s.withItems t l).tree t).seq = (s.tree t).seq := by rw [tree_withItems]
  unfold expiredNotice
  split
  · next number span gw hmsg =>
    unfold inviteExpired
    rw [hdisc]
    cases hd : (s.tree t).disc.state with
    | posted w n qs gw' => exact absurd hd (hw _ _ _ _ _ _ _ hmsg)
    | stopped | spacing | due | requesting | collecting => rfl
  · next k g hmsg =>
    unfold probeExpired
    rw [hseq]
    cases ho : (s.tree t).seq.op with
    | none => rfl
    | some o =>
      cases hph : o.phase with
      | posted pl qe qs g' =>
        have hn : o.named k it.inst = false := by
          have := hp k g o pl qe qs g' hmsg ho hph
          simp only [ProbeOp.named, Bool.and_eq_false_imp, beq_iff_eq, beq_eq_false_iff_ne]
          exact fun hk => this.resolve_left (not_not.mpr hk)
        simp [hn, hph]
      | held | waitDelay | requesting | listening => simp [hph]
  all_goals rfl

end

end

/-! ### Owed entry (R27, R28) -/

section
variable {s r : State} {t : TreeId} {tn : Nat} {e : Entry} {o : OwedMsg}

/-- A queue that nothing entered keeps, with the owed broadcast gone, what it holds. -/
theorem slotOwed_of_no_broadcast (h : (s.tree t).msgq.broadcastStands = false) :
    slotOwed t s = allTns.foldl (enterOwed t) s := by
  obtain ⟨howed, hitems⟩ := Bool.or_eq_false_iff.mp h
  have henter : enterBroadcast t s = s := by simp [enterBroadcast, howed]
  simp only [slotOwed, henter, hitems, Bool.false_eq_true, if_false]

theorem slotOwed_of_broadcast (h : (s.tree t).msgq.items.any (·.msg.isBroadcast) = true) :
    slotOwed t s = enterBroadcast t s := by
  have hany : ((enterBroadcast t s).tree t).msgq.items.any (·.msg.isBroadcast) = true := by
    unfold enterBroadcast
    split
    · rw [tree_modMsgq_same]
      simp only [List.any_append, h, Bool.true_or]
    · exact h
  simp only [slotOwed, hany, if_true]

/-- The state once the owed broadcast RETIRE has entered the queue (R28). -/
def broadcastEntered (t : TreeId) (s : State) : State :=
  s.modMsgq t fun q => { q with items := q.items ++ [broadcastItem], owedBroadcast := false }

theorem broadcastEntered_tree : (broadcastEntered t s).tree t =
    { s.tree t with
      msgq := { (s.tree t).msgq with items := (s.tree t).msgq.items ++ [broadcastItem], owedBroadcast := false } } := by
  rw [broadcastEntered, tree_modMsgq_same]

/-- The owed broadcast RETIRE enters a queue with room, and nothing behind it (R28). -/
theorem slotOwed_broadcastEntered (ho : (s.tree t).msgq.owedBroadcast = true) (hl : (s.tree t).msgq.items.length < 32) :
    slotOwed t s = slotOwed t (broadcastEntered t s) := by
  have hin : ((broadcastEntered t s).tree t).msgq.items.any (·.msg.isBroadcast) = true := by
    rw [broadcastEntered_tree]
    simp [broadcastItem, Message.isBroadcast]
  have henter : enterBroadcast t s = broadcastEntered t s := by
    simp [enterBroadcast, ho, hl, Config.queueLimit, broadcastEntered]
  have hdone : enterBroadcast t (broadcastEntered t s) = broadcastEntered t s := by
    have : ((broadcastEntered t s).tree t).msgq.owedBroadcast = false := by rw [broadcastEntered_tree]
    simp [enterBroadcast, this]
  rw [slotOwed_of_broadcast hin, hdone]
  simp only [slotOwed, henter, hin, if_true]

theorem resetPin_broadcastEntered : (broadcastEntered t s).resetPin = s.resetPin := rfl

theorem slotCall_broadcastEntered (hin : ∀ it ∈ (s.tree t).msgq.items, it.late s.epoch = false)
    (ho : (s.tree t).msgq.owedBroadcast = true) (hl : (s.tree t).msgq.items.length < 32) :
    slotCall t s = slotCall t (broadcastEntered t s) := by
  have hepoch : (broadcastEntered t s).epoch = s.epoch := rfl
  have hin' : ∀ it ∈ ((broadcastEntered t s).tree t).msgq.items, it.late (broadcastEntered t s).epoch = false := by
    rw [broadcastEntered_tree, hepoch]
    intro it hit
    rcases List.mem_append.mp hit with hit | hit
    · exact hin it hit
    · rw [List.mem_singleton.mp hit]
      rfl
  rw [slotCall, slotCall, slotExpiry_of_inTime hin, slotExpiry_of_inTime hin', slotOwed_broadcastEntered ho hl]

theorem enterOwed_of_none (h : ∀ e, s.entry? t tn = some e → e.owed = none) : enterOwed t s tn = s := by
  unfold enterOwed
  split
  · rfl
  · next e he => simp only [h e he]

/-- Nothing enters a full queue (R28). -/
theorem enterOwed_of_full (h : 32 ≤ (s.tree t).msgq.items.length) : enterOwed t s tn = s := by
  unfold enterOwed
  split
  · rfl
  split
  · rfl
  · exact if_neg (by simp [Config.queueLimit, h])

/-- The state once the owed message of the entry of a TN has joined the queue (R28). -/
def owedEntered (t : TreeId) (tn : Nat) (e : Entry) (o : OwedMsg) (s : State) : State :=
  (s.modEntry t tn fun x => { x with owed := none }).withItems t
    ((s.tree t).msgq.items ++ [{ msg := o.msg, issuer := o.issuer, inst := e.inst, deadline := none }])

/-- An owed message enters a queue with room; a MUTE or UNMUTE of an entry marked for resend has a DELAY posted behind it
(R27, R28). -/
theorem enterOwed_of_room (he : s.entry? t tn = some e) (ho : e.owed = some o) (hl : (s.tree t).msgq.items.length < 32) :
    enterOwed t s tn =
      if o.msg.isMuting && e.resend then (postMust t tn (.delay tn e.ld) .registry (owedEntered t tn e o s)).state
      else owedEntered t tn e o s := by
  simp [enterOwed, he, ho, hl, Config.queueLimit, enqueue_eq, owedEntered]

theorem foldl_enterOwed_of_fixed {l : List Nat} (h : ∀ k ∈ l, enterOwed t s k = s) : l.foldl (enterOwed t) s = s := by
  induction l with
  | nil => rfl
  | cons a l ih =>
    rw [List.foldl_cons, h a List.mem_cons_self]
    exact ih fun k hk => h k (List.mem_cons_of_mem _ hk)

/-- Where nothing is owed, or nothing can enter, the queue stays (R28). -/
theorem slotOwed_of_nothing
    (h : (∀ tn e, s.entry? t tn = some e → e.owed = none) ∨ 32 ≤ (s.tree t).msgq.items.length)
    (hb : (s.tree t).msgq.broadcastStands = false) : slotOwed t s = s := by
  rw [slotOwed_of_no_broadcast hb]
  refine foldl_enterOwed_of_fixed fun k _ => ?_
  rcases h with h | h
  · exact enterOwed_of_none (h k)
  · exact enterOwed_of_full h

/-- The TNs below one that owes, owing nothing, enter nothing; the others enter from where it leaves off. -/
theorem enterAll_lowest (hmem : tn ∈ allTns) (hlow : ∀ k x, k < tn → s.entry? t k = some x → x.owed = none)
    (hr : enterOwed t s tn = r) (hrlow : ∀ k x, k < tn → r.entry? t k = some x → x.owed = none)
    (hrfix : enterOwed t r tn = r) : allTns.foldl (enterOwed t) s = allTns.foldl (enterOwed t) r := by
  obtain ⟨low, high, hsplit⟩ := List.append_of_mem hmem
  have hsorted : allTns.Pairwise (· < ·) := List.pairwise_lt_range.map _ fun _ _ h => Nat.succ_lt_succ h
  have hbelow : ∀ k ∈ low, k < tn := by
    rw [hsplit, List.pairwise_append] at hsorted
    exact fun k hk => hsorted.2.2 k hk tn List.mem_cons_self
  have hfold : ∀ x : State, (∀ k y, k < tn → x.entry? t k = some y → y.owed = none) → enterOwed t x tn = r →
      allTns.foldl (enterOwed t) x = high.foldl (enterOwed t) r := by
    intro x hx hxr
    rw [hsplit, List.foldl_append, foldl_enterOwed_of_fixed fun k hk => enterOwed_of_none fun y => hx k y (hbelow k hk),
      List.foldl_cons, hxr]
  rw [hfold s hlow hr, hfold r hrlow hrfix]

/-- The state once messages for an entry have joined the queue with the entry updated (R27, R28). -/
def messagesEntered (t : TreeId) (tn : Nat) (f : Entry → Entry) (l : List Item) (s : State) : State :=
  (s.modEntry t tn f).withItems t ((s.tree t).msgq.items ++ l)

section
variable {f : Entry → Entry} {l : List Item}

theorem resetPin_messagesEntered : (messagesEntered t tn f l s).resetPin = s.resetPin := rfl

theorem msgq_messagesEntered : ((messagesEntered t tn f l s).tree t).msgq =
    { (s.tree t).msgq with items := (s.tree t).msgq.items ++ l } := by
  rw [messagesEntered, tree_withItems, tree_modEntry_same]
  simp

theorem entry?_messagesEntered_same : (messagesEntered t tn f l s).entry? t tn = (s.entry? t tn).map f := by
  rw [messagesEntered, entry?_withItems, State.entry?_modEntry_same]

theorem entry?_messagesEntered_other {k : Nat} (h : k ≠ tn) :
    (messagesEntered t tn f l s).entry? t k = s.entry? t k := by
  rw [messagesEntered, entry?_withItems, State.entry?_modEntry_other h]

theorem messagesEntered_messagesEntered (g : Entry → Entry) (l' : List Item) :
    messagesEntered t tn g l' (messagesEntered t tn f l s) = messagesEntered t tn (g ∘ f) (l ++ l') s := by
  have hitems : ((messagesEntered t tn f l s).tree t).msgq.items = (s.tree t).msgq.items ++ l := by
    rw [msgq_messagesEntered]
  unfold messagesEntered at hitems ⊢
  rw [hitems, withItems_modEntry, withItems_withItems, ← withItems_modEntry, modEntry_modEntry, List.append_assoc]

theorem messagesEntered_congr {g : Entry → Entry} (he : s.entry? t tn = some e) (h : f e = g e) :
    messagesEntered t tn f l s = messagesEntered t tn g l s := by
  rw [messagesEntered, messagesEntered, modEntry_congr he h]

/-- A slot call goes on from where the lowest owed message has entered, when with it the entry owes nothing or the queue is
full (R28). -/
theorem slotCall_messagesEntered (hin : ∀ it ∈ (s.tree t).msgq.items, it.late s.epoch = false)
    (hb : (s.tree t).msgq.broadcastStands = false) (he : s.entry? t tn = some e)
    (hlow : ∀ k x, k < tn → s.entry? t k = some x → x.owed = none)
    (henter : enterOwed t s tn = messagesEntered t tn f l s)
    (hl : ∀ it ∈ l, it.deadline = none ∧ it.msg.isBroadcast = false)
    (hdone : (f e).owed = none ∨ 32 ≤ ((s.tree t).msgq.items ++ l).length) :
    slotCall t s = slotCall t (messagesEntered t tn f l s) := by
  generalize hr : messagesEntered t tn f l s = r at henter
  have hmsgq : (r.tree t).msgq = { (s.tree t).msgq with items := (s.tree t).msgq.items ++ l } := by
    rw [← hr, msgq_messagesEntered]
  have hepoch : r.epoch = s.epoch := by
    rw [← hr]
    rfl
  have hrb : (r.tree t).msgq.broadcastStands = false := by
    obtain ⟨howed, hitems⟩ := Bool.or_eq_false_iff.mp hb
    rw [MsgQueue.broadcastStands, hmsgq]
    simp only [howed, List.any_append, hitems, Bool.false_or, List.any_eq_false]
    exact fun it hit => by simp [(hl it hit).2]
  have hrin : ∀ it ∈ (r.tree t).msgq.items, it.late r.epoch = false := by
    rw [hmsgq, hepoch]
    intro it hit
    rcases List.mem_append.mp hit with hit | hit
    · exact hin it hit
    · simp [Item.late, (hl it hit).1]
  have hrfix : enterOwed t r tn = r := by
    rcases hdone with h | h
    · refine enterOwed_of_none fun x hx => ?_
      rw [← hr, entry?_messagesEntered_same, he] at hx
      cases hx
      exact h
    · exact enterOwed_of_full (by rw [hmsgq]; exact h)
  have hrlow : ∀ k x, k < tn → r.entry? t k = some x → x.owed = none := by
    intro k x hk hx
    rw [← hr, entry?_messagesEntered_other (by omega)] at hx
    exact hlow k x hk hx
  rw [slotCall, slotCall, slotExpiry_of_inTime hin, slotExpiry_of_inTime hrin, slotOwed_of_no_broadcast hb,
    slotOwed_of_no_broadcast hrb, enterAll_lowest (mem_allTns_of_entry he) hlow henter hrlow hrfix]

end

section
variable (hb : (s.tree t).msgq.broadcastStands = false) (he : s.entry? t tn = some e) (ho : e.owed = some o)
  (hnb : o.msg.isBroadcast = false)

/-- The item that an owed message becomes. -/
def owedItem (e : Entry) (o : OwedMsg) : Item := { msg := o.msg, issuer := o.issuer, inst := e.inst, deadline := none }

theorem owedEntered_eq : owedEntered t tn e o s = messagesEntered t tn (fun x => { x with owed := none }) [owedItem e o] s :=
  rfl

include he ho in
theorem enterOwed_plain (hl : (s.tree t).msgq.items.length < 32) (hm : (o.msg.isMuting && e.resend) = false) :
    enterOwed t s tn = messagesEntered t tn (fun x => { x with owed := none }) [owedItem e o] s := by
  rw [enterOwed_of_room he ho hl, hm, owedEntered_eq]
  rfl

include hb hnb in
theorem broadcastStands_owedEntered : ((owedEntered t tn e o s).tree t).msgq.broadcastStands = false := by
  obtain ⟨howed, hitems⟩ := Bool.or_eq_false_iff.mp hb
  rw [owedEntered_eq, MsgQueue.broadcastStands, msgq_messagesEntered]
  simp [howed, hitems, owedItem, hnb]

include hb he ho hnb

/-- With room for both, the DELAY of an entry marked for resend follows (R27). -/
theorem enterOwed_resent (hl : (s.tree t).msgq.items.length < 31) (hm : (o.msg.isMuting && e.resend) = true) :
    enterOwed t s tn =
      messagesEntered t tn (fun x => { x with owed := none, resend := false })
        [owedItem e o, { msg := .delay tn e.ld, issuer := .registry, inst := e.inst, deadline := none }] s := by
  have hown : (owedEntered t tn e o s).entry? t tn = some { e with owed := none } := by
    rw [owedEntered_eq, entry?_messagesEntered_same, he]
    rfl
  have hlen : ((owedEntered t tn e o s).tree t).msgq.items.length < 32 := by
    rw [owedEntered_eq, msgq_messagesEntered]
    simp
    omega
  rw [enterOwed_of_room he ho (by omega), hm, if_pos rfl,
    postMust_queued (broadcastStands_owedEntered hb hnb) hown rfl hlen, owedEntered_eq]
  refine (messagesEntered_messagesEntered _ _).trans (messagesEntered_congr he ?_)
  simp [Message.isDelay]

/-- Without room for it, the DELAY is owed (R27). -/
theorem enterOwed_owing (hl : (s.tree t).msgq.items.length = 31) (hm : (o.msg.isMuting && e.resend) = true) :
    enterOwed t s tn =
      messagesEntered t tn
        (fun x => { x with owed := some { msg := .delay tn e.ld, issuer := .registry }, resend := false })
        [owedItem e o] s := by
  have hown : (owedEntered t tn e o s).entry? t tn = some { e with owed := none } := by
    rw [owedEntered_eq, entry?_messagesEntered_same, he]
    rfl
  have hlen : 32 ≤ ((owedEntered t tn e o s).tree t).msgq.items.length := by
    rw [owedEntered_eq, msgq_messagesEntered]
    simp [hl]
  rw [enterOwed_of_room he ho (by omega), hm, if_pos rfl,
    postMust_owed (broadcastStands_owedEntered hb hnb) hown rfl hlen, owedEntered_eq]
  simp only [messagesEntered]
  rw [← withItems_modEntry, modEntry_modEntry]
  refine congrArg (fun x => State.withItems x t _) (modEntry_congr he ?_)
  simp [Message.isDelay]

end

end

end Sys2Proof.Machine
end

section
/-! PROOF. What a slot call hands over (O30): the notices to the posters leave the queue and what went down the slot, and so the
oldest items leave in order, up to four in an epoch (R14, R28). -/

namespace Sys2Proof.Machine

/-! ### What a notice leaves of the traffic -/

/-- From `s` to `s'` the downstream queue of tree `t`, what went down its slot and the epoch stand, no operation comes to
POSTED, and no entry comes to RETIRING. -/
structure TrafficKept (t : TreeId) (s s' : State) : Prop where
  msgq     : (s'.tree t).msgq = (s.tree t).msgq
  slots    : (s'.tree t).out.slots = (s.tree t).out.slots
  epoch    : s'.epoch = s.epoch
  posted   : (s'.tree t).opPosted = true → (s'.tree t).seq.op = (s.tree t).seq.op
  retiring : ∀ k e', s'.entry? t k = some e' → e'.state = .retiring →
    ∃ e, s.entry? t k = some e ∧ e.inst = e'.inst ∧ e.state = .retiring

section
variable {s s' s'' : State} {t : TreeId} {tn : Nat} {inst : BitVec 16} {cause : Cause}

@[refl] theorem TrafficKept.refl (s : State) : TrafficKept t s s :=
  ⟨rfl, rfl, rfl, fun _ => rfl, fun _ e he hr => ⟨e, he, rfl, hr⟩⟩

theorem opPosted_of_op {T U : Tree} (h : U.seq.op = T.seq.op) : U.opPosted = T.opPosted := by simp only [Tree.opPosted, h]

theorem TrafficKept.trans (h : TrafficKept t s s') (k : TrafficKept t s' s'') : TrafficKept t s s'' := by
  refine ⟨k.msgq.trans h.msgq, k.slots.trans h.slots, k.epoch.trans h.epoch, fun hp => ?_, fun n e he hr => ?_⟩
  · have hop := k.posted hp
    rw [opPosted_of_op hop] at hp
    exact hop.trans (h.posted hp)
  · obtain ⟨e', he', hi', hr'⟩ := k.retiring n e he hr
    obtain ⟨e'', he'', hi'', hr''⟩ := h.retiring n e' he' hr'
    exact ⟨e'', he'', hi''.trans hi', hr''⟩

/-- Calm work that posts nothing and no operation. -/
theorem TrafficKept.of_calm (hc : Calm s s') (hm : (s'.tree t).msgq = (s.tree t).msgq)
    (hp : (s'.tree t).opPosted = true → (s'.tree t).seq.op = (s.tree t).seq.op) : TrafficKept t s s' := by
  refine ⟨hm, (hc.trees t).slots, hc.epoch, hp, fun k e he hr => ?_⟩
  obtain ⟨y, hy, hid⟩ := identity_eq_of_map (hc.identity t k) he
  simp only [Entry.identity, Prod.mk.injEq] at hid
  exact ⟨y, hy, hid.1, hid.2.2.trans hr⟩

theorem trafficKept_modTree {g : Tree → Tree} (hm : (g (s.tree t)).msgq = (s.tree t).msgq)
    (ho : (g (s.tree t)).out = (s.tree t).out) (hq : (g (s.tree t)).seq = (s.tree t).seq)
    (hr : ∀ k e', (g (s.tree t)).entry? k = some e' → e'.state = .retiring →
      ∃ e, s.entry? t k = some e ∧ e.inst = e'.inst ∧ e.state = .retiring) : TrafficKept t s (s.modTree t g) := by
  refine ⟨?_, ?_, rfl, fun _ => ?_, fun k e he => hr k e ?_⟩
  · rw [tree_modTree_same, hm]
  · rw [tree_modTree_same, ho]
  · rw [tree_modTree_same, hq]
  · rwa [State.entry?, tree_modTree_same] at he

theorem trafficKept_modDisc (f : Discovery → Discovery) : TrafficKept t s (s.modDisc t f) :=
  trafficKept_modTree rfl rfl rfl fun _ e he hr => ⟨e, he, rfl, hr⟩

theorem trafficKept_modLight (f : LightMonitor → LightMonitor) : TrafficKept t s (s.modLight t f) :=
  trafficKept_modTree rfl rfl rfl fun _ e he hr => ⟨e, he, rfl, hr⟩

/-- An entry's update that brings it to RETIRING from there alone. -/
theorem trafficKept_modEntry {f : Entry → Entry}
    (h : ∀ e, (f e).state = .retiring → e.state = .retiring ∧ (f e).inst = e.inst) :
    TrafficKept t s (s.modEntry t tn f) := by
  refine trafficKept_modTree (by simp) (by simp) (by simp) fun k e he hr => ?_
  by_cases hk : k = tn
  · subst hk
    rw [entry?_modEntry_same, Option.map_eq_some_iff] at he
    obtain ⟨y, hy, rfl⟩ := he
    exact ⟨y, hy, ((h y hr).2).symm, (h y hr).1⟩
  · rw [entry?_modEntry_other _ _ _ _ hk] at he
    exact ⟨e, he, rfl, hr⟩

theorem slots_transit {f : Entry → Entry} : ((transit t tn cause f s).tree t).out.slots = (s.tree t).out.slots := by
  unfold transit
  split
  · rfl
  · next e _ =>
    cases e.operating <;> cases (f e).operating <;> simp [terminalOff, terminalOn, sendLink]

/-- A transition into another state than RETIRING. -/
theorem trafficKept_transit {f : Entry → Entry} (hf : ∀ e, (f e).state ≠ .retiring) :
    TrafficKept t s (transit t tn cause f s) := by
  cases he : s.entry? t tn with
  | none =>
    unfold transit
    rw [he]
  | some e =>
    have htr := transited_transit (cause := cause) (f := f) he
    refine ⟨htr.msgq t, slots_transit, by simp only [State.epoch, htr.timebase], fun _ => by rw [htr.seq],
      fun k y hy hr => ?_⟩
    by_cases hk : k = tn
    · subst hk
      rw [htr.self, he] at hy
      cases hy
      exact absurd hr (hf e)
    · rw [htr.other t k (.inr hk)] at hy
      exact ⟨y, hy, rfl, hr⟩

theorem op_judgeTask (k : Task) : ((judgeTask t k s).state.tree t).seq.op = (s.tree t).seq.op := by
  have hset : ∀ (x : State) (l : List Task), ((x.setTasks t l).tree t).seq.op = (x.tree t).seq.op := fun x l => by
    rw [State.setTasks, tree_modSeq_same]
  unfold judgeTask
  simp only
  split
  · rfl
  split
  · rfl
  split
  · split
    · exact hset _ _
    · rfl
  split
  · exact hset _ _
  split
  · split
    · rw [tree_modEntry_same, seq_modEntry]
    · rw [op_refill, hset]
  · rfl

theorem trafficKept_addTask (k : Task) : TrafficKept t s (addTask t k s).state :=
  .of_calm (calm_addTask k) (quiet_addTask k).posted.1 fun hp => (op_takeTasks_of_posted hp).trans (op_judgeTask k)

theorem trafficKept_beginAttempt {o : ProbeOp} (hp : o.phase.timed = false) :
    TrafficKept t s (beginAttempt t o s) := by
  refine .of_calm (calm_beginAttempt o) (quiet_beginAttempt o).posted.1 fun h => ?_
  obtain ⟨ph, w, hop, hph⟩ := op_beginAttempt (s := s) (t := t) o
  have hnot : ph.timed = false := by
    rcases hph with rfl | hph
    · exact hp
    · exact hph
  rw [opPosted_of_timed hop hnot] at h
  cases h

/-- Withdrawing an entry without a POSTED operation (R107, R142). -/
theorem trafficKept_withdrawn (h : (s.tree t).probePosted tn inst = false) : TrafficKept t s (withdrawn t tn inst s) := by
  have hquiet := quiet_withdrawn (s := s) (t := t) (tn := tn) (inst := inst)
  rw [probeGone_of_not_posted h] at hquiet
  exact .of_calm (calm_withdrawn _ _) hquiet.posted.1 op_withdrawn_of_posted

/-- An entry's slot emptied with its number kept, its report posted and its directory item removed (R51). -/
def slotFreed (t : TreeId) (tn : Nat) (cause : Cause) (e : Entry) (s : State) : State :=
  let s1 := s.report t (.terminal tn e.inst e.serial (some e.state.name) none cause)
  let s2 := s1.modTree t fun T => T.setSlot tn { inst := T.slotInst tn, entry := none }
  { s2 with directory := s2.directory.filter fun d => d.serial ≠ e.serial }

theorem freeEntry_eq {e : Entry} (he : s.entry? t tn = some e) :
    freeEntry t tn cause s = withdrawn t tn e.inst (slotFreed t tn cause e s) := by
  simp only [freeEntry, he]
  rfl

theorem slotFreed_tree (e : Entry) : (slotFreed t tn cause e s).tree t =
    (s.tree t).setSlot tn { inst := (s.tree t).slotInst tn, entry := none } := by
  have h := tree_modTree_same (s.report t (.terminal tn e.inst e.serial (some e.state.name) none cause)) t
    fun T => T.setSlot tn { inst := T.slotInst tn, entry := none }
  rw [tree_report] at h
  exact h

theorem epoch_slotFreed (e : Entry) : (slotFreed t tn cause e s).epoch = s.epoch := rfl

theorem entry?_setSlot_none {T : Tree} {k : Nat} {i : BitVec 16} (ht : (slotIndex tn).isSome = true) :
    (T.setSlot tn { inst := i, entry := none }).entry? k = if k = tn then none else T.entry? k := by
  split
  · next hk =>
    obtain ⟨x, hx⟩ := Option.isSome_iff_exists.mp ht
    rw [hk, entry?_setSlot_same _ _ _ hx]
  · next hk => exact entry?_setSlot_other _ _ _ _ hk

theorem slotIndex_of_entry {T : Tree} {e : Entry} (h : T.entry? tn = some e) : (slotIndex tn).isSome = true := by
  unfold Tree.entry? at h
  split at h
  · next hi => rw [hi]; rfl
  · cases h

/-- An entry without a POSTED operation is freed with nothing withdrawn from the queue (R51, R107). -/
theorem trafficKept_freeEntry (h : ∀ e, s.entry? t tn = some e → (s.tree t).probePosted tn e.inst = false) :
    TrafficKept t s (freeEntry t tn cause s) := by
  cases he : s.entry? t tn with
  | none =>
    simp only [freeEntry, he]
    exact TrafficKept.refl s
  | some e =>
    rw [freeEntry_eq he]
    have hr := slotFreed_tree (s := s) (t := t) (tn := tn) (cause := cause) e
    have hepoch := epoch_slotFreed (s := s) (t := t) (tn := tn) (cause := cause) e
    generalize slotFreed t tn cause e s = r at hr hepoch ⊢
    have hemptied : TrafficKept t s r := by
      refine ⟨by rw [hr]; simp, by rw [hr]; simp, hepoch, fun _ => by rw [hr]; simp, fun k y hy hst => ?_⟩
      rw [State.entry?, hr, entry?_setSlot_none (slotIndex_of_entry he)] at hy
      split at hy
      · cases hy
      · exact ⟨y, hy, rfl, hst⟩
    have hnot : (r.tree t).probePosted tn e.inst = false := by
      rw [probePosted_of_op (T := s.tree t) (by rw [hr]; simp), h e he]
    exact hemptied.trans (trafficKept_withdrawn hnot)

end

/-! ### The notices of a dispatch -/

/-- No operation is POSTED for an entry that is RETIRING. -/
def NoProbeRetiring (t : TreeId) (s : State) : Prop :=
  ∀ o pl qe qs g e, (s.tree t).seq.op = some o → o.phase = .posted pl qe qs g → s.entry? t o.tn = some e →
    e.inst = o.inst → e.state ≠ .retiring

section
variable {s s' : State} {t : TreeId} {tn d : Nat} {inst : BitVec 16}

theorem TrafficKept.noProbeRetiring (h : TrafficKept t s s') (hn : NoProbeRetiring t s) : NoProbeRetiring t s' := by
  intro o pl qe qs g e ho hp he hi hr
  rw [h.posted (opPosted_iff.mpr ⟨o, pl, qe, qs, g, ho, hp⟩)] at ho
  obtain ⟨y, hy, hyi, hyr⟩ := h.retiring _ e he hr
  exact hn o pl qe qs g y ho hp hy (hyi.trans hi) hyr

theorem trafficKept_assignSent : TrafficKept t s (assignSent t tn inst s) := by
  unfold assignSent
  split
  · refine TrafficKept.trans ?_ (trafficKept_addTask _)
    exact trafficKept_transit fun e => nofun
  · exact TrafficKept.refl s

theorem trafficKept_probeDispatched : TrafficKept t s (probeDispatched t tn inst s) := by
  unfold probeDispatched
  split
  · exact TrafficKept.refl s
  · split
    · split
      · refine .of_calm (calm_setOp _) (quiet_setOp _).posted.1 fun hp => ?_
        obtain ⟨o, pl, qe, qs, g, ho, hph⟩ := opPosted_iff.mp hp
        rw [State.setOp, tree_modSeq_same] at ho
        cases ho
        cases hph
      · exact TrafficKept.refl s
    all_goals exact TrafficKept.refl s

theorem trafficKept_delayDispatched : TrafficKept t s (delayDispatched t tn inst d s) := by
  unfold delayDispatched
  split
  · split
    · exact TrafficKept.refl s
    · split
      · next hph =>
        split
        · exact trafficKept_beginAttempt (by simp [hph, OpPhase.timed])
        · exact TrafficKept.refl s
      all_goals exact TrafficKept.refl s
  · exact TrafficKept.refl s

theorem trafficKept_nudgeDispatched : TrafficKept t s (nudgeDispatched t tn inst d s) := by
  unfold nudgeDispatched
  split
  · exact TrafficKept.refl s
  · split
    · refine trafficKept_modEntry fun e hr => ?_
      unfold Entry.modDrift at *
      split at hr
      · cases hr
      · exact ⟨hr, by simp_all⟩
    · exact TrafficKept.refl s

theorem trafficKept_huntMuteDispatched : TrafficKept t s (huntMuteDispatched t tn inst d s) := by
  unfold huntMuteDispatched
  split
  · split
    · exact trafficKept_modLight _
    · exact TrafficKept.refl s
  · exact TrafficKept.refl s

theorem trafficKept_huntClear : TrafficKept t s (huntClear t tn inst d s) := by
  unfold huntClear
  split
  · exact TrafficKept.refl s
  · split
    · exact trafficKept_transit fun e => nofun
    · exact TrafficKept.refl s

theorem trafficKept_inviteDispatched : TrafficKept t s (inviteDispatched t d s) := by
  unfold inviteDispatched
  split
  · exact trafficKept_modDisc _
  all_goals exact TrafficKept.refl s

theorem trafficKept_retireSent (hn : NoProbeRetiring t s) : TrafficKept t s (retireSent t tn inst s) := by
  unfold retireSent
  split
  · next h =>
    refine trafficKept_freeEntry fun e he => ?_
    have hr : e.state = .retiring := by
      simp only [he, Option.map_some, Option.getD_some, Entry.isIn, Bool.and_eq_true, beq_iff_eq] at h
      cases hst : e.state <;> simp_all [EntryState.name]
    by_contra hp
    obtain ⟨o, pl, qe, qs, g, ho, hph, htn, hi⟩ := probePosted_iff.mp (by simpa using hp)
    exact hn o pl qe qs g e ho hph (by rw [htn]; exact he) hi.symm hr
  · exact TrafficKept.refl s

/-- The notice of a message handed over, but for the broadcast RETIRE, leaves the traffic (R28). -/
theorem trafficKept_dispatchedNotice {it : Item} (hn : NoProbeRetiring t s) (hb : it.msg.isBroadcast = false) :
    TrafficKept t s (dispatchedNotice t it d s) := by
  unfold dispatchedNotice
  split
  · exact trafficKept_inviteDispatched
  · exact trafficKept_assignSent
  · exact trafficKept_probeDispatched
  · split
    · exact trafficKept_nudgeDispatched
    all_goals exact trafficKept_delayDispatched
  · exact trafficKept_nudgeDispatched
  · exact trafficKept_huntMuteDispatched
  · exact trafficKept_huntClear
  · exact trafficKept_retireSent hn
  · next hmsg => simp [hmsg, Message.isBroadcast] at hb

end

/-! ### The hand-over (R14, R28) -/

section
variable {s : State} {t : TreeId} {it : Item} {rest : List Item}

theorem handOver_tree : (handOver t it rest s).tree t =
    { s.tree t with
      msgq := { (s.tree t).msgq with items := rest, count := (s.tree t).msgq.count + 1 }
      out := { (s.tree t).out with slots := (s.tree t).out.slots ++ [(s.epoch, it.msg.encode)] } } := by
  rw [handOver, tree_modTree_same]

theorem noProbeRetiring_handOver (h : NoProbeRetiring t s) : NoProbeRetiring t (handOver t it rest s) := by
  unfold NoProbeRetiring State.entry? at *
  rw [handOver_tree]
  exact h

/-- Up to `n` items are handed over from the head in queue order, and the rest stay (R14, R28). -/
theorem dispatchLoop_hands (n : Nat) (hn : NoProbeRetiring t s)
    (hb : ∀ it ∈ (s.tree t).msgq.items, it.msg.isBroadcast = false) :
    ((dispatchLoop t n s).tree t).msgq =
        { (s.tree t).msgq with
          items := (s.tree t).msgq.items.drop n
          count := (s.tree t).msgq.count + min n (s.tree t).msgq.items.length } ∧
      ((dispatchLoop t n s).tree t).out.slots =
        (s.tree t).out.slots ++ ((s.tree t).msgq.items.take n).map fun it => (s.epoch, it.msg.encode) := by
  induction n generalizing s with
  | zero => simp [dispatchLoop]
  | succ n ih =>
    unfold dispatchLoop
    split
    · next hnil =>
      simp only [hnil, List.drop_nil, List.take_nil, List.map_nil, List.length_nil, Nat.min_zero, Nat.add_zero,
        List.append_nil, and_true]
      rw [← hnil]
    · next it rest hcons =>
      have hit : it.msg.isBroadcast = false := hb it (hcons ▸ List.mem_cons_self)
      have hkept := trafficKept_dispatchedNotice (d := s.epoch) (noProbeRetiring_handOver (it := it) (rest := rest) hn) hit
      have hn' := hkept.noProbeRetiring (noProbeRetiring_handOver hn)
      have hepoch : (handOver t it rest s).epoch = s.epoch := rfl
      have hmsgq := hkept.msgq
      have hslots := hkept.slots
      rw [handOver_tree] at hmsgq hslots
      obtain ⟨ihmsgq, ihslots⟩ := ih hn' (by
        rw [hmsgq]
        exact fun x hx => hb x (hcons ▸ List.mem_cons_of_mem _ hx))
      rw [ihmsgq, ihslots, hmsgq, hslots, hkept.epoch, hepoch, hcons]
      refine ⟨?_, by simp⟩
      simp only [List.drop_succ_cons, List.length_cons]
      congr 1
      omega

/-- The dispatch count, 0 in a new epoch (R28). -/
theorem freshCount_tree : (freshCount t s).tree t =
    { s.tree t with
      msgq := { (s.tree t).msgq with
        count := if (s.tree t).msgq.countEpoch = s.epoch then (s.tree t).msgq.count else 0
        countEpoch := s.epoch } } := by
  unfold freshCount
  split
  · next h => rw [← h]
  · rw [tree_modMsgq_same]

theorem noProbeRetiring_freshCount (h : NoProbeRetiring t s) : NoProbeRetiring t (freshCount t s) := by
  unfold NoProbeRetiring State.entry? at *
  rw [freshCount_tree]
  exact h

theorem epoch_freshCount : (freshCount t s).epoch = s.epoch := by
  unfold freshCount
  split
  · rfl
  · rfl

/-- With nothing late and nothing that enters, a slot call hands over what the epoch has room for (R28). -/
theorem slotCall_hands {room : Nat} (hin : ∀ it ∈ (s.tree t).msgq.items, it.late s.epoch = false)
    (howed : (∀ tn e, s.entry? t tn = some e → e.owed = none) ∨ 32 ≤ (s.tree t).msgq.items.length)
    (hb : (s.tree t).msgq.broadcastStands = false) (hn : NoProbeRetiring t s)
    (hroom : room = 4 - (if (s.tree t).msgq.countEpoch = s.epoch then (s.tree t).msgq.count else 0)) :
    ((slotCall t s).tree t).msgq =
        { (s.tree t).msgq with
          items := (s.tree t).msgq.items.drop room
          count := (if (s.tree t).msgq.countEpoch = s.epoch then (s.tree t).msgq.count else 0) +
            min room (s.tree t).msgq.items.length
          countEpoch := s.epoch } ∧
      ((slotCall t s).tree t).out.slots =
        (s.tree t).out.slots ++ ((s.tree t).msgq.items.take room).map fun it => (s.epoch, it.msg.encode) := by
  have hitems : ∀ it ∈ (s.tree t).msgq.items, it.msg.isBroadcast = false := by
    obtain ⟨-, hany⟩ := Bool.or_eq_false_iff.mp hb
    exact fun it hit => by simpa using List.any_eq_false.mp hany it hit
  have hcall : slotCall t s = dispatchLoop t room (freshCount t s) := by
    rw [slotCall, slotExpiry_of_inTime hin, slotOwed_of_nothing howed hb, slotDispatch, freshCount_tree, hroom]
  obtain ⟨hmsgq, hslots⟩ := dispatchLoop_hands (s := freshCount t s) (t := t) room (noProbeRetiring_freshCount hn)
    (by rw [freshCount_tree]; exact hitems)
  rw [hcall, hmsgq, hslots, freshCount_tree, epoch_freshCount]
  exact ⟨rfl, rfl⟩

end

/-- Settles O30: expiry, owed entry, dispatch and the table of R27, one by one. -/
theorem slotCallsHandOver : Obligations.SlotCallsHandOver := by
  intro s t hs
  refine ⟨fun before it after hitems hbefore hit => ⟨?_, ?_, ?_⟩, fun hin howed hl => ?_,
    fun tn e o hin hb he ho hnb hlow hl => ⟨fun hm => ?_, fun hm hl' => ?_, fun hm hl' => ?_⟩,
    fun room hin howed hb hn hroom => ?_, fun tn m poster e he => ⟨fun hb => ?_, fun hb ho hl => ?_, fun hb ho hl => ?_,
      fun o hb ho => ⟨fun hr => ?_, fun hd hm => ?_, fun hd hm => ?_, fun hr hd => ?_⟩⟩⟩
  · intro number span gw w n qs gw' hmsg hd
    have hcall := slotCall_of_expiry (slotExpiry_window hitems hbefore hit hmsg hd)
    exact exec_slotCall_congr hcall (resetPin_windowAsksAgain w) hs
  · intro k g o pl qe qs g' hmsg ho hp hk hi
    have hcall := slotCall_of_expiry (slotExpiry_probe hitems hbefore hit hmsg ho hp hk hi)
    exact exec_slotCall_congr hcall (resetPin_probeAsksAgain o pl) hs
  · intro hw hp
    exact exec_slotCall_congr (slotCall_of_expiry (slotExpiry_unheard hitems hbefore hit hw hp)) rfl hs
  · exact exec_slotCall_congr (slotCall_broadcastEntered hin howed hl) resetPin_broadcastEntered hs
  · exact exec_slotCall_congr (slotCall_messagesEntered hin hb he hlow (enterOwed_plain he ho hl hm)
      (by simp [hnb]) (.inl rfl)) resetPin_messagesEntered hs
  · exact exec_slotCall_congr (slotCall_messagesEntered hin hb he hlow (enterOwed_resent hb he ho hnb hl' hm)
      (by simp [hnb, show (Message.delay tn e.ld).isBroadcast = false from rfl]) (.inl rfl)) resetPin_messagesEntered hs
  · exact exec_slotCall_congr (slotCall_messagesEntered hin hb he hlow (enterOwed_owing hb he ho hnb hl' hm)
      (by simp [hnb]) (.inr (by simp [hl']))) resetPin_messagesEntered hs
  · obtain ⟨hmsgq, hslots⟩ := slotCall_hands hin howed hb hn hroom
    have hothers := (slotCall_keeps (P := (· = t)) (s := s) rfl).1.others
    have hexec : exec (.slotCall t) s = s.take (slotCall t) := rfl
    rw [hexec, take_of_taking hs]
    generalize slotCall t s = r at *
    refine ⟨_, rfl, ?_⟩
    rw [tree_settle, hmsgq, hslots]
    exact ⟨rfl, rfl, rfl, rfl, hothers⟩
  · exact postMust_broadcast hb
  · exact postMust_queued hb he ho hl
  · exact postMust_owed hb he ho hl
  · rw [postMust_merge hb he ho, mergeOwed_retire hr]
  · rw [postMust_merge hb he ho, mergeOwed_nudge hd hm, nudge_not_delay hm]
    simp
  · rw [postMust_merge hb he ho, mergeOwed_muting hd hm]
  · rw [postMust_merge hb he ho, mergeOwed_other hr hd]

end Sys2Proof.Machine
end

section
/-! PROOF. The hand-over of the broadcast RETIRE (O32): every entry of the closing tree is freed, and the tree is CLOSED (R30,
R59, R161, R183). -/

namespace Sys2Proof.Machine

/-! ### Freeing every entry (R51, R59) -/

/-- From `s` to `s'` tree `t` keeps its controller, its light condition, its slots' numbers, what went down its slot, the
numbers of its channels, and every slot that is FREE. -/
structure FreesOnly (t : TreeId) (s s' : State) : Prop where
  ctl     : (s'.tree t).ctl = (s.tree t).ctl
  insts   : ∀ k, (s'.tree t).slotInst k = (s.tree t).slotInst k
  slots   : (s'.tree t).out.slots = (s.tree t).out.slots
  numbers : ∀ tag, (s'.chan t tag).number = (s.chan t tag).number
  free    : ∀ k, s.entry? t k = none → s'.entry? t k = none

section
variable {s s' s'' : State} {t : TreeId} {tn : Nat} {inst : BitVec 16} {cause : Cause}

@[refl] theorem FreesOnly.refl (s : State) : FreesOnly t s s := ⟨rfl, fun _ => rfl, rfl, fun _ => rfl, fun _ h => h⟩

theorem FreesOnly.trans (h : FreesOnly t s s') (k : FreesOnly t s' s'') : FreesOnly t s s'' :=
  ⟨k.ctl.trans h.ctl, fun n => (k.insts n).trans (h.insts n), k.slots.trans h.slots,
    fun tag => (k.numbers tag).trans (h.numbers tag), fun n hn => k.free n (h.free n hn)⟩

/-- Calm work that keeps the channels' numbers. -/
theorem FreesOnly.of_calm (hc : Calm s s') (hn : ∀ tag, (s'.chan t tag).number = (s.chan t tag).number) :
    FreesOnly t s s' := by
  have htree := hc.trees t
  refine ⟨htree.ctl, htree.insts, htree.slots, hn, fun k hk => ?_⟩
  have hsome := hc.isSome t k
  rw [hk] at hsome
  simpa using hsome

theorem chan_modTree {f : Tree → Tree} (h : ∀ tag, (f (s.tree t)).chan tag = (s.tree t).chan tag) (tag : Tag) :
    (s.modTree t f).chan t tag = s.chan t tag := by rw [State.chan, tree_modTree_same, h, State.chan]

theorem number_setChan {tag : Tag} {c : Channel} (h : c.number = (s.chan t tag).number) (tag' : Tag) :
    ((s.setChan t tag c).chan t tag').number = (s.chan t tag').number := by
  rw [State.chan, tree_setChan_same]
  by_cases ht : tag' = tag
  · subst ht
    rw [chan_setChan_same, h]
  · rw [chan_setChan_other _ _ _ _ ht]
    rfl

theorem chan_setSlot {T : Tree} {sl : Slot} (tag : Tag) : (T.setSlot tn sl).chan tag = T.chan tag := by
  unfold Tree.setSlot
  split
  · cases tag <;> rfl
  · rfl

theorem chan_setTasks (l : List Task) (tag : Tag) : (s.setTasks t l).chan t tag = s.chan t tag := by
  unfold State.setTasks State.modSeq
  exact chan_modTree (fun _ => rfl) tag

theorem chan_setOp (o : Option ProbeOp) (tag : Tag) : (s.setOp t o).chan t tag = s.chan t tag := by
  unfold State.setOp State.modSeq
  exact chan_modTree (fun _ => rfl) tag

theorem State.chan_modEntry (f : Entry → Entry) (tag : Tag) : (s.modEntry t tn f).chan t tag = s.chan t tag := by
  unfold State.modEntry
  exact chan_modTree (f := fun T => T.modEntry tn f) (fun tag => by rw [Machine.chan_modEntry]) tag

theorem chan_withdrawItems (by_ : Issuer) (tag : Tag) : (withdrawItems t by_ s).chan t tag = s.chan t tag := by
  unfold withdrawItems State.modMsgq
  exact chan_modTree (fun _ => rfl) tag

theorem number_chanWithdraw (tag tag' : Tag) : ((chanWithdraw t tag s).chan t tag').number = (s.chan t tag').number := by
  unfold chanWithdraw
  refine number_setChan ?_ tag'
  rfl

theorem number_chanRelease (tag tag' : Tag) : ((chanRelease t tag s).chan t tag').number = (s.chan t tag').number := by
  unfold chanRelease
  split
  · have hsend : ∀ (x : State) (m : GrantMsg), (sendLink t m x).chan t tag' = x.chan t tag' := fun x m => by
      unfold sendLink State.modOut
      exact chan_modTree (fun _ => rfl) tag'
    rw [hsend]
    refine number_setChan ?_ tag'
    rfl
  all_goals rfl

theorem number_giveUpProbe (o : ProbeOp) (tag : Tag) : ((giveUpProbe t o s).chan t tag).number = (s.chan t tag).number := by
  unfold giveUpProbe
  split
  · rfl
  · rfl
  · exact number_chanWithdraw _ _
  · rw [number_chanRelease, chan_withdrawItems]
  · rw [State.chan, raiseSeqStale_tree]
    rfl

theorem number_abandonOp (tag : Tag) : ((abandonOp t s).chan t tag).number = (s.chan t tag).number := by
  have hdiscard : ∀ x : State, (discardOp t x).chan t tag = x.chan t tag := fun x => by
    unfold discardOp
    split
    · rfl
    · rw [chan_setOp, State.chan_modEntry]
  unfold abandonOp
  split
  · rfl
  · rw [hdiscard, number_giveUpProbe]

theorem chan_refill (tag : Tag) : (refill t s).chan t tag = s.chan t tag := by
  have hone : ∀ (x : State) (k : Nat), (refillOne t x k).chan t tag = x.chan t tag := by
    intro x k
    unfold refillOne
    split
    · split
      · rw [chan_setTasks, State.chan_modEntry]
      · rfl
    · rfl
  unfold refill
  generalize (s.tree t).tnsWith _ = l
  induction l generalizing s with
  | nil => rfl
  | cons k l ih => exact ih.trans (hone s k)

theorem number_workDropped (tag : Tag) : ((workDropped t tn inst s).chan t tag).number = (s.chan t tag).number := by
  unfold workDropped
  simp only
  split
  · split
    · rw [number_abandonOp, chan_setTasks]
    · rw [chan_setTasks]
  · rw [chan_setTasks]

/-- A tree that is not ACTIVE takes no task (R143). -/
theorem gateOpen_of_closing {T : Tree} (h : T.ctl.state = .closing) : T.gateOpen = false := by
  simp [Tree.gateOpen, Tree.isActive, h]

/-- Withdrawing an entry of a closing tree asks for no interval (R142). -/
theorem freesOnly_withdrawn (h : (s.tree t).ctl.state = .closing) : FreesOnly t s (withdrawn t tn inst s) := by
  refine .of_calm (calm_withdrawn _ _) fun tag => ?_
  have hdropped : Calm s (workDropped t tn inst s) := by
    by_cases hn : ∀ o, (s.tree t).seq.op = some o → ¬(o.tn = tn ∧ o.inst = inst)
    · rw [workDropped_of_other hn]
      exact calm_setTasks _
    · push Not at hn
      obtain ⟨o, ho, hn⟩ := hn
      rw [workDropped_of_named ho hn]
      exact (calm_setTasks _).trans calm_abandonOp
  have hctl : ((refill t (workDropped t tn inst s)).tree t).ctl.state = .closing := by
    rw [((hdropped.trans calm_refill).trees t).ctl, h]
  rw [withdrawn_eq, takeTasks_of_not_mayTake (mayTake_of_busy (.inl (gateOpen_of_closing hctl))), chan_refill,
    number_workDropped]

theorem freesOnly_freeEntry (h : (s.tree t).ctl.state = .closing) : FreesOnly t s (freeEntry t tn cause s) := by
  cases he : s.entry? t tn with
  | none =>
    simp only [freeEntry, he]
    exact FreesOnly.refl s
  | some e =>
    have hfrees := freeEntry_frees (cause := cause) he
    have htree := slotFreed_tree (s := s) (t := t) (tn := tn) (cause := cause) e
    rw [freeEntry_eq he] at hfrees ⊢
    obtain ⟨hnone, -, hinsts, -⟩ := hfrees
    generalize slotFreed t tn cause e s = r at htree hnone hinsts ⊢
    have hwith := freesOnly_withdrawn (s := r) (t := t) (tn := tn) (inst := e.inst) (by rw [htree, ctl_setSlot, h])
    refine ⟨?_, hinsts t, ?_, fun tag => ?_, fun k hk => hwith.free k ?_⟩
    · rw [hwith.ctl, htree]
      simp
    · rw [hwith.slots, htree]
      simp
    · rw [hwith.numbers, State.chan, htree, chan_setSlot, State.chan]
    · rw [State.entry?, htree, entry?_setSlot_none (slotIndex_of_entry he)]
      split
      · rfl
      · exact hk

theorem freesOnly_foldl (l : List Nat) (h : (s.tree t).ctl.state = .closing) :
    FreesOnly t s (l.foldl (fun s tn => freeEntry t tn cause s) s) ∧
      ∀ k ∈ l, (l.foldl (fun s tn => freeEntry t tn cause s) s).entry? t k = none := by
  induction l generalizing s with
  | nil => exact ⟨FreesOnly.refl s, fun k hk => absurd hk List.not_mem_nil⟩
  | cons a l ih =>
    have hone := freesOnly_freeEntry (tn := a) (cause := cause) h
    obtain ⟨hrest, hnone⟩ := ih (s := freeEntry t a cause s) (by rw [hone.ctl, h])
    refine ⟨hone.trans hrest, fun k hk => ?_⟩
    rcases List.mem_cons.mp hk with rfl | hk
    · refine hrest.free k ?_
      cases he : s.entry? t k with
      | none => rwa [freeEntry, he]
      | some e => exact (freeEntry_frees he).1
    · exact hnone k hk

/-- Every entry of a closing tree is freed (R59). -/
theorem freeAll_frees (h : (s.tree t).ctl.state = .closing) :
    FreesOnly t s (freeAll t s) ∧ ∀ k, (freeAll t s).entry? t k = none := by
  obtain ⟨hfrees, hnone⟩ := freesOnly_foldl (cause := .closed) allTns h
  refine ⟨hfrees, fun k => ?_⟩
  by_cases hk : k ∈ allTns
  · exact hnone k hk
  · refine hfrees.free k ?_
    cases he : s.entry? t k with
    | none => rfl
    | some e => exact absurd (mem_allTns_of_entry he) hk

end

/-! ### The close completes (R30, R183) -/

/-- What the completed close of tree `t` leaves of it. -/
structure CloseCompleted (t : TreeId) (s s' : State) : Prop where
  ctl     : (s'.tree t).ctl = { (s.tree t).ctl with state := .closed, suspended := false }
  entries : ∀ k, s'.entry? t k = none ∧ (s'.tree t).slotInst k = (s.tree t).slotInst k
  onAir   : (s'.tree t).onAir = []
  msgq    : (s'.tree t).msgq.items = [] ∧ (s'.tree t).msgq.owedBroadcast = false ∧ (s'.tree t).msgq.count = 0
  chans   : ∀ tag, (s'.tree t).chan tag = { phase := .idle, number := (s.chan t tag).number }
  slots   : (s'.tree t).out.slots = (s.tree t).out.slots

section
variable {s : State} {t : TreeId}

theorem completeClose_completed (h : (s.tree t).ctl.state = .closing) : CloseCompleted t s (completeClose t s) := by
  obtain ⟨hfrees, hnone⟩ := freeAll_frees h
  have htree : (completeClose t s).tree t =
      { (freeAll t s).tree t with
        ctl := { ((freeAll t s).tree t).ctl with state := .closed, suspended := false }
        onAir := []
        msgq := { ((freeAll t s).tree t).msgq with items := [], owedBroadcast := false, count := 0 }
        chanWindow := { ((freeAll t s).tree t).chanWindow with phase := .idle }
        chanProbe := { ((freeAll t s).tree t).chanProbe with phase := .idle }
        chanSilence := { ((freeAll t s).tree t).chanSilence with phase := .idle }
        out := { ((freeAll t s).tree t).out with grant := ((freeAll t s).tree t).out.grant ++ [.allOff] } } := by
    rw [completeClose, treeReport, tree_report, tree_modCtl_same, tree_modMsgq_same, allOff, sendLink, tree_modOut_same,
      tree_modTree_same]
  generalize freeAll t s = r at hfrees hnone htree
  refine ⟨?_, fun k => ⟨?_, ?_⟩, ?_, ?_, fun tag => ?_, ?_⟩
  · rw [htree, ← hfrees.ctl]
  · rw [State.entry?, htree]
    exact hnone k
  · rw [htree]
    exact hfrees.insts k
  · rw [htree]
  · rw [htree]
    exact ⟨rfl, rfl, rfl⟩
  · rw [htree, ← hfrees.numbers tag]
    cases tag <;> rfl
  · rw [htree, ← hfrees.slots]

theorem dispatchLoop_of_empty (n : Nat) (h : (s.tree t).msgq.items = []) : dispatchLoop t n s = s := by
  cases n with
  | zero => rfl
  | succ n => simp only [dispatchLoop, h]

/-- With the broadcast RETIRE at the queue's head and room in the epoch, it is handed over alone and completes the close. -/
theorem slotCall_completes {rest : List Item} (hst : (s.tree t).ctl.state = .closing)
    (hitems : (s.tree t).msgq.items = broadcastItem :: rest) (hlate : ∀ it ∈ rest, it.late s.epoch = false)
    (hroom : (s.tree t).msgq.countEpoch ≠ s.epoch ∨ (s.tree t).msgq.count < 4) :
    ∃ r, slotCall t s = completeClose t r ∧ (r.tree t).ctl = (s.tree t).ctl ∧ (r.tree t).slots = (s.tree t).slots ∧
      (∀ tag, r.chan t tag = s.chan t tag) ∧
      (r.tree t).out.slots = (s.tree t).out.slots ++ [(s.epoch, [0x48, 0xFF])] := by
  have hin : ∀ it ∈ (s.tree t).msgq.items, it.late s.epoch = false := by
    rw [hitems]
    intro it hit
    rcases List.mem_cons.mp hit with rfl | hit
    · rfl
    · exact hlate it hit
  have hany : (s.tree t).msgq.items.any (·.msg.isBroadcast) = true := by
    rw [hitems]
    rfl
  have hentered : ∃ q rest', (enterBroadcast t s).tree t = { s.tree t with msgq := q } ∧
      q.items = broadcastItem :: rest' ∧ q.count = (s.tree t).msgq.count ∧ q.countEpoch = (s.tree t).msgq.countEpoch := by
    unfold enterBroadcast
    split
    · exact ⟨_, rest ++ [broadcastItem], tree_modMsgq_same .., by simp [hitems], rfl, rfl⟩
    · exact ⟨_, rest, rfl, hitems, rfl, rfl⟩
  obtain ⟨q, rest', hqtree, hqitems, hqcount, hqepoch⟩ := hentered
  have hepoch : (enterBroadcast t s).epoch = s.epoch := by
    unfold enterBroadcast
    split
    · rfl
    · rfl
  have hcall : slotCall t s = slotDispatch t (enterBroadcast t s) := by
    rw [slotCall, slotExpiry_of_inTime hin, slotOwed_of_broadcast hany]
  rw [hcall, slotDispatch]
  generalize enterBroadcast t s = x at hqtree hepoch ⊢
  have hfresh := freshCount_tree (s := x) (t := t)
  have hfepoch := epoch_freshCount (s := x) (t := t)
  rw [hqtree, hepoch] at hfresh
  rw [hepoch] at hfepoch
  generalize freshCount t x = f at hfresh hfepoch ⊢
  have hfitems : (f.tree t).msgq.items = broadcastItem :: rest' := by rw [hfresh]; exact hqitems
  have hcount : (f.tree t).msgq.count < 4 := by
    rw [hfresh]
    simp only [hqcount, hqepoch]
    split
    · next h => exact hroom.resolve_left (not_not.mpr h)
    · omega
  obtain ⟨m, hm⟩ : ∃ m, Config.dispatchLimit - (f.tree t).msgq.count = m + 1 :=
    ⟨3 - (f.tree t).msgq.count, by simp only [Config.dispatchLimit]; omega⟩
  have hhanded := handOver_tree (s := f) (t := t) (it := broadcastItem) (rest := rest')
  have hctl : ((handOver t broadcastItem rest' f).tree t).ctl = (s.tree t).ctl := by rw [hhanded, hfresh]
  refine ⟨handOver t broadcastItem rest' f, ?_, hctl, by rw [hhanded, hfresh], fun tag => ?_, ?_⟩
  · have hdone := completeClose_completed (s := handOver t broadcastItem rest' f) (t := t) (by rw [hctl, hst])
    have hnotice : ∀ (d : Nat) (y : State), dispatchedNotice t broadcastItem d y = completeClose t y := fun _ _ => rfl
    rw [hm]
    simp only [dispatchLoop, hfitems, hnotice]
    exact dispatchLoop_of_empty m hdone.msgq.1
  · rw [State.chan, hhanded, hfresh]
    cases tag <;> rfl
  · rw [hhanded, hfresh, hfepoch]
    rfl

end

/-- Settles O32: the broadcast RETIRE goes down the slot, every entry is freed, and the tree is CLOSED. -/
theorem closeCompletes : Obligations.CloseCompletes := by
  intro s t rest hs hst hitems hlate hroom
  obtain ⟨r, hcall, hctl, hslots, hchans, hout⟩ := slotCall_completes hst hitems hlate hroom
  have hothers := (slotCall_keeps (P := (· = t)) (s := s) rfl).1.others
  obtain ⟨hdctl, hdentries, hdair, hdmsgq, hdchans, hdslots⟩ := completeClose_completed (s := r) (t := t) (by rw [hctl, hst])
  have hexec : exec (.slotCall t) s = s.take (slotCall t) := rfl
  rw [hexec, take_of_taking hs]
  rw [hcall] at hothers ⊢
  generalize completeClose t r = y at *
  refine ⟨_, rfl, ?_⟩
  rw [tree_settle, hdctl, hdair, hdslots, hctl]
  refine ⟨rfl, fun tn => ⟨(hdentries tn).1, ?_⟩, rfl, hdmsgq, fun tag => ?_, ⟨_, hout⟩, hothers⟩
  · rw [(hdentries tn).2]
    simp only [Tree.slotInst, hslots]
  · rw [hdchans, hchans]

end Sys2Proof.Machine
end

section
/-! PROOF. The laws of the terminal tables and of the serial directory (Laws 1, 3, 7 and 9) through the work of every block:
`TableKept` says that an operation keeps them, and the few operations that touch what they read are told apart from the many
that do not. -/

namespace Sys2Proof.Machine

/-! ### What the laws read of a tree -/

/-- What the laws of the tables read of an entry: its serial, its launch delay and, in OPERATING, its sample count. -/
def Entry.roll (e : Entry) : Serial × Nat × Option Nat := (e.serial, e.ld, e.drift?.map (·.n))

/-- Laws 7 and 9 of one entry under a parameter set: its launch delay and its sample count lie in range (R100, R126). -/
def Entry.InBounds (pr : Params) (e : Entry) : Prop := e.ld ≤ pr.art ∧ ∀ d, e.drift? = some d → d.n < 2 ^ pr.k

/-- Two trees that the laws of the tables read alike. -/
structure SameTable (T U : Tree) : Prop where
  params    : U.ctl.params = T.ctl.params
  entries   : ∀ tn, (U.entry? tn).map Entry.roll = (T.entry? tn).map Entry.roll
  onAir     : U.onAir = T.onAir
  announced : announced U.out.grant = announced T.out.grant

section
variable {T U : Tree} {tn : Nat} {e e' : Entry} {d : Drift} {pr : Params}

theorem drift?_eq_some : e.drift? = some d ↔ e.state = .operating d := by
  cases h : e.state <;> simp [Entry.drift?, h]

theorem operating_eq_isSome : e.operating = e.drift?.isSome := by
  cases h : e.state <;> simp [Entry.operating, Entry.drift?, h]

/-- Entries that read alike are in OPERATING alike. -/
theorem operating_of_roll (h : e'.roll = e.roll) : e'.operating = e.operating := by
  simp only [Entry.roll, Prod.mk.injEq] at h
  rw [operating_eq_isSome, operating_eq_isSome, ← Option.isSome_map (f := Drift.n), h.2.2, Option.isSome_map]

theorem inBounds_of_roll (h : e'.roll = e.roll) (hb : e.InBounds pr) : e'.InBounds pr := by
  simp only [Entry.roll, Prod.mk.injEq] at h
  obtain ⟨-, hld, hn⟩ := h
  refine ⟨hld ▸ hb.1, fun d hd => ?_⟩
  rw [hd, Option.map_some] at hn
  obtain ⟨x, hx, hxn⟩ := Option.map_eq_some_iff.1 hn.symm
  exact hxn ▸ hb.2 x hx

/-- Laws 1, 7 and 9 of a tree, entry by entry. -/
theorem entriesLawful_iff :
    T.EntriesLawful ↔
      T.onAir = announced T.out.grant ∧ T.onAir.Pairwise (· < ·) ∧
        (∀ tn, tn ∈ T.onAir ↔ ∃ e, T.entry? tn = some e ∧ e.operating = true) ∧
        ∀ tn e, T.entry? tn = some e → e.InBounds T.ctl.params := by
  constructor
  · rintro ⟨hnotices, hordered, hair, hdelay, hsamples⟩
    exact ⟨hnotices, hordered, hair, fun tn e he => ⟨hdelay tn e he, fun d hd => hsamples tn e d he (drift?_eq_some.1 hd)⟩⟩
  · rintro ⟨hnotices, hordered, hair, hbounds⟩
    exact ⟨hnotices, hordered, hair, fun tn e he => (hbounds tn e he).1,
      fun tn e d he hd => (hbounds tn e he).2 d (drift?_eq_some.2 hd)⟩

@[refl] theorem SameTable.refl (T : Tree) : SameTable T T := ⟨rfl, fun _ => rfl, rfl, rfl⟩

/-- An entry of one of two trees that read alike has its like in the other. -/
theorem SameTable.entry (h : SameTable T U) (he : U.entry? tn = some e') :
    ∃ e, T.entry? tn = some e ∧ e'.roll = e.roll := by
  have hroll := h.entries tn
  rw [he, Option.map_some] at hroll
  obtain ⟨e, he, hr⟩ := Option.map_eq_some_iff.1 hroll.symm
  exact ⟨e, he, hr.symm⟩

theorem SameTable.symm (h : SameTable T U) : SameTable U T :=
  ⟨h.params.symm, fun tn => (h.entries tn).symm, h.onAir.symm, h.announced.symm⟩

theorem SameTable.lawful (h : SameTable T U) (hT : T.EntriesLawful) : U.EntriesLawful := by
  rw [entriesLawful_iff] at hT ⊢
  obtain ⟨hnotices, hordered, hair, hbounds⟩ := hT
  refine ⟨by rw [h.onAir, h.announced, hnotices], h.onAir ▸ hordered, fun tn => ?_, fun tn e' he' => ?_⟩
  · rw [h.onAir, hair]
    constructor
    · rintro ⟨e, he, ho⟩
      obtain ⟨e', he', hr⟩ := h.symm.entry he
      exact ⟨e', he', (operating_of_roll hr).symm.trans ho⟩
    · rintro ⟨e', he', ho⟩
      obtain ⟨e, he, hr⟩ := h.entry he'
      exact ⟨e, he, (operating_of_roll hr).symm.trans ho⟩
  · obtain ⟨e, he, hr⟩ := h.entry he'
    rw [h.params]
    exact inBounds_of_roll hr (hbounds tn e he)

end

/-! ### What every operation keeps -/

/-- From one state to another the parameter sets stay, and Laws 1, 7 and 9 of every tree and Law 3 are kept. -/
structure TableKept (s s' : State) : Prop where
  params    : ∀ j, s'.params j = s.params j
  entries   : ∀ j, (s.tree j).EntriesLawful → (s'.tree j).EntriesLawful
  directory : s.DirectoryLawful → s'.DirectoryLawful

section
variable {s s' s'' : State} {t : TreeId} {tn : Nat} {e : Entry} {f : Entry → Entry} {cause : Cause}

@[refl] theorem TableKept.refl (s : State) : TableKept s s := ⟨fun _ => rfl, fun _ => id, id⟩

theorem TableKept.trans (h : TableKept s s') (k : TableKept s' s'') : TableKept s s'' :=
  ⟨fun j => (k.params j).trans (h.params j), fun j => k.entries j ∘ h.entries j, k.directory ∘ h.directory⟩

theorem TableKept.foldl {α : Type} (f : State → α → State) (h : ∀ s a, TableKept s (f s a)) (l : List α) :
    ∀ s, TableKept s (l.foldl f s) := by
  induction l with
  | nil => exact fun s => TableKept.refl s
  | cons a l ih => exact fun s => (h s a).trans (ih _)

/-- Law 3 reads the directory and the serials of the entries alone. -/
theorem directoryLawful_of_serials (hd : s'.directory = s.directory)
    (hs : ∀ j k, (s'.entry? j k).map Entry.serial = (s.entry? j k).map Entry.serial) (h : s.DirectoryLawful) :
    s'.DirectoryLawful := by
  obtain ⟨honce, hsound, hwhole⟩ := h
  refine ⟨hd ▸ honce, fun d hmem => ?_, fun j k e' he' => ?_⟩
  · obtain ⟨e, he, hserial⟩ := hsound d (hd ▸ hmem)
    have hm := hs d.tree d.tn
    rw [he, Option.map_some] at hm
    obtain ⟨e', he', hr⟩ := Option.map_eq_some_iff.1 hm
    exact ⟨e', he', hr.trans hserial⟩
  · have hm := hs j k
    rw [he', Option.map_some] at hm
    obtain ⟨e, he, hr⟩ := Option.map_eq_some_iff.1 hm.symm
    rw [hd, ← hr]
    exact hwhole j k e he

/-- An operation that leaves what the laws read of each tree, and the directory. -/
theorem TableKept.of_same (h : ∀ j, SameTable (s.tree j) (s'.tree j)) (hd : s'.directory = s.directory) :
    TableKept s s' := by
  refine ⟨fun j => (h j).params, fun j => (h j).lawful, directoryLawful_of_serials hd fun j k => ?_⟩
  have hroll := congrArg (Option.map Prod.fst) ((h j).entries k)
  rwa [Option.map_map, Option.map_map] at hroll

theorem tableKept_modTree (f : Tree → Tree) (h : SameTable (s.tree t) (f (s.tree t))) : TableKept s (s.modTree t f) := by
  refine .of_same (fun j => ?_) rfl
  rw [tree_modTree]
  split
  · next hj => exact hj ▸ h
  · exact SameTable.refl _

theorem tableKept_deliver (p : Poster) (b : ReportBody) : TableKept s (s.deliver p b) :=
  .of_same (fun _ => SameTable.refl _) rfl

theorem tableKept_report (b : ReportBody) : TableKept s (s.report t b) := tableKept_deliver _ b

theorem tableKept_freeIndex (n : Nat) : TableKept s { s with freeIndex := n } := .of_same (fun _ => SameTable.refl _) rfl

theorem tableKept_modCtl (f : Controller → Controller) (h : ∀ c, (f c).params = c.params) : TableKept s (s.modCtl t f) :=
  tableKept_modTree _ ⟨h _, fun _ => rfl, rfl, rfl⟩

theorem tableKept_modMsgq (f : MsgQueue → MsgQueue) : TableKept s (s.modMsgq t f) :=
  tableKept_modTree _ ⟨rfl, fun _ => rfl, rfl, rfl⟩

theorem tableKept_modDisc (f : Discovery → Discovery) : TableKept s (s.modDisc t f) :=
  tableKept_modTree _ ⟨rfl, fun _ => rfl, rfl, rfl⟩

theorem tableKept_modSeq (f : Sequencer → Sequencer) : TableKept s (s.modSeq t f) :=
  tableKept_modTree _ ⟨rfl, fun _ => rfl, rfl, rfl⟩

theorem tableKept_modLight (f : LightMonitor → LightMonitor) : TableKept s (s.modLight t f) :=
  tableKept_modTree _ ⟨rfl, fun _ => rfl, rfl, rfl⟩

theorem tableKept_modPending (f : List PendingRec → List PendingRec) : TableKept s (s.modPending t f) :=
  tableKept_modTree _ ⟨rfl, fun _ => rfl, rfl, rfl⟩

theorem tableKept_setChan (tag : Tag) (c : Channel) : TableKept s (s.setChan t tag c) :=
  tableKept_modTree _ ⟨by simp, fun _ => by rw [entry?_of_slots (slots_setChan ..)], by simp, by simp⟩

/-- A message that is no notice leaves the on-air set that the notices spell (R38). -/
theorem tableKept_sendLink (m : GrantMsg) (h : ∀ l, m.announce l = l) : TableKept s (sendLink t m s) := by
  unfold sendLink State.modOut
  exact tableKept_modTree _ ⟨rfl, fun _ => rfl, rfl, by rw [announced_concat, h]⟩

/-- Loop markers are no notices. -/
theorem tableKept_modLoops (f : List Nat → List Nat) : TableKept s (s.modOut t fun o => { o with loops := f o.loops }) :=
  tableKept_modTree _ ⟨rfl, fun _ => rfl, rfl, rfl⟩

/-! ### Entries that change -/

/-- An update of entries that keeps the serial and leaves launch delay and sample count in range. -/
structure Bounded (pr : Params) (f : Entry → Entry) : Prop where
  serial : ∀ e, (f e).serial = e.serial
  bounds : ∀ e : Entry, e.InBounds pr → (f e).InBounds pr

/-- The laws of a tree one of whose entries becomes what `f` makes of it, its TN on the air just where it then operates. -/
theorem entriesLawful_update {T U : Tree} (hT : T.EntriesLawful) (hp : U.ctl.params = T.ctl.params)
    (hother : ∀ k, k ≠ tn → U.entry? k = T.entry? k) (hself : ∀ e, U.entry? tn = some e → e.InBounds T.ctl.params)
    (hnotices : U.onAir = announced U.out.grant) (hordered : U.onAir.Pairwise (· < ·))
    (hair : ∀ k, k ≠ tn → (k ∈ U.onAir ↔ k ∈ T.onAir))
    (hon : tn ∈ U.onAir ↔ ∃ e, U.entry? tn = some e ∧ e.operating = true) : U.EntriesLawful := by
  rw [entriesLawful_iff] at hT ⊢
  obtain ⟨-, -, hTair, hbounds⟩ := hT
  refine ⟨hnotices, hordered, fun k => ?_, fun k e he => ?_⟩
  · by_cases hk : k = tn
    · exact hk ▸ hon
    · rw [hair k hk, hTair, hother k hk]
  · rw [hp]
    by_cases hk : k = tn
    · subst hk
      exact hself e he
    · exact hbounds k e (hother k hk ▸ he)

/-- An update of an entry that stays in OPERATING or out of it. -/
theorem tableKept_modEntry (tn : Nat) (f : Entry → Entry) (hs : ∀ e, (f e).serial = e.serial)
    (ho : ∀ e, s.entry? t tn = some e → (f e).operating = e.operating)
    (hb : ∀ e, s.entry? t tn = some e → e.InBounds (s.params t) → (f e).InBounds (s.params t)) :
    TableKept s (s.modEntry t tn f) := by
  have hself : (s.modEntry t tn f).entry? t tn = (s.entry? t tn).map f := transited_modEntry.self
  have hother : ∀ j k, (j ≠ t ∨ k ≠ tn) → (s.modEntry t tn f).entry? j k = s.entry? j k := transited_modEntry.other
  refine ⟨fun j => ?_, fun j h => ?_, directoryLawful_of_serials rfl fun j k => ?_⟩
  · exact congrArg Controller.params (transited_modEntry.ctl j)
  · by_cases hj : j = t
    · subst hj
      have hsame : ((s.modEntry j tn f).tree j).onAir = (s.tree j).onAir := by simp
      refine entriesLawful_update (tn := tn) h (by simp) (fun k hk => hother j k (.inr hk)) (fun e' he' => ?_)
        (by simpa using h.notices) (hsame ▸ h.ordered) (fun k _ => by rw [hsame]) ?_
      · obtain ⟨e, he, rfl⟩ := Option.map_eq_some_iff.1 (hself.symm.trans he')
        exact hb e he ((entriesLawful_iff.1 h).2.2.2 tn e he)
      · rw [hsame, h.onAir]
        change _ ↔ ∃ e, (s.modEntry j tn f).entry? j tn = some e ∧ _
        rw [hself]
        constructor
        · rintro ⟨e, he, hop⟩
          exact ⟨f e, congrArg (Option.map f) he, (ho e he).trans hop⟩
        · rintro ⟨e', he', hop⟩
          obtain ⟨e, he, rfl⟩ := Option.map_eq_some_iff.1 he'
          exact ⟨e, he, (ho e he).symm.trans hop⟩
    · rwa [transited_modEntry.trees j hj]
  · by_cases hjk : j = t ∧ k = tn
    · obtain ⟨rfl, rfl⟩ := hjk
      rw [hself, Option.map_map]
      exact congrArg (fun g => (s.entry? j k).map g) (funext hs)
    · rw [hother j k (by tauto)]

theorem tableKept_roll (tn : Nat) (f : Entry → Entry) (h : ∀ e, (f e).roll = e.roll) : TableKept s (s.modEntry t tn f) :=
  tableKept_modEntry tn f (fun e => congrArg Prod.fst (h e)) (fun e _ => operating_of_roll (h e))
    fun e _ hb => inBounds_of_roll (h e) hb

/-- An update of every entry that keeps it in OPERATING or out of it. -/
theorem tableKept_mapEntries (ho : ∀ e, (f e).operating = e.operating) (h : Bounded (s.params t) f) :
    TableKept s (s.modTree t fun T => T.mapEntries f) := by
  have hother : ∀ j, j ≠ t → (s.modTree t fun T => T.mapEntries f).tree j = s.tree j := fun j hj =>
    tree_modTree_other s t j _ hj
  refine ⟨fun j => ?_, fun j hlaws => ?_, directoryLawful_of_serials rfl fun j k => ?_⟩
  · by_cases hj : j = t
    · rw [hj, State.params, tree_modTree_same]
      rfl
    · rw [State.params, hother j hj, State.params]
  · by_cases hj : j = t
    · subst hj
      rw [entriesLawful_iff] at hlaws ⊢
      obtain ⟨hnotices, hordered, hair, hbounds⟩ := hlaws
      rw [tree_modTree_same]
      refine ⟨hnotices, hordered, fun k => (hair k).trans ?_, fun k e' he' => ?_⟩
      · rw [entry?_mapEntries]
        constructor
        · rintro ⟨e, he, hop⟩
          exact ⟨f e, by rw [he, Option.map_some], (ho e).trans hop⟩
        · rintro ⟨e', he', hop⟩
          obtain ⟨e, he, rfl⟩ := Option.map_eq_some_iff.1 he'
          exact ⟨e, he, (ho e).symm.trans hop⟩
      · rw [entry?_mapEntries] at he'
        obtain ⟨e, he, rfl⟩ := Option.map_eq_some_iff.1 he'
        exact h.bounds e (hbounds k e he)
    · rwa [hother j hj]
  · by_cases hj : j = t
    · rw [hj, State.entry?, tree_modTree_same, entry?_mapEntries, Option.map_map]
      exact congrArg (fun g => ((s.tree t).entry? k).map g) (funext h.serial)
    · rw [State.entry?, hother j hj, State.entry?]

/-! ### Transitions (R36..R38) -/

theorem pairwise_insertTn (tn : Nat) {l : List Nat} (h : l.Pairwise (· < ·)) : (insertTn tn l).Pairwise (· < ·) := by
  induction l with
  | nil => simp [insertTn]
  | cons x l ih =>
    obtain ⟨hx, hl⟩ := List.pairwise_cons.1 h
    unfold insertTn
    split
    · next hlt => exact List.pairwise_cons.2 ⟨fun y hy => (List.mem_cons.1 hy).elim (· ▸ hlt) fun hy => hlt.trans (hx y hy), h⟩
    · split
      · exact h
      · next hlt hne =>
        refine List.pairwise_cons.2 ⟨fun y hy => ?_, ih hl⟩
        rcases (mem_insertTn tn y l).1 hy with rfl | hy
        · omega
        · exact hx y hy

/-- The notices spell the on-air set after a transition as before it (R38). -/
theorem notices_transit (h : (s.tree t).onAir = announced (s.tree t).out.grant) :
    ((transit t tn cause f s).tree t).onAir = announced ((transit t tn cause f s).tree t).out.grant := by
  unfold transit
  split
  · exact h
  · simp only [tree_report]
    split <;> split <;> simp [terminalOn, terminalOff, sendLink, GrantMsg.announce, announced, h]

/-- A transition that leaves an entry's launch delay and sample count in range; the on-air set follows it (R38). -/
theorem tableKept_transit (tn : Nat) (cause : Cause) (h : Bounded (s.params t) f) :
    TableKept s (transit t tn cause f s) := by
  cases he : s.entry? t tn with
  | none =>
    rw [transit, he]
  | some e =>
    have hbecomes := transited_transit (cause := cause) (f := f) he
    refine ⟨fun j => congrArg Controller.params (hbecomes.ctl j), fun j hlaws => ?_,
      directoryLawful_of_serials hbecomes.directory fun j k => ?_⟩
    · by_cases hj : j = t
      · subst hj
        have hself : (transit j tn cause f s).entry? j tn = some (f e) := by rw [hbecomes.self, he, Option.map_some]
        have hair := onAir_transit (cause := cause) (f := f) he
        have hin : tn ∈ (s.tree j).onAir ↔ e.operating = true := by
          rw [hlaws.onAir]
          exact ⟨fun ⟨x, hx, hop⟩ => Option.some.inj (he.symm.trans hx) ▸ hop, fun hop => ⟨e, he, hop⟩⟩
        refine entriesLawful_update (tn := tn) hlaws (congrArg Controller.params (hbecomes.ctl j))
          (fun k hk => hbecomes.other j k (.inr hk)) (fun x hx => ?_) (notices_transit hlaws.notices) ?_ (fun k hk => ?_) ?_
        · obtain rfl := Option.some.inj (hself.symm.trans hx)
          exact h.bounds e ((entriesLawful_iff.1 hlaws).2.2.2 tn e he)
        · rw [hair]
          split
          · exact hlaws.ordered.filter _
          · split
            · exact pairwise_insertTn tn hlaws.ordered
            · exact hlaws.ordered
        · rw [hair]
          split
          · simp [hk]
          · split
            · simp [mem_insertTn, hk]
            · rfl
        · have hop : (∃ x, ((transit j tn cause f s).tree j).entry? tn = some x ∧ x.operating = true) ↔
              (f e).operating = true :=
            ⟨fun ⟨x, hx, hop⟩ => Option.some.inj (hself.symm.trans hx) ▸ hop, fun hop => ⟨f e, hself, hop⟩⟩
          rw [hop, hair]
          cases h1 : e.operating <;> cases h2 : (f e).operating <;> simp [mem_insertTn, hin, h1]
      · rwa [hbecomes.trees j hj]
    · by_cases hjk : j = t ∧ k = tn
      · obtain ⟨rfl, rfl⟩ := hjk
        rw [hbecomes.self, Option.map_map]
        exact congrArg (fun g => (s.entry? j k).map g) (funext h.serial)
      · rw [hbecomes.other j k (by tauto)]

end

/-! ### Slots freed and filled (R41, R42, R51) -/

section
variable {s : State} {t j : TreeId} {tn k : Nat} {e : Entry} {cause : Cause}

/-- A serial stands at one place (Law 3). -/
theorem place_of_serial (h : s.DirectoryLawful) {e' : Entry} (he : s.entry? t tn = some e) (he' : s.entry? j k = some e')
    (hs : e'.serial = e.serial) : j = t ∧ k = tn := by
  have hmem := h.whole t tn e he
  have hmem' := h.whole j k e' he'
  have heq := List.inj_on_of_nodup_map h.once hmem' hmem hs
  simp only [DirItem.mk.injEq] at heq
  exact heq.2

theorem slotFreed_other (hj : j ≠ t) : (slotFreed t tn cause e s).tree j = s.tree j := by
  have h := tree_modTree_other (s.report t (.terminal tn e.inst e.serial (some e.state.name) none cause)) t j
    (fun T => T.setSlot tn { inst := T.slotInst tn, entry := none }) hj
  rw [tree_report] at h
  exact h

theorem entry?_slotFreed (he : s.entry? t tn = some e) :
    (slotFreed t tn cause e s).entry? j k = if j = t ∧ k = tn then none else s.entry? j k := by
  by_cases hj : j = t
  · subst hj
    rw [State.entry?, slotFreed_tree, entry?_setSlot_none (slotIndex_of_entry he)]
    simp [State.entry?]
  · rw [State.entry?, slotFreed_other hj]
    simp [hj, State.entry?]

/-- The directory lists the entries that stay once one has been freed (R42, R51). -/
theorem directoryLawful_slotFreed (he : s.entry? t tn = some e) (h : s.DirectoryLawful) :
    (slotFreed t tn cause e s).DirectoryLawful := by
  have hdir : (slotFreed t tn cause e s).directory = s.directory.filter fun d => d.serial ≠ e.serial := rfl
  refine ⟨?_, fun d hd => ?_, fun j k x hx => ?_⟩
  · rw [hdir]
    exact h.once.sublist (List.filter_sublist.map _)
  · rw [hdir, List.mem_filter] at hd
    obtain ⟨hmem, hne⟩ := hd
    obtain ⟨x, hx, hserial⟩ := h.sound d hmem
    refine ⟨x, ?_, hserial⟩
    rw [entry?_slotFreed he, if_neg, hx]
    rintro ⟨hj, hk⟩
    rw [hj, hk, he] at hx
    cases hx
    simp [hserial] at hne
  · rw [entry?_slotFreed he] at hx
    split at hx
    · cases hx
    · next hplace =>
      rw [hdir, List.mem_filter]
      refine ⟨h.whole j k x hx, ?_⟩
      simp only [ne_eq, decide_not, Bool.not_eq_true', decide_eq_false_iff_not]
      exact fun hs => hplace (place_of_serial h he hx hs)

/-- An entry that is not OPERATING is off the air (Law 1), so its slot can be freed without a notice. -/
theorem tableKept_slotFreed (he : s.entry? t tn = some e) (ho : e.operating = false) :
    TableKept s (slotFreed t tn cause e s) := by
  have hctl : ((slotFreed t tn cause e s).tree t).ctl = (s.tree t).ctl := by rw [slotFreed_tree, ctl_setSlot]
  refine ⟨fun j => ?_, fun j h => ?_, directoryLawful_slotFreed he⟩
  · by_cases hj : j = t
    · rw [hj]
      exact congrArg Controller.params hctl
    · exact congrArg (fun T : Tree => T.ctl.params) (slotFreed_other hj)
  · by_cases hj : j = t
    · subst hj
      have hair : ((slotFreed j tn cause e s).tree j).onAir = (s.tree j).onAir := by rw [slotFreed_tree, onAir_setSlot]
      have hgone : (slotFreed j tn cause e s).entry? j tn = none :=
        (entry?_slotFreed he).trans (if_pos ⟨rfl, rfl⟩)
      refine entriesLawful_update (tn := tn) h (congrArg Controller.params hctl) (fun k hk => ?_) (fun x hx => ?_) ?_
        (hair ▸ h.ordered) (fun k _ => by rw [hair]) ?_
      · exact (entry?_slotFreed he).trans (if_neg fun h => hk h.2)
      · cases hgone.symm.trans hx
      · rw [hair, slotFreed_tree, out_setSlot, h.notices]
      · rw [hair, h.onAir]
        refine ⟨fun ⟨x, hx, hop⟩ => ?_, fun ⟨x, hx, _⟩ => nomatch hgone.symm.trans hx⟩
        obtain rfl : e = x := Option.some.inj (he.symm.trans hx)
        simp [ho] at hop
    · rwa [slotFreed_other hj]

/-- A slot gets a new number around its entry. -/
theorem tableKept_slotInst (inst : BitVec 16) :
    TableKept s (s.modTree t fun T => T.setSlot tn { inst := inst, entry := T.entry? tn }) := by
  refine tableKept_modTree _ ⟨by simp, fun k => ?_, by simp, by simp⟩
  by_cases hk : k = tn
  · subst hk
    cases hi : slotIndex k with
    | none => simp [Tree.setSlot, hi]
    | some i => rw [entry?_setSlot_same _ _ _ hi]
  · rw [entry?_setSlot_other _ _ _ _ hk]

theorem mem_allTns (h : tn ∈ allTns) : (slotIndex tn).isSome = true := by
  simp only [allTns, List.mem_map, List.mem_range] at h
  obtain ⟨a, ha, rfl⟩ := h
  rw [slotIndex, dif_pos (by omega)]
  rfl

/-- The lowest FREE slot is a slot, and it is FREE (R40). -/
theorem lowestFree_spec {T : Tree} (h : T.lowestFree = some tn) : (slotIndex tn).isSome = true ∧ T.entry? tn = none :=
  ⟨mem_allTns (List.mem_of_find?_eq_some h), by simpa using List.find?_some h⟩

/-- A FREE slot of tree `t` filled with an entry whose serial joins the directory (R41, R42). -/
def slotFilled (t : TreeId) (tn : Nat) (e : Entry) (s : State) : State :=
  { s.modTree t (fun T => T.setSlot tn { inst := e.inst, entry := some e }) with
    directory := s.directory ++ [⟨e.serial, t, tn⟩] }

theorem slotFilled_tree : (slotFilled t tn e s).tree t = (s.tree t).setSlot tn { inst := e.inst, entry := some e } :=
  tree_modTree_same s t fun T => T.setSlot tn { inst := e.inst, entry := some e }

theorem slotFilled_other (hj : j ≠ t) : (slotFilled t tn e s).tree j = s.tree j :=
  tree_modTree_other s t j (fun T => T.setSlot tn { inst := e.inst, entry := some e }) hj

theorem entry?_slotFilled (hi : (slotIndex tn).isSome = true) :
    (slotFilled t tn e s).entry? j k = if j = t ∧ k = tn then some e else s.entry? j k := by
  by_cases hj : j = t
  · subst hj
    rw [State.entry?, slotFilled_tree]
    by_cases hk : k = tn
    · subst hk
      obtain ⟨i, hi⟩ := Option.isSome_iff_exists.1 hi
      simp [entry?_setSlot_same _ _ _ hi]
    · simp [hk, State.entry?]
  · rw [State.entry?, slotFilled_other hj]
    simp [hj, State.entry?]

/-- The directory takes the item of an entry whose serial it did not list (R41, R42). -/
theorem directoryLawful_slotFilled (hi : (slotIndex tn).isSome = true) (hfree : s.entry? t tn = none)
    (hnew : s.lookup e.serial = none) (h : s.DirectoryLawful) : (slotFilled t tn e s).DirectoryLawful := by
  have hdir : (slotFilled t tn e s).directory = s.directory ++ [⟨e.serial, t, tn⟩] := rfl
  refine ⟨?_, fun d hd => ?_, fun j k x hx => ?_⟩
  · simp only [State.lookup, List.find?_eq_none, decide_eq_true_eq] at hnew
    rw [hdir, List.map_append, List.nodup_append]
    refine ⟨h.once, by simp, fun a ha b hb => ?_⟩
    obtain ⟨d, hd, rfl⟩ := List.mem_map.1 ha
    obtain rfl : b = e.serial := by simpa using hb
    exact hnew d hd
  · rw [hdir, List.mem_append, List.mem_singleton] at hd
    rcases hd with hd | rfl
    · obtain ⟨x, hx, hserial⟩ := h.sound d hd
      refine ⟨x, ?_, hserial⟩
      rw [entry?_slotFilled hi, if_neg, hx]
      rintro ⟨hj, hk⟩
      rw [hj, hk, hfree] at hx
      cases hx
    · exact ⟨e, by simp [entry?_slotFilled hi], rfl⟩
  · rw [entry?_slotFilled hi] at hx
    rw [hdir, List.mem_append, List.mem_singleton]
    split at hx
    · next hplace =>
      obtain ⟨rfl, rfl⟩ := hplace
      cases hx
      exact .inr rfl
    · exact .inl (h.whole j k x hx)

/-- An entry that is not OPERATING fills a FREE slot without a notice. -/
theorem tableKept_slotFilled (hi : (slotIndex tn).isSome = true) (hfree : s.entry? t tn = none)
    (hnew : s.lookup e.serial = none) (ho : e.operating = false) (hb : e.InBounds (s.params t)) :
    TableKept s (slotFilled t tn e s) := by
  refine ⟨fun j => ?_, fun j h => ?_, directoryLawful_slotFilled hi hfree hnew⟩
  · by_cases hj : j = t
    · rw [hj, State.params, slotFilled_tree, ctl_setSlot, State.params]
    · rw [State.params, slotFilled_other hj, State.params]
  · by_cases hj : j = t
    · subst hj
      have hair : ((slotFilled j tn e s).tree j).onAir = (s.tree j).onAir := by rw [slotFilled_tree, onAir_setSlot]
      have hself : (slotFilled j tn e s).entry? j tn = some e := (entry?_slotFilled hi).trans (if_pos ⟨rfl, rfl⟩)
      refine entriesLawful_update (tn := tn) h (by rw [slotFilled_tree, ctl_setSlot]) (fun k hk => ?_) (fun x hx => ?_) ?_
        (hair ▸ h.ordered) (fun k _ => by rw [hair]) ?_
      · exact (entry?_slotFilled hi).trans (if_neg fun h => hk h.2)
      · obtain rfl : e = x := Option.some.inj (hself.symm.trans hx)
        exact hb
      · rw [hair, slotFilled_tree, out_setSlot, h.notices]
      · rw [hair, h.onAir]
        refine ⟨fun ⟨x, hx, _⟩ => (nomatch hfree.symm.trans hx), fun ⟨x, hx, hop⟩ => ?_⟩
        obtain rfl : e = x := Option.some.inj (hself.symm.trans hx)
        simp [ho] at hop
    · rwa [slotFilled_other hj]

end

/-! ### The Grant Link, the queue and the Task Sequencer: no table is read -/

section
variable {s : State} {t : TreeId}

theorem tableKept_chanSend (tag : Tag) (req : Request) : TableKept s (chanSend t tag req s) :=
  (tableKept_setChan _ _).trans (tableKept_sendLink _ fun _ => rfl)

theorem tableKept_chanWithdraw (tag : Tag) : TableKept s (chanWithdraw t tag s) := tableKept_setChan tag _

theorem tableKept_chanRelease (tag : Tag) : TableKept s (chanRelease t tag s) := by
  unfold chanRelease
  split
  · exact (tableKept_setChan tag _).trans (tableKept_sendLink _ fun _ => rfl)
  all_goals exact TableKept.refl s

theorem tableKept_enqueue (it : Item) : TableKept s (enqueue t it s) := tableKept_modMsgq _

theorem tableKept_postGated (it : Item) : TableKept s (postGated t it s).state := by
  unfold postGated
  split
  · exact TableKept.refl s
  · split
    · exact tableKept_enqueue it
    · exact TableKept.refl s

theorem tableKept_postMust (tn : Nat) (m : Message) (by_ : Issuer) : TableKept s (postMust t tn m by_ s).state := by
  unfold postMust
  split
  · exact TableKept.refl s
  · split
    · exact TableKept.refl s
    · simp only
      split
      · exact tableKept_roll tn _ fun _ => rfl
      · split
        · refine TableKept.trans ?_ (tableKept_enqueue _)
          exact tableKept_roll tn _ fun _ => rfl
        · exact tableKept_roll tn _ fun _ => rfl

theorem tableKept_withdrawItems (by_ : Issuer) : TableKept s (withdrawItems t by_ s) := tableKept_modMsgq _

theorem tableKept_postBroadcast : TableKept s (postBroadcast t s) := by
  unfold postBroadcast
  split
  · exact tableKept_enqueue _
  · exact tableKept_modMsgq _

theorem tableKept_closeQueue : TableKept s (closeQueue t s) :=
  TableKept.trans (s' := s.modMsgq t _) (tableKept_modMsgq _) tableKept_postBroadcast

theorem tableKept_raiseDiscStale : TableKept s (s.raiseDiscStale t) :=
  TableKept.trans (s' := s.modDisc t _) (tableKept_modDisc _) (tableKept_freeIndex _)

theorem tableKept_raiseSeqStale : TableKept s (s.raiseSeqStale t) :=
  TableKept.trans (s' := s.modSeq t _) (tableKept_modSeq _) (tableKept_freeIndex _)

theorem tableKept_raiseLightStale : TableKept s (s.raiseLightStale t) :=
  TableKept.trans (s' := s.modLight t _) (tableKept_modLight _) (tableKept_freeIndex _)

theorem tableKept_setOp (o : Option ProbeOp) : TableKept s (s.setOp t o) := tableKept_modSeq _

theorem tableKept_setTasks (l : List Task) : TableKept s (s.setTasks t l) := tableKept_modSeq _

theorem tableKept_sendProbe (o : ProbeOp) (pl : Placement) : TableKept s (sendProbe t o pl s) :=
  (tableKept_chanSend _ _).trans (tableKept_setOp _)

theorem tableKept_beginAttempt (o : ProbeOp) : TableKept s (beginAttempt t o s) := by
  unfold beginAttempt
  split
  · exact tableKept_setOp _
  · split
    · exact tableKept_sendProbe _ _
    · exact tableKept_setOp _
    · split
      · exact tableKept_sendProbe _ _
      · split
        · exact tableKept_setOp _
        · exact tableKept_sendProbe _ _

theorem tableKept_giveUpProbe (o : ProbeOp) : TableKept s (giveUpProbe t o s) := by
  unfold giveUpProbe
  split
  · exact TableKept.refl s
  · exact TableKept.refl s
  · exact tableKept_chanWithdraw _
  · exact (tableKept_withdrawItems _).trans (tableKept_chanRelease _)
  · exact tableKept_raiseSeqStale

theorem tableKept_discardOp : TableKept s (discardOp t s) := by
  unfold discardOp
  split
  · exact TableKept.refl s
  · next o _ =>
    exact (tableKept_roll o.tn (fun e => if e.inst = o.inst then { e with attempts := none } else e)
      fun e => by split <;> rfl).trans (tableKept_setOp _)

theorem tableKept_abandonOp : TableKept s (abandonOp t s) := by
  unfold abandonOp
  split
  · exact TableKept.refl s
  · exact (tableKept_giveUpProbe _).trans tableKept_discardOp

theorem tableKept_startOp (k : Task) (e : Entry) : TableKept s (startOp t k e s) :=
  (tableKept_roll k.tn (fun e => { e with attempts := some 0 }) fun _ => rfl).trans (tableKept_beginAttempt _)

theorem tableKept_refill : TableKept s (refill t s) := by
  refine TableKept.foldl _ (fun s tn => ?_) _ _
  unfold refillOne
  split
  · split
    · exact (tableKept_roll tn (fun e => { e with waiting := false }) fun _ => rfl).trans (tableKept_setTasks _)
    · exact TableKept.refl s
  · exact TableKept.refl s

theorem tableKept_takeTasks : TableKept s (takeTasks t s) := by
  unfold takeTasks
  generalize takeBound = n
  induction n generalizing s with
  | zero => exact TableKept.refl s
  | succ n ih =>
    unfold takeLoop
    split
    · split
      · exact TableKept.refl s
      · next k rest _ =>
        have htaken : TableKept s (refill t (s.setTasks t rest)) := (tableKept_setTasks _).trans tableKept_refill
        simp only
        split
        · exact htaken.trans (tableKept_startOp _ _)
        · exact htaken.trans ih
    · exact TableKept.refl s

theorem tableKept_withdrawn (tn : Nat) (inst : BitVec 16) : TableKept s (withdrawn t tn inst s) := by
  have htasks : TableKept s (s.setTasks t ((s.tree t).seq.tasks.filter fun k => k.tn ≠ tn)) := tableKept_setTasks _
  unfold withdrawn
  simp only
  refine TableKept.trans ?_ (tableKept_refill.trans tableKept_takeTasks)
  split
  · split
    · exact htasks.trans tableKept_abandonOp
    · exact htasks
  · exact htasks

theorem tableKept_judgeTask (k : Task) : TableKept s (judgeTask t k s).state := by
  unfold judgeTask
  simp only
  split
  · exact TableKept.refl s
  · split
    · exact TableKept.refl s
    · split
      · split
        · exact tableKept_setTasks _
        · exact TableKept.refl s
      · split
        · exact tableKept_setTasks _
        · split
          · split
            · exact tableKept_roll k.tn _ fun _ => rfl
            · exact (tableKept_setTasks _).trans tableKept_refill
          · exact TableKept.refl s

theorem tableKept_addTask (k : Task) : TableKept s (addTask t k s).state :=
  (tableKept_judgeTask k).trans tableKept_takeTasks

theorem tableKept_finishOp : TableKept s (finishOp t s) := tableKept_discardOp.trans tableKept_takeTasks

theorem tableKept_closeSequencer : TableKept s (closeSequencer t s) := by
  unfold closeSequencer
  simp only
  refine TableKept.trans ?_ (tableKept_mapEntries (fun _ => rfl) ⟨fun _ => rfl, fun _ => id⟩)
  refine TableKept.trans ?_ (tableKept_modSeq _)
  split
  · split
    · exact (tableKept_chanRelease _).trans tableKept_discardOp
    all_goals exact tableKept_abandonOp
  · exact TableKept.refl s

/-! ### The Discovery Unit and the Admission Unit's lists -/

theorem tableKept_setDisc (d : DiscState) : TableKept s (s.setDisc t d) := tableKept_modDisc _

theorem tableKept_sendWindow (w : Context) : TableKept s (sendWindow t w s) :=
  (tableKept_chanSend _ _).trans (tableKept_setDisc _)

theorem tableKept_startWindow : TableKept s (startWindow t s) := by
  unfold startWindow
  split
  · split
    · exact tableKept_sendWindow _
    · split
      · exact TableKept.refl s
      · exact (tableKept_modDisc _).trans (tableKept_sendWindow _)
    all_goals exact TableKept.refl s
  · exact TableKept.refl s

theorem tableKept_endCycle (w : Context) : TableKept s (endCycle t w s) := by
  unfold endCycle
  exact tableKept_modDisc _

theorem tableKept_deferWindow (w : Context) : TableKept s (deferWindow t w s) := by
  unfold deferWindow
  split
  · exact tableKept_endCycle w
  · exact tableKept_setDisc _

theorem tableKept_discLeavesQuiet : TableKept s (discLeavesQuiet t s) := by
  unfold discLeavesQuiet
  split
  · exact (tableKept_chanWithdraw _).trans (tableKept_deferWindow _)
  · exact ((tableKept_withdrawItems _).trans (tableKept_chanRelease _)).trans (tableKept_deferWindow _)
  all_goals exact TableKept.refl s

theorem tableKept_discSlip : TableKept s (discSlip t s) := by
  unfold discSlip
  split
  · exact (tableKept_chanWithdraw _).trans (tableKept_sendWindow _)
  · exact ((tableKept_withdrawItems _).trans (tableKept_chanRelease _)).trans (tableKept_sendWindow _)
  · simp only
    split
    · exact (tableKept_raiseDiscStale.trans (tableKept_report _)).trans (tableKept_sendWindow _)
    · exact (tableKept_raiseDiscStale.trans (tableKept_report _)).trans (tableKept_setDisc _)
  all_goals exact TableKept.refl s

theorem tableKept_closeDiscovery : TableKept s (closeDiscovery t s) := by
  unfold closeDiscovery
  simp only
  refine TableKept.trans ?_ (tableKept_modDisc _)
  split
  · exact tableKept_chanWithdraw _
  · exact tableKept_chanRelease _
  · exact tableKept_report _
  all_goals exact TableKept.refl s

theorem tableKept_inviteDispatched (d : Nat) : TableKept s (inviteDispatched t d s) := by
  unfold inviteDispatched
  split
  · exact tableKept_setDisc _
  all_goals exact TableKept.refl s

theorem tableKept_inviteExpired : TableKept s (inviteExpired t s) := by
  unfold inviteExpired
  split
  · exact tableKept_raiseDiscStale.trans (tableKept_sendWindow _)
  all_goals exact TableKept.refl s

theorem tableKept_windowGranted (qs : Int) : TableKept s (windowGranted t qs s) := by
  have hagain : ∀ w, TableKept s (sendWindow t w (chanRelease t .window s)) := fun w =>
    (tableKept_chanRelease _).trans (tableKept_sendWindow _)
  unfold windowGranted
  split
  · simp only
    split
    · exact hagain _
    · split
      · exact hagain _
      · split
        · exact (tableKept_postGated _).trans (tableKept_modDisc _)
        all_goals exact hagain _
  all_goals exact TableKept.refl s

theorem tableKept_windowEnd : TableKept s (windowEnd t s) := by
  unfold windowEnd
  split
  · exact tableKept_modDisc _
  · split
    · unfold closeWindow
      simp only
      split
      · exact ((tableKept_modDisc _).trans tableKept_startWindow).trans (tableKept_report _)
      · exact (tableKept_endCycle _).trans (tableKept_report _)
    all_goals exact TableKept.refl s

theorem tableKept_removePending (serial : Serial) : TableKept s (removePending t serial s) := tableKept_modPending _

theorem tableKept_pendingReport (ev : AdmitEvent) (o : AdmitOutcome) (r : PendingRec) (tn : Nat) (other : Option TreeId) :
    TableKept s (pendingReport t ev o r tn other s) := tableKept_report _

theorem tableKept_supersede (ev : AdmitEvent) (tn : Nat) (serial : Serial) : TableKept s (supersede ev t tn serial s) := by
  refine TableKept.foldl _ (fun s o => ?_) _ _
  unfold supersedeOne
  split
  · exact TableKept.refl s
  · split
    · exact (tableKept_removePending _).trans (tableKept_pendingReport _ _ _ _ _)
    · exact TableKept.refl s

theorem tableKept_pendingHolds : TableKept s (pendingHolds t s) :=
  (tableKept_modPending _).trans (TableKept.foldl _ (fun _ _ => tableKept_pendingReport _ _ _ _ _) _ _)

theorem tableKept_closePending : TableKept s (closePending t s) :=
  (tableKept_modPending _).trans (TableKept.foldl _ (fun _ _ => tableKept_pendingReport _ _ _ _ _) _ _)

end

/-! ### The Terminal Registry (chapter 3) -/

section
variable {s : State} {t : TreeId} {tn : Nat} {pr : Params} {f : Entry → Entry}

/-- An entry whose serial and launch delay stand and that `f` takes out of OPERATING. -/
theorem bounded_of_leaves (hs : ∀ e, (f e).serial = e.serial) (hld : ∀ e, (f e).ld ≤ e.ld)
    (hd : ∀ e, (f e).drift? = none) : Bounded pr f :=
  ⟨hs, fun e he => ⟨(hld e).trans he.1, fun d hdrift => by rw [hd] at hdrift; cases hdrift⟩⟩

theorem bounded_toRetiring : Bounded pr Entry.toRetiring := bounded_of_leaves (fun _ => rfl) (fun _ => le_rfl) fun _ => rfl

theorem bounded_toLost (hold : Nat) : Bounded pr (Entry.toLost hold) :=
  bounded_of_leaves (fun _ => rfl) (fun _ => le_rfl) fun _ => rfl

theorem bounded_toMuted (c : MuteCause) : Bounded pr (Entry.toMuted c) :=
  bounded_of_leaves (fun _ => rfl) (fun _ => le_rfl) fun _ => rfl

theorem bounded_toRanging (d : Nat) : Bounded pr (Entry.toRanging d) :=
  bounded_of_leaves (fun _ => rfl) (fun _ => le_rfl) fun _ => rfl

theorem bounded_reactivated (i : BitVec 16) (d : Nat) (c : Int) : Bounded pr (Entry.reactivated i d c) :=
  bounded_of_leaves (fun _ => rfl) (fun _ => Nat.zero_le _) fun _ => rfl

/-- An entry enters OPERATING with no sample (R115, R170). -/
theorem bounded_toOperating (e : Nat) : Bounded pr (Entry.toOperating e) :=
  ⟨fun _ => rfl, fun _ he => ⟨he.1, fun d hd => by
    obtain rfl : Drift.fresh e = d := Option.some.inj hd
    exact Nat.two_pow_pos _⟩⟩

theorem tableKept_enterRetiring (tn : Nat) (cause : Cause) : TableKept s (enterRetiring t tn cause s) := by
  unfold enterRetiring
  split
  · exact TableKept.refl s
  · exact ((tableKept_transit tn cause bounded_toRetiring).trans (tableKept_withdrawn _ _)).trans (tableKept_postMust _ _ _)

theorem tableKept_enterLost (tn : Nat) (cause : Cause) : TableKept s (enterLost t tn cause s) := by
  unfold enterLost
  split
  · exact TableKept.refl s
  · exact (tableKept_transit tn cause (bounded_toLost _)).trans (tableKept_withdrawn _ _)

theorem tableKept_loseOrRetire (tn : Nat) (cause : Cause) : TableKept s (loseOrRetire t tn cause s) := by
  unfold loseOrRetire
  split
  · exact TableKept.refl s
  · split
    · exact tableKept_enterLost tn cause
    · exact tableKept_enterRetiring tn cause

/-- An entry that is not OPERATING is freed lawfully (R51). -/
theorem tableKept_freeEntry (cause : Cause) (h : ∀ e, s.entry? t tn = some e → e.operating = false) :
    TableKept s (freeEntry t tn cause s) := by
  cases he : s.entry? t tn with
  | none => rw [freeEntry, he]
  | some e =>
    rw [freeEntry_eq he]
    exact (tableKept_slotFreed he (h e he)).trans (tableKept_withdrawn _ _)

/-- Entries none of which is OPERATING are freed one after another. -/
theorem tableKept_freeEntries (cause : Cause) (l : List Nat)
    (h : ∀ tn ∈ l, ∀ e, s.entry? t tn = some e → e.operating = false) :
    TableKept s (l.foldl (fun s tn => freeEntry t tn cause s) s) := by
  induction l generalizing s with
  | nil => exact TableKept.refl s
  | cons a l ih =>
    refine (tableKept_freeEntry cause (h a List.mem_cons_self)).trans (ih fun k hk e he => ?_)
    cases ha : s.entry? t a with
    | none =>
      rw [freeEntry, ha] at he
      exact h k (List.mem_cons_of_mem _ hk) e he
    | some x =>
      obtain ⟨hgone, hother, -, -⟩ := freeEntry_frees (cause := cause) ha
      by_cases hka : k = a
      · rw [hka, hgone] at he
        cases he
      · have hid := hother t k (.inr hka)
        rw [he, Option.map_some] at hid
        obtain ⟨y, hy, hyid⟩ := Option.map_eq_some_iff.1 hid.symm
        have hstate : y.state = e.state := congrArg (fun i => i.2.2) hyid
        rw [Entry.operating, ← hstate]
        exact h k (List.mem_cons_of_mem _ hk) y hy

theorem directoryLawful_freeEntries (cause : Cause) (l : List Nat) (h : s.DirectoryLawful) :
    (l.foldl (fun s tn => freeEntry t tn cause s) s).DirectoryLawful := by
  induction l generalizing s with
  | nil => exact h
  | cons a l ih =>
    refine ih ?_
    change (freeEntry t a cause s).DirectoryLawful
    cases ha : s.entry? t a with
    | none => rwa [freeEntry, ha]
    | some e =>
      rw [freeEntry_eq ha]
      exact (tableKept_withdrawn _ _).directory (directoryLawful_slotFreed ha h)

/-- A created entry stands in the lowest FREE slot with its serial in the directory (R40, R41). -/
theorem tableKept_createEntry (serial : Serial) (model : BitVec 16) (c : Int) (prof : Profile) :
    TableKept s (createEntry t serial model c prof s).state := by
  unfold createEntry
  split
  · exact TableKept.refl s
  · split
    · exact TableKept.refl s
    · next hnew =>
      split
      · exact TableKept.refl s
      · next tn hfree =>
        obtain ⟨hi, hnone⟩ := lowestFree_spec hfree
        simp only
        split
        · refine TableKept.trans ?_ (tableKept_report _)
          have hposted := calm_postGated (s := s) (t := t) (assignItem tn serial ((s.tree t).slotInst tn + 1))
          refine (tableKept_postGated _).trans (tableKept_slotFilled
            (e := newEntry ((s.tree t).slotInst tn + 1) (s.budgetEnd t) serial model c prof) hi ?_ ?_ rfl
            ⟨Nat.zero_le _, nofun⟩)
          · have hsome := hposted.isSome t tn
            rw [State.entry?, State.entry?, hnone] at hsome
            simpa [State.entry?] using hsome
          · rw [State.lookup, hposted.directory]
            exact hnew
        all_goals exact TableKept.refl s

theorem tableKept_reactivate (tn : Nat) (serial : Serial) (c : Int) : TableKept s (reactivate t tn serial c s).state := by
  unfold reactivate
  simp only
  split
  · refine TableKept.trans ?_ (tableKept_slotInst _)
    exact (tableKept_postGated _).trans (tableKept_transit tn _ (bounded_reactivated _ _ c))
  all_goals exact TableKept.refl s

theorem tableKept_serialCheck (serial : Serial) (c : Int) : TableKept s (serialCheck t serial c s).state := by
  unfold serialCheck
  split
  · exact TableKept.refl s
  · next d _ =>
    split
    · next hlost =>
      split
      · exact tableKept_reactivate _ _ _
      · refine tableKept_freeEntry _ fun e he => ?_
        rw [he] at hlost
        have hname : e.state.name = .lost := Option.some.inj hlost
        cases hst : e.state <;> simp_all [Entry.operating, EntryState.name]
    · exact TableKept.refl s

theorem tableKept_huntMute (c : Candidate) : TableKept s (huntMute t c s) :=
  ((tableKept_transit _ _ (bounded_toMuted _)).trans (tableKept_withdrawn _ _)).trans (tableKept_postMust _ _ _)

/-- A release moves the mark of a MUTED entry alone (R170). -/
theorem tableKept_huntRelease (c : Candidate) : TableKept s (huntRelease t c s) := by
  unfold huntRelease
  split
  · exact TableKept.refl s
  · next e he =>
    split
    · next hmuted =>
      refine TableKept.trans ?_ (tableKept_postMust _ _ _)
      have hst : e.state = .muted (.hunt false) := by simpa [Entry.huntMuted] using hmuted.2
      refine tableKept_modEntry _ (fun e => { e with state := .muted (.hunt true) }) (fun _ => rfl) (fun x hx => ?_)
        fun _ _ hb => ⟨hb.1, nofun⟩
      obtain rfl := Option.some.inj (he.symm.trans hx)
      rw [Entry.operating, Entry.operating, hst]
    · exact TableKept.refl s

theorem tableKept_huntClear (tn : Nat) (inst : BitVec 16) (d : Nat) : TableKept s (huntClear t tn inst d s) := by
  unfold huntClear
  split
  · exact TableKept.refl s
  · split
    · exact tableKept_transit _ _ (bounded_toOperating _)
    · exact TableKept.refl s

end

/-! ### The Light Monitor (chapter 10) -/

section
variable {s : State} {t : TreeId}

theorem tableKept_sendCheck (p : Purpose) : TableKept s (sendCheck t p s) := by
  unfold sendCheck
  exact (tableKept_chanSend _ _).trans (tableKept_modLight _)

theorem tableKept_giveUpCheck : TableKept s (giveUpCheck t s) := by
  unfold giveUpCheck
  split
  · exact TableKept.refl s
  · simp only
    refine TableKept.trans ?_ (tableKept_modLight _)
    split
    · exact tableKept_chanWithdraw _
    · exact tableKept_raiseLightStale

theorem tableKept_setLight (new : Light) (strikes : Nat) (cause : LightCause) (raw : Int) :
    TableKept s (setLight t new strikes cause raw s) := by
  have hset : TableKept s (s.modLight t fun l => { l with light := new, strikes := strikes }) := tableKept_modLight _
  unfold setLight
  simp only
  refine TableKept.trans ?_ (tableKept_report _)
  split
  · exact hset.trans tableKept_discLeavesQuiet
  · split
    · exact (hset.trans tableKept_startWindow).trans tableKept_takeTasks
    · exact hset

theorem tableKept_huntReport (o : HuntOutcome) (h : Hunt) (tn : Nat) (inst : BitVec 16) :
    TableKept s (huntReport t o h tn inst s) := tableKept_report _

theorem tableKept_huntUnresolved (h : Hunt) : TableKept s (huntUnresolved t h s) :=
  TableKept.trans (s' := s.modLight t _) (tableKept_modLight _) (tableKept_huntReport _ _ _ _)

theorem tableKept_huntNext (l : List Candidate) (h : Hunt) : TableKept s (huntNext t h l s) := by
  induction l generalizing h s with
  | nil => exact tableKept_huntUnresolved h
  | cons c rest ih =>
    unfold huntNext
    split
    · exact (tableKept_modLight _).trans (tableKept_huntMute c)
    · exact ih _

theorem tableKept_startHunt : TableKept s (startHunt t s) := by
  unfold startHunt
  simp only
  exact ((tableKept_modLight _).trans (tableKept_huntReport _ _ _ _)).trans (tableKept_huntNext _ _)

theorem tableKept_becomeSuspect (strikes : Nat) (cause : LightCause) (raw : Int) :
    TableKept s (becomeSuspect t strikes cause raw s) :=
  (tableKept_giveUpCheck.trans (tableKept_setLight _ _ _ _)).trans tableKept_startHunt

theorem tableKept_unexplained (raw : Int) : TableKept s (unexplained t raw s) := by
  unfold unexplained
  split
  · unfold strike
    simp only
    split
    · exact tableKept_becomeSuspect _ _ _
    · split
      · exact (tableKept_modLight _).trans (tableKept_sendCheck _)
      · exact tableKept_modLight _
  · exact TableKept.refl s

theorem tableKept_continuous (raw : Int) : TableKept s (continuous t raw s) := by
  unfold continuous
  split
  · exact tableKept_becomeSuspect _ _ _
  · exact TableKept.refl s

theorem tableKept_becomeQuiet (cause : LightCause) : TableKept s (becomeQuiet t cause s) := tableKept_setLight _ _ _ _

theorem tableKept_checkEnded (p : Purpose) (passed : Bool) : TableKept s (checkEnded t p passed s) := by
  unfold checkEnded
  split
  · exact tableKept_becomeQuiet _
  · exact tableKept_modLight _
  · exact tableKept_modLight _
  · unfold strikeFailed
    simp only
    split
    · exact tableKept_becomeSuspect _ _ _
    · exact tableKept_modLight _
  · split
    · split
      · unfold huntFound
        exact ((tableKept_modLight _).trans (tableKept_huntReport _ _ _ _)).trans (tableKept_becomeQuiet _)
      · exact (tableKept_huntRelease _).trans (tableKept_huntNext _ _)
    · exact TableKept.refl s
  · exact (tableKept_modLight _).trans (tableKept_becomeQuiet _)
  · exact tableKept_modLight _

theorem tableKept_silenceBurst : TableKept s (silenceBurst t s) := by
  unfold silenceBurst
  simp only
  split
  · exact TableKept.refl s
  · split
    · exact tableKept_modLight _
    · exact TableKept.refl s

theorem tableKept_silenceEnd : TableKept s (silenceEnd t s) := by
  unfold silenceEnd
  simp only
  split
  · exact tableKept_modLight _
  · split
    · exact (tableKept_modLight _).trans (tableKept_checkEnded _ _)
    · exact TableKept.refl s

theorem tableKept_silenceGranted (qs : Int) : TableKept s (silenceGranted t qs s) := by
  unfold silenceGranted
  split
  · split
    · exact (tableKept_chanRelease _).trans (tableKept_sendCheck _)
    · exact tableKept_modLight _
  · exact TableKept.refl s

theorem tableKept_huntMuteDispatched (tn : Nat) (inst : BitVec 16) (d : Nat) :
    TableKept s (huntMuteDispatched t tn inst d s) := by
  unfold huntMuteDispatched
  split
  · split
    · exact tableKept_modLight _
    · exact TableKept.refl s
  · exact TableKept.refl s

theorem tableKept_candidateLeft (tn : Nat) (inst : BitVec 16) : TableKept s (candidateLeft t tn inst s) := by
  have hcheck : TableKept s (giveUpHuntCheck t s) := by
    unfold giveUpHuntCheck
    split
    · split
      · exact tableKept_giveUpCheck
      · exact TableKept.refl s
    · exact TableKept.refl s
  unfold candidateLeft
  split
  · split
    · exact hcheck.trans (tableKept_huntNext _ _)
    · exact TableKept.refl s
  · exact TableKept.refl s

theorem tableKept_lightSlip : TableKept s (lightSlip t s) := by
  unfold lightSlip
  split
  · exact tableKept_giveUpCheck.trans (tableKept_sendCheck _)
  · exact TableKept.refl s

theorem tableKept_closeLight : TableKept s (closeLight t s) := by
  unfold closeLight
  simp only
  refine TableKept.trans ?_ (tableKept_modLight _)
  split
  · exact tableKept_chanWithdraw _
  · exact tableKept_chanRelease _
  · exact TableKept.refl s

end

/-! ### The Drift Tracker (chapter 7) -/

section
variable {s : State} {t : TreeId} {tn : Nat} {e : Entry} {pr : Params} {g : Drift → Drift}

theorem drift?_modDrift (e : Entry) (g : Drift → Drift) : (e.modDrift g).drift? = e.drift?.map g := by
  cases h : e.state <;> simp [Entry.modDrift, Entry.drift?, h]

theorem modDrift_figures (e : Entry) (g : Drift → Drift) :
    (e.modDrift g).serial = e.serial ∧ (e.modDrift g).ld = e.ld := by
  cases h : e.state <;> simp [Entry.modDrift, h]

theorem operating_modDrift (e : Entry) (g : Drift → Drift) : (e.modDrift g).operating = e.operating := by
  rw [operating_eq_isSome, operating_eq_isSome, drift?_modDrift, Option.isSome_map]

/-- An update of an entry's figures and drift fields that leaves launch delay and sample count in range. -/
theorem tableKept_modFigures (tn : Nat) (f : Entry → Entry) (g : Drift → Drift) (hs : ∀ e, (f e).serial = e.serial)
    (hst : ∀ e, (f e).state = e.state) (hld : ∀ e, e.ld ≤ (s.params t).art → (f e).ld ≤ (s.params t).art)
    (hn : ∀ e d, s.entry? t tn = some e → e.drift? = some d → d.n < 2 ^ (s.params t).k → (g d).n < 2 ^ (s.params t).k) :
    TableKept s (s.modEntry t tn fun e => (f e).modDrift g) := by
  have hdrift : ∀ e, (f e).drift? = e.drift? := fun e => by simp only [Entry.drift?, hst]
  refine tableKept_modEntry tn _ (fun e => ?_) (fun e _ => ?_) fun e he hb => ⟨?_, fun d hd => ?_⟩
  · rw [(modDrift_figures _ _).1, hs]
  · rw [operating_modDrift, operating_eq_isSome, hdrift, operating_eq_isSome]
  · rw [(modDrift_figures _ _).2]
    exact hld e hb.1
  · rw [drift?_modDrift, hdrift] at hd
    obtain ⟨x, hx, rfl⟩ := Option.map_eq_some_iff.1 hd
    exact hn e x he hx (hb.2 x hx)

theorem tableKept_modDrift (tn : Nat) (g : Drift → Drift)
    (hn : ∀ e d, s.entry? t tn = some e → e.drift? = some d → d.n < 2 ^ (s.params t).k → (g d).n < 2 ^ (s.params t).k) :
    TableKept s (s.modEntry t tn fun e => e.modDrift g) :=
  tableKept_modFigures tn id g (fun _ => rfl) (fun _ => rfl) (fun _ => id) hn

theorem tableKept_moveToRanging (tn : Nat) (cause : Cause) (kind : TaskKind) :
    TableKept s (moveToRanging t tn cause kind s) := by
  unfold moveToRanging
  split
  · exact TableKept.refl s
  · exact (tableKept_transit tn cause (bounded_toRanging _)).trans (tableKept_addTask _)

/-- A change of the launch delay to one that the tree can place (R100, R102). -/
theorem tableKept_postNudge (tn ld : Nat) (r change : Int) (h : ld ≤ (s.params t).art) :
    TableKept s (postNudge t tn ld r change s).state := by
  unfold postNudge
  exact (tableKept_modFigures tn (fun e => { e with ld := ld, r := some r }) (fun d => { d with settle := .notYet })
    (fun _ => rfl) (fun _ => rfl) (fun _ _ => h) fun _ _ _ _ hd => hd).trans (tableKept_postMust _ _ _)

theorem tableKept_driftCorrection (tn : Nat) (e : Entry) (a : Int) : TableKept s (driftCorrection t tn e a s) := by
  unfold driftCorrection
  simp only
  split
  · exact tableKept_moveToRanging _ _ _
  · split
    · exact tableKept_moveToRanging _ _ _
    · split
      · refine TableKept.trans ?_ (tableKept_report _)
        exact tableKept_roll tn _ fun _ => rfl
      · exact (tableKept_postNudge _ _ _ _ (by omega)).trans (tableKept_report _)

theorem tableKept_judgeAverage (tn : Nat) (e : Entry) (a : Int) : TableKept s (judgeAverage t tn e a s) := by
  unfold judgeAverage
  split
  · exact TableKept.refl s
  · split
    · exact tableKept_driftCorrection _ _ _
    · exact tableKept_moveToRanging _ _ _

/-- A sample is counted below 2^k, or closes its average (R126). -/
theorem tableKept_driftSample (tn : Nat) (e : Entry) (d : Drift) (x : Int)
    (h : ∀ e' d', s.entry? t tn = some e' → e'.drift? = some d' → d'.n = d.n) :
    TableKept s (driftSample t tn e d x s) := by
  unfold driftSample
  split
  · exact tableKept_moveToRanging _ _ _
  · split
    · next hn => exact tableKept_modDrift tn _ fun e' d' he hd _ => by simpa only [h e' d' he hd] using hn
    · exact (tableKept_modDrift tn _ fun _ _ _ _ _ => Nat.two_pow_pos _).trans (tableKept_judgeAverage _ _ _)

theorem tableKept_driftBurst (tn : Nat) (e : Entry) (g a : Int) (he : s.entry? t tn = some e) :
    TableKept s (driftBurst t tn e g a s) := by
  unfold driftBurst
  split
  · exact TableKept.refl s
  · split
    · exact TableKept.refl s
    · next d hd =>
      have hmiss : TableKept s (s.modEntry t tn fun e => e.modDrift fun d => { d with misses := 0 }) :=
        tableKept_modDrift tn _ fun _ _ _ _ hn => hn
      simp only
      split
      · refine hmiss.trans (tableKept_driftSample _ _ _ _ fun e' d' he' hd' => ?_)
        rw [transited_modEntry.self, he, Option.map_some] at he'
        cases he'
        rw [drift?_modDrift, hd, Option.map_some] at hd'
        cases hd'
        rfl
      · exact hmiss

theorem tableKept_driftMiss (tn : Nat) (e : Entry) : TableKept s (driftMiss t tn e s) := by
  unfold driftMiss
  split
  · exact TableKept.refl s
  · split
    · exact TableKept.refl s
    · split
      · exact tableKept_enterLost _ _
      · exact tableKept_modDrift tn _ fun _ _ _ _ hn => hn

theorem tableKept_nudgeDispatched (tn : Nat) (inst : BitVec 16) (d : Nat) : TableKept s (nudgeDispatched t tn inst d s) := by
  unfold nudgeDispatched
  split
  · exact TableKept.refl s
  · split
    · refine tableKept_roll tn _ fun e => ?_
      simp only [Entry.roll, modDrift_figures, drift?_modDrift, Option.map_map]
      rfl
    · exact TableKept.refl s

theorem tableKept_driftSlip : TableKept s (driftSlip t s) := by
  unfold driftSlip
  refine tableKept_mapEntries (fun e => operating_modDrift e _) ⟨fun e => (modDrift_figures e _).1, fun e hb => ⟨?_, ?_⟩⟩
  · rw [(modDrift_figures e _).2]
    exact hb.1
  · intro d hd
    rw [drift?_modDrift] at hd
    obtain ⟨x, -, rfl⟩ := Option.map_eq_some_iff.1 hd
    exact Nat.two_pow_pos _

end

/-! ### The probe operation (chapter 6) -/

section
variable {s : State} {t : TreeId}

theorem tableKept_probeGranted (qs : Int) : TableKept s (probeGranted t qs s) := by
  have hjudge : ∀ o pl qe, TableKept s (judgeProbeGrant t o pl qe qs s) := by
    intro o pl qe
    have hagain : TableKept s (sendProbe t o pl (chanRelease t .probe s)) :=
      (tableKept_chanRelease _).trans (tableKept_sendProbe _ _)
    unfold judgeProbeGrant
    simp only
    split
    · exact hagain
    · split
      · exact hagain
      · split
        · exact (tableKept_postGated _).trans (tableKept_setOp _)
        all_goals exact hagain
  unfold probeGranted
  split
  · exact TableKept.refl s
  · split
    · split
      · exact ((tableKept_chanRelease _).trans tableKept_abandonOp).trans tableKept_takeTasks
      · exact (tableKept_chanRelease _).trans (tableKept_beginAttempt _)
      · exact hjudge _ _ _
    all_goals exact TableKept.refl s

theorem tableKept_probeDispatched (tn : Nat) (inst : BitVec 16) : TableKept s (probeDispatched t tn inst s) := by
  unfold probeDispatched
  split
  · exact TableKept.refl s
  · split
    · split
      · exact tableKept_setOp _
      · exact TableKept.refl s
    all_goals exact TableKept.refl s

theorem tableKept_probeExpired (tn : Nat) (inst : BitVec 16) : TableKept s (probeExpired t tn inst s) := by
  unfold probeExpired
  split
  · exact TableKept.refl s
  · split
    · split
      · exact tableKept_raiseSeqStale.trans (tableKept_sendProbe _ _)
      · exact TableKept.refl s
    all_goals exact TableKept.refl s

theorem tableKept_delayDispatched (tn : Nat) (inst : BitVec 16) (d : Nat) : TableKept s (delayDispatched t tn inst d s) := by
  unfold delayDispatched
  split
  · split
    · exact TableKept.refl s
    · split
      · split
        · exact tableKept_beginAttempt _
        · exact TableKept.refl s
      all_goals exact TableKept.refl s
  · exact TableKept.refl s

theorem tableKept_probeBurst (a : Int) (q : Quality) (p : List Byte) : TableKept s (probeBurst t a q p s) := by
  unfold probeBurst
  split
  · exact TableKept.refl s
  · split
    · exact TableKept.refl s
    · split
      · exact tableKept_setOp _
      all_goals exact TableKept.refl s

theorem tableKept_countedFailure (o : ProbeOp) (e : Entry) (next : State → State) (h : ∀ s, TableKept s (next s)) :
    TableKept s (countedFailure t o e next s) := by
  have hraised : TableKept s (s.modEntry t o.tn fun x => { x with attempts := some (e.attempts.getD 0 + 1) }) :=
    tableKept_roll _ _ fun _ => rfl
  unfold countedFailure
  simp only
  split
  · exact (hraised.trans tableKept_discardOp).trans (tableKept_loseOrRetire _ _)
  · exact hraised.trans (h _)

/-- A valid round trip is never negative, so the launch delay of a measurement is at most ART (R99, R100, Law 7). -/
theorem measure_ld_le {pr : Params} {prof : Profile} {rrt x : Int} {ld : Nat} {r : Int}
    (h : measure pr prof rrt = .value x ld r) : ld ≤ pr.art := by
  unfold measure at h
  split at h
  · next hvalid =>
    simp only at h
    split at h
    · cases h
    · simp only [Measured.value.injEq] at h
      obtain ⟨-, rfl, -⟩ := h
      obtain ⟨hlow, -⟩ := of_decide_eq_true hvalid
      have hmax : (0 : Int) ≤ max 0 ((pr.frtMin : Int) + prof.rn.value - prof.rtol.value) := le_max_left _ _
      simp only [reachLow] at hlow
      simp only [roundBt]
      omega
  · cases h

theorem attemptOutcome_ld_le {c : Controller} {e : Entry} {st : Stage} {ldp : Nat} {g : Int} {ec : Echoes}
    {rrt : Int} {ld : Nat} {r : Int} (h : attemptOutcome c e st ldp g ec = .measured rrt ld r) : ld ≤ c.params.art := by
  unfold attemptOutcome at h
  split at h
  · cases h
  split at h
  · cases h
  split at h
  · cases h
  simp only at h
  split at h
  · split at h
    · cases h
    · cases h
    · next hm =>
      simp only [AttemptOutcome.measured.injEq] at h
      exact h.2.1 ▸ measure_ld_le hm
  · split at h <;> cases h

theorem bounded_measured {pr : Params} (rrt : Int) (ld : Nat) (r : Int) (d : Nat) (h : ld ≤ pr.art) :
    Bounded pr fun e => (e.measuredAs rrt ld r).toVerifying d where
  serial _ := rfl
  bounds _ _ := ⟨h, fun _ hd => by cases hd⟩

theorem tableKept_measuredToVerifying (o : ProbeOp) (e : Entry) (cause : Cause) (rrt : Int) (ld : Nat) (r change : Int)
    (h : ld ≤ (s.params t).art) : TableKept s (measuredToVerifying t o e cause rrt ld r change s) := by
  unfold measuredToVerifying
  simp only
  refine TableKept.trans ?_ (tableKept_setOp _)
  refine TableKept.trans ?_ (tableKept_report _)
  exact (tableKept_transit _ _ (bounded_measured _ _ _ _ h)).trans (tableKept_postMust _ _ _)

/-- The round trip of an audit, its estimate, and an average begun anew leave the table lawful (R117). -/
theorem tableKept_auditFigures (tn : Nat) (rrt : Int) :
    TableKept s (s.modEntry t tn fun e =>
      { e with rrt := some rrt, c := roundBt rrt }.modDrift fun d => { d with sum := 0, n := 0 }) :=
  tableKept_modFigures tn (fun e => { e with rrt := some rrt, c := roundBt rrt }) (fun d => { d with sum := 0, n := 0 })
    (fun _ => rfl) (fun _ => rfl) (fun _ => id) fun _ _ _ _ _ => Nat.two_pow_pos _

theorem tableKept_auditResult (o : ProbeOp) (e : Entry) (rrt : Int) (ld : Nat) (r : Int) (h : ld ≤ (s.params t).art) :
    TableKept s (auditResult t o e rrt ld r s) := by
  have hfigures := tableKept_auditFigures (s := s) (t := t) o.tn rrt
  have hpar := hfigures.params t
  unfold auditResult
  simp only
  split
  · refine (hfigures.trans ?_).trans tableKept_finishOp
    refine TableKept.trans ?_ (tableKept_report _)
    exact tableKept_roll o.tn _ fun _ => rfl
  · split
    · refine (hfigures.trans ?_).trans tableKept_finishOp
      exact (tableKept_postNudge _ _ _ _ (hpar ▸ h)).trans (tableKept_report _)
    · exact hfigures.trans (tableKept_measuredToVerifying _ _ _ _ _ _ _ (hpar ▸ h))

theorem tableKept_verifiedResult (o : ProbeOp) (e : Entry) : TableKept s (verifiedResult t o e s) :=
  (tableKept_transit _ _ (bounded_toOperating _)).trans tableKept_finishOp

theorem tableKept_verifyOffResult (o : ProbeOp) (e : Entry) (rrt : Int) : TableKept s (verifyOffResult t o e rrt s) := by
  unfold verifyOffResult
  simp only
  refine TableKept.trans ?_ (tableKept_beginAttempt _)
  refine (tableKept_transit _ _ ?_).trans (tableKept_postMust _ _ _)
  refine bounded_of_leaves (fun e => ?_) (fun e => ?_) fun _ => rfl
  · simp only [Entry.toRanging, Entry.verifyOffAs]
    split <;> rfl
  · simp only [Entry.toRanging, Entry.verifyOffAs]
    split <;> exact le_rfl

theorem tableKept_actOnOutcome (o : ProbeOp) (e : Entry) (out : AttemptOutcome)
    (h : ∀ rrt ld r, out = .measured rrt ld r → ld ≤ (s.params t).art) : TableKept s (actOnOutcome t o e out s) := by
  unfold actOnOutcome
  split
  · exact tableKept_countedFailure _ _ _ fun _ => tableKept_beginAttempt _
  · exact tableKept_countedFailure _ _ _ fun _ => tableKept_beginAttempt _
  · exact tableKept_countedFailure _ _ _ fun _ => tableKept_beginAttempt _
  · exact tableKept_countedFailure _ _ _ fun _ => tableKept_beginAttempt _
  · exact tableKept_countedFailure _ _ _ fun _ => tableKept_beginAttempt _
  · split
    · exact tableKept_auditResult _ _ _ _ _ (h _ _ _ rfl)
    all_goals exact tableKept_measuredToVerifying _ _ _ _ _ _ _ (h _ _ _ rfl)
  · exact tableKept_verifiedResult _ _
  · exact tableKept_countedFailure _ _ _ fun _ => tableKept_verifyOffResult _ _ _

theorem tableKept_probeEnd : TableKept s (probeEnd t s) := by
  unfold probeEnd
  split
  · exact tableKept_modSeq _
  · split
    · exact TableKept.refl s
    · split
      · split
        · exact tableKept_finishOp
        · exact tableKept_beginAttempt _
        · exact tableKept_actOnOutcome _ _ _ fun _ _ _ h => attemptOutcome_ld_le h
      all_goals exact TableKept.refl s

theorem tableKept_heldRecheck : TableKept s (heldRecheck t s) := by
  unfold heldRecheck
  split
  · exact TableKept.refl s
  · split
    · exact tableKept_beginAttempt _
    all_goals exact TableKept.refl s

theorem tableKept_probeWaitExpired : TableKept s (probeWaitExpired t s) := by
  unfold probeWaitExpired
  split
  · exact TableKept.refl s
  · split
    · simp only
      split
      · exact (tableKept_abandonOp.trans (tableKept_loseOrRetire _ _)).trans tableKept_takeTasks
      · exact tableKept_abandonOp.trans tableKept_takeTasks
    · exact TableKept.refl s

theorem tableKept_probeSlip : TableKept s (probeSlip t s) := by
  unfold probeSlip
  split
  · exact TableKept.refl s
  · split
    · exact TableKept.refl s
    · exact TableKept.refl s
    · exact (tableKept_chanWithdraw _).trans (tableKept_sendProbe _ _)
    · exact ((tableKept_withdrawItems _).trans (tableKept_chanRelease _)).trans (tableKept_sendProbe _ _)
    · exact tableKept_raiseSeqStale.trans (tableKept_sendProbe _ _)

/-! ### Responses on the request channels (R154, R156..R158) -/

theorem tableKept_grantTaken (tag : Tag) (number : Byte) (qs : Int) : TableKept s (grantTaken t tag number qs s) := by
  have hstray : TableKept s (strayGrant t tag number s) := tableKept_sendLink _ fun _ => rfl
  have hhanded : ∀ r, TableKept r (handGrant t tag qs r) := by
    intro r
    cases tag
    · exact tableKept_windowGranted qs
    · exact tableKept_probeGranted qs
    · exact tableKept_silenceGranted qs
  unfold grantTaken
  simp only
  split
  · split
    · exact (tableKept_setChan _ _).trans (hhanded _)
    · exact hstray
  all_goals exact hstray

theorem tableKept_recordEarliest (tag : Tag) (qe : Int) : TableKept s (recordEarliest t tag qe s) := by
  unfold recordEarliest
  split
  · split
    · exact tableKept_setDisc _
    all_goals exact TableKept.refl s
  · split
    · split
      · exact tableKept_setOp _
      all_goals exact TableKept.refl s
    · exact TableKept.refl s
  · split
    · split
      · exact tableKept_modLight _
      · exact TableKept.refl s
    · exact TableKept.refl s

theorem tableKept_resend (tag : Tag) (req : Request) : TableKept s (resend t tag req s) :=
  (tableKept_chanSend _ _).trans (tableKept_recordEarliest _ _)

theorem tableKept_deferTaken (tag : Tag) (number : Byte) (e : Nat) : TableKept s (deferTaken t tag number e s) := by
  unfold deferTaken
  simp only
  split
  · split
    · split
      · exact tableKept_setChan _ _
      · exact tableKept_resend _ _
    · exact TableKept.refl s
  all_goals exact TableKept.refl s

theorem tableKept_refuseTaken (tag : Tag) (number : Byte) : TableKept s (refuseTaken t tag number s) := by
  unfold refuseTaken
  simp only
  split
  · split
    · exact tableKept_setChan _ _
    · exact TableKept.refl s
  all_goals exact TableKept.refl s

theorem tableKept_responseLapsed (tag : Tag) : TableKept s (responseLapsed t tag s) := by
  unfold responseLapsed
  split
  · split
    · exact tableKept_setChan _ _
    · exact TableKept.refl s
  all_goals exact TableKept.refl s

theorem tableKept_resendDue (tag : Tag) : TableKept s (resendDue t tag s) := by
  unfold resendDue
  split
  · split
    · exact tableKept_resend _ _
    · exact TableKept.refl s
  · split
    · exact tableKept_resend _ _
    · exact TableKept.refl s
  all_goals exact TableKept.refl s

end

/-! ### The completed close (R183) -/

section
variable {s : State} {t : TreeId}

/-- Entries freed one after another leave no entry at their TNs, and none where there was none. -/
theorem entry?_freeEntries (cause : Cause) (l : List Nat) {k : Nat} (h : k ∈ l ∨ s.entry? t k = none) :
    (l.foldl (fun s tn => freeEntry t tn cause s) s).entry? t k = none := by
  induction l generalizing s with
  | nil => exact h.resolve_left List.not_mem_nil
  | cons a l ih =>
    refine ih ?_
    by_cases hk : k ∈ l
    · exact .inl hk
    refine .inr ?_
    change (freeEntry t a cause s).entry? t k = none
    cases ha : s.entry? t a with
    | none =>
      rw [freeEntry, ha]
      refine h.elim (fun hmem => ?_) id
      obtain rfl := (List.mem_cons.1 hmem).resolve_right hk
      exact ha
    | some e =>
      obtain ⟨hgone, hother, -, -⟩ := freeEntry_frees (cause := cause) ha
      by_cases hka : k = a
      · rw [hka, hgone]
      · have hnone : s.entry? t k = none := h.resolve_left fun hmem => (List.mem_cons.1 hmem).elim hka hk
        simpa [hnone] using hother t k (.inr hka)

theorem entry?_freeAll (k : Nat) : (freeAll t s).entry? t k = none := by
  refine entry?_freeEntries _ _ ?_
  by_cases hk : k ∈ allTns
  · exact .inl hk
  · refine .inr ?_
    cases he : s.entry? t k with
    | none => rfl
    | some e => exact absurd (mem_allTns_of_entry he) hk

theorem allOff_tree : (allOff t s).tree t =
    { s.tree t with
      onAir := []
      chanWindow := { (s.tree t).chanWindow with phase := .idle }
      chanProbe := { (s.tree t).chanProbe with phase := .idle }
      chanSilence := { (s.tree t).chanSilence with phase := .idle }
      out := { (s.tree t).out with grant := (s.tree t).out.grant ++ [.allOff] } } := by
  rw [allOff, sendLink, tree_modOut_same, tree_modTree_same]

theorem entry?_allOff (s : State) (t j : TreeId) (k : Nat) : (allOff t s).entry? j k = s.entry? j k := by
  by_cases hj : j = t
  · rw [hj, State.entry?, allOff_tree]
    rfl
  · simp [State.entry?, allOff, sendLink, State.modOut, hj]

/-- ALL_OFF leaves a tree without entries lawful, whatever the notices had spelt before (R38, R161). -/
theorem entriesLawful_allOff (h : ∀ k, s.entry? t k = none) : ((allOff t s).tree t).EntriesLawful := by
  have hnone : ∀ k, ((allOff t s).tree t).entry? k = none := fun k => (entry?_allOff s t t k).trans (h k)
  rw [entriesLawful_iff]
  refine ⟨?_, ?_, fun k => ?_, fun k e he => ?_⟩
  · rw [allOff_tree, announced_concat]
    rfl
  · rw [allOff_tree]
    exact List.Pairwise.nil
  · rw [hnone, allOff_tree]
    simp
  · rw [hnone] at he
    cases he

theorem directoryLawful_allOff (h : s.DirectoryLawful) : (allOff t s).DirectoryLawful :=
  directoryLawful_of_serials (s := s) rfl (fun j k => congrArg (Option.map Entry.serial) (entry?_allOff s t j k)) h

theorem tableKept_allOff (h : ∀ k, s.entry? t k = none) : TableKept s (allOff t s) := by
  have hwithin : Within (· = t) s (allOff t s) := within_allOff rfl
  refine ⟨hwithin.params, fun j hj => ?_, directoryLawful_allOff⟩
  by_cases hjt : j = t
  · rw [hjt]
    exact entriesLawful_allOff h
  · rwa [hwithin.others j hjt]

theorem within_freeAll : Within (· = t) s (freeAll t s) :=
  Within.foldl (P := (· = t)) (fun s tn => freeEntry t tn .closed s) (fun _ tn => within_freeEntry (P := (· = t)) rfl tn _)
    _ _

theorem tableKept_completeClose : TableKept s (completeClose t s) := by
  have hoff : TableKept s (allOff t (freeAll t s)) := by
    have hwithin := (within_freeAll (s := s)).trans (within_allOff (t := t) rfl)
    refine ⟨hwithin.params, fun j hj => ?_, fun h => directoryLawful_allOff (directoryLawful_freeEntries _ _ h)⟩
    by_cases hjt : j = t
    · rw [hjt]
      exact entriesLawful_allOff entry?_freeAll
    · rwa [hwithin.others j hjt]
  unfold completeClose
  simp only
  refine TableKept.trans ?_ (tableKept_report _)
  refine TableKept.trans ?_ (tableKept_modCtl _ fun _ => rfl)
  exact hoff.trans (tableKept_modMsgq _)

/-! ### The Tree Controller (chapter 11) -/

theorem tableKept_treeState (x : TreeState) : TableKept s (s.setTreeState t x) := tableKept_modCtl _ fun _ => rfl

theorem tableKept_runFailed (r : CalRun) (why : CalFailure) : TableKept s (runFailed t r why s) := by
  unfold runFailed
  split
  · exact tableKept_treeState _
  · unfold calFailed
    refine TableKept.trans ?_ (tableKept_report _)
    refine TableKept.trans ?_ (tableKept_modSeq _)
    refine TableKept.trans ?_ tableKept_closeDiscovery
    exact tableKept_modCtl _ fun _ => rfl

theorem tableKept_lightOpened : TableKept s (lightOpened t s) := (tableKept_setLight _ _ _ _).trans (tableKept_sendCheck _)

/-- The tree with the path offset of a passed run, before its channels and notices are cleared (R181). -/
def pathSet (t : TreeId) (r : CalRun) (s : State) : State := s.modCtl t fun c => { c with p := pathOffset r.pis }

theorem tableKept_pathSet (r : CalRun) : TableKept s (pathSet t r s) := tableKept_modCtl _ fun _ => rfl

/-- What a passed run does behind its ALL_OFF. -/
theorem tableKept_opened (r : CalRun) : TableKept (allOff t (pathSet t r s)) (runPassed t r s) := by
  unfold runPassed
  simp only
  refine TableKept.trans ?_ tableKept_takeTasks
  refine TableKept.trans ?_ tableKept_startWindow
  refine TableKept.trans ?_ (tableKept_modSeq _)
  refine TableKept.trans ?_ tableKept_lightOpened
  exact (tableKept_treeState .active).trans (tableKept_report _)

/-- A loop record passes a run of a CALIBRATING tree, or leaves the tables as they are (R179..R181). -/
theorem loopTaken_cases (a : Int) :
    TableKept s (loopTaken t a s) ∨
      ∃ r r', (s.tree t).ctl.state = .calibrating r ∧ loopTaken t a s = runPassed t r' s := by
  unfold loopTaken
  split
  · next r hr =>
    unfold loopRecord
    split
    · exact .inl (TableKept.refl s)
    split
    · exact .inl (TableKept.refl s)
    simp only
    split
    · unfold judgeRun
      split
      · exact .inr ⟨r, _, hr, rfl⟩
      · exact .inl (tableKept_runFailed _ _)
    · exact .inl (tableKept_treeState _)
  all_goals exact .inl (TableKept.refl s)

theorem directoryLawful_loopTaken (a : Int) (h : s.DirectoryLawful) : (loopTaken t a s).DirectoryLawful := by
  rcases loopTaken_cases (s := s) (t := t) a with hkept | ⟨r, r', -, heq⟩
  · exact hkept.directory h
  · rw [heq]
    exact (tableKept_opened r').directory (directoryLawful_allOff ((tableKept_pathSet r').directory h))

/-- A CALIBRATING tree has no entries (Law 12), so the ALL_OFF of a passed run takes none off the air. -/
theorem tableKept_loopTaken (a : Int) (h : s.ClosedLawful) : TableKept s (loopTaken t a s) := by
  rcases loopTaken_cases (s := s) (t := t) a with hkept | ⟨r, r', hstate, heq⟩
  · exact hkept
  · have hempty := (h t).byState
    simp only [hstate] at hempty
    obtain ⟨-, hempty, -⟩ := hempty
    have hnone : ∀ k, (pathSet t r' s).entry? t k = none := fun k => by
      rw [pathSet, State.entry?, tree_modCtl_same]
      exact hempty.entries k
    rw [heq]
    exact ((tableKept_pathSet r').trans (tableKept_allOff hnone)).trans (tableKept_opened r')

theorem tableKept_loopMarker : TableKept s (loopMarker t s) := by
  unfold loopMarker
  split
  · split
    · exact tableKept_runFailed _ _
    · split
      · exact (tableKept_treeState _).trans (tableKept_modLoops (· ++ [s.epoch]))
      · exact TableKept.refl s
  all_goals exact TableKept.refl s

theorem tableKept_calibrationSlip : TableKept s (calibrationSlip t s) := by
  unfold calibrationSlip
  split
  · exact tableKept_treeState _
  all_goals exact TableKept.refl s

theorem tableKept_beginClose : TableKept s (beginClose t s) := by
  unfold beginClose
  simp only
  refine TableKept.trans ?_ tableKept_closeQueue
  refine TableKept.trans ?_ tableKept_closePending
  refine TableKept.trans ?_ tableKept_closeLight
  refine TableKept.trans ?_ tableKept_closeSequencer
  refine TableKept.trans ?_ tableKept_closeDiscovery
  exact (tableKept_treeState .closing).trans (tableKept_report _)

/-! ### The Admission Unit (chapter 4) -/

theorem tableKept_admissionReport (ev : AdmitEvent) (o : AdmitOutcome) (serial : Serial) (model : BitVec 16) (c : Int)
    (origins : Option Origins) (tn : Nat) (other : Option TreeId) :
    TableKept s (admissionReport t ev o serial model c origins tn other s) := tableKept_report _

theorem tableKept_admitOpen (a : Handed) (prof : Profile) : TableKept s (admitOpen t a prof s) := by
  have hcreated := tableKept_createEntry (s := s) (t := t) a.serial a.model a.c prof
  unfold admitOpen
  simp only
  split
  · exact (hcreated.trans (tableKept_admissionReport _ _ _ _ _ _ _ _)).trans (tableKept_supersede _ _ _)
  · exact hcreated.trans (tableKept_admissionReport _ _ _ _ _ _ _ _)
  · exact hcreated.trans (tableKept_admissionReport _ _ _ _ _ _ _ _)
  · exact hcreated.trans (tableKept_admissionReport _ _ _ _ _ _ _ _)
  · exact hcreated

theorem tableKept_admitAsk (a : Handed) (prof : Profile) : TableKept s (admitAsk t a prof s) := by
  unfold admitAsk
  simp only
  split
  · exact tableKept_admissionReport _ _ _ _ _ _ _ _
  · exact (tableKept_modPending _).trans (tableKept_admissionReport _ _ _ _ _ _ _ _)

theorem tableKept_judgeNew (a : Handed) : TableKept s (judgeNew t a s) := by
  unfold judgeNew
  simp only
  split
  · exact (tableKept_removePending _).trans (tableKept_admissionReport _ _ _ _ _ _ _ _)
  split
  · exact (tableKept_modPending _).trans (tableKept_pendingReport _ _ _ _ _)
  split
  · exact tableKept_admissionReport _ _ _ _ _ _ _ _
  split
  · exact tableKept_admitOpen _ _
  · exact tableKept_admitAsk _ _

theorem tableKept_judgeAnnounce (a : Handed) : TableKept s (judgeAnnounce t a s) := by
  have hchecked := tableKept_serialCheck (s := s) (t := t) a.serial a.c
  unfold judgeAnnounce
  simp only
  split
  · exact hchecked.trans (tableKept_admissionReport _ _ _ _ _ _ _ _)
  · exact hchecked.trans (tableKept_admissionReport _ _ _ _ _ _ _ _)
  · exact hchecked.trans (tableKept_admissionReport _ _ _ _ _ _ _ _)
  · exact hchecked.trans (tableKept_judgeNew _)

/-! ### Slot calls (R28) -/

theorem tableKept_slotExpiry : TableKept s (slotExpiry t s) := by
  refine (tableKept_modMsgq _).trans (TableKept.foldl _ (fun s it => ?_) _ _)
  unfold expiredNotice
  split
  · exact tableKept_inviteExpired
  · exact tableKept_probeExpired _ _
  all_goals exact TableKept.refl s

theorem tableKept_enterOwed (tn : Nat) : TableKept s (enterOwed t s tn) := by
  unfold enterOwed
  split
  · exact TableKept.refl s
  split
  · exact TableKept.refl s
  split
  · have hcleared : TableKept s (s.modEntry t tn fun e => { e with owed := none }) := tableKept_roll tn _ fun _ => rfl
    simp only
    split
    · exact (hcleared.trans (tableKept_enqueue _)).trans (tableKept_postMust _ _ _)
    · exact hcleared.trans (tableKept_enqueue _)
  · exact TableKept.refl s

theorem tableKept_slotOwed : TableKept s (slotOwed t s) := by
  have hbroadcast : TableKept s (enterBroadcast t s) := by
    unfold enterBroadcast
    split
    · exact tableKept_modMsgq _
    · exact TableKept.refl s
  unfold slotOwed
  simp only
  split
  · exact hbroadcast
  · exact hbroadcast.trans (TableKept.foldl _ (fun _ tn => tableKept_enterOwed tn) _ _)

theorem tableKept_dispatchedNotice (it : Item) (d : Nat) : TableKept s (dispatchedNotice t it d s) := by
  unfold dispatchedNotice
  split
  · exact tableKept_inviteDispatched d
  · unfold assignSent
    split
    · exact (tableKept_transit _ _ (bounded_toRanging _)).trans (tableKept_addTask _)
    · exact TableKept.refl s
  · exact tableKept_probeDispatched _ _
  · split
    · exact tableKept_nudgeDispatched _ _ _
    all_goals exact tableKept_delayDispatched _ _ _
  · exact tableKept_nudgeDispatched _ _ _
  · exact tableKept_huntMuteDispatched _ _ _
  · exact tableKept_huntClear _ _ _
  · next tn _ =>
    unfold retireSent
    split
    · next hretiring =>
      refine tableKept_freeEntry _ fun e he => ?_
      rw [he, Option.map_some, Option.getD_some, Entry.isIn, Bool.and_eq_true, beq_iff_eq, beq_iff_eq] at hretiring
      cases hst : e.state <;> simp_all [Entry.operating, EntryState.name]
    · exact TableKept.refl s
  · exact tableKept_completeClose

theorem tableKept_handOver (it : Item) (rest : List Item) : TableKept s (handOver t it rest s) :=
  tableKept_modTree _ ⟨rfl, fun _ => rfl, rfl, rfl⟩

theorem tableKept_dispatchLoop (n : Nat) : TableKept s (dispatchLoop t n s) := by
  induction n generalizing s with
  | zero => exact TableKept.refl s
  | succ n ih =>
    unfold dispatchLoop
    split
    · exact TableKept.refl s
    · exact ((tableKept_handOver _ _).trans (tableKept_dispatchedNotice _ _)).trans ih

theorem tableKept_slotCall : TableKept s (slotCall t s) := by
  have hfresh : ∀ r, TableKept r (freshCount t r) := by
    intro r
    unfold freshCount
    split
    · exact TableKept.refl r
    · exact tableKept_modMsgq _
  exact ((tableKept_slotExpiry.trans tableKept_slotOwed).trans (hfresh _)).trans (tableKept_dispatchLoop _)

/-! ### Burst Report Intake (R20, R21) -/

theorem tableKept_windowBurst (arrival : Int) (q : Quality) (p : List Byte) :
    TableKept s (windowBurst t arrival q p s) := by
  have hcollected : ∀ w coll, TableKept s (setCollection t w coll s) := fun w coll => tableKept_setDisc _
  unfold windowBurst
  split
  · exact TableKept.refl s
  split
  · simp only
    split
    · exact hcollected _ _
    · unfold windowAnnounce
      split
      · exact (hcollected _ _).trans (tableKept_report _)
      split
      · exact hcollected _ _
      split
      · exact hcollected _ _
      · unfold announceHeard
        simp only
        split
        · exact (hcollected _ _).trans (tableKept_judgeAnnounce _)
        · exact (hcollected _ _).trans (tableKept_report _)
  all_goals exact TableKept.refl s

theorem tableKept_routeBurst (tag : Tag) (arrival : Int) (q : Quality) (p : List Byte) :
    TableKept s (routeBurst t tag arrival q p s) := by
  cases tag
  · exact tableKept_windowBurst _ _ _
  · exact tableKept_probeBurst _ _ _
  · exact tableKept_silenceBurst

theorem tableKept_routeEnd (tag : Tag) : TableKept s (routeEnd t tag s) := by
  cases tag
  · exact tableKept_windowEnd
  · exact tableKept_probeEnd
  · exact tableKept_silenceEnd

theorem tableKept_routeGranted (tn : Nat) (g a : Int) : TableKept s (routeGranted t tn g a s) := by
  unfold routeGranted
  split
  · next he => exact tableKept_driftBurst _ _ _ _ he
  · exact tableKept_unexplained _

theorem tableKept_routeMiss (tn : Nat) : TableKept s (routeMiss t tn s) := by
  unfold routeMiss
  split
  · exact tableKept_driftMiss _ _
  · exact TableKept.refl s

theorem tableKept_routed {f : State → State} (h : TableKept s (f s)) : TableKept s (routed t f s) := by
  unfold routed
  split
  · exact h
  · exact TableKept.refl s

/-! ### The host processor's requests on a terminal, a context queue and the light condition -/

theorem tableKept_toldMuted (x : Named) : TableKept s (toldMuted x s) := by
  unfold toldMuted
  split
  · exact tableKept_candidateLeft _ _
  · exact TableKept.refl s

theorem tableKept_retireTn (x : Named) : TableKept s (retireTn x s) := by
  unfold retireTn
  split
  · exact TableKept.refl s
  · exact (tableKept_enterRetiring _ _).trans (tableKept_toldMuted x)

theorem tableKept_muteTn (x : Named) : TableKept s (muteTn x s) :=
  ((tableKept_transit _ _ (bounded_toMuted _)).trans (tableKept_withdrawn _ _)).trans (tableKept_postMust _ _ _)

theorem tableKept_unmuteTn (x : Named) : TableKept s (unmuteTn x s) :=
  (((tableKept_transit _ _ (bounded_toRanging _)).trans (tableKept_postMust _ _ _)).trans (tableKept_addTask _)).trans
    (tableKept_toldMuted x)

theorem tableKept_pushContext (c : Context) : TableKept s (pushContext t c s) := by
  have hpushed : TableKept s (s.modDisc t fun d => { d with contexts := d.contexts ++ [{ ctx := c, held := false }] }) :=
    tableKept_modDisc _
  unfold pushContext
  simp only
  split
  · exact (hpushed.trans (tableKept_setDisc _)).trans tableKept_startWindow
  all_goals exact hpushed

theorem tableKept_forceQuiet : TableKept s (forceQuiet t s) := by
  have habort : ∀ r, TableKept r (abortHunt t r) := by
    intro r
    unfold abortHunt
    split
    · exact TableKept.refl r
    · exact ((tableKept_modLight _).trans (tableKept_huntRelease _)).trans (tableKept_huntReport _ _ _ _)
  unfold forceQuiet
  simp only
  refine TableKept.trans ?_ (tableKept_becomeQuiet _)
  exact ((tableKept_giveUpCheck.trans (tableKept_modLight _)).trans (habort _)).trans (tableKept_modLight _)

/-! ### Deliveries of an epoch start (R3) -/

theorem tableKept_lostHoldDue : TableKept s (lostHoldDue t s) := by
  refine tableKept_freeEntries _ _ fun tn hmem e he => ?_
  obtain ⟨x, hx, hlost⟩ := mem_tnsWith.1 hmem
  obtain rfl : e = x := Option.some.inj (he.symm.trans hx)
  rw [Entry.holdEnds, beq_iff_eq] at hlost
  rw [Entry.operating, hlost]

theorem tableKept_spacingDue : TableKept s (spacingDue t s) := by
  unfold spacingDue
  split
  · split
    · exact (tableKept_setDisc _).trans tableKept_startWindow
    · exact TableKept.refl s
  all_goals exact TableKept.refl s

theorem tableKept_sweepVisit (l : List Nat) (n : Nat) : TableKept s (sweepVisit t l n s) := by
  induction l generalizing n s with
  | nil => unfold sweepVisit; exact TableKept.refl s
  | cons tn rest ih =>
    cases n with
    | zero => unfold sweepVisit; exact TableKept.refl s
    | succ n =>
      unfold sweepVisit
      split
      · exact ih _
      · simp only
        split
        · exact ((tableKept_addTask _).trans (tableKept_modSeq _)).trans (ih _)
        · exact tableKept_addTask _
        all_goals exact (tableKept_addTask _).trans (ih _)

theorem tableKept_sweepDue : TableKept s (sweepDue t s) := by
  unfold sweepDue
  split
  · exact (tableKept_modSeq _).trans (tableKept_sweepVisit _ _)
  · exact TableKept.refl s

theorem tableKept_nextCheckDue : TableKept s (nextCheckDue t s) := by
  unfold nextCheckDue
  split
  · exact (tableKept_modLight _).trans (tableKept_sendCheck _)
  · exact TableKept.refl s

theorem tableKept_huntCheckDue : TableKept s (huntCheckDue t s) := by
  unfold huntCheckDue
  split
  · exact TableKept.refl s
  split
  · exact (tableKept_modLight _).trans (tableKept_sendCheck _)
  · exact TableKept.refl s

theorem tableKept_deliveryEffect (a : EpochAction) : TableKept s (deliveryEffect a s) := by
  cases a
  · exact TableKept.foldl _ (fun _ tn => tableKept_enterRetiring tn _) _ _
  · exact tableKept_lostHoldDue
  · exact tableKept_pendingHolds
  · exact tableKept_spacingDue
  · exact tableKept_probeWaitExpired
  · exact tableKept_sweepDue
  · exact tableKept_heldRecheck
  · exact tableKept_responseLapsed _
  · exact tableKept_resendDue _
  · exact tableKept_nextCheckDue
  · exact tableKept_huntCheckDue
  · exact tableKept_loopMarker

theorem tableKept_slipTrees : TableKept s (slipTrees s) :=
  TableKept.foldl _ (fun _ _ =>
    (((tableKept_calibrationSlip.trans tableKept_discSlip).trans tableKept_probeSlip).trans tableKept_driftSlip).trans
      tableKept_lightSlip) _ _

end

/-! ### The port's side of a command -/

/-- What a command keeps: Laws 1, 7 and 9 where Law 12 holds, and Law 3. -/
structure RegistryKept (s s' : State) : Prop where
  entries   : s.ClosedLawful → s.EntriesLawful → s'.EntriesLawful
  directory : s.DirectoryLawful → s'.DirectoryLawful

section
variable {s s' s'' : State} {tag b n : Byte}

theorem TableKept.of_trees (h : s'.trees = s.trees) (hd : s'.directory = s.directory) : TableKept s s' := by
  have ht : ∀ j, s'.tree j = s.tree j := fun j => congrArg (fun v : Vector Tree 4 => v[j]) h
  exact .of_same (fun j => ht j ▸ SameTable.refl _) hd

theorem TableKept.registryKept (h : TableKept s s') : RegistryKept s s' :=
  ⟨fun _ hlaws t => h.entries t (hlaws t), h.directory⟩

theorem RegistryKept.trans_kept (h : RegistryKept s s') (k : TableKept s' s'') : RegistryKept s s'' :=
  ⟨fun hclosed hlaws t => k.entries t (h.entries hclosed hlaws t), k.directory ∘ h.directory⟩

/-- A part whose trees have all just been reset and whose directory is empty is lawful, whatever stood before. -/
theorem RegistryKept.of_reset (h : ∀ j, ∃ out, s'.tree j = Tree.resetWith out) (hd : s'.directory = []) :
    RegistryKept s s' := by
  refine ⟨fun _ _ j => ?_, fun _ => ⟨?_, fun d hmem => ?_, fun j k e he => ?_⟩⟩
  · obtain ⟨out, hj⟩ := h j
    exact hj ▸ entriesLawful_resetWith out
  · rw [hd]
    exact List.nodup_nil
  · rw [hd] at hmem
    cases hmem
  · obtain ⟨out, hj⟩ := h j
    rw [State.entry?, hj, entry?_resetWith] at he
    cases he

theorem tableKept_settle : TableKept s s.settle := .of_trees rfl rfl

theorem registryKept_take {f : State → State} (hf : RegistryKept s (f s)) (h : s.take f = .next s') :
    RegistryKept s s' := by
  obtain rfl : s.event f = s' := by simpa [State.take] using h
  unfold State.event
  split
  · exact (TableKept.refl s).registryKept
  · exact hf.trans_kept tableKept_settle

theorem tableKept_take {f : State → State} (hf : TableKept s (f s)) (h : s.take f = .next s') : RegistryKept s s' :=
  registryKept_take hf.registryKept h

theorem registryKept_request {f : State → Answer} (hf : RegistryKept s (f s).state) (h : s.request tag f = .next s') :
    RegistryKept s s' := by
  simp only [State.request, Host.Outcome.next.injEq] at h
  subst h
  split
  · exact (TableKept.refl s).registryKept
  · exact hf.trans_kept (.of_trees rfl rfl)

theorem tableKept_request {f : State → Answer} (hf : TableKept s (f s).state) (h : s.request tag f = .next s') :
    RegistryKept s s' := registryKept_request hf.registryKept h

/-! ### Epochs -/

theorem tableKept_takeDelivery (a : EpochAction) : TableKept s (takeDelivery a s) := by
  by_cases h : a ∈ s.due
  · have htaken : TableKept s (s.taken a) := .of_trees rfl rfl
    rw [takeDelivery_of_mem h]
    exact (htaken.trans (tableKept_deliveryEffect a)).trans tableKept_settle
  · rw [takeDelivery_of_not_mem h]

theorem tableKept_takeDeliveries (l : List EpochAction) : TableKept s (takeDeliveries l s) := by
  induction l generalizing s with
  | nil => exact TableKept.refl s
  | cons a l ih => exact (tableKept_takeDelivery a).trans ih

theorem tableKept_setCount (n : Nat) : TableKept s (s.setCount n) := by
  unfold State.setCount
  split <;> exact .of_trees rfl rfl

theorem tableKept_beginEpoch (k : Nat) : TableKept s (beginEpoch k s) :=
  ((tableKept_takeDeliveries s.due).trans (tableKept_setCount _)).trans (.of_trees rfl rfl)

theorem tableKept_epochStart : TableKept s (epochStart s) := by
  unfold epochStart
  split
  · exact TableKept.refl s
  · exact tableKept_beginEpoch _

theorem tableKept_afterRealignment (m : BitVec 64) (f : Nat) (x : Int) : TableKept s (afterRealignment m f x s) :=
  tableKept_slipTrees.trans (tableKept_deliver _ _)

theorem tableKept_raiseSlips (n : Nat) : TableKept s (raiseSlips { s with freeIndex := n }) := .of_trees rfl rfl

theorem tableKept_epochMarker (f : Nat) (early : List EpochAction) : TableKept s (epochMarker f early s) := by
  unfold epochMarker
  split
  · exact .of_trees rfl rfl
  split
  · exact TableKept.refl s
  split
  · exact ((tableKept_raiseSlips _).trans (tableKept_setCount _)).trans (tableKept_afterRealignment _ _ _)
  · exact (((tableKept_raiseSlips _).trans (tableKept_beginEpoch _)).trans (tableKept_takeDeliveries _)).trans
      (tableKept_afterRealignment _ _ _)

/-! ### Requests -/

theorem directory_catWriteRequest (raw : RawCatEntry) : (catWriteRequest b raw s).state.directory = s.directory := by
  unfold catWriteRequest
  split
  · rfl
  split
  · rfl
  split <;> rfl

theorem directory_barWriteRequest (raw : RawBarRange) : (barWriteRequest b raw s).state.directory = s.directory := by
  unfold barWriteRequest
  split
  · rfl
  split
  · rfl
  split <;> rfl

theorem directory_catReadRequest : (catReadRequest b s).state.directory = s.directory := by
  unfold catReadRequest
  split <;> rfl

theorem directory_barReadRequest : (barReadRequest b s).state.directory = s.directory := by
  unfold barReadRequest
  split <;> rfl

theorem directory_partSetupRequest (settings : Option (Byte × Byte)) :
    (partSetupRequest settings s).state.directory = s.directory := by
  unfold partSetupRequest
  split
  · rfl
  split
  · rfl
  split <;> rfl

theorem directory_fetchReportsRequest : (fetchReportsRequest b s).state.directory = s.directory := by
  unfold fetchReportsRequest
  split <;> rfl

/-- A CLOSED tree has no entries (Law 12), so a new parameter set bounds none of them (R176). -/
theorem registryKept_config (t : TreeId) (c : Params) (hstate : (s.tree t).ctl.state = .closed) :
    RegistryKept s (s.modCtl t fun x => { x with params := c, configured := true }) := by
  refine ⟨fun hclosed hlaws j => ?_, directoryLawful_of_serials rfl fun j k => ?_⟩
  · by_cases hj : j = t
    · subst hj
      have hempty := (hclosed j).byState
      simp only [hstate] at hempty
      obtain ⟨-, hempty, -⟩ := hempty
      obtain ⟨hnotices, hordered, hair, -⟩ := entriesLawful_iff.1 (hlaws j)
      rw [tree_modCtl_same, entriesLawful_iff]
      refine ⟨hnotices, hordered, hair, fun k e he => ?_⟩
      cases (hempty.entries k).symm.trans he
    · rw [State.modCtl, tree_modTree_other s t j _ hj]
      exact hlaws j
  · by_cases hj : j = t
    · rw [hj, State.entry?, tree_modCtl_same]
      rfl
    · rw [State.entry?, State.modCtl, tree_modTree_other s t j _ hj, State.entry?]

theorem registryKept_treeConfigRequest (raw : RawParams) : RegistryKept s (treeConfigRequest b raw s).state := by
  unfold treeConfigRequest
  split
  · exact (TableKept.refl s).registryKept
  · next t ht =>
    split
    · exact (TableKept.refl s).registryKept
    · exact (TableKept.refl s).registryKept
    · exact (TableKept.refl s).registryKept
    · next hstate =>
      split
      · exact (TableKept.refl s).registryKept
      · exact registryKept_config t _ hstate

theorem tableKept_treeReport (t : TreeId) (old new : TreeName) (cause : TreeCause) (runs restarts : Nat)
    (reason : Option CalFailure) (spread : Int) (entries : Nat) :
    TableKept s (treeReport t old new cause runs restarts reason spread entries s) := tableKept_report _

theorem tableKept_treeOpenRequest : TableKept s (treeOpenRequest b s).state := by
  unfold treeOpenRequest
  split
  · exact TableKept.refl s
  split
  · exact TableKept.refl s
  · exact TableKept.refl s
  · exact TableKept.refl s
  split
  · exact TableKept.refl s
  · exact (tableKept_treeState _).trans (tableKept_treeReport _ _ _ _ _ _ _ _ _)

theorem tableKept_treeCloseRequest : TableKept s (treeCloseRequest b s).state := by
  unfold treeCloseRequest
  split
  · exact TableKept.refl s
  split
  · exact TableKept.refl s
  · exact TableKept.refl s
  · exact TableKept.refl s
  · rw [state_ok]
    exact tableKept_beginClose

theorem tableKept_treeReadConfigRequest : TableKept s (treeReadConfigRequest b s).state := by
  unfold treeReadConfigRequest
  split
  · exact TableKept.refl s
  · split <;> exact TableKept.refl s

theorem tableKept_treeStatusRequest : TableKept s (treeStatusRequest b s).state := by
  unfold treeStatusRequest
  split <;> exact TableKept.refl s

theorem tableKept_setSuspended (t : TreeId) (x : Bool) : TableKept s (setSuspended t x s) := tableKept_modCtl _ fun _ => rfl

theorem tableKept_treeSuspendRequest : TableKept s (treeSuspendRequest b s).state := by
  unfold treeSuspendRequest
  split
  · exact TableKept.refl s
  · exact tableKept_setSuspended _ _

theorem tableKept_treeResumeRequest : TableKept s (treeResumeRequest b s).state := by
  unfold treeResumeRequest
  split
  · exact TableKept.refl s
  split
  · exact ((tableKept_setSuspended _ _).trans tableKept_startWindow).trans tableKept_takeTasks
  · exact TableKept.refl s

theorem tableKept_ctxPushRequest (raw : RawContext) : TableKept s (ctxPushRequest b raw s).state := by
  unfold ctxPushRequest
  split
  · exact TableKept.refl s
  split
  · exact TableKept.refl s
  split
  · exact TableKept.refl s
  · exact tableKept_pushContext _

theorem tableKept_ctxFlushRequest : TableKept s (ctxFlushRequest b s).state := by
  unfold ctxFlushRequest
  split
  · exact TableKept.refl s
  · exact tableKept_modDisc _

theorem tableKept_forceQuietRequest : TableKept s (forceQuietRequest b s).state := by
  unfold forceQuietRequest
  split
  · exact TableKept.refl s
  split
  · exact TableKept.refl s
  · exact tableKept_forceQuiet

theorem tableKept_refuseRequest (serial : Serial) : TableKept s (refuseRequest b serial s).state := by
  unfold refuseRequest
  split
  · exact TableKept.refl s
  split
  · exact TableKept.refl s
  · exact (tableKept_removePending _).trans (tableKept_pendingReport _ _ _ _ _)

theorem tableKept_admitRequest (serial : Serial) : TableKept s (admitRequest b serial s).state := by
  unfold admitRequest
  split
  · exact TableKept.refl s
  split
  · exact TableKept.refl s
  · next t _ _ r _ =>
    have hcreated : TableKept s (createEntry t serial r.model r.c r.profile s).state := tableKept_createEntry _ _ _ _
    split
    · exact (tableKept_removePending _).trans (tableKept_pendingReport _ _ _ _ _)
    simp only
    split
    · exact ((hcreated.trans (tableKept_removePending _)).trans (tableKept_pendingReport _ _ _ _ _)).trans
        (tableKept_supersede _ _ _)
    · exact (hcreated.trans (tableKept_removePending _)).trans (tableKept_pendingReport _ _ _ _ _)
    all_goals exact TableKept.refl s

theorem tableKept_terminalRequest {accepts : EntryState → Bool} {act : Named → State → State}
    (hact : ∀ x, TableKept s (act x s)) : TableKept s (terminalRequest b n accepts act s).state := by
  unfold terminalRequest
  split
  · exact TableKept.refl s
  split
  · exact hact _
  · exact TableKept.refl s

theorem tableKept_readEntryRequest : TableKept s (readEntryRequest b n s).state := by
  unfold readEntryRequest
  split <;> exact TableKept.refl s

theorem tableKept_findSerialRequest (serial : Serial) : TableKept s (findSerialRequest serial s).state := by
  unfold findSerialRequest
  split
  · exact TableKept.refl s
  · split <;> exact TableKept.refl s

/-! ### Every command -/

theorem registryKept_partReset (adm : Admission) (pin : Bool) :
    RegistryKept s { partReset adm s with resetPin := pin } := by
  refine .of_reset (fun j => ?_) rfl
  fin_cases j <;> exact ⟨_, rfl⟩

theorem registryKept_loopTaken (t : TreeId) (a : Int) : RegistryKept s (loopTaken t a s) :=
  ⟨fun hclosed hlaws j => (tableKept_loopTaken a hclosed).entries j (hlaws j), directoryLawful_loopTaken a⟩

theorem registryKept_command {a : EpochAction} (h : exec a.command s = .next s') : RegistryKept s s' := by
  rw [exec_command] at h
  exact tableKept_take (tableKept_takeDelivery a) h

/-- Every command keeps the laws of the tables: the resets empty them, TREE_CONFIG and a passed calibration work on a tree
without entries, and all other work on them is the blocks'. -/
theorem exec_registryKept {c : Instr} (h : exec c s = .next s') : RegistryKept s s' := by
  cases c with
  | powerOn strap => cases h; exact .of_reset (fun j => ⟨_, tree_reset j⟩) rfl
  | resetPinAssert => cases h; exact (TableKept.of_trees (s := s) (s' := assertReset s) rfl rfl).registryKept
  | resetPinRelease strap => cases h; exact registryKept_partReset _ _
  | partReset tag => exact registryKept_request (registryKept_partReset _ _) h
  | epochMarker f early => exact tableKept_take (tableKept_epochMarker _ _) h
  | epochStart => exact tableKept_take tableKept_epochStart h
  | activationDeadline t => exact registryKept_command (a := .activationDeadline t) h
  | lostHoldDeadline t => exact registryKept_command (a := .lostHoldDeadline t) h
  | pendingHoldDeadline t => exact registryKept_command (a := .pendingHoldDeadline t) h
  | spacingEnd t => exact registryKept_command (a := .spacingEnd t) h
  | probeWaitExpiry t => exact registryKept_command (a := .probeWaitExpiry t) h
  | auditSweep t => exact registryKept_command (a := .auditSweep t) h
  | heldRecheck t => exact registryKept_command (a := .heldRecheck t) h
  | responseDeadline t tag => exact registryKept_command (a := .responseDeadline t tag) h
  | resendEpoch t tag => exact registryKept_command (a := .resendEpoch t tag) h
  | nextCheckEpoch t => exact registryKept_command (a := .nextCheckEpoch t) h
  | huntCheckEpoch t => exact registryKept_command (a := .huntCheckEpoch t) h
  | loopMarkerEpoch t => exact registryKept_command (a := .loopMarkerEpoch t) h
  | slotCall t => exact tableKept_take tableKept_slotCall h
  | quietIntervalBurst t tag arrival q payload =>
    exact tableKept_take (tableKept_routed (tableKept_routeBurst tag _ q payload)) h
  | intervalEnd t tag => exact tableKept_take (tableKept_routed (tableKept_routeEnd tag)) h
  | grantedBurst t tn g arrival => exact tableKept_take (tableKept_routed (tableKept_routeGranted _ _ _)) h
  | miss t tn g => exact tableKept_take (tableKept_routed (tableKept_routeMiss _)) h
  | ungrantedLight t arrival => exact tableKept_take (tableKept_routed (tableKept_unexplained _)) h
  | continuousLight t arrival => exact tableKept_take (tableKept_routed (tableKept_continuous _)) h
  | loop t arrival => exact registryKept_take (registryKept_loopTaken t _) h
  | grant t tag number start => exact tableKept_take (tableKept_grantTaken _ _ _) h
  | defer t tag number e => exact tableKept_take (tableKept_deferTaken _ _ _) h
  | schedulerRefuse t tag number => exact tableKept_take (tableKept_refuseTaken _ _) h
  | malformedFrame => exact tableKept_request (f := fun s => Machine.refuse s .malformed) (TableKept.refl s) h
  | readTransaction clocked => exact tableKept_take (.of_trees rfl rfl) h
  | identify tag => exact tableKept_request (TableKept.refl s) h
  | partSetup tag settings =>
    exact tableKept_request (.of_trees (trees_partSetupRequest _) (directory_partSetupRequest _)) h
  | fetchReports tag n => exact tableKept_request (.of_trees trees_fetchReportsRequest directory_fetchReportsRequest) h
  | catWrite tag index raw =>
    exact tableKept_request (.of_trees (trees_catWriteRequest _) (directory_catWriteRequest _)) h
  | catRead tag index => exact tableKept_request (.of_trees trees_catReadRequest directory_catReadRequest) h
  | catLock tag => exact tableKept_request (.of_trees rfl rfl) h
  | barWrite tag index raw =>
    exact tableKept_request (.of_trees (trees_barWriteRequest _) (directory_barWriteRequest _)) h
  | barRead tag index => exact tableKept_request (.of_trees trees_barReadRequest directory_barReadRequest) h
  | treeConfig tag b raw => exact registryKept_request (registryKept_treeConfigRequest raw) h
  | treeReadConfig tag b => exact tableKept_request tableKept_treeReadConfigRequest h
  | treeOpen tag b => exact tableKept_request tableKept_treeOpenRequest h
  | treeClose tag b => exact tableKept_request tableKept_treeCloseRequest h
  | treeStatus tag b => exact tableKept_request tableKept_treeStatusRequest h
  | ctxPush tag b raw => exact tableKept_request (tableKept_ctxPushRequest _) h
  | ctxFlush tag b => exact tableKept_request tableKept_ctxFlushRequest h
  | treeSuspend tag b => exact tableKept_request tableKept_treeSuspendRequest h
  | treeResume tag b => exact tableKept_request tableKept_treeResumeRequest h
  | forceQuiet tag b => exact tableKept_request tableKept_forceQuietRequest h
  | admitSerial tag b serial => exact tableKept_request (tableKept_admitRequest _) h
  | refuse tag b serial => exact tableKept_request (tableKept_refuseRequest _) h
  | rangeNow tag b n => exact tableKept_request (tableKept_terminalRequest fun x => tableKept_moveToRanging _ _ _) h
  | retireTn tag b n => exact tableKept_request (tableKept_terminalRequest tableKept_retireTn) h
  | muteTn tag b n => exact tableKept_request (tableKept_terminalRequest tableKept_muteTn) h
  | unmuteTn tag b n => exact tableKept_request (tableKept_terminalRequest tableKept_unmuteTn) h
  | readEntry tag b n => exact tableKept_request tableKept_readEntryRequest h
  | findSerial tag serial => exact tableKept_request (tableKept_findSerialRequest _) h

/-- A step takes the command at the front of the queue, which no law reads, or idles. -/
theorem step_registryKept (h : step s = .next s') : RegistryKept s s' := by
  unfold step at h
  split at h
  · cases h
    exact (TableKept.refl s).registryKept
  · next c rest _ =>
    have hfront : RegistryKept { s with pending := rest } s' := exec_registryKept h
    exact ⟨hfront.entries, fun hlawful => hfront.directory (directoryLawful_of_serials (s := s) rfl (fun _ _ => rfl) hlawful)⟩

end

/-- Settles O8: Law 8 is kept with the laws of the trees, Laws 1, 7 and 9 with those of the tables. -/
theorem entryLawsKept : Obligations.EntryLawsKept :=
  ⟨fun _ _ hresiduals h => (step_lawsKept h).residuals hresiduals,
    fun _ _ hclosed hlaws h => (step_registryKept h).entries hclosed hlaws⟩

/-- Settles O10: Law 3 is kept with the laws of the tables. -/
theorem directoryLawKept : Obligations.DirectoryLawKept := fun _ _ hlawful h =>
  (step_registryKept h).directory hlawful

end Sys2Proof.Machine
end

section
/-! PROOF. What requests answer when they refuse or only read: a refusal leaves all but the reply holder (O48), the checks on
the tree that come before all others, and TREE_STATUS, TREE_READ_CONFIG, READ_ENTRY (O54) and FIND_SERIAL (O55). -/

namespace Sys2Proof.Machine

/-! ### The checks on the tree (R52, R72, R78) -/

section
variable {s : State} {t : TreeId} {tree n : Byte}

theorem parseTree_none (h : 4 ≤ tree.toNat) : parseTree tree = none := by
  simp [parseTree, h]

theorem parseTn_eq (h : 1 ≤ n.toNat) (h' : n.toNat ≤ 120) : parseTn n = some n.toNat := by
  simp [parseTn, h, h']

/-- On an ACTIVE tree a request on a FREE slot answers NOT_FOUND (R52). -/
theorem namedEntry_of_free (h : tree.toNat = t) (ha : (s.tree t).isActive = true) (h1 : 1 ≤ n.toNat) (h2 : n.toNat ≤ 120)
    (he : s.entry? t n.toNat = none) : namedEntry s tree n = .error .notFound := by
  have hst : (s.tree t).ctl.state = .active := by simpa [Tree.isActive] using ha
  simp only [namedEntry, parseTree_eq h, parseTn_eq h1 h2, hst, he]

/-- On an ACTIVE tree a request on a terminal is judged on its entry (R52). -/
theorem namedEntry_of_entry {e : Entry} (h : tree.toNat = t) (ha : (s.tree t).isActive = true) (h1 : 1 ≤ n.toNat)
    (h2 : n.toNat ≤ 120) (he : s.entry? t n.toNat = some e) :
    namedEntry s tree n = .ok { tree := t, tn := n.toNat, entry := e } := by
  have hst : (s.tree t).ctl.state = .active := by simpa [Tree.isActive] using ha
  simp only [namedEntry, parseTree_eq h, parseTn_eq h1 h2, hst, he]

/-- A request that refuses a tree outside 0..3, a CLOSING one and a CLOSED one, in that order. -/
structure TreeChecked (f : State → Answer) (s : State) (tree : Byte) : Prop where
  outside : 4 ≤ tree.toNat → f s = refuse s .badParam
  closing : ∀ t : TreeId, tree.toNat = t → (s.tree t).ctl.state = .closing → f s = refuse s .busy
  closed  : ∀ t : TreeId, tree.toNat = t → (s.tree t).ctl.state = .closed → f s = refuse s .wrongState

variable {f : State → Answer}

theorem treeChecked_of_openTree (h : ∀ c, openTree s tree = .error c → f s = refuse s c) : TreeChecked f s tree where
  outside hout := h _ (by simp only [openTree, parseTree_none hout])
  closing t ht hst := h _ (by simp only [openTree, parseTree_eq ht, hst])
  closed t ht hst := h _ (by simp only [openTree, parseTree_eq ht, hst])

theorem treeChecked_of_activeTree (h : ∀ c, activeTree s tree = .error c → f s = refuse s c) : TreeChecked f s tree where
  outside hout := h _ (by simp only [activeTree, parseTree_none hout])
  closing t ht hst := h _ (by simp only [activeTree, parseTree_eq ht, hst])
  closed t ht hst := h _ (by simp only [activeTree, parseTree_eq ht, hst])

theorem treeChecked_of_namedEntry (h1 : 1 ≤ n.toNat) (h2 : n.toNat ≤ 120)
    (h : ∀ c, namedEntry s tree n = .error c → f s = refuse s c) : TreeChecked f s tree where
  outside hout := h _ (by simp only [namedEntry, parseTree_none hout])
  closing t ht hst := h _ (by simp only [namedEntry, parseTree_eq ht, parseTn_eq h1 h2, hst])
  closed t ht hst := h _ (by simp only [namedEntry, parseTree_eq ht, parseTn_eq h1 h2, hst])

theorem treeChecked_terminalRequest (h1 : 1 ≤ n.toNat) (h2 : n.toNat ≤ 120) (accepts : EntryState → Bool)
    (act : Named → State → State) : TreeChecked (terminalRequest tree n accepts act) s tree :=
  treeChecked_of_namedEntry h1 h2 fun c hc => by simp only [terminalRequest, hc]

theorem treeChecked_treeCloseRequest : TreeChecked (treeCloseRequest tree) s tree where
  outside hout := by simp only [treeCloseRequest, parseTree_none hout]
  closing t ht hst := by simp only [treeCloseRequest, parseTree_eq ht, hst]
  closed t ht hst := by simp only [treeCloseRequest, parseTree_eq ht, hst]

/-- The thirteen requests that a CLOSED tree refuses, each with what judges it. -/
theorem exec_treeChecked {tag : Byte} {serial : Serial} {ctx : RawContext} {c : Instr} (h1 : 1 ≤ n.toNat) (h2 : n.toNat ≤ 120)
    (hc : c ∈ [Instr.treeClose tag tree, .ctxPush tag tree ctx, .ctxFlush tag tree, .treeSuspend tag tree,
        .treeResume tag tree, .forceQuiet tag tree, .admitSerial tag tree serial, .refuse tag tree serial,
        .rangeNow tag tree n, .retireTn tag tree n, .muteTn tag tree n, .unmuteTn tag tree n,
        .readEntry tag tree n]) :
    ∃ f, exec c s = s.request tag f ∧ TreeChecked f s tree := by
  simp only [List.mem_cons, List.not_mem_nil, or_false] at hc
  rcases hc with rfl | rfl | rfl | rfl | rfl | rfl | rfl | rfl | rfl | rfl | rfl | rfl | rfl
  · exact ⟨_, rfl, treeChecked_treeCloseRequest⟩
  · exact ⟨_, rfl, treeChecked_of_openTree fun c hc => by simp only [ctxPushRequest, hc]⟩
  · exact ⟨_, rfl, treeChecked_of_openTree fun c hc => by simp only [ctxFlushRequest, hc]⟩
  · exact ⟨_, rfl, treeChecked_of_openTree fun c hc => by simp only [treeSuspendRequest, hc]⟩
  · exact ⟨_, rfl, treeChecked_of_openTree fun c hc => by simp only [treeResumeRequest, hc]⟩
  · exact ⟨_, rfl, treeChecked_of_activeTree fun c hc => by simp only [forceQuietRequest, hc]⟩
  · exact ⟨_, rfl, treeChecked_of_activeTree fun c hc => by simp only [admitRequest, hc]⟩
  · exact ⟨_, rfl, treeChecked_of_activeTree fun c hc => by simp only [refuseRequest, hc]⟩
  · exact ⟨_, rfl, treeChecked_terminalRequest h1 h2 _ _⟩
  · exact ⟨_, rfl, treeChecked_terminalRequest h1 h2 _ _⟩
  · exact ⟨_, rfl, treeChecked_terminalRequest h1 h2 _ _⟩
  · exact ⟨_, rfl, treeChecked_terminalRequest h1 h2 _ _⟩
  · exact ⟨_, rfl, treeChecked_of_namedEntry h1 h2 fun c hc => by simp only [readEntryRequest, hc]⟩

end

/-! ### Refusals -/

/-- An answer that is none of OK, BARRED and TABLE_FULL leaves the state it judged. -/
def Answer.Inert (s : State) (a : Answer) : Prop :=
  a.code ≠ .ok → a.code ≠ .barred → a.code ≠ .tableFull → a.state = s

section
variable {s s' : State} {b n tag : Byte}

theorem inert_ok (s' : State) (body : List Byte) : (okWith s' body).Inert s := fun hok => absurd rfl hok

theorem inert_refuse (code : ReplyCode) : (refuse s code).Inert s := fun _ _ _ => rfl

theorem inert_badField (k : Nat) : (badField s k).Inert s := fun _ _ _ => rfl

theorem inert_catWriteRequest (raw : RawCatEntry) : (catWriteRequest b raw s).Inert s := by
  unfold catWriteRequest
  split
  · exact inert_refuse _
  split
  · exact inert_refuse _
  split
  · exact inert_refuse _
  · exact inert_ok _ _

theorem inert_catReadRequest : (catReadRequest b s).Inert s := by
  unfold catReadRequest
  split
  · exact inert_refuse _
  · exact inert_ok _ _

theorem inert_barWriteRequest (raw : RawBarRange) : (barWriteRequest b raw s).Inert s := by
  unfold barWriteRequest
  split
  · exact inert_refuse _
  split
  · exact inert_refuse _
  split
  · exact inert_refuse _
  · exact inert_ok _ _

theorem inert_barReadRequest : (barReadRequest b s).Inert s := by
  unfold barReadRequest
  split
  · exact inert_refuse _
  · exact inert_ok _ _

theorem inert_partSetupRequest (settings : Option (Byte × Byte)) : (partSetupRequest settings s).Inert s := by
  unfold partSetupRequest
  split
  · exact inert_ok _ _
  split
  · exact inert_refuse _
  split
  · exact inert_ok _ _
  · exact inert_refuse _

theorem inert_fetchReportsRequest : (fetchReportsRequest n s).Inert s := by
  unfold fetchReportsRequest
  split
  · exact inert_ok _ _
  · exact inert_refuse _

theorem inert_treeConfigRequest (raw : RawParams) : (treeConfigRequest b raw s).Inert s := by
  unfold treeConfigRequest
  split
  · exact inert_badField _
  split
  · exact inert_refuse _
  · exact inert_refuse _
  · exact inert_refuse _
  split
  · exact inert_badField _
  · exact inert_ok _ _

theorem inert_treeReadConfigRequest : (treeReadConfigRequest b s).Inert s := by
  unfold treeReadConfigRequest
  split
  · exact inert_refuse _
  split
  · exact inert_refuse _
  all_goals exact inert_ok _ _

theorem inert_treeOpenRequest : (treeOpenRequest b s).Inert s := by
  unfold treeOpenRequest
  split
  · exact inert_refuse _
  split
  · exact inert_refuse _
  · exact inert_refuse _
  · exact inert_refuse _
  split
  · exact inert_refuse _
  · exact inert_ok _ _

theorem inert_treeCloseRequest : (treeCloseRequest b s).Inert s := by
  unfold treeCloseRequest
  split
  · exact inert_refuse _
  split
  · exact inert_refuse _
  · exact inert_refuse _
  · exact inert_refuse _
  · exact inert_ok _ _

theorem inert_treeStatusRequest : (treeStatusRequest b s).Inert s := by
  unfold treeStatusRequest
  split
  · exact inert_refuse _
  · exact inert_ok _ _

theorem inert_ctxPushRequest (raw : RawContext) : (ctxPushRequest b raw s).Inert s := by
  unfold ctxPushRequest
  split
  · exact inert_refuse _
  split
  · exact inert_refuse _
  split
  · exact inert_refuse _
  · exact inert_ok _ _

theorem inert_ctxFlushRequest : (ctxFlushRequest b s).Inert s := by
  unfold ctxFlushRequest
  split
  · exact inert_refuse _
  · exact inert_ok _ _

theorem inert_treeSuspendRequest : (treeSuspendRequest b s).Inert s := by
  unfold treeSuspendRequest
  split
  · exact inert_refuse _
  · exact inert_ok _ _

theorem inert_treeResumeRequest : (treeResumeRequest b s).Inert s := by
  unfold treeResumeRequest
  split
  · exact inert_refuse _
  split
  · exact inert_ok _ _
  · exact inert_ok _ _

theorem inert_forceQuietRequest : (forceQuietRequest b s).Inert s := by
  unfold forceQuietRequest
  split
  · exact inert_refuse _
  split
  · exact inert_ok _ _
  · exact inert_ok _ _

/-- ADMIT removes the pending record of a serial that is BARRED or finds the table full (R72), the two codes set apart. -/
theorem inert_admitRequest (serial : Serial) : (admitRequest b serial s).Inert s := by
  unfold admitRequest
  split
  · exact inert_refuse _
  split
  · exact inert_refuse _
  split
  · exact fun _ hbarred => absurd rfl hbarred
  simp only
  split
  · exact inert_ok _ _
  · exact fun _ _ hfull => absurd rfl hfull
  all_goals exact inert_refuse _

theorem inert_refuseRequest (serial : Serial) : (refuseRequest b serial s).Inert s := by
  unfold refuseRequest
  split
  · exact inert_refuse _
  split
  · exact inert_refuse _
  · exact inert_ok _ _

theorem inert_terminalRequest (accepts : EntryState → Bool) (act : Named → State → State) :
    (terminalRequest b n accepts act s).Inert s := by
  unfold terminalRequest
  split
  · exact inert_refuse _
  split
  · exact inert_ok _ _
  · exact inert_refuse _

theorem inert_readEntryRequest : (readEntryRequest b n s).Inert s := by
  unfold readEntryRequest
  split
  · exact inert_refuse _
  · exact inert_ok _ _

theorem inert_findSerialRequest (serial : Serial) : (findSerialRequest serial s).Inert s := by
  unfold findSerialRequest
  split
  · exact inert_refuse _
  split
  · exact inert_refuse _
  · exact inert_ok _ _

/-- Every request is judged by a function whose refusals leave the state. -/
theorem exec_inert {c : Instr} (h : c.isRequest = true) : ∃ tag f, exec c s = s.request tag f ∧ (f s).Inert s := by
  cases c with
  | malformedFrame => exact ⟨0, fun s => refuse s .malformed, rfl, inert_refuse _⟩
  | identify tag => exact ⟨_, _, rfl, inert_ok _ _⟩
  | partSetup tag settings => exact ⟨_, _, rfl, inert_partSetupRequest _⟩
  | partReset tag => exact ⟨_, _, rfl, inert_ok _ _⟩
  | fetchReports tag n => exact ⟨_, _, rfl, inert_fetchReportsRequest⟩
  | catWrite tag index raw => exact ⟨_, _, rfl, inert_catWriteRequest _⟩
  | catRead tag index => exact ⟨_, _, rfl, inert_catReadRequest⟩
  | catLock tag => exact ⟨_, _, rfl, inert_ok _ _⟩
  | barWrite tag index raw => exact ⟨_, _, rfl, inert_barWriteRequest _⟩
  | barRead tag index => exact ⟨_, _, rfl, inert_barReadRequest⟩
  | treeConfig tag b raw => exact ⟨_, _, rfl, inert_treeConfigRequest _⟩
  | treeReadConfig tag b => exact ⟨_, _, rfl, inert_treeReadConfigRequest⟩
  | treeOpen tag b => exact ⟨_, _, rfl, inert_treeOpenRequest⟩
  | treeClose tag b => exact ⟨_, _, rfl, inert_treeCloseRequest⟩
  | treeStatus tag b => exact ⟨_, _, rfl, inert_treeStatusRequest⟩
  | ctxPush tag b raw => exact ⟨_, _, rfl, inert_ctxPushRequest _⟩
  | ctxFlush tag b => exact ⟨_, _, rfl, inert_ctxFlushRequest⟩
  | treeSuspend tag b => exact ⟨_, _, rfl, inert_treeSuspendRequest⟩
  | treeResume tag b => exact ⟨_, _, rfl, inert_treeResumeRequest⟩
  | forceQuiet tag b => exact ⟨_, _, rfl, inert_forceQuietRequest⟩
  | admitSerial tag b serial => exact ⟨_, _, rfl, inert_admitRequest _⟩
  | refuse tag b serial => exact ⟨_, _, rfl, inert_refuseRequest _⟩
  | rangeNow tag b n => exact ⟨_, _, rfl, inert_terminalRequest _ _⟩
  | retireTn tag b n => exact ⟨_, _, rfl, inert_terminalRequest _ _⟩
  | muteTn tag b n => exact ⟨_, _, rfl, inert_terminalRequest _ _⟩
  | unmuteTn tag b n => exact ⟨_, _, rfl, inert_terminalRequest _ _⟩
  | readEntry tag b n => exact ⟨_, _, rfl, inert_readEntryRequest⟩
  | findSerial tag serial => exact ⟨_, _, rfl, inert_findSerialRequest _⟩
  | _ => cases h

/-- The reply in the holder after a request is the one that its answer spells; an inert answer leaves the rest. -/
theorem eq_reply_of_inert (hs : s.Taking) {f : State → Answer} {r : Reply} (hinert : (f s).Inert s)
    (h : s.request tag f = .next s') (hr : s'.port.holder = some r) (hok : r.code ≠ .ok) (hbarred : r.code ≠ .barred)
    (hfull : r.code ≠ .tableFull) : s' = s.reply r.tag r.code r.body := by
  rw [request_of_taking hs, Host.Outcome.next.injEq] at h
  subst h
  obtain rfl := Option.some.inj hr
  simp only at hok hbarred hfull ⊢
  rw [hinert hok hbarred hfull, settle_of_entered hs.entered]

end

/-- Settles O48: every refusal leaves the state it judged, and the checks on the tree come before all others. -/
theorem refusalsChangeNothing : Obligations.RefusalsChangeNothing := by
  refine ⟨fun c s s' r hs hreq h hr hok hbarred hfull => ?_, fun s tag tree tn serial ctx c hs h1 h2 hc => ?_⟩
  · obtain ⟨tag, f, hf, hinert⟩ := exec_inert (s := s) hreq
    exact eq_reply_of_inert hs hinert (hf ▸ h) hr hok hbarred hfull
  · rcases hc with hc | rfl
    · obtain ⟨f, hf, hchecked⟩ := exec_treeChecked (s := s) h1 h2 hc
      rw [hf]
      exact ⟨fun hout => request_same hs (hchecked.outside hout), fun t ht =>
        ⟨fun hst => request_same hs (hchecked.closing t ht hst), fun _ hst => request_same hs (hchecked.closed t ht hst)⟩⟩
    · refine ⟨fun hout => request_same hs ?_, fun t ht => ⟨fun hst => request_same hs ?_, fun hne => absurd rfl hne⟩⟩
      · simp only [treeOpenRequest, parseTree_none hout]
        rfl
      · simp only [treeOpenRequest, parseTree_eq ht, hst]
        rfl

/-! ### The reads (R57, R58, R177, R185) -/

section
variable {s : State} {t : TreeId} {tree n : Byte} {tn : Nat} {e : Entry}

theorem treeStatusRequest_eq (h : tree.toNat = t) :
    treeStatusRequest tree s = { state := s, code := .ok, body := (s.tree t).statusBytes } := by
  simp only [treeStatusRequest, parseTree_eq h]
  rfl

theorem treeReadConfigRequest_eq (h : tree.toNat = t) :
    treeReadConfigRequest tree s =
      if (s.tree t).isClosing then { state := s, code := .busy, body := [] }
      else
        { state := s, code := .ok
          body := flagField (s.tree t).ctl.configured ++ (s.params t).bytes ++ natField 2 (s.tree t).ctl.p } := by
  cases hst : (s.tree t).ctl.state <;>
    simp [treeReadConfigRequest, parseTree_eq h, hst, Tree.isClosing, refuse, okWith, State.params]

theorem findSerialRequest_of_lookup {d : DirItem} (hd : s.lookup e.serial = some d) (he : s.entry? d.tree d.tn = some e) :
    findSerialRequest e.serial s =
      { state := s, code := .ok
        body := natField 1 d.tree.val ++ natField 1 d.tn ++ wordField e.inst ++ [e.state.name.code] } := by
  simp only [findSerialRequest, hd, he]
  rfl

/-- A lawful directory looks up the serial of an entry at the place of that entry (R42). -/
theorem lookup_of_entry (h : s.DirectoryLawful) (he : s.entry? t tn = some e) : s.lookup e.serial = some ⟨e.serial, t, tn⟩ := by
  cases hl : s.lookup e.serial with
  | none => exact absurd (decide_eq_true rfl) (List.find?_eq_none.1 hl _ (h.whole t tn e he))
  | some d =>
    have hserial : d.serial = e.serial := by simpa using List.find?_some hl
    obtain ⟨e', he', hs'⟩ := h.sound d (List.mem_of_find?_eq_some hl)
    obtain ⟨htree, htn⟩ := place_of_serial h he he' (hs'.trans hserial)
    exact congrArg some (DirItem.mk.injEq .. ▸ ⟨hserial, htree, htn⟩)

/-- A lawful directory lists no serial that no entry holds (R42). -/
theorem lookup_none {serial : Serial} (h : s.DirectoryLawful) (hno : ∀ t tn e, s.entry? t tn = some e → e.serial ≠ serial) :
    s.lookup serial = none := by
  refine List.find?_eq_none.2 fun d hd => ?_
  obtain ⟨e, he, hserial⟩ := h.sound d hd
  simpa [hserial] using hno _ _ e he

end

/-- Settles O54: each read by what judges it. -/
theorem readsChangeNothing : Obligations.ReadsChangeNothing := by
  refine fun s tag tree hs => ⟨fun t ht => ⟨request_same hs (treeStatusRequest_eq ht), ?_, fun tn ha h1 h2 => ?_⟩, fun hout => ?_⟩
  · change s.request tag (treeReadConfigRequest tree) = _
    have heq := treeReadConfigRequest_eq (s := s) ht
    split at heq
    · next hc => rw [if_pos hc, request_same hs heq]
    · next hc =>
      rw [if_neg hc, request_same hs heq]
      rfl
  · change s.request tag (readEntryRequest tree tn) = _
    cases he : s.entry? t tn.toNat with
    | none =>
      refine request_same hs ?_
      simp only [readEntryRequest, namedEntry_of_free ht ha h1 h2 he]
      rfl
    | some e =>
      refine request_same hs ?_
      simp only [readEntryRequest, namedEntry_of_entry ht ha h1 h2 he]
      rfl
  · have hnone := parseTree_none hout
    refine ⟨request_same hs ?_, request_same hs ?_, fun tn => request_same hs ?_⟩
    · simp only [treeStatusRequest, hnone]
      rfl
    · simp only [treeReadConfigRequest, hnone]
      rfl
    · simp only [readEntryRequest, namedEntry, hnone]
      rfl

/-- Settles O55: the directory, lawful, looks every serial up where its entry stands. -/
theorem serialsFound : Obligations.SerialsFound := by
  refine fun s tag serial hs hlawful => ⟨fun t tn e he hserial => ?_, fun hno => request_same hs ?_⟩
  · subst hserial
    exact request_same hs (findSerialRequest_of_lookup (lookup_of_entry hlawful he) he)
  · simp only [findSerialRequest, lookup_none hlawful hno]
    rfl

end Sys2Proof.Machine
end

section
/-! PROOF. Entries freed at their lost hold (O19), and the operation given up after ProbeWait (O22): what an entry whose probe
work failed becomes, with nothing of the Task Sequencer's left for its TN. -/

namespace Sys2Proof.Machine

/-! ### Entries freed one after another (R48, R51) -/

/-- What freeing the entries of these TNs leaves of the part. -/
structure Freed (t : TreeId) (l : List Nat) (s s' : State) : Prop where
  entries   : ∀ k, (s'.entry? t k).map Entry.identity = if k ∈ l then none else (s.entry? t k).map Entry.identity
  insts     : ∀ k, (s'.tree t).slotInst k = (s.tree t).slotInst k
  directory : ∀ d, d ∈ s'.directory ↔ d ∈ s.directory ∧ ∀ k ∈ l, ∀ e, s.entry? t k = some e → e.serial ≠ d.serial
  onAir     : (s'.tree t).onAir = (s.tree t).onAir
  broadcast : (s'.tree t).msgq.owedBroadcast = (s.tree t).msgq.owedBroadcast

section
variable {s : State} {t : TreeId} {tn k : Nat} {e e' : Entry} {cause : Cause} {l : List Nat}

theorem serial_of_identity (h : e.identity = e'.identity) : e.serial = e'.serial :=
  congrArg (fun x : BitVec 16 × Serial × EntryState => x.2.1) h

theorem state_of_identity (h : e.identity = e'.identity) : e.state = e'.state :=
  congrArg (fun x : BitVec 16 × Serial × EntryState => x.2.2) h

theorem Freed.refl (s : State) : Freed t [] s s := ⟨fun _ => rfl, fun _ => rfl, by simp, rfl, rfl⟩

/-- One entry freed, or none there (R51). -/
theorem freed_freeEntry : Freed t [tn] s (freeEntry t tn cause s) := by
  cases he : s.entry? t tn with
  | none =>
    have hsame : freeEntry t tn cause s = s := by simp only [freeEntry, he]
    rw [hsame]
    refine ⟨fun k => ?_, fun _ => rfl, fun d => ⟨fun hd => ⟨hd, fun k hk e hke => ?_⟩, And.left⟩, rfl, rfl⟩
    · split
      · next hk => rw [List.mem_singleton.1 hk, he]; rfl
      · rfl
    · rw [List.mem_singleton.1 hk, he] at hke
      cases hke
  | some e =>
    obtain ⟨hgone, hother, hinsts, hdir⟩ := freeEntry_frees (cause := cause) he
    have htree := slotFreed_tree (s := s) (t := t) (tn := tn) (cause := cause) e
    refine ⟨fun k => ?_, hinsts t, fun d => ?_, ?_, ?_⟩
    · split
      · next hk => rw [List.mem_singleton.1 hk, hgone]; rfl
      · next hk => exact hother t k (.inr (mt List.mem_singleton.2 hk))
    · rw [hdir, List.mem_filter, decide_eq_true_iff]
      refine and_congr_right fun _ => ⟨fun hne k hk x hx => ?_, fun hall => (hall tn List.mem_cons_self e he).symm⟩
      rw [List.mem_singleton.1 hk, he] at hx
      cases hx
      exact Ne.symm hne
    · rw [freeEntry_eq he, ((calm_withdrawn _ _).trees t).onAir, htree]
      simp
    · rw [freeEntry_eq he, quiet_withdrawn.posted.1]
      simp [State.probeGone, State.withItems, htree]

theorem Freed.cons {r s' : State} (h : Freed t [tn] s r) (hl : Freed t l r s') : Freed t (tn :: l) s s' := by
  have hentries : ∀ k, k ≠ tn → (r.entry? t k).map Entry.identity = (s.entry? t k).map Entry.identity := fun k hk =>
    (h.entries k).trans (if_neg (mt List.mem_singleton.1 hk))
  have hgone : r.entry? t tn = none := Option.map_eq_none_iff.1 ((h.entries tn).trans (if_pos List.mem_cons_self))
  refine ⟨fun k => ?_, fun k => (hl.insts k).trans (h.insts k), fun d => ?_, hl.onAir.trans h.onAir,
    hl.broadcast.trans h.broadcast⟩
  · rw [hl.entries]
    by_cases hk : k = tn
    · rw [hk, hgone, if_pos List.mem_cons_self]
      simp
    · rw [hentries k hk]
      simp [hk]
  · rw [hl.directory, h.directory]
    constructor
    · rintro ⟨⟨hd, hhead⟩, htail⟩
      refine ⟨hd, fun k hk e he => ?_⟩
      by_cases hka : k = tn
      · exact hhead k (List.mem_singleton.2 hka) e he
      · obtain ⟨x, hx, hid⟩ := identity_eq_of_map (hentries k hka).symm he
        rw [← serial_of_identity hid]
        exact htail k ((List.mem_cons.1 hk).resolve_left hka) x hx
    · rintro ⟨hd, hall⟩
      refine ⟨⟨hd, fun k hk => hall k (List.mem_cons.2 (.inl (List.mem_singleton.1 hk)))⟩, fun k hk x hx => ?_⟩
      by_cases hka : k = tn
      · rw [hka, hgone] at hx
        cases hx
      · obtain ⟨e, he, hid⟩ := identity_eq_of_map (hentries k hka) hx
        rw [← serial_of_identity hid]
        exact hall k (List.mem_cons_of_mem _ hk) e he

theorem freed_foldl (cause : Cause) (l : List Nat) (s : State) :
    Freed t l s (l.foldl (fun s tn => freeEntry t tn cause s) s) := by
  induction l generalizing s with
  | nil => exact Freed.refl s
  | cons a l ih => exact freed_freeEntry.cons (ih _)

/-- The TNs that a lost hold frees are those of the entries LOST until the current epoch (R48). -/
theorem mem_holdsEnding {n : Nat} : k ∈ (s.tree t).tnsWith (fun e => e.holdEnds n) ↔
    ∃ e, s.entry? t k = some e ∧ e.state = .lost n := by
  simp only [mem_tnsWith, Entry.holdEnds, beq_iff_eq, State.entry?]

end

/-- Settles O19: the entries whose hold ends are freed one after another, in ascending TN order. -/
theorem lostHoldsFree : Obligations.LostHoldsFree := by
  intro s t hs hdue
  have hexec : exec (.lostHoldDeadline t) s = s.take (takeDelivery (.lostHoldDeadline t)) :=
    exec_command (.lostHoldDeadline t) s
  rw [hexec, take_of_taking hs, takeDelivery_of_mem hdue]
  have hmem := fun k => mem_holdsEnding (s := s) (t := t) (k := k) (n := s.epoch)
  generalize hl : (s.tree t).tnsWith (fun e => e.holdEnds s.epoch) = l at hmem
  have hdo : deliveryEffect (.lostHoldDeadline t) (s.taken (.lostHoldDeadline t)) =
      l.foldl (fun s tn => freeEntry t tn .holdExpired s) (s.taken (.lostHoldDeadline t)) := by
    rw [← hl]
    rfl
  have hothers := (within_lostHoldDue (P := (· = t)) (s := s.taken (.lostHoldDeadline t)) rfl).others
  rw [show lostHoldDue t (s.taken (.lostHoldDeadline t)) = _ from hdo] at hothers
  obtain ⟨hentries, hinsts, hdir, hair, hbroadcast⟩ := freed_foldl (t := t) .holdExpired l (s.taken (.lostHoldDeadline t))
  rw [hdo]
  generalize l.foldl (fun s tn => freeEntry t tn .holdExpired s) (s.taken (.lostHoldDeadline t)) = y at *
  refine ⟨_, rfl, fun k => ⟨(hentries k).trans ?_, hinsts k⟩, fun d => (hdir d).trans ?_, hair, hbroadcast, hothers⟩
  · have hentry : (s.taken (.lostHoldDeadline t)).entry? t k = s.entry? t k := rfl
    rw [hentry]
    cases he : s.entry? t k with
    | none => simp
    | some e =>
      have hiff : k ∈ l ↔ e.state = .lost s.epoch := by simp [hmem, he]
      by_cases hst : e.state = .lost s.epoch <;> simp [hiff, hst]
  · refine and_congr_right fun _ => ⟨fun h k e he hst => h k ((hmem k).2 ⟨e, he, hst⟩) e he, fun h k hk e he => ?_⟩
    obtain ⟨x, hx, hst⟩ := (hmem k).1 hk
    obtain rfl : e = x := Option.some.inj (he.symm.trans hx)
    exact h k e he hst

/-! ### An entry whose probe work failed (R118, R145) -/

section
variable {s q x : State} {t : TreeId} {tn : Nat} {e : Entry} {cause : Cause} {o : ProbeOp} {inst : BitVec 16}

theorem loseOrRetire_eq (he : s.entry? t tn = some e) :
    loseOrRetire t tn cause s = if e.ever then enterLost t tn cause s else enterRetiring t tn cause s := by
  simp only [loseOrRetire, he]

theorem loseOrRetire_becomes (he : s.entry? t tn = some e) :
    Becomes t tn (fun x => (x.inst, x.serial, if e.ever then .lost (s.epoch + (s.params t).lostHold) else .retiring)) s
      (loseOrRetire t tn cause s) := by
  rw [loseOrRetire_eq he]
  split
  · exact enterLost_becomes
  · exact enterRetiring_becomes

theorem probePosted_of_none {T : Tree} (h : T.seq.op = none) : T.probePosted tn inst = false := by
  simp [Tree.probePosted, h]

/-- With no operation in flight, an entry that goes to LOST posts nothing (R44). -/
theorem postsAlike_enterLost (h : (s.tree t).seq.op = none) : PostsAlike t (enterLost t tn cause s) s := by
  cases he : s.entry? t tn with
  | none => simp only [enterLost, he]; rfl
  | some e =>
    have hop : ((transit t tn cause (Entry.toLost (s.epoch + (s.params t).lostHold)) s).tree t).seq.op = none := by
      rw [(transited_transit he).seq, h]
    rw [enterLost_eq he]
    refine postsAlike_withdrawn.trans ?_
    rw [probeGone_of_not_posted (probePosted_of_none hop)]
    exact postsAlike_transit fun _ => rfl

/-- With no operation in flight, a failed entry posts nothing where it has ever operated, and its RETIRE otherwise. -/
theorem postsAlike_loseOrRetire (he : s.entry? t tn = some e) (hop : (s.tree t).seq.op = none) (h : PostsAlike t s q)
    (hp : (q.tree t).probePosted tn e.inst = false) :
    PostsAlike t (loseOrRetire t tn cause s) (if e.ever then q else q.retirePosted t tn) := by
  rw [loseOrRetire_eq he]
  split
  · exact (postsAlike_enterLost hop).trans h
  · exact h.enterRetiring he ((probePosted_of_none hop).trans hp.symm)

/-- With no operation in flight, withdrawing an entry leaves no work for any entry of its TN. -/
theorem dormant_withdrawn_of_none (hop : (s.tree t).seq.op = none) (hw : ∀ x, s.entry? t tn = some x → x.waiting = false)
    (i : BitVec 16) : Dormant ((withdrawn t tn inst s).tree t) tn i := by
  have hother : ∀ o, (s.tree t).seq.op = some o → ¬(o.tn = tn ∧ o.inst = inst) := fun o ho => by
    rw [hop] at ho
    cases ho
  rw [withdrawn_eq, workDropped_of_other hother]
  refine dormant_takeTasks (dormant_refill ?_)
  rw [State.setTasks, tree_modSeq_same]
  exact ⟨by simp, hw, fun o ho => by simp [hop] at ho⟩

/-- With no operation in flight, a failed entry leaves no work for any entry of its TN (R44, R49, R142). -/
theorem dormant_loseOrRetire (he : s.entry? t tn = some e) (hop : (s.tree t).seq.op = none) (i : BitVec 16) :
    Dormant ((loseOrRetire t tn cause s).tree t) tn i := by
  have hidle : ∀ f : Entry → Entry, (f e).waiting = false →
      Dormant ((withdrawn t tn e.inst (transit t tn cause f s)).tree t) tn i := fun f hf => by
    have htr := transited_transit (cause := cause) (f := f) he
    refine dormant_withdrawn_of_none (by rw [htr.seq, hop]) (fun x hx => ?_) i
    rw [htr.self, he] at hx
    cases hx
    exact hf
  rw [loseOrRetire_eq he]
  split
  · rw [enterLost_eq he]
    exact hidle _ rfl
  · rw [enterRetiring_eq he]
    exact dormant_postMust (hidle _ rfl) _ _ _

/-! ### ProbeWait (R145) -/

theorem figures_eq_of_map {r : State} {e' : Entry} {k : Nat}
    (h : (r.entry? t k).map Entry.figures = (s.entry? t k).map Entry.figures) (he : s.entry? t k = some e') :
    ∃ x, r.entry? t k = some x ∧ x.figures = e'.figures :=
  Option.map_eq_some_iff.mp (h.trans (by rw [he]; rfl))

theorem ever_of_figures {e' : Entry} (h : e.figures = e'.figures) : e.ever = e'.ever := by
  simpa [Entry.figures] using congrArg Entry.ever h

theorem identity_of_figures {e' : Entry} (h : e.figures = e'.figures) : e.identity = e'.identity := by
  simpa [Entry.figures, Entry.identity] using congrArg Entry.identity h

/-- A waiting operation has no message, so giving it up posts nothing and takes nothing back. -/
theorem quiet_abandonOp_of_waiting (ho : (s.tree t).seq.op = some o) (hw : o.waiting = true) : Quiet t s (abandonOp t s) := by
  have hphase : ∀ pl qe qs g, o.phase ≠ .posted pl qe qs g := fun pl qe qs g hp => by
    simp [ProbeOp.waiting, hp] at hw
  simp only [abandonOp, ho]
  exact (quiet_giveUpProbe hphase).trans quiet_discardOp

theorem probePosted_of_waiting (ho : (s.tree t).seq.op = some o) (hw : o.waiting = true) :
    (s.tree t).probePosted tn inst = false := by
  rw [Bool.eq_false_iff]
  intro h
  obtain ⟨x, pl, qe, qs, g, hx, hp, -⟩ := probePosted_iff.mp h
  obtain rfl : x = o := Option.some.inj (hx.symm.trans ho)
  simp [ProbeOp.waiting, hp] at hw

/-- An operation that has waited long enough is given up, and its entry fails (R145). -/
theorem probeWaitExpired_gives_up (ho : (s.tree t).seq.op = some o) (hw : o.waiting = true)
    (hwait : o.waitStart + (s.params t).probeWait = s.epoch) (he : s.entry? t o.tn = some e)
    (hin : e.isIn o.inst o.expected.name = true) :
    probeWaitExpired t s = takeTasks t (loseOrRetire t o.tn .noGrant (abandonOp t s)) := by
  simp [probeWaitExpired, ho, hw, hwait, he, hin]

theorem probeWaitExpired_stays (ho : (s.tree t).seq.op = some o)
    (h : o.waiting = false ∨ o.waitStart + (s.params t).probeWait ≠ s.epoch) : probeWaitExpired t s = s := by
  have hcond : ¬(o.waiting && o.waitStart + (s.params t).probeWait == s.epoch) = true := by
    rw [Bool.and_eq_true, beq_iff_eq, not_and_or]
    exact h.imp (fun hw => by simp [hw]) id
  simp only [probeWaitExpired, ho, if_neg hcond]

/-- What a failed operation leaves of its entry and its tree (R44, R49). -/
structure Fails (t : TreeId) (tn : Nat) (e : Entry) (q s s' : State) : Prop where
  entry     : (s'.entry? t tn).map Entry.identity =
    some (e.inst, e.serial, if e.ever then .lost (s.epoch + (s.params t).lostHold) else .retiring)
  posted    : s'.PostedAs (if e.ever then q else q.retirePosted t tn) t
  dormant   : ∀ i, Dormant (s'.tree t) tn i
  directory : s'.directory = s.directory

/-- An entry whose operation has ended fails, whatever calm and quiet work stands before and behind. -/
theorem fails_of_loseOrRetire {r : State} (he : s.entry? t tn = some e) (hcalm : Calm s r) (hop : (r.tree t).seq.op = none)
    (hposts : PostsAlike t r q) (hp : (q.tree t).probePosted tn e.inst = false) :
    Fails t tn e q s (loseOrRetire t tn cause r) := by
  obtain ⟨x, hx, hfig⟩ := figures_eq_of_map ((hcalm.trees t).entries tn) he
  have hid := identity_of_figures hfig
  have hever := ever_of_figures hfig
  have hbecomes := loseOrRetire_becomes (cause := cause) hx
  have hposted := postsAlike_loseOrRetire (cause := cause) hx hop hposts (inst_of_identity hid ▸ hp)
  refine ⟨?_, hever ▸ hposted.postedAs, dormant_loseOrRetire hx hop, hbecomes.directory.trans hcalm.directory⟩
  have hparams : r.params t = s.params t := congrArg Controller.params (hcalm.trees t).ctl
  rw [hbecomes.self, hx, Option.map_some, hever, hcalm.epoch, hparams, inst_of_identity hid, serial_of_identity hid]

theorem Fails.takeTasks {s' : State} (h : Fails t tn e q s s') : Fails t tn e q s (takeTasks t s') :=
  ⟨(calm_takeTasks.identity t tn).trans h.entry, PostedAs_trans t quiet_takeTasks.posted h.posted,
    fun i => dormant_takeTasks (h.dormant i), calm_takeTasks.directory.trans h.directory⟩

end

/-- Settles O22: the operation is given up and its entry fails with no operation in flight; otherwise nothing is due. -/
theorem probeWaitGivesUp : Obligations.ProbeWaitGivesUp := by
  intro s t o hs hdue ho
  have hexec : exec (.probeWaitExpiry t) s = s.take (takeDelivery (.probeWaitExpiry t)) :=
    exec_command (.probeWaitExpiry t) s
  rw [hexec, take_of_taking hs, takeDelivery_of_mem hdue]
  refine ⟨fun e hw hwait he hin => ?_, fun h => ?_⟩
  · have heq : deliveryEffect (.probeWaitExpiry t) (s.taken (.probeWaitExpiry t)) =
        takeTasks t (loseOrRetire t o.tn .noGrant (abandonOp t (s.taken (.probeWaitExpiry t)))) :=
      probeWaitExpired_gives_up (s := s.taken (.probeWaitExpiry t)) ho hw hwait he hin
    have hothers := (within_probeWaitExpired (P := (· = t)) (s := s.taken (.probeWaitExpiry t)) rfl).others
    have hquiet := quiet_abandonOp_of_waiting (s := s.taken (.probeWaitExpiry t)) ho hw
    have hposts : PostsAlike t (abandonOp t (s.taken (.probeWaitExpiry t))) s :=
      .of_figures hquiet.posted fun k => (calm_abandonOp.trees t).entries k
    obtain ⟨hentry, hposted, hdormant, hdir⟩ :=
      (fails_of_loseOrRetire (s := s.taken (.probeWaitExpiry t)) (cause := .noGrant) he calm_abandonOp op_abandonOp hposts
        (probePosted_of_waiting ho hw)).takeTasks
    refine ⟨_, rfl, ?_⟩
    rw [heq]
    refine ⟨hentry, hposted, fun o' ho' htn => ?_, hdir, heq ▸ hothers⟩
    exact ((hdormant o'.inst).op o' ho').elim (fun hne => hne htn) fun hne => hne rfl
  · have heq : deliveryEffect (.probeWaitExpiry t) (s.taken (.probeWaitExpiry t)) = s.taken (.probeWaitExpiry t) :=
      probeWaitExpired_stays (s := s.taken (.probeWaitExpiry t)) ho h
    rw [heq, settle_of_entered (s := s.taken (.probeWaitExpiry t)) hs.entered,
      settle_of_entered (s := s.taken (.probeWaitExpiry t)) hs.entered]

end Sys2Proof.Machine
end

section
/-! PROOF. The host processor's requests on a terminal (O60): what MUTE_TN, UNMUTE_TN, RANGE_NOW and RETIRE_TN make of their
entry, and the hunt's step that ends as its candidate leaves MUTED (R53..R56, R146, R168, R171). -/

namespace Sys2Proof.Machine

/-! ### The candidates that a hunt offers (R168, R171) -/

section
variable {s r : State} {t : TreeId} {x : Candidate} {h : Hunt} {l skipped rest : List Candidate} {k tn : Nat}

/-- A candidate is offered its step where its entry is OPERATING under the candidate's number. -/
theorem isIn_operating (e : Entry) (i : BitVec 16) : e.isIn i .operating = (e.inst == i && e.operating) := by
  cases hst : e.state <;> simp [Entry.isIn, Entry.operating, EntryState.name, hst]

theorem offers_eq : ((s.entry? t x.tn).map (·.isIn x.inst .operating)).getD false = s.offers t x := by
  simp only [State.offers, isIn_operating]

/-- Which candidates are offered depends on the identities of their entries alone. -/
theorem offers_of_identity (h : (r.entry? t x.tn).map Entry.identity = (s.entry? t x.tn).map Entry.identity) :
    r.offers t x = s.offers t x := by
  cases hs : s.entry? t x.tn with
  | none =>
    have hr : r.entry? t x.tn = none := by simpa [hs] using h
    simp only [State.offers, hr, hs]
  | some e =>
    obtain ⟨y, hy, hid⟩ := identity_eq_of_map h.symm hs
    simp only [State.offers, hs, hy, Option.map_some, operating_of_identity hid, inst_of_identity hid]

theorem offers_of_idle (h : ∀ e, s.entry? t x.tn = some e → e.operating = false) : s.offers t x = false := by
  cases he : s.entry? t x.tn with
  | none => simp [State.offers, he]
  | some e => simp [State.offers, he, h e he]

theorem entry?_of_offers (h : s.offers t x = true) : ∃ e, s.entry? t x.tn = some e ∧ e.inst = x.inst ∧ e.operating = true := by
  cases he : s.entry? t x.tn with
  | none => simp [State.offers, he] at h
  | some e =>
    simp only [State.offers, he, Option.map_some, Option.getD_some, Bool.and_eq_true, beq_iff_eq] at h
    exact ⟨e, rfl, h.1, h.2⟩

/-- Candidates that are no longer OPERATING are passed over and counted as skipped (R168). -/
theorem huntNext_skips (hskip : ∀ y ∈ skipped, s.offers t y = false) :
    huntNext t h (skipped ++ l) s = huntNext t { h with skipped := h.skipped + skipped.length } l s := by
  induction skipped generalizing h with
  | nil => rfl
  | cons y skipped ih =>
    have hy : ¬((s.entry? t y.tn).map (·.isIn y.inst .operating)).getD false = true := by
      rw [offers_eq, hskip y List.mem_cons_self]
      exact Bool.false_ne_true
    rw [List.cons_append, huntNext, if_neg hy, ih fun z hz => hskip z (List.mem_cons_of_mem _ hz)]
    simp only [List.length_cons, Nat.add_assoc, Nat.add_comm 1]

/-- The first candidate still OPERATING has its step begun (R168). -/
theorem huntNext_first (hx : s.offers t x = true) :
    huntNext t h (x :: rest) s =
      huntMute t x (s.modLight t fun m => { m with hunt := some { h with rest := rest, current := x, step := .muting } }) := by
  rw [huntNext, if_pos (offers_eq.trans hx)]

theorem State.entry?_modLight (f : LightMonitor → LightMonitor) (j : TreeId) (k : Nat) :
    (s.modLight t f).entry? j k = s.entry? j k := by
  by_cases hj : j = t
  · rw [hj]
    exact entry?_of_slots (by simp) k
  · simp [State.entry?, State.modLight, hj]

/-- The hunt's mute changes no entry's identity but its candidate's, and no directory. -/
theorem identity_huntMute (hk : k ≠ x.tn) :
    ((huntMute t x s).entry? t k).map Entry.identity = (s.entry? t k).map Entry.identity ∧
      (huntMute t x s).directory = s.directory := by
  have hcalm := calm_huntMute (r := s) (t := t) (x := x)
  cases he : s.entry? t x.tn with
  | none =>
    have hsame : transit t x.tn .huntMute (Entry.toMuted (.hunt false)) s = s := by
      unfold transit
      rw [he]
    rw [hsame] at hcalm
    exact ⟨hcalm.identity t k, hcalm.directory⟩
  | some e =>
    have htr := transited_transit (cause := .huntMute) (f := Entry.toMuted (.hunt false)) he
    exact ⟨(hcalm.identity t k).trans (congrArg _ (htr.other t k (.inr hk))), hcalm.directory.trans htr.directory⟩

/-- A hunt's next step changes no entry that is not OPERATING, and no directory (R168). -/
theorem identity_huntNext (hk : ∀ e, s.entry? t k = some e → e.operating = false) :
    ((huntNext t h l s).entry? t k).map Entry.identity = (s.entry? t k).map Entry.identity ∧
      (huntNext t h l s).directory = s.directory := by
  induction l generalizing h with
  | nil =>
    rw [huntNext, huntUnresolved, huntReport]
    refine ⟨?_, rfl⟩
    rw [State.entry?, tree_report]
    exact congrArg _ (State.entry?_modLight _ t k)
  | cons y l ih =>
    by_cases hy : s.offers t y = true
    · rw [huntNext_first hy]
      have hne : k ≠ y.tn := by
        rintro rfl
        rw [offers_of_idle hk] at hy
        cases hy
      obtain ⟨hid, hdir⟩ := identity_huntMute (t := t) (x := y)
        (s := s.modLight t fun m => { m with hunt := some { h with rest := l, current := y, step := .muting } }) hne
      exact ⟨hid.trans (congrArg _ (State.entry?_modLight _ _ _)), hdir⟩
    · have hskip := huntNext_skips (skipped := [y]) (l := l) (h := h) (s := s) (t := t) (by simpa using hy)
      rw [List.singleton_append] at hskip
      rw [hskip]
      exact ih

/-! ### A candidate that leaves MUTED (R171) -/

/-- Giving up a check of the hunt changes the monitor's check alone, and posts nothing. -/
theorem giveUpHuntCheck_tree :
    ∃ c n, SameBlocks { s.tree t with light := { (s.tree t).light with check := c, stale := n } }
      ((giveUpHuntCheck t s).tree t) := by
  unfold giveUpHuntCheck
  split
  · split
    · obtain ⟨n, hn⟩ := giveUpCheck_tree (s := s) (t := t)
      exact ⟨none, n, hn⟩
    · exact ⟨_, _, SameBlocks.refl _⟩
  · exact ⟨_, _, SameBlocks.refl _⟩

theorem sent_giveUpHuntCheck : ∃ more, ((giveUpHuntCheck t s).tree t).out.grant = (s.tree t).out.grant ++ more := by
  unfold giveUpHuntCheck
  split
  · split
    · exact quiet_giveUpCheck.sent
    · exact (Quiet.refl s).sent
  · exact (Quiet.refl s).sent

theorem giveUpHuntCheck_clock : (giveUpHuntCheck t s).directory = s.directory ∧ (giveUpHuntCheck t s).epoch = s.epoch := by
  unfold giveUpHuntCheck
  split
  · split
    · unfold giveUpCheck
      split
      · exact ⟨rfl, rfl⟩
      · simp only
        split
        · exact ⟨rfl, rfl⟩
        · exact ⟨rfl, rfl⟩
    · exact ⟨rfl, rfl⟩
  · exact ⟨rfl, rfl⟩

theorem candidateLeft_of_current {i : BitVec 16} (hh : (s.tree t).light.hunt = some h) (hc : h.current = ⟨tn, i⟩) :
    candidateLeft t tn i s = huntNext t { h with skipped := h.skipped + 1 } h.rest (giveUpHuntCheck t s) := by
  simp only [candidateLeft, hh, hc, if_true]

theorem candidateLeft_of_other {i : BitVec 16} (hc : ∀ h, (s.tree t).light.hunt = some h → h.current ≠ ⟨tn, i⟩) :
    candidateLeft t tn i s = s := by
  unfold candidateLeft
  split
  · next h hh => exact if_neg (hc h hh)
  · rfl

/-- A hunt that loses its candidate changes no entry that is not OPERATING, and no directory. -/
theorem identity_candidateLeft (i : BitVec 16) (hk : ∀ e, s.entry? t k = some e → e.operating = false) :
    ((candidateLeft t tn i s).entry? t k).map Entry.identity = (s.entry? t k).map Entry.identity ∧
      (candidateLeft t tn i s).directory = s.directory := by
  unfold candidateLeft
  split
  · split
    · obtain ⟨c, n, hblocks⟩ := giveUpHuntCheck_tree (s := s) (t := t)
      have hentry : (giveUpHuntCheck t s).entry? t k = s.entry? t k := entry?_of_slots hblocks.slots k
      obtain ⟨hid, hdir⟩ := identity_huntNext (fun e he => hk e (hentry ▸ he))
      exact ⟨hid.trans (congrArg _ hentry), hdir.trans giveUpHuntCheck_clock.1⟩
    · exact ⟨rfl, rfl⟩
  · exact ⟨rfl, rfl⟩

/-- From `s` to `r` the entry of one TN, OPERATING in neither, has changed, with what `q` holds posted. -/
structure Vacated (t : TreeId) (tn : Nat) (s q r : State) : Prop where
  other  : ∀ k, k ≠ tn → (r.entry? t k).map Entry.identity = (s.entry? t k).map Entry.identity
  before : ∀ e, s.entry? t tn = some e → e.operating = false
  after  : ∀ e, r.entry? t tn = some e → e.operating = false
  light  : (r.tree t).light = (s.tree t).light
  ctl    : (r.tree t).ctl = (s.tree t).ctl
  epoch  : r.epoch = s.epoch
  sent   : ∃ more, (r.tree t).out.grant = (s.tree t).out.grant ++ more
  posts  : PostsAlike t r q
  probes : ∀ k i, k ≠ tn → (r.tree t).probePosted k i = (q.tree t).probePosted k i

variable {q : State} {i : BitVec 16}

theorem Vacated.offers (hv : Vacated t tn s q r) (x : Candidate) : r.offers t x = s.offers t x := by
  by_cases hx : x.tn = tn
  · rw [offers_of_idle (hx ▸ hv.after), offers_of_idle (hx ▸ hv.before)]
  · exact offers_of_identity (hv.other x.tn hx)

/-- With no candidate left to offer, the hunt ends UNRESOLVED (R171). -/
theorem candidateLeft_unresolved (hv : Vacated t tn s q r) (hh : (s.tree t).light.hunt = some h)
    (hc : h.current = ⟨tn, i⟩) (hnone : ∀ x ∈ h.rest, s.offers t x = false) :
    s.HuntUnresolved (candidateLeft t tn i r) t ∧ (candidateLeft t tn i r).PostedAs q t := by
  obtain ⟨c, n, hblocks⟩ := giveUpHuntCheck_tree (s := r) (t := t)
  have hepoch : (giveUpHuntCheck t r).epoch = s.epoch := giveUpHuntCheck_clock.2.trans hv.epoch
  have hskip : ∀ x ∈ h.rest, (giveUpHuntCheck t r).offers t x = false := fun x hx => by
    rw [offers_of_identity (congrArg _ (entry?_of_slots hblocks.slots x.tn)), hv.offers, hnone x hx]
  rw [candidateLeft_of_current (hv.light ▸ hh) hc]
  have hnext := huntNext_skips (h := { h with skipped := h.skipped + 1 }) (l := []) hskip
  rw [List.append_nil] at hnext
  rw [hnext, huntNext, huntUnresolved, huntReport]
  generalize giveUpHuntCheck t r = g at hblocks hepoch ⊢
  have hparams : g.params t = s.params t := by rw [State.params, hblocks.ctl, hv.ctl, State.params]
  rw [hepoch, hparams]
  refine ⟨⟨?_, ?_, ?_⟩, ?_⟩
  · rw [tree_report, tree_modLight_same]
  · rw [tree_report, tree_modLight_same]
  · rw [tree_report, tree_modLight_same]
  · refine PostedAs_trans t (quiet_report _).posted (PostedAs_trans t (quiet_modLight _).posted ?_)
    exact ((PostsAlike.of_slots hblocks.msgq hblocks.slots).trans hv.posts).postedAs

/-- The next candidate still OPERATING has its step begun, those before it skipped with the one that left (R168, R171). -/
theorem candidateLeft_begins (hv : Vacated t tn s q r) (hh : (s.tree t).light.hunt = some h)
    (hc : h.current = ⟨tn, i⟩) (hrest : h.rest = skipped ++ x :: rest) (hskip : ∀ y ∈ skipped, s.offers t y = false)
    (hx : s.offers t x = true) :
    s.StepBegun q (candidateLeft t tn i r) t
      { h with rest := rest, current := x, step := .muting, skipped := h.skipped + 1 + skipped.length } x := by
  obtain ⟨c, n, hblocks⟩ := giveUpHuntCheck_tree (s := r) (t := t)
  have hoffers : ∀ y, (giveUpHuntCheck t r).offers t y = s.offers t y := fun y => by
    rw [offers_of_identity (congrArg _ (entry?_of_slots hblocks.slots y.tn)), hv.offers]
  have hsent : ∃ more, ((giveUpHuntCheck t r).tree t).out.grant = (s.tree t).out.grant ++ more := by
    obtain ⟨more, hmore⟩ := hv.sent
    obtain ⟨more', hmore'⟩ := sent_giveUpHuntCheck (s := r) (t := t)
    exact ⟨more ++ more', by rw [hmore', hmore, List.append_assoc]⟩
  rw [candidateLeft_of_current (hv.light ▸ hh) hc, hrest,
    huntNext_skips fun y hy => (hoffers y).trans (hskip y hy), huntNext_first ((hoffers x).trans hx)]
  obtain ⟨e, he, hi, ho⟩ := entry?_of_offers ((hoffers x).trans hx)
  have hne : x.tn ≠ tn := fun htn => by
    rw [offers_of_idle (htn ▸ hv.before)] at hx
    cases hx
  generalize giveUpHuntCheck t r = g at hblocks hsent he ⊢
  generalize hy : g.modLight t _ = y
  have hytree : ∃ m, y.tree t = { g.tree t with light := m } ∧
      m.hunt = some { h with rest := rest, current := x, step := .muting, skipped := h.skipped + 1 + skipped.length } :=
    ⟨_, by rw [← hy, tree_modLight_same], rfl⟩
  obtain ⟨m, hytree, hhunt⟩ := hytree
  have hye : y.entry? t x.tn = some e := (entry?_of_slots (by rw [hytree]) _).trans he
  refine huntMute_begun (by rw [hytree]; exact hhunt) hye hi ho (by rwa [hytree]) ?_ ?_
  · exact (PostsAlike.of_slots (by rw [hytree]; exact hblocks.msgq) (by rw [hytree]; exact hblocks.slots)).trans hv.posts
  · rw [← hv.probes x.tn x.inst hne]
    exact probePosted_of_op (by rw [hytree]; exact congrArg Sequencer.op hblocks.seq) _

end

/-! ### What a request on a terminal makes of its entry (R37, R38) -/

/-- A transition that neither leaves nor enters OPERATING sends no notice (R38). -/
theorem grant_transit_idle {s : State} {t : TreeId} {tn : Nat} {e : Entry} {f : Entry → Entry} {cause : Cause}
    (he : s.entry? t tn = some e) (ho : e.operating = false) (hf : (f e).operating = false) :
    ((transit t tn cause f s).tree t).out.grant = (s.tree t).out.grant := by
  unfold transit
  rw [he]
  simp [ho, hf]

/-- What a request that is carried out leaves: its entry with number and serial kept, off the air, the directory unchanged. -/
structure Carried (t : TreeId) (tn : Nat) (e : Entry) (want : EntryState) (s s' : State) : Prop where
  entry     : (s'.entry? t tn).map Entry.identity = some (e.inst, e.serial, want)
  offAir    : e.operating = true → tn ∉ (s'.tree t).onAir ∧ s.Sends s' t (.terminalOff tn)
  directory : s'.directory = s.directory

/-- No entry of the tree but that of one TN changes its identity. -/
def OthersKept (t : TreeId) (tn : Nat) (s s' : State) : Prop :=
  ∀ k, k ≠ tn → (s'.entry? t k).map Entry.identity = (s.entry? t k).map Entry.identity

section
variable {s s' q r : State} {t : TreeId} {tn k : Nat} {e y : Entry} {f : Entry → Entry} {cause : Cause} {want : EntryState}

theorem operating_eq (hst : y.state = want) (hw : ∀ d, want ≠ .operating d) : y.operating = false := by
  subst hst
  cases hst : y.state with
  | operating d => exact absurd hst (hw d)
  | assigning | ranging | verifying | muted | lost | retiring => simp [Entry.operating, hst]

/-- A transition out of OPERATING or within the other states, whatever calm work follows it. -/
theorem carried_of_transit (he : s.entry? t tn = some e) (hc : Calm (transit t tn cause f s) s')
    (hs : ∃ more, (s'.tree t).out.grant = ((transit t tn cause f s).tree t).out.grant ++ more)
    (hf : (f e).operating = false) (hid : (f e).identity = (e.inst, e.serial, want)) :
    Carried t tn e want s s' ∧ OthersKept t tn s s' := by
  have hbecomes := (transited_transit (cause := cause) (f := f) he).becomes hc
  refine ⟨⟨?_, fun ho => offAir_of_transit he ho hf hc hs, hbecomes.directory⟩, fun k hk => hbecomes.other t k (.inr hk)⟩
  rw [hbecomes.self, he, Option.map_some, hid]

/-- The hunt that loses its candidate to a request leaves the request's entry as the request made it. -/
theorem Carried.candidateLeft (h : Carried t tn e want s r) (hw : ∀ d, want ≠ .operating d) (ho : e.operating = false)
    (i : BitVec 16) : Carried t tn e want s (candidateLeft t tn i r) := by
  obtain ⟨hid, hdir⟩ := identity_candidateLeft (t := t) (s := r) (k := tn) i fun y hy => by
    have hentry := h.entry
    rw [hy, Option.map_some, Option.some.injEq] at hentry
    exact operating_eq (congrArg (fun x : BitVec 16 × Serial × EntryState => x.2.2) hentry) hw
  exact ⟨hid.trans h.entry, fun hop => absurd (hop.symm.trans ho) (by simp), hdir.trans h.directory⟩

theorem operating_of_acceptsUnmute (h : acceptsUnmute e.state = true) : e.operating = false := by
  cases hst : e.state <;> simp_all [acceptsUnmute, Entry.operating]

theorem Carried.toldMuted (h : Carried t tn e want s r) (hw : ∀ d, want ≠ .operating d) :
    Carried t tn e want s (toldMuted ⟨t, tn, e⟩ r) := by
  unfold Machine.toldMuted
  split
  · next hmuted => exact h.candidateLeft hw (operating_of_acceptsUnmute hmuted) _
  · exact h

/-- Unless its entry is the hunt's candidate, the Light Monitor has nothing to do. -/
theorem toldMuted_of_other (hlight : (r.tree t).light = (s.tree t).light)
    (h : ∀ h, (s.tree t).light.hunt = some h → h.current ≠ { tn := tn, inst := e.inst }) :
    toldMuted ⟨t, tn, e⟩ r = r := by
  unfold toldMuted
  split
  · exact candidateLeft_of_other fun g hg => h g (hlight ▸ hg)
  · rfl

theorem toldMuted_of_muted (h : acceptsUnmute e.state = true) : toldMuted ⟨t, tn, e⟩ r = candidateLeft t tn e.inst r :=
  if_pos h

/-! ### MUTE_TN (R54) -/

theorem muteTn_carried (he : s.entry? t tn = some e) :
    Carried t tn e (.muted .host) s (muteTn ⟨t, tn, e⟩ s) ∧ OthersKept t tn s (muteTn ⟨t, tn, e⟩ s) := by
  refine carried_of_transit (cause := .hostMute) (f := Entry.toMuted .host) he ?_ ?_ rfl rfl
  · exact (calm_withdrawn _ _).trans (calm_postMust _ _ _)
  · rw [muteTn, grant_postMust]
    exact sent_withdrawn

theorem muteTn_posted (he : s.entry? t tn = some e) :
    (muteTn ⟨t, tn, e⟩ s).PostedAs (postMust t tn (.mute tn) .registry (s.probeGone t tn e.inst)).state t := by
  have htr := transited_transit (cause := .hostMute) (f := Entry.toMuted .host) he
  have halike : PostsAlike t (transit t tn .hostMute (Entry.toMuted .host) s) s := postsAlike_transit fun _ => rfl
  exact ((postsAlike_withdrawn.trans (halike.probeGone (probePosted_of_op (by rw [htr.seq]) _))).postMust _ _).postedAs

theorem muteTn_idles (he : s.entry? t tn = some e) : (muteTn ⟨t, tn, e⟩ s).Idles t tn e.inst := by
  refine (dormant_postMust (dormant_of_withdrawn fun y hy => ?_) _ _ _).idles
  rw [(transited_transit he).self, he] at hy
  cases hy
  rfl

/-! ### RETIRE_TN (R53) -/

theorem retireTn_of_retiring (h : e.state = .retiring) : retireTn ⟨t, tn, e⟩ s = s := if_pos h

theorem retireTn_of_other (h : e.state ≠ .retiring) :
    retireTn ⟨t, tn, e⟩ s = toldMuted ⟨t, tn, e⟩ (enterRetiring t tn .hostRetire s) := if_neg h

theorem sent_enterRetiring (he : s.entry? t tn = some e) :
    ∃ more, ((enterRetiring t tn cause s).tree t).out.grant =
      ((transit t tn cause Entry.toRetiring s).tree t).out.grant ++ more := by
  rw [enterRetiring_eq he, grant_postMust]
  exact sent_withdrawn

theorem calm_enterRetiring (he : s.entry? t tn = some e) :
    Calm (transit t tn cause Entry.toRetiring s) (enterRetiring t tn cause s) := by
  rw [enterRetiring_eq he]
  exact (calm_withdrawn _ _).trans (calm_postMust _ _ _)

theorem enterRetiring_carried (he : s.entry? t tn = some e) :
    Carried t tn e .retiring s (enterRetiring t tn cause s) ∧ OthersKept t tn s (enterRetiring t tn cause s) :=
  carried_of_transit he (calm_enterRetiring he) (sent_enterRetiring he) rfl rfl

theorem enterRetiring_posts (he : s.entry? t tn = some e) :
    PostsAlike t (enterRetiring t tn cause s) (s.retirePosted t tn) := (PostsAlike.refl s).enterRetiring he rfl

/-- A candidate on its way to RETIRING (R49, R171). -/
theorem enterRetiring_vacated (he : s.entry? t tn = some e) (ho : e.operating = false) :
    Vacated t tn s (s.retirePosted t tn) (enterRetiring t tn cause s) := by
  have hbecomes := enterRetiring_becomes (s := s) (t := t) (tn := tn) (cause := cause)
  have hsame : ∀ x, s.entry? t tn = some x → x.operating = false := fun x hx => by
    rw [he] at hx
    cases hx
    exact ho
  refine ⟨fun k hk => hbecomes.other t k (.inr hk), hsame, fun y hy => ?_, hbecomes.light t, hbecomes.ctl t, ?_, ?_,
    enterRetiring_posts he, fun k i hk => ?_⟩
  · have hentry := hbecomes.self
    rw [hy, he, Option.map_some, Option.map_some, Option.some.injEq] at hentry
    exact operating_eq (want := .retiring) (congrArg (fun x : BitVec 16 × Serial × EntryState => x.2.2) hentry) nofun
  · simp only [State.epoch, hbecomes.timebase]
  · obtain ⟨more', hmore'⟩ := sent_enterRetiring (cause := cause) he
    exact ⟨more', by rw [hmore', grant_transit_idle he ho rfl]⟩
  · rw [probePosted_enterRetiring hk]
    exact (probePosted_of_op (congrArg Sequencer.op seq_retirePosted) i).symm

end

/-! ### UNMUTE_TN and RANGE_NOW (R56, R146) -/

section
variable {s q r : State} {t : TreeId} {tn k : Nat} {e y : Entry} {cause : Cause}

/-- A posting touches no entry's wait. -/
theorem waiting_postMust (m : Message) (by_ : Issuer) :
    ((postMust t tn m by_ s).state.entry? t k).map Entry.waiting = (s.entry? t k).map Entry.waiting := by
  have hone : ∀ f : Entry → Entry, (∀ e, (f e).waiting = e.waiting) →
      ((s.modEntry t tn f).entry? t k).map Entry.waiting = (s.entry? t k).map Entry.waiting := fun f hf => by
    by_cases hk : k = tn
    · rw [hk, State.entry?_modEntry_same, Option.map_map]
      exact congrArg (fun g => (s.entry? t tn).map g) (funext hf)
    · rw [State.entry?_modEntry_other hk]
  unfold postMust
  split
  · rfl
  split
  · rfl
  simp only
  split
  · exact hone _ fun _ => rfl
  split
  · rw [State.entry?, enqueue, tree_modMsgq_same]
    exact hone _ fun _ => rfl
  · exact hone _ fun _ => rfl

/-- An entry that leaves MUTED for RANGING, with its UNMUTE posted (R56). -/
def unmuted (t : TreeId) (tn : Nat) (s : State) : State :=
  (postMust t tn (.unmute tn) .registry (transit t tn .hostUnmute (Entry.toRanging (s.budgetEnd t)) s)).state

theorem unmuteTn_eq : unmuteTn ⟨t, tn, e⟩ s =
    toldMuted ⟨t, tn, e⟩ (addTask t { tn := tn, inst := e.inst, kind := .unmute } (unmuted t tn s)).state := rfl

theorem activation_of_muted (h : acceptsUnmute e.state = true) : e.activation? = none := by
  cases hst : e.state <;> simp_all [acceptsUnmute, Entry.activation?]

/-- An entry of no deadline comes to RANGING with a fresh one (R37). -/
theorem identity_toRanging (h : e.activation? = none) :
    (e.toRanging (s.budgetEnd t)).identity = (e.inst, e.serial, .ranging (s.epoch + (s.params t).budget)) := by
  simp only [Entry.identity, Entry.toRanging, Entry.deadlineOr, h, Option.getD_none, State.budgetEnd]

theorem calm_unmuted :
    Calm (transit t tn .hostUnmute (Entry.toRanging (s.budgetEnd t)) s) (unmuted t tn s) := calm_postMust _ _ _

theorem seq_unmuted (he : s.entry? t tn = some e) : ((unmuted t tn s).tree t).seq = (s.tree t).seq :=
  (seq_postMust _ _).trans ((transited_transit he).seq t)

/-- The task of an unmuted entry changes no identity and hands nothing new to the queue. -/
theorem asked_carried (he : s.entry? t tn = some e) (hm : acceptsUnmute e.state = true) (task : Task) :
    Carried t tn e (.ranging (s.epoch + (s.params t).budget)) s (addTask t task (unmuted t tn s)).state ∧
      OthersKept t tn s (addTask t task (unmuted t tn s)).state := by
  refine carried_of_transit he (calm_unmuted.trans (calm_addTask task)) ?_ rfl (identity_toRanging (activation_of_muted hm))
  obtain ⟨more, hmore⟩ := (quiet_addTask (s := unmuted t tn s) (t := t) task).sent
  exact ⟨more, by rw [hmore, unmuted, grant_postMust]⟩

theorem postsAlike_asked (task : Task) :
    PostsAlike t (addTask t task (unmuted t tn s)).state (postMust t tn (.unmute tn) .registry s).state := by
  have hasked : PostsAlike t (addTask t task (unmuted t tn s)).state (unmuted t tn s) :=
    .of_figures (quiet_addTask task).posted fun k => ((calm_addTask task).trees t).entries k
  exact hasked.trans ((postsAlike_transit (f := Entry.toRanging _) fun _ => rfl).postMust _ _)

theorem unmuted_taskAsked (he : s.entry? t tn = some e) (ha : (s.tree t).isActive = true) :
    s.TaskAsked (addTask t { tn := tn, inst := e.inst, kind := .unmute } (unmuted t tn s)).state t
      { tn := tn, inst := e.inst, kind := .unmute } := by
  have htr := transited_transit (cause := .hostUnmute) (f := Entry.toRanging (s.budgetEnd t)) he
  have hcalm := calm_unmuted (s := s) (t := t) (tn := tn)
  have hentry : (transit t tn .hostUnmute (Entry.toRanging (s.budgetEnd t)) s).entry? t tn =
      some (e.toRanging (s.budgetEnd t)) := by rw [htr.self, he, Option.map_some]
  obtain ⟨x, hx, hid⟩ := identity_eq_of_map (hcalm.identity t tn).symm hentry
  have hwait : x.waiting = e.waiting := by
    have hw := waiting_postMust (s := transit t tn .hostUnmute (Entry.toRanging (s.budgetEnd t)) s) (t := t) (tn := tn)
      (k := tn) (.unmute tn) .registry
    change ((unmuted t tn s).entry? t tn).map _ = _ at hw
    rw [hx, hentry] at hw
    exact Option.some.inj hw
  refine taskAsked_addTask rfl (seq_unmuted he) ((hcalm.trees t).ctl.trans (htr.ctl t))
    ((hcalm.trees t).light.trans (htr.light t)) he hx hwait (inst_of_identity hid :) ?_ (not_closing_of_active ha)
  rw [state_of_identity hid]
  rfl

/-- A task that is taken puts no PROBE in the queue (R143). -/
theorem probePosted_addTask {i : BitVec 16} (task : Task) :
    ((addTask t task s).state.tree t).probePosted k i = (s.tree t).probePosted k i := by
  have hjudge : ((judgeTask t task s).state.tree t).seq.op = (s.tree t).seq.op := op_judgeTask task
  rw [Bool.eq_iff_iff, probePosted_iff, probePosted_iff]
  have hop : ∀ o pl qe qs g, o.phase = .posted pl qe qs g →
      (((addTask t task s).state.tree t).seq.op = some o ↔ (s.tree t).seq.op = some o) := fun o pl qe qs g hp => by
    rw [← hjudge]
    change ((takeTasks t (judgeTask t task s).state).tree t).seq.op = some o ↔ _
    constructor
    · intro ho
      rw [← op_takeTasks_of_posted (opPosted_iff.mpr ⟨o, pl, qe, qs, g, ho, hp⟩)]
      exact ho
    · exact op_takeTasks_of_some
  constructor
  · rintro ⟨o, pl, qe, qs, g, ho, hp, hn⟩
    exact ⟨o, pl, qe, qs, g, (hop o pl qe qs g hp).1 ho, hp, hn⟩
  · rintro ⟨o, pl, qe, qs, g, ho, hp, hn⟩
    exact ⟨o, pl, qe, qs, g, (hop o pl qe qs g hp).2 ho, hp, hn⟩

/-- A candidate unmuted by the host (R56, R171). -/
theorem asked_vacated (he : s.entry? t tn = some e) (hm : acceptsUnmute e.state = true) (task : Task) :
    Vacated t tn s (postMust t tn (.unmute tn) .registry s).state (addTask t task (unmuted t tn s)).state := by
  have htr := transited_transit (cause := .hostUnmute) (f := Entry.toRanging (s.budgetEnd t)) he
  have ho := operating_of_acceptsUnmute hm
  have hcalm := (calm_unmuted (s := s) (t := t) (tn := tn)).trans (calm_addTask (t := t) task)
  obtain ⟨hcarried, hothers⟩ := asked_carried he hm task
  refine ⟨hothers, fun x hx => ?_, fun y hy => ?_, (hcalm.trees t).light.trans (htr.light t),
    (hcalm.trees t).ctl.trans (htr.ctl t), ?_, ?_, postsAlike_asked task, fun k i _ => ?_⟩
  · rw [he] at hx
    cases hx
    exact ho
  · have hentry := hcarried.entry
    rw [hy, Option.map_some, Option.some.injEq] at hentry
    exact operating_eq (congrArg (fun x : BitVec 16 × Serial × EntryState => x.2.2) hentry) nofun
  · rw [hcalm.epoch, State.epoch, htr.timebase, State.epoch]
  · obtain ⟨more, hmore⟩ := (quiet_addTask (s := unmuted t tn s) (t := t) task).sent
    exact ⟨more, by rw [hmore, unmuted, grant_postMust, grant_transit_idle he ho rfl]⟩
  · rw [probePosted_addTask]
    exact probePosted_of_op (congrArg Sequencer.op ((seq_unmuted he).trans (seq_postMust _ _).symm)) i

/-- RANGE_NOW is a move to RANGING asked by the host (R146). -/
theorem rangeNow_moved {d : Drift} (ha : (s.tree t).isActive = true) (he : s.entry? t tn = some e)
    (hst : e.state = .operating d) : MovedToRanging s (rangeNow ⟨t, tn, e⟩ s) t tn .rangeNow e := by
  have hsame : driftSet t tn d s = s := modEntry_self fun y hy => by
    obtain rfl : e = y := Option.some.inj (he.symm.trans hy)
    rw [← hst]
  have hmoved := moveToRanging_moved (cause := .rangeNow) (kind := .rangeNow) (d := d) rfl ha he
  rwa [hsame] at hmoved

theorem rangeNow_carried {d : Drift} (he : s.entry? t tn = some e)
    (hst : e.state = .operating d) :
    Carried t tn e (.ranging (s.epoch + (s.params t).budget)) s (rangeNow ⟨t, tn, e⟩ s) ∧
      OthersKept t tn s (rangeNow ⟨t, tn, e⟩ s) := by
  have heq : rangeNow ⟨t, tn, e⟩ s = (addTask t { tn := tn, inst := e.inst, kind := .rangeNow }
      (transit t tn .rangeNow (Entry.toRanging (s.budgetEnd t)) s)).state := by
    simp only [rangeNow, moveToRanging, he]
  rw [heq]
  exact carried_of_transit he (calm_addTask _) (quiet_addTask _).sent rfl
    (identity_toRanging (by simp [Entry.activation?, hst]))

end

/-! ### The four requests -/

section
variable {s q r : State} {t : TreeId} {tree n tag : Byte} {tn : Nat} {e : Entry} {accepts : EntryState → Bool}
  {act : Named → State → State}

/-- A request on a terminal of an ACTIVE tree answers NOT_FOUND for a FREE slot (R52). -/
theorem terminalRequest_free (hs : s.Taking) (ht : tree.toNat = t) (ha : (s.tree t).isActive = true)
    (h1 : 1 ≤ n.toNat) (h2 : n.toNat ≤ 120) (he : s.entry? t n.toNat = none) :
    s.request tag (terminalRequest tree n accepts act) = .next (s.reply tag .notFound []) := by
  refine request_same hs ?_
  simp only [terminalRequest, namedEntry_of_free ht ha h1 h2 he]
  rfl

/-- It answers WRONG_STATE in a state that it does not accept (R52). -/
theorem terminalRequest_refused (hs : s.Taking) (ht : tree.toNat = t) (ha : (s.tree t).isActive = true)
    (h1 : 1 ≤ n.toNat) (h2 : n.toNat ≤ 120) (he : s.entry? t n.toNat = some e) (hacc : accepts e.state = false) :
    s.request tag (terminalRequest tree n accepts act) = .next (s.reply tag .wrongState []) := by
  refine request_same hs ?_
  simp only [terminalRequest, namedEntry_of_entry ht ha h1 h2 he, hacc, Bool.false_eq_true, if_false]
  rfl

/-- It answers OK with its work done otherwise (R52). -/
theorem terminalRequest_accepted (hs : s.Taking) (ht : tree.toNat = t) (ha : (s.tree t).isActive = true)
    (h1 : 1 ≤ n.toNat) (h2 : n.toNat ≤ 120) (he : s.entry? t n.toNat = some e) (hacc : accepts e.state = true) :
    s.request tag (terminalRequest tree n accepts act) =
      .next ((act ⟨t, n.toNat, e⟩ s).settle.reply tag .ok []) := by
  refine request_ok hs ?_
  simp only [terminalRequest, namedEntry_of_entry ht ha h1 h2 he, hacc, if_true]

theorem operating_of_acceptsRangeNow (h : acceptsRangeNow e.state = true) : ∃ d, e.state = .operating d := by
  cases hst : e.state with
  | operating d => exact ⟨d, rfl⟩
  | assigning | ranging | verifying | muted | lost | retiring => simp [acceptsRangeNow, hst] at h

/-- RETIRE_TN takes its entry to RETIRING from every state but that one, in which it does nothing (R53). -/
theorem retireTn_carried (he : s.entry? t tn = some e) : Carried t tn e .retiring s (retireTn ⟨t, tn, e⟩ s) := by
  by_cases hst : e.state = .retiring
  · rw [retireTn_of_retiring hst]
    refine ⟨?_, fun ho => ?_, rfl⟩
    · rw [he, Option.map_some, Entry.identity, hst]
    · simp [Entry.operating, hst] at ho
  · rw [retireTn_of_other hst]
    exact (enterRetiring_carried he).1.toldMuted nofun

theorem unmuteTn_carried (he : s.entry? t tn = some e) (hm : acceptsUnmute e.state = true) :
    Carried t tn e (.ranging (s.epoch + (s.params t).budget)) s (unmuteTn ⟨t, tn, e⟩ s) :=
  (asked_carried he hm _).1.toldMuted nofun

/-- The entry of records and the reply read and write nothing of a tree (R186, R191). -/
theorem State.StepBegun.answered {s' : State} {h : Hunt} {x : Candidate} {code : ReplyCode} {body : List Byte}
    (hb : s.StepBegun q s' t h x) : s.StepBegun q (s'.settle.reply tag code body) t h x := by
  obtain ⟨hhunt, hmuted, hair, hidles, hposted⟩ := hb
  exact ⟨hhunt, hmuted, hair, hidles, hposted⟩

theorem State.HuntUnresolved.answered {s' : State} {code : ReplyCode} {body : List Byte} (hu : s.HuntUnresolved s' t) :
    s.HuntUnresolved (s'.settle.reply tag code body) t := by
  obtain ⟨hhunt, hpause, hnext⟩ := hu
  exact ⟨hhunt, hpause, hnext⟩

theorem State.TaskAsked.answered {s' : State} {k : Task} {code : ReplyCode} {body : List Byte} (ha : s.TaskAsked s' t k) :
    s.TaskAsked (s'.settle.reply tag code body) t k := ⟨ha.held, ha.begun⟩

/-- What the hunt does once its candidate has left MUTED, with `q` holding what the request posted (R168, R171). -/
def HuntGoesOn (t : TreeId) (h : Hunt) (s q s' : State) : Prop :=
  ((∀ x ∈ h.rest, s.offers t x = false) → s.HuntUnresolved s' t ∧ s'.PostedAs q t) ∧
    ∀ skipped x rest, h.rest = skipped ++ x :: rest → (∀ y ∈ skipped, s.offers t y = false) → s.offers t x = true →
      s.StepBegun q s' t
        { h with rest := rest, current := x, step := .muting, skipped := h.skipped + 1 + skipped.length } x

theorem Vacated.huntGoesOn (hv : Vacated t tn s q r) {h : Hunt} (hh : (s.tree t).light.hunt = some h) {i : BitVec 16}
    (hc : h.current = ⟨tn, i⟩) : HuntGoesOn t h s q (Machine.candidateLeft t tn i r) :=
  ⟨candidateLeft_unresolved hv hh hc, fun _ _ _ hrest hskip hx => candidateLeft_begins hv hh hc hrest hskip hx⟩

theorem HuntGoesOn.answered {s' : State} {h : Hunt} {code : ReplyCode} {body : List Byte} (hg : HuntGoesOn t h s q s') :
    HuntGoesOn t h s q (s'.settle.reply tag code body) := by
  refine ⟨fun hnone => ?_, fun skipped x rest hrest hskip hx => (hg.2 skipped x rest hrest hskip hx).answered⟩
  obtain ⟨hu, hposted⟩ := hg.1 hnone
  exact ⟨hu.answered, hposted⟩

/-- UNMUTE_TN of a terminal that is no hunt's candidate (R56). -/
theorem unmuteTn_alone (he : s.entry? t tn = some e) (hacc : acceptsUnmute e.state = true) (ha : (s.tree t).isActive = true)
    (halone : ∀ h, (s.tree t).light.hunt = some h → h.current ≠ { tn := tn, inst := e.inst }) :
    OthersKept t tn s (unmuteTn ⟨t, tn, e⟩ s) ∧
      (unmuteTn ⟨t, tn, e⟩ s).PostedAs (postMust t tn (.unmute tn) .registry s).state t ∧
      s.TaskAsked (unmuteTn ⟨t, tn, e⟩ s) t { tn := tn, inst := e.inst, kind := .unmute } := by
  have hasked := asked_vacated he hacc { tn := tn, inst := e.inst, kind := .unmute }
  rw [unmuteTn_eq, toldMuted_of_other hasked.light halone]
  exact ⟨hasked.other, hasked.posts.postedAs, unmuted_taskAsked he ha⟩

/-- UNMUTE_TN of a hunt's candidate (R56, R171). -/
theorem unmuteTn_hunted (he : s.entry? t tn = some e) (hacc : acceptsUnmute e.state = true) {h : Hunt}
    (hh : (s.tree t).light.hunt = some h) (hc : h.current = ⟨tn, e.inst⟩) :
    HuntGoesOn t h s (postMust t tn (.unmute tn) .registry s).state (unmuteTn ⟨t, tn, e⟩ s) := by
  rw [unmuteTn_eq, toldMuted_of_muted hacc]
  exact (asked_vacated he hacc _).huntGoesOn hh hc

/-- RETIRE_TN of a terminal that is no hunt's candidate (R53). -/
theorem retireTn_alone (he : s.entry? t tn = some e)
    (halone : ∀ h, (s.tree t).light.hunt = some h → h.current ≠ { tn := tn, inst := e.inst }) :
    OthersKept t tn s (retireTn ⟨t, tn, e⟩ s) ∧
      (e.state ≠ .retiring → (retireTn ⟨t, tn, e⟩ s).PostedAs (s.retirePosted t tn) t ∧
        (retireTn ⟨t, tn, e⟩ s).Idles t tn e.inst) := by
  by_cases hst : e.state = .retiring
  · rw [retireTn_of_retiring hst]
    exact ⟨fun _ _ => rfl, fun hne => absurd hst hne⟩
  · rw [retireTn_of_other hst, toldMuted_of_other (enterRetiring_becomes.light t) halone]
    exact ⟨(enterRetiring_carried he).2,
      fun _ => ⟨(enterRetiring_posts he).postedAs, (dormant_enterRetiring_same he).idles⟩⟩

/-- RETIRE_TN of a hunt's candidate (R53, R171). -/
theorem retireTn_hunted (he : s.entry? t tn = some e) (hmuted : acceptsUnmute e.state = true) {h : Hunt}
    (hh : (s.tree t).light.hunt = some h) (hc : h.current = ⟨tn, e.inst⟩) :
    HuntGoesOn t h s (s.retirePosted t tn) (retireTn ⟨t, tn, e⟩ s) := by
  have hst : e.state ≠ .retiring := fun hst => by simp [hst, acceptsUnmute] at hmuted
  rw [retireTn_of_other hst, toldMuted_of_muted hmuted]
  exact (enterRetiring_vacated he (operating_of_acceptsUnmute hmuted)).huntGoesOn hh hc

end

/-- Settles O60: each request by what it makes of its entry, and the hunt whose candidate it takes. -/
theorem terminalRequests : Obligations.TerminalRequests := by
  intro s tag tree tn t c want accepted hs ht ha h1 h2 hc
  rcases hc with ⟨rfl, rfl, rfl⟩ | ⟨rfl, rfl, rfl⟩ | ⟨rfl, rfl, rfl⟩ | ⟨rfl, rfl, rfl⟩
  · refine ⟨terminalRequest_free hs ht ha h1 h2, fun e he =>
      ⟨terminalRequest_refused hs ht ha h1 h2 he, fun _ => nofun, fun hacc =>
        ⟨_, terminalRequest_accepted hs ht ha h1 h2 he hacc, rfl, ?_⟩⟩⟩
    obtain ⟨⟨hentry, hair, hdir⟩, hkept⟩ := muteTn_carried he
    have hposted := muteTn_posted he
    have hidles := muteTn_idles he
    have hothers := (within_muteTn (P := (· = t)) (s := s) ⟨t, tn.toNat, e⟩ rfl).others
    generalize muteTn ⟨t, tn.toNat, e⟩ s = r at *
    refine ⟨hentry, hair, hdir, fun _ => ⟨hkept, fun _ => ⟨hposted, hidles⟩, nofun, nofun, nofun⟩,
      fun h q _ _ _ hq => ?_, hothers⟩
    rcases hq with ⟨hq, -⟩ | ⟨hq, -⟩ <;> cases hq
  · refine ⟨terminalRequest_free hs ht ha h1 h2, fun e he =>
      ⟨terminalRequest_refused hs ht ha h1 h2 he, fun _ => nofun, fun hacc =>
        ⟨_, terminalRequest_accepted hs ht ha h1 h2 he hacc, rfl, ?_⟩⟩⟩
    obtain ⟨hentry, hair, hdir⟩ := unmuteTn_carried he hacc
    have halone := unmuteTn_alone he hacc ha
    have hhunted := fun h => unmuteTn_hunted (h := h) he hacc
    have hothers := (within_unmuteTn (P := (· = t)) (s := s) ⟨t, tn.toNat, e⟩ rfl).others
    generalize unmuteTn ⟨t, tn.toNat, e⟩ s = r at *
    refine ⟨hentry, hair, hdir, fun hno => ?_, fun h q hh hcur _ hq => ?_, hothers⟩
    · obtain ⟨hkept, hposted, hasked⟩ := halone hno
      exact ⟨hkept, nofun, nofun, fun _ => ⟨hposted, hasked.answered⟩, nofun⟩
    · rcases hq with ⟨-, rfl⟩ | ⟨hq, -⟩
      · exact (hhunted h hh hcur).answered
      · cases hq
  · refine ⟨terminalRequest_free hs ht ha h1 h2, fun e he =>
      ⟨terminalRequest_refused hs ht ha h1 h2 he, fun _ => nofun, fun hacc =>
        ⟨_, terminalRequest_accepted hs ht ha h1 h2 he hacc, rfl, ?_⟩⟩⟩
    obtain ⟨d, hst⟩ := operating_of_acceptsRangeNow hacc
    obtain ⟨⟨hentry, hair, hdir⟩, hkept⟩ := rangeNow_carried he hst
    obtain ⟨-, -, hposted, hasked⟩ := rangeNow_moved ha he hst
    have hothers := (within_rangeNow (P := (· = t)) (s := s) ⟨t, tn.toNat, e⟩ rfl).others
    generalize rangeNow ⟨t, tn.toNat, e⟩ s = r at *
    refine ⟨hentry, hair, hdir, fun _ => ⟨hkept, nofun, nofun, nofun, fun _ => ⟨hposted, hasked.answered⟩⟩,
      fun h q _ _ _ hq => ?_, hothers⟩
    rcases hq with ⟨hq, -⟩ | ⟨hq, -⟩ <;> cases hq
  · refine ⟨terminalRequest_free hs ht ha h1 h2, fun e he =>
      ⟨terminalRequest_refused hs ht ha h1 h2 he, fun hst _ => ?_, fun hacc =>
        ⟨_, terminalRequest_accepted hs ht ha h1 h2 he hacc, rfl, ?_⟩⟩⟩
    · refine (terminalRequest_accepted hs ht ha h1 h2 he rfl).trans ?_
      rw [retireTn_of_retiring hst, settle_of_entered hs.entered]
    obtain ⟨hentry, hair, hdir⟩ := retireTn_carried he
    have halone := retireTn_alone he
    have hhunted := fun h hmuted => retireTn_hunted (h := h) he hmuted
    have hothers := (within_retireTn (P := (· = t)) (s := s) ⟨t, tn.toNat, e⟩ rfl).others
    generalize retireTn ⟨t, tn.toNat, e⟩ s = r at *
    refine ⟨hentry, hair, hdir, fun hno => ?_, fun h q hh hcur hmuted hq => ?_, hothers⟩
    · obtain ⟨hkept, hretires⟩ := halone hno
      exact ⟨hkept, nofun, fun _ hne => hretires hne, nofun, nofun⟩
    · rcases hq with ⟨hq, -⟩ | ⟨-, rfl⟩
      · cases hq
      · exact (hhunted h hmuted hh hcur).answered

end Sys2Proof.Machine
end

section
/-! PROOF. An in-reach ANNOUNCE (O34): the serial check, the entry it reactivates or frees, the entry it creates, and the
report that each outcome enters (R41, R43, R45, R46, R63..R70, R74). -/

namespace Sys2Proof.Machine

/-! ### What the Admission Unit is handed (R90) -/

section
variable {s : State} {t : TreeId} {w : Context} {number : Byte} {qs gw arrival : Int} {dispatch : Nat} {coll : Collection}
  {a : Announce} {c : Int} {payload : List Byte}

/-- What a window on copy `w` hands over with an announce of coarse estimate `c` (R90). -/
def handed (number : Byte) (w : Context) (a : Announce) (c : Int) : Handed :=
  { window := number, serial := a.serial, model := a.model, c := c, declared := a.declared, mode := w.mode }

/-- An announce whose coarse estimate lies in reach is counted and judged (R89, R90). -/
theorem announceHeard_inReach (hc : c = (arrival - 16 * (gw + a.d) - (s.tree t).ctl.p + 8) / 16)
    (hr : inReach (s.params t) c = true) :
    announceHeard t ⟨w, number, qs, gw, dispatch⟩ coll arrival a s =
      judgeAnnounce t (handed number w a c)
        (s.setDisc t (.collecting w number qs gw dispatch { coll with announces := min 128 (coll.announces + 1) })) := by
  have hcoarse : roundBt (coarseSx arrival a.d gw (s.tree t).ctl.p) = c := hc.symm
  unfold announceHeard
  simp only [hcoarse]
  rw [if_pos hr]
  rfl

end

/-! ### The serial check (R43, R45, R46) -/

section
variable {s : State} {t j : TreeId} {tn k : Nat} {e : Entry} {a : Handed} {c : Int} {d : DirItem} {hold : Nat}
  {serial : Serial}

theorem serialCheck_new (h : s.lookup serial = none) :
    serialCheck t serial c s = { state := s, answer := .new } := by
  simp only [serialCheck, h]

theorem serialCheck_clash (h : s.lookup serial = some d)
    (hlost : ∀ e hold, s.entry? d.tree d.tn = some e → e.state ≠ .lost hold) :
    serialCheck t serial c s = { state := s, answer := .clash d.tree d.tn } := by
  cases he : s.entry? d.tree d.tn with
  | none => simp [serialCheck, h, he]
  | some e =>
    cases hst : e.state with
    | lost hold => exact absurd hst (hlost e hold he)
    | assigning | ranging | verifying | operating | muted | retiring => simp [serialCheck, h, he, hst, EntryState.name]

theorem serialCheck_here (h : s.lookup serial = some d) (he : s.entry? d.tree d.tn = some e) (hst : e.state = .lost hold)
    (hd : d.tree = t) : serialCheck t serial c s = reactivate t d.tn serial c s := by
  subst hd
  simp [serialCheck, h, he, hst, EntryState.name]

theorem serialCheck_elsewhere (h : s.lookup serial = some d) (he : s.entry? d.tree d.tn = some e)
    (hst : e.state = .lost hold) (hd : d.tree ≠ t) :
    serialCheck t serial c s = { state := freeEntry d.tree d.tn .moved s, answer := .new } := by
  simp [serialCheck, h, he, hst, EntryState.name, hd]

/-! ### Reactivation (R45) -/

theorem postGated_full (it : Item) (h : (s.tree t).msgq.broadcastStands = true ∨ 24 ≤ (s.tree t).msgq.items.length) :
    ∃ ans, postGated t it s = { state := s, answer := ans } ∧ ans ≠ .accepted := by
  unfold postGated
  split
  · exact ⟨_, rfl, nofun⟩
  · next hb =>
    have hl : ¬(s.tree t).msgq.items.length < Config.gatedLimit := by
      simpa [Config.gatedLimit] using h.resolve_left hb
    rw [if_neg hl]
    exact ⟨_, rfl, nofun⟩

theorem postGated_queued (it : Item) (hb : (s.tree t).msgq.broadcastStands = false)
    (hl : (s.tree t).msgq.items.length < 24) : postGated t it s = { state := enqueue t it s, answer := .accepted } := by
  unfold postGated
  rw [if_neg (by simp [hb]), if_pos (by simpa [Config.gatedLimit] using hl)]

theorem reactivate_full (h : (s.tree t).msgq.broadcastStands = true ∨ 24 ≤ (s.tree t).msgq.items.length) :
    reactivate t tn serial c s = { state := s, answer := .backlog } := by
  obtain ⟨ans, hpost, hne⟩ := postGated_full (assignItem tn serial ((s.tree t).slotInst tn + 1)) h
  unfold reactivate
  simp only [hpost]
  cases ans with
  | accepted => exact absurd rfl hne
  | full | owed | merged | discarded => rfl

/-- A tree one of whose slots has been given to an entry under a raised number, its ASSIGN queued (R41, R45). -/
structure Assigned (t : TreeId) (tn : Nat) (e : Entry) (serial : Serial) (s s' : State) : Prop where
  entry : s'.entry? t tn = some e
  inst  : (s'.tree t).slotInst tn = e.inst
  other : ∀ k, k ≠ tn → s'.entry? t k = s.entry? t k
  items : (s'.tree t).msgq.items = (s.tree t).msgq.items ++ [assignItem tn serial e.inst]
  disc  : (s'.tree t).disc = (s.tree t).disc

theorem slotInst_setSlot_same {T : Tree} {sl : Slot} (h : (slotIndex tn).isSome = true) :
    (T.setSlot tn sl).slotInst tn = sl.inst := by
  obtain ⟨i, hi⟩ := Option.isSome_iff_exists.1 h
  simp [Tree.slotInst, Tree.setSlot, hi]

theorem entry?_setSlot_filled {T : Tree} {sl : Slot} (h : (slotIndex tn).isSome = true) :
    (T.setSlot tn sl).entry? tn = sl.entry := by
  obtain ⟨i, hi⟩ := Option.isSome_iff_exists.1 h
  exact entry?_setSlot_same _ _ _ hi

theorem enqueue_tree (it : Item) :
    (enqueue t it s).tree t = { s.tree t with msgq := { (s.tree t).msgq with items := (s.tree t).msgq.items ++ [it] } } :=
  tree_modMsgq_same ..

/-- A LOST entry is reactivated under a raised number, its ASSIGN queued (R45). -/
theorem reactivate_assigned (he : s.entry? t tn = some e) (hb : (s.tree t).msgq.broadcastStands = false)
    (hl : (s.tree t).msgq.items.length < 24) :
    (reactivate t tn serial c s).answer = .reactivated tn ∧
      Assigned t tn (e.reactivated ((s.tree t).slotInst tn + 1) (s.budgetEnd t) c) serial s
        (reactivate t tn serial c s).state ∧
      (reactivate t tn serial c s).state.directory = s.directory := by
  generalize hq : enqueue t (assignItem tn serial ((s.tree t).slotInst tn + 1)) s = q
  have hqtree : q.tree t = { s.tree t with
      msgq := { (s.tree t).msgq with
        items := (s.tree t).msgq.items ++ [assignItem tn serial ((s.tree t).slotInst tn + 1)] } } := hq ▸ enqueue_tree _
  have hqe : ∀ k, q.entry? t k = s.entry? t k := fun k => entry?_of_slots (by rw [hqtree]) k
  have htr := transited_transit (s := q) (t := t) (cause := .reactivated)
    (f := Entry.reactivated ((s.tree t).slotInst tn + 1) (s.budgetEnd t) c) ((hqe tn).trans he)
  have hr : reactivate t tn serial c s =
      { state := (transit t tn .reactivated (Entry.reactivated ((s.tree t).slotInst tn + 1) (s.budgetEnd t) c) q).modTree t
          fun T => T.setSlot tn { inst := (s.tree t).slotInst tn + 1, entry := T.entry? tn }
        answer := .reactivated tn } := by
    simp only [reactivate, postGated_queued _ hb hl, hq]
  rw [hr]
  generalize transit t tn .reactivated (Entry.reactivated ((s.tree t).slotInst tn + 1) (s.budgetEnd t) c) q = r at htr ⊢
  have hindex := slotIndex_of_entry he
  refine ⟨rfl, ⟨?_, ?_, fun k hk => ?_, ?_, ?_⟩, ?_⟩
  · have hself := htr.self
    rw [hqe, he, Option.map_some] at hself
    rw [State.entry?, tree_modTree_same, entry?_setSlot_filled hindex]
    exact hself
  · rw [tree_modTree_same, slotInst_setSlot_same hindex]
    rfl
  · rw [State.entry?, tree_modTree_same, entry?_setSlot_other _ _ _ _ hk]
    exact (htr.other t k (.inr hk)).trans (hqe k)
  · rw [tree_modTree_same, msgq_setSlot, htr.msgq, hqtree]
    rfl
  · rw [tree_modTree_same, disc_setSlot, htr.disc, hqtree]
  · rw [directory_modTree, htr.directory, ← hq]
    rfl

/-! ### Creation (R40, R41) -/

theorem createEntry_tableFull {model : BitVec 16} {prof : Profile} (ha : (s.tree t).isActive = true)
    (h : s.lookup serial = none) (hfree : (s.tree t).lowestFree = none) :
    createEntry t serial model c prof s = { state := s, answer := .tableFull } := by
  simp [createEntry, ha, h, hfree]

theorem createEntry_backlog {model : BitVec 16} {prof : Profile} (ha : (s.tree t).isActive = true)
    (h : s.lookup serial = none) (hfree : (s.tree t).lowestFree = some tn)
    (hfull : (s.tree t).msgq.broadcastStands = true ∨ 24 ≤ (s.tree t).msgq.items.length) :
    createEntry t serial model c prof s = { state := s, answer := .backlog } := by
  obtain ⟨ans, hpost, hne⟩ := postGated_full (assignItem tn serial ((s.tree t).slotInst tn + 1)) hfull
  simp only [createEntry, ha, h, hfree, hpost]
  cases ans with
  | accepted => exact absurd rfl hne
  | full | owed | merged | discarded => rfl

/-- A created entry stands in the lowest FREE slot, its ASSIGN queued and its serial in the directory (R41, R42). -/
theorem createEntry_assigned {model : BitVec 16} {prof : Profile} (ha : (s.tree t).isActive = true)
    (h : s.lookup serial = none) (hfree : (s.tree t).lowestFree = some tn)
    (hb : (s.tree t).msgq.broadcastStands = false) (hl : (s.tree t).msgq.items.length < 24) :
    (createEntry t serial model c prof s).answer = .created tn ∧
      Assigned t tn (newEntry ((s.tree t).slotInst tn + 1) (s.budgetEnd t) serial model c prof) serial s
        (createEntry t serial model c prof s).state ∧
      (createEntry t serial model c prof s).state.directory = s.directory ++ [⟨serial, t, tn⟩] := by
  obtain ⟨hindex, hnone⟩ := lowestFree_spec hfree
  generalize hq : enqueue t (assignItem tn serial ((s.tree t).slotInst tn + 1)) s = q
  have hqtree : q.tree t = { s.tree t with
      msgq := { (s.tree t).msgq with
        items := (s.tree t).msgq.items ++ [assignItem tn serial ((s.tree t).slotInst tn + 1)] } } := hq ▸ enqueue_tree _
  generalize he : newEntry ((s.tree t).slotInst tn + 1) (s.budgetEnd t) serial model c prof = e
  have hserial : e.serial = serial := by rw [← he]; rfl
  have hinst : e.inst = (s.tree t).slotInst tn + 1 := by rw [← he]; rfl
  have hr : createEntry t serial model c prof s =
      { state := (slotFilled t tn e q).report t
          (.terminal tn ((s.tree t).slotInst tn + 1) serial none (some .assigning) .admitted)
        answer := .created tn } := by
    simp only [createEntry, ha, h, hfree, postGated_queued _ hb hl, hq, he, slotFilled, hserial, hinst]
    rfl
  rw [hr]
  refine ⟨rfl, ⟨?_, ?_, fun k hk => ?_, ?_, ?_⟩, ?_⟩
  · exact (entry?_slotFilled hindex).trans (if_pos ⟨rfl, rfl⟩)
  · rw [tree_report, slotFilled_tree, slotInst_setSlot_same hindex]
  · refine ((entry?_slotFilled hindex).trans (if_neg fun hk' => hk hk'.2)).trans ?_
    exact entry?_of_slots (by rw [hqtree]) k
  · rw [tree_report, slotFilled_tree, msgq_setSlot, hqtree, hinst]
  · rw [tree_report, slotFilled_tree, disc_setSlot, hqtree]
  · rw [← hserial, ← hq]
    rfl

/-! ### Pending records of other trees (R74) -/

theorem tree_supersedeOne (ev : AdmitEvent) (o : TreeId) :
    (supersedeOne ev t tn serial s o).tree j =
      if o ≠ t ∧ j = o then { s.tree o with pendingList := (s.tree o).pendingList.filter fun r => r.serial ≠ serial }
      else s.tree j := by
  unfold supersedeOne
  by_cases ho : o = t
  · simp [ho]
  rw [if_neg ho]
  by_cases hj : j = o
  · rw [if_pos ⟨ho, hj⟩, hj]
    split
    · rw [pendingReport, admissionReport, tree_report, removePending, State.modPending, tree_modTree_same]
    · next hnone =>
      have hkept : ((s.tree o).pendingList.filter fun r => r.serial ≠ serial) = (s.tree o).pendingList :=
        List.filter_eq_self.2 fun r hr => by simpa using List.find?_eq_none.1 hnone r hr
      rw [hkept]
  · rw [if_neg fun h => hj h.2]
    split
    · rw [pendingReport, admissionReport, tree_report, removePending, State.modPending, tree_modTree_other _ _ _ _ hj]
    · rfl

theorem directory_supersedeOne (ev : AdmitEvent) (o : TreeId) :
    (supersedeOne ev t tn serial s o).directory = s.directory := by
  unfold supersedeOne
  split
  · rfl
  split <;> rfl

/-- Other trees lose their pending record of a serial, and nothing else changes (R74). -/
structure Superseded (t : TreeId) (serial : Serial) (s s' : State) : Prop where
  tree      : s'.tree t = s.tree t
  slots     : ∀ j, (s'.tree j).slots = (s.tree j).slots
  directory : s'.directory = s.directory

theorem superseded_foldl (ev : AdmitEvent) (tn : Nat) (l : List TreeId) :
    Superseded t serial s (l.foldl (supersedeOne ev t tn serial) s) ∧
      ∀ j, j ≠ t → j ∈ l ∨ (∀ x ∈ (s.tree j).pendingList, x.serial ≠ serial) →
        ∀ x ∈ ((l.foldl (supersedeOne ev t tn serial) s).tree j).pendingList, x.serial ≠ serial := by
  induction l generalizing s with
  | nil => exact ⟨⟨rfl, fun _ => rfl, rfl⟩, fun j _ h => h.resolve_left List.not_mem_nil⟩
  | cons o l ih =>
    obtain ⟨⟨htree, hslots, hdir⟩, hgone⟩ := ih (s := supersedeOne ev t tn serial s o)
    refine ⟨⟨htree.trans ?_, fun j => (hslots j).trans ?_, hdir.trans (directory_supersedeOne ev o)⟩, fun j hj h => ?_⟩
    · rw [tree_supersedeOne, if_neg fun h => h.1 h.2.symm]
    · rw [tree_supersedeOne]
      split
      · next h => rw [h.2]
      · rfl
    · refine hgone j hj ?_
      rw [tree_supersedeOne]
      by_cases hjo : j = o
      · rw [if_pos ⟨hjo ▸ hj, hjo⟩]
        exact .inr fun x hx => by simpa using (List.mem_filter.1 hx).2
      · rw [if_neg fun h => hjo h.2]
        exact h.imp (fun hmem => (List.mem_cons.1 hmem).resolve_left hjo) id

theorem supersede_superseded (ev : AdmitEvent) : Superseded t serial s (supersede ev t tn serial s) ∧
    ∀ j, j ≠ t → ∀ x ∈ ((supersede ev t tn serial s).tree j).pendingList, x.serial ≠ serial := by
  obtain ⟨hkept, hgone⟩ := superseded_foldl (s := s) (t := t) (serial := serial) ev tn allTrees
  exact ⟨hkept, fun j hj => hgone j hj (.inl (by fin_cases j <;> decide))⟩

/-! ### A serial that moves to another tree (R46) -/

/-- Work of tree `t` that leaves the slots of the other trees, and puts none but its own items in the directory. -/
structure WorksOn (t : TreeId) (s s' : State) : Prop where
  slots     : ∀ j, j ≠ t → (s'.tree j).slots = (s.tree j).slots
  directory : ∀ x ∈ s'.directory, x ∈ s.directory ∨ x.tree = t

theorem WorksOn.refl (s : State) : WorksOn t s s := ⟨fun _ _ => rfl, fun _ => .inl⟩

theorem WorksOn.trans {s' s'' : State} (h : WorksOn t s s') (k : WorksOn t s' s'') : WorksOn t s s'' :=
  ⟨fun j hj => (k.slots j hj).trans (h.slots j hj), fun x hx => (k.directory x hx).elim (h.directory x) .inr⟩

theorem worksOn_report (b : ReportBody) : WorksOn t s (s.report t b) := ⟨fun _ _ => rfl, fun _ => .inl⟩

theorem worksOn_modPending (f : List PendingRec → List PendingRec) : WorksOn t s (s.modPending t f) :=
  ⟨fun j hj => congrArg Tree.slots (tree_modTree_other s t j _ hj), fun _ => .inl⟩

theorem worksOn_createEntry (serial : Serial) (model : BitVec 16) (c : Int) (prof : Profile) :
    WorksOn t s (createEntry t serial model c prof s).state := by
  refine ⟨fun j hj => congrArg Tree.slots ((within_createEntry (P := (· = t)) rfl _ _ _ _).others j hj), fun x hx => ?_⟩
  unfold createEntry at hx
  split at hx
  · exact .inl hx
  split at hx
  · exact .inl hx
  split at hx
  · exact .inl hx
  next tn _ =>
  simp only at hx
  split at hx
  · have hdir := (calm_postGated (s := s) (t := t) (assignItem tn serial ((s.tree t).slotInst tn + 1))).directory
    rcases List.mem_append.1 hx with hx | hx
    · exact .inl (hdir ▸ hx)
    · exact .inr (congrArg DirItem.tree (List.mem_singleton.1 hx))
  all_goals exact .inl hx

theorem worksOn_supersede (ev : AdmitEvent) : WorksOn t s (supersede ev t tn serial s) := by
  obtain ⟨hkept, -⟩ := supersede_superseded (s := s) (t := t) (tn := tn) (serial := serial) ev
  exact ⟨fun j _ => hkept.slots j, fun x hx => .inl (hkept.directory ▸ hx)⟩

theorem worksOn_judgeNew : WorksOn t s (judgeNew t a s) := by
  unfold judgeNew
  simp only
  split
  · exact (worksOn_modPending _).trans (worksOn_report _)
  split
  · exact (worksOn_modPending _).trans (worksOn_report _)
  split
  · exact worksOn_report _
  have hcreated := fun prof => worksOn_createEntry (s := s) (t := t) a.serial a.model a.c prof
  split
  · unfold admitOpen
    simp only
    split
    · exact ((hcreated _).trans (worksOn_report _)).trans (worksOn_supersede _)
    · exact (hcreated _).trans (worksOn_report _)
    · exact (hcreated _).trans (worksOn_report _)
    · exact (hcreated _).trans (worksOn_report _)
    · exact hcreated _
  · unfold admitAsk
    simp only
    split
    · exact worksOn_report _
    · exact (worksOn_modPending _).trans (worksOn_report _)

end

/-! ### The judgement, outcome by outcome (R63) -/

section
variable {s : State} {t : TreeId} {a : Handed} {d : DirItem} {e : Entry} {hold tn : Nat} {r : PendingRec} {prof : Profile}
  {cat : Option CatEntry}

theorem judgeAnnounce_clash (h : s.lookup a.serial = some d)
    (hlost : ∀ e hold, s.entry? d.tree d.tn = some e → e.state ≠ .lost hold) :
    judgeAnnounce t a s =
      s.report t (.admission .clash .announce a.window a.serial a.model a.c none d.tn (some d.tree)) := by
  simp only [judgeAnnounce, serialCheck_clash h hlost]
  rfl

theorem judgeAnnounce_backlog (h : s.lookup a.serial = some d) (he : s.entry? d.tree d.tn = some e)
    (hst : e.state = .lost hold) (hd : d.tree = t)
    (hfull : (s.tree t).msgq.broadcastStands = true ∨ 24 ≤ (s.tree t).msgq.items.length) :
    judgeAnnounce t a s = s.report t (.admission .backlog .announce a.window a.serial a.model a.c none 0 none) := by
  simp only [judgeAnnounce, serialCheck_here h he hst hd, reactivate_full hfull]
  rfl

theorem judgeAnnounce_reactivated (h : s.lookup a.serial = some d) (he : s.entry? d.tree d.tn = some e)
    (hst : e.state = .lost hold) (hd : d.tree = t) (hb : (s.tree t).msgq.broadcastStands = false)
    (hl : (s.tree t).msgq.items.length < 24) :
    judgeAnnounce t a s =
      (reactivate t d.tn a.serial a.c s).state.report t
        (.admission .reactivated .announce a.window a.serial a.model a.c none d.tn none) := by
  obtain ⟨hans, -⟩ := reactivate_assigned (serial := a.serial) (c := a.c) (hd ▸ he) hb hl
  simp only [judgeAnnounce, serialCheck_here h he hst hd, hans]
  rfl

theorem judgeAnnounce_moved (h : s.lookup a.serial = some d) (he : s.entry? d.tree d.tn = some e)
    (hst : e.state = .lost hold) (hd : d.tree ≠ t) :
    judgeAnnounce t a s = judgeNew t a (freeEntry d.tree d.tn .moved s) := by
  simp only [judgeAnnounce, serialCheck_elsewhere h he hst hd]

theorem judgeAnnounce_new (h : s.lookup a.serial = none) : judgeAnnounce t a s = judgeNew t a s := by
  simp only [judgeAnnounce, serialCheck_new h]

theorem judgeNew_barred (hb : s.admission.barred a.serial = true) :
    judgeNew t a s =
      (s.modPending t fun l => l.filter fun x => x.serial ≠ a.serial).report t
        (.admission .barred .announce a.window a.serial a.model a.c
          (((s.tree t).pendingOf a.serial).map fun r => r.profile.origins) 0 none) := by
  simp only [judgeNew, hb, if_true] <;> rfl

section
variable (hb : s.admission.barred a.serial = false)
include hb

theorem judgeNew_stillPending (hr : (s.tree t).pendingOf a.serial = some r) :
    judgeNew t a s =
      (s.modPending t fun l => l.map fun x => if x.serial = a.serial then { x with c := a.c } else x).report t
        (.admission .stillPending .announce a.window r.serial r.model a.c (some r.profile.origins) 0 none) := by
  simp only [judgeNew, hb, hr, Bool.false_eq_true, if_false] <;> rfl

variable (hp : (s.tree t).pendingOf a.serial = none) (hcat : cat = s.admission.matching a.serial.vendor a.model)
  (hprof : prof = resolveProfile a.declared cat (s.params t))
include hp hcat hprof

theorem judgeNew_refused {x : CatEntry} (hx : cat = some x) (href : x.refuse = true) :
    judgeNew t a s =
      s.report t (.admission .modelRefused .announce a.window a.serial a.model a.c (some prof.origins) 0 none) := by
  subst hprof
  rw [hx] at hcat ⊢
  simp only [judgeNew, hb, hp, ← hcat, Option.map_some, Option.getD_some, href, Bool.false_eq_true, if_false, if_true] <;> rfl

theorem judgeNew_admits (href : ∀ x, cat = some x → x.refuse = false) :
    judgeNew t a s =
      match a.mode with
      | .openMode => admitOpen t a prof s
      | .ask => admitAsk t a prof s := by
  subst hprof hcat
  have hnot : ((s.admission.matching a.serial.vendor a.model).map (·.refuse)).getD false = false := by
    cases hx : s.admission.matching a.serial.vendor a.model with
    | none => rfl
    | some x => exact href x hx
  simp only [judgeNew, hb, hp, hnot, Bool.false_eq_true, if_false] <;> rfl

end

section
variable (ha : (s.tree t).isActive = true) (h : s.lookup a.serial = none)
include ha h

theorem admitOpen_tableFull (hfree : (s.tree t).lowestFree = none) :
    admitOpen t a prof s =
      s.report t (.admission .tableFull .announce a.window a.serial a.model a.c (some prof.origins) 0 none) := by
  simp only [admitOpen, createEntry_tableFull ha h hfree]
  rfl

theorem admitOpen_backlog (hfree : (s.tree t).lowestFree = some tn)
    (hfull : (s.tree t).msgq.broadcastStands = true ∨ 24 ≤ (s.tree t).msgq.items.length) :
    admitOpen t a prof s =
      s.report t (.admission .backlog .announce a.window a.serial a.model a.c (some prof.origins) 0 none) := by
  simp only [admitOpen, createEntry_backlog ha h hfree hfull]
  rfl

/-- An OPEN admission leaves its entry with the ASSIGN queued, its serial in the directory, and no pending record of it on
another tree (R68, R74). -/
theorem admitOpen_created (hfree : (s.tree t).lowestFree = some tn) (hb : (s.tree t).msgq.broadcastStands = false)
    (hl : (s.tree t).msgq.items.length < 24) :
    Assigned t tn (newEntry ((s.tree t).slotInst tn + 1) (s.budgetEnd t) a.serial a.model a.c prof) a.serial s
        (admitOpen t a prof s) ∧
      (admitOpen t a prof s).directory = s.directory ++ [⟨a.serial, t, tn⟩] ∧
      ∀ j, j ≠ t → ∀ x ∈ ((admitOpen t a prof s).tree j).pendingList, x.serial ≠ a.serial := by
  obtain ⟨hans, ⟨hentry, hinst, hother, hitems, hdisc⟩, hdir⟩ :=
    createEntry_assigned (serial := a.serial) (model := a.model) (c := a.c) (prof := prof) ha h hfree hb hl
  have hopen : ∃ b, admitOpen t a prof s =
      supersede { source := .announce, window := a.window } t tn a.serial
        ((createEntry t a.serial a.model a.c prof s).state.report t b) := by
    simp only [admitOpen, hans]
    exact ⟨_, rfl⟩
  obtain ⟨b, hopen⟩ := hopen
  rw [hopen]
  generalize createEntry t a.serial a.model a.c prof s = x at *
  obtain ⟨⟨htree, -, hkept⟩, hgone⟩ := supersede_superseded (s := x.state.report t b) (t := t) (tn := tn)
    (serial := a.serial) { source := .announce, window := a.window }
  have hsame : ∀ k, (supersede { source := .announce, window := a.window } t tn a.serial (x.state.report t b)).entry? t k =
      x.state.entry? t k := fun k => by rw [State.entry?, htree, tree_report, State.entry?]
  refine ⟨⟨(hsame tn).trans hentry, ?_, fun k hk => (hsame k).trans (hother k hk), ?_, ?_⟩, hkept.trans hdir, hgone⟩
  · rw [htree, tree_report, hinst]
  · rw [htree, tree_report, hitems]
  · rw [htree, tree_report, hdisc]

end

theorem admitAsk_full (h : 8 ≤ (s.tree t).pendingList.length) :
    admitAsk t a prof s =
      s.report t (.admission .askFull .announce a.window a.serial a.model a.c (some prof.origins) 0 none) := by
  unfold admitAsk
  simp only
  rw [if_pos (by simpa [Config.pendingLimit] using h)]
  rfl

theorem admitAsk_placed (h : (s.tree t).pendingList.length < 8) :
    admitAsk t a prof s =
      (s.modPending t fun l =>
          l ++
            [{ serial := a.serial, model := a.model, c := a.c, profile := prof
               deadline := s.epoch + (s.params t).askHold }]).report t
        (.admission .ask .announce a.window a.serial a.model a.c (some prof.origins) 0 none) := by
  unfold admitAsk
  simp only
  rw [if_neg (by simpa [Config.pendingLimit] using h)]
  rfl

end

/-- Settles O34: the announce is counted, and each outcome of its judgement is what the report says. -/
theorem announcesAdmitted : Obligations.AnnouncesAdmitted := by
  intro s s1 t arrival payload a w number qs gw dispatch coll c cat prof hs ha h0 hd hparse hw hdd hnew hroom hc hreach hcat
    hprof hs1
  have hroutes := routesBursts_of_active ha
  have hburst : routeBurst t .window arrival.toNat .clean payload s = judgeAnnounce t (handed number w a c) s1 := by
    show windowBurst t _ _ _ s = _
    rw [windowBurst_of_collecting h0 hd, show announceOf .clean payload = some a from hparse]
    exact (windowAnnounce_heard hw hdd hnew hroom).trans ((announceHeard_inReach hc hreach).trans (by rw [hs1]))
  have htree : ∃ x, s1.tree t = { s.tree t with disc := x } := ⟨_, by rw [hs1, State.setDisc, tree_modDisc_same]⟩
  have hothers : ∀ j, j ≠ t → s1.tree j = s.tree j := fun j hj => by
    rw [hs1, State.setDisc, State.modDisc, tree_modTree_other _ _ _ _ hj]
  have hkept : s1.port = s.port ∧ s1.directory = s.directory ∧ s1.admission = s.admission ∧ s1.epoch = s.epoch := by
    rw [hs1]
    exact ⟨rfl, rfl, rfl, rfl⟩
  clear hs1
  obtain ⟨x, htree⟩ := htree
  obtain ⟨hport, hdir, hadm, hepoch⟩ := hkept
  have hlookup : ∀ serial, s1.lookup serial = s.lookup serial := fun serial => by rw [State.lookup, hdir, State.lookup]
  have hslots : ∀ j, (s1.tree j).slots = (s.tree j).slots := fun j => by
    by_cases hj : j = t
    · rw [hj, htree]
    · rw [hothers j hj]
  have hentry : ∀ j k, s1.entry? j k = s.entry? j k := fun j k => entry?_of_slots (hslots j) k
  have hinst : ∀ j k, (s1.tree j).slotInst k = (s.tree j).slotInst k := fun j k => by
    simp only [Tree.slotInst, hslots j]
  have hmsgq : (s1.tree t).msgq = (s.tree t).msgq := by rw [htree]
  have hpending : (s1.tree t).pendingList = (s.tree t).pendingList := by rw [htree]
  have hparams : s1.params t = s.params t := by rw [State.params, htree, State.params]
  have hactive : (s1.tree t).isActive = true := by rw [htree]; exact ha
  have hreport : ∀ {y : State} {b : ReportBody}, judgeAnnounce t (handed number w a c) s1 = y.report t b →
      y.port = s.port → exec (.quietIntervalBurst t .window arrival .clean payload) s =
        .next (y.entering (treePoster t) b) := fun hy hp => take_routed_report hs hroutes (hburst.trans hy) hp
  have hworks : ∀ {y : State}, judgeAnnounce t (handed number w a c) s1 = y →
      exec (.quietIntervalBurst t .window arrival .clean payload) s = .next y.settle := fun hy =>
    (take_of_taking hs _).trans (by rw [routed_of_routes hroutes, hburst, hy])
  refine ⟨fun d hl => ?_, fun hl => ?_⟩
  · rw [← hlookup] at hl
    refine ⟨fun hlost => hreport (judgeAnnounce_clash hl fun e hold he => hlost e hold (hentry _ _ ▸ he)) hport,
      fun e hold he hst => ⟨fun htr hfull => ?_, fun htr hb hlen => ?_, fun htr hserial => ?_⟩⟩
    · exact hreport (judgeAnnounce_backlog hl ((hentry _ _).trans he) hst htr (hmsgq ▸ hfull)) hport
    · obtain ⟨-, ⟨hself, hi, hother, hitems, hdisc⟩, hdir'⟩ :=
        reactivate_assigned (s := s1) (t := t) (tn := d.tn) (serial := a.serial) (c := c)
          ((hentry _ _).trans (htr ▸ he)) (hmsgq ▸ hb) (hmsgq ▸ hlen)
      have hbudget : s1.budgetEnd t = s.epoch + (s.params t).budget := by rw [State.budgetEnd, hepoch, hparams]
      refine ⟨_, hworks (judgeAnnounce_reactivated hl ((hentry _ _).trans he) hst htr (hmsgq ▸ hb) (hmsgq ▸ hlen)),
        ?_, ?_, fun k hk => (hother k hk).trans (hentry t k), ?_, hdir'.trans hdir, hdisc⟩
      · refine hself.trans ?_
        rw [hinst, hbudget]
        rfl
      · exact hi.trans (by rw [hinst]; rfl)
      · refine hitems.trans ?_
        rw [hmsgq, hinst]
        rfl
    · have hs1e := (hentry _ _).trans he
      obtain ⟨hnone, -, hinsts, hdirs⟩ := freeEntry_frees (cause := .moved) hs1e
      obtain ⟨hslots', hdir'⟩ := worksOn_judgeNew (s := freeEntry d.tree d.tn .moved s1) (t := t) (a := handed number w a c)
      refine ⟨_, hworks (judgeAnnounce_moved hl hs1e hst htr), ?_, ?_, fun y hy hys => ?_⟩
      · exact (entry?_of_slots (hslots' d.tree htr) d.tn).trans hnone
      · have hsame := hslots' d.tree htr
        refine Eq.trans ?_ ((hinsts d.tree d.tn).trans (hinst _ _))
        rw [tree_settle]
        simp only [Tree.slotInst, hsame]
      · refine (hdir' y hy).resolve_left fun hmem => ?_
        rw [hdirs, List.mem_filter, hserial, ← hys] at hmem
        simp at hmem
  · rw [← hlookup] at hl
    have hjudge := judgeAnnounce_new (t := t) (a := handed number w a c) hl
    have hof : (s1.tree t).pendingOf a.serial = (s.tree t).pendingOf a.serial := by
      rw [Tree.pendingOf, hpending, Tree.pendingOf]
    rw [← hadm] at hcat ⊢
    rw [← hparams] at hprof ⊢
    rw [← hof, ← hpending, ← hmsgq, ← hepoch]
    have hfree : (s.tree t).lowestFree = (s1.tree t).lowestFree := by
      simp only [Tree.lowestFree, Tree.entry?, hslots t]
    rw [hfree]
    refine ⟨fun hb => hreport (hjudge.trans (judgeNew_barred hb)) hport, fun r hb hr =>
      hreport (hjudge.trans (judgeNew_stillPending hb hr)) hport, fun y hb hr hy href =>
      hreport (hjudge.trans (judgeNew_refused hb hr hcat hprof hy href)) hport, fun hb hr href => ?_⟩
    have hadmits := hjudge.trans (judgeNew_admits (a := handed number w a c) hb hr hcat hprof href)
    have hopens : w.mode = .openMode → judgeAnnounce t (handed number w a c) s1 = admitOpen t (handed number w a c) prof s1 :=
      fun hm => by rw [hadmits, show (handed number w a c).mode = .openMode from hm]
    have hasks : w.mode = .ask → judgeAnnounce t (handed number w a c) s1 = admitAsk t (handed number w a c) prof s1 :=
      fun hm => by rw [hadmits, show (handed number w a c).mode = .ask from hm]
    refine ⟨fun hm hf => hreport ((hopens hm).trans (admitOpen_tableFull hactive hl hf)) hport, fun tn hm hf hfull =>
      hreport ((hopens hm).trans (admitOpen_backlog hactive hl hf hfull)) hport, fun tn hm hf hbc hlen => ?_,
      fun hm hfull => hreport ((hasks hm).trans (admitAsk_full hfull)) hport,
      fun hm hsome => hreport ((hasks hm).trans (admitAsk_placed hsome)) hport⟩
    obtain ⟨⟨hself, hi, hother, hitems, hdisc⟩, hdir', hgone⟩ :=
      admitOpen_created (a := handed number w a c) (prof := prof) hactive hl hf hbc hlen
    refine ⟨_, hworks (hopens hm), ?_, ?_, fun k hk => (hother k hk).trans (hentry t k), ?_,
      hdir'.trans (by rw [hdir]; rfl), hgone, hdisc⟩
    · refine hself.trans ?_
      rw [hinst]
      rfl
    · exact hi.trans (by rw [hinst]; rfl)
    · refine hitems.trans ?_
      rw [hinst]
      rfl

end Sys2Proof.Machine
end


section
/-! PROOF. What each poster does when its message is handed over at a slot call (O31): the head item of a ready queue goes
down the slot, its poster is told, and the slot call goes on from there (R28, R36, R50, R84, R110, R114, R130, R138, R169,
R170). -/

namespace Sys2Proof.Machine

/-! ### A slot call that finds nothing late, nothing owed and no broadcast RETIRE (R28) -/

section
variable {s r : State} {t : TreeId} {it : Item} {rest : List Item}

/-- The items that one tree's slot has taken in the current epoch (R28). -/
def Tree.handedIn (T : Tree) (epoch : Nat) : Nat := if T.msgq.countEpoch = epoch then T.msgq.count else 0

theorem slotCall_of_ready (h : s.SlotReady t) :
    slotCall t s = dispatchLoop t (4 - (s.tree t).handedIn s.epoch) (freshCount t s) := by
  rw [slotCall, slotExpiry_of_inTime h.inTime, slotOwed_of_nothing (.inl h.owed) h.broadcast, slotDispatch, freshCount_tree]
  rfl

theorem handOver_freshCount : handOver t it rest (freshCount t s) = s.handedOver t it rest := by
  unfold freshCount handOver State.handedOver
  split
  · next h => exact modTree_congr (by simp [h])
  · next h =>
    rw [State.modMsgq, modTree_modTree]
    exact modTree_congr (by simp only [if_neg h]; rfl)

theorem items_freshCount : ((freshCount t s).tree t).msgq.items = (s.tree t).msgq.items := by rw [freshCount_tree]

theorem freshCount_of_current (h : (s.tree t).msgq.countEpoch = s.epoch) : freshCount t s = s := by
  rw [freshCount, if_pos h]

theorem handedIn_handedOver :
    ((s.handedOver t it rest).tree t).handedIn s.epoch = (s.tree t).handedIn s.epoch + 1 := by
  simp [Tree.handedIn, State.handedOver]

theorem broadcastStands_handedOver (h : (s.tree t).msgq.broadcastStands = false)
    (hitems : (s.tree t).msgq.items = it :: rest) :
    ((s.handedOver t it rest).tree t).msgq.broadcastStands = false := by
  have howed : ((s.handedOver t it rest).tree t).msgq.owedBroadcast = (s.tree t).msgq.owedBroadcast := by
    simp [State.handedOver]
  rw [MsgQueue.broadcastStands, hitems] at h
  rw [MsgQueue.broadcastStands, items_handedOver, howed]
  simp_all

/-- Work that leaves the queue and what the entries owe leaves the tree ready for the rest of its slot call. -/
theorem slotReady_of_posted (h : s.SlotReady t) (hitems : (s.tree t).msgq.items = it :: rest)
    (hposted : r.PostedAs (s.handedOver t it rest) t) (hepoch : r.epoch = s.epoch) : r.SlotReady t := by
  obtain ⟨hmsgq, howed⟩ := hposted
  refine ⟨fun x hx => ?_, fun tn e he => ?_, ?_⟩
  · rw [hmsgq, items_handedOver] at hx
    rw [hepoch]
    exact h.inTime x (hitems ▸ List.mem_cons_of_mem _ hx)
  · have hmap := howed tn
    rw [he, entry?_handedOver, Option.map_some, eq_comm, Option.map_eq_some_iff] at hmap
    obtain ⟨y, hy, hye⟩ := hmap
    exact (congrArg Prod.fst hye).symm.trans (h.owed tn y hy)
  · rw [hmsgq]
    exact broadcastStands_handedOver h.broadcast hitems

section
variable (hready : s.SlotReady t) (hitems : (s.tree t).msgq.items = it :: rest)
  (hroom : (s.tree t).msgq.countEpoch ≠ s.epoch ∨ (s.tree t).msgq.count < 4)
include hready hitems hroom

/-- The head item is handed over and its poster told before the slot call goes on. -/
theorem slotCall_head :
    slotCall t s =
      dispatchLoop t (3 - (s.tree t).handedIn s.epoch) (dispatchedNotice t it s.epoch (s.handedOver t it rest)) := by
  have hlow : (s.tree t).handedIn s.epoch < 4 := by
    unfold Tree.handedIn
    split
    · next h => exact hroom.resolve_left (not_not.mpr h)
    · omega
  have hmore : 4 - (s.tree t).handedIn s.epoch = 3 - (s.tree t).handedIn s.epoch + 1 := by omega
  rw [slotCall_of_ready hready, hmore]
  simp only [dispatchLoop, items_freshCount, hitems, handOver_freshCount, epoch_freshCount]

/-- A slot call goes on from what the notice to the head item's poster leaves. -/
theorem slotCall_told (htold : dispatchedNotice t it s.epoch (s.handedOver t it rest) = r)
    (hposted : r.PostedAs (s.handedOver t it rest) t) (hepoch : r.epoch = s.epoch) : slotCall t s = slotCall t r := by
  have hcurrent : (r.tree t).msgq.countEpoch = r.epoch := by rw [hposted.1, countEpoch_handedOver, hepoch]
  have hcount : (r.tree t).handedIn r.epoch = (s.tree t).handedIn s.epoch + 1 := by
    rw [← handedIn_handedOver (it := it) (rest := rest), Tree.handedIn, Tree.handedIn, hposted.1, hepoch]
  rw [slotCall_head hready hitems hroom, htold, slotCall_of_ready (slotReady_of_posted hready hitems hposted hepoch),
    freshCount_of_current hcurrent, hcount]
  congr 1
  omega

theorem exec_slotCall_told (hs : s.Taking) (htold : dispatchedNotice t it s.epoch (s.handedOver t it rest) = r)
    (hposted : r.PostedAs (s.handedOver t it rest) t) (hepoch : r.epoch = s.epoch) (hpin : r.resetPin = s.resetPin) :
    exec (.slotCall t) s = exec (.slotCall t) r :=
  exec_slotCall_congr (slotCall_told hready hitems hroom htold hposted hepoch) hpin hs

end

/-- A lone item whose notice leaves the queue empty. -/
theorem exec_slotCall_alone (hs : s.Taking) (hready : s.SlotReady t) (hitems : (s.tree t).msgq.items = [it])
    (hroom : (s.tree t).msgq.countEpoch ≠ s.epoch ∨ (s.tree t).msgq.count < 4)
    (htold : dispatchedNotice t it s.epoch (s.handedOver t it []) = r) (hempty : (r.tree t).msgq.items = []) :
    exec (.slotCall t) s = .next r.settle := by
  have hexec : exec (.slotCall t) s = s.take (slotCall t) := rfl
  rw [hexec, take_of_taking hs, slotCall_head hready hitems hroom, htold, dispatchLoop_of_empty _ hempty]

theorem slotReady_of_alone (hitems : (s.tree t).msgq.items = [it]) (hob : (s.tree t).msgq.owedBroadcast = false)
    (howed : ∀ k x, s.entry? t k = some x → x.owed = none) (hlate : it.deadline = none)
    (hb : it.msg.isBroadcast = false) : s.SlotReady t := by
  refine ⟨fun x hx => ?_, howed, ?_⟩
  · rw [hitems, List.mem_singleton] at hx
    rw [hx, Item.late, hlate]
  · simp [MsgQueue.broadcastStands, hob, hitems, hb]

theorem seq_handedOver : ((s.handedOver t it rest).tree t).seq = (s.tree t).seq := by simp [State.handedOver]
theorem disc_handedOver : ((s.handedOver t it rest).tree t).disc = (s.tree t).disc := by simp [State.handedOver]
theorem light_handedOver : ((s.handedOver t it rest).tree t).light = (s.tree t).light := by simp [State.handedOver]
theorem ctl_handedOver : ((s.handedOver t it rest).tree t).ctl = (s.tree t).ctl := by simp [State.handedOver]
theorem grant_handedOver : ((s.handedOver t it rest).tree t).out.grant = (s.tree t).out.grant := by simp [State.handedOver]

theorem slotInst_handedOver (tn : Nat) : ((s.handedOver t it rest).tree t).slotInst tn = (s.tree t).slotInst tn := by
  simp [State.handedOver, Tree.slotInst]

end

/-! ### An ASSIGN, a RETIRE or an UNMUTE handed over alone -/

/-- The notice to the Registry that an ASSIGN, a RETIRE or an UNMUTE was handed over. -/
theorem dispatchedNotice_assign {s : State} {t : TreeId} {it : Item} {d tn : Nat} {serial : Serial}
    (h : it.msg = .assign tn serial) : dispatchedNotice t it d s = assignSent t tn it.inst s := by
  simp only [dispatchedNotice, h]

theorem dispatchedNotice_retire {s : State} {t : TreeId} {it : Item} {d tn : Nat} (h : it.msg = .retire tn) :
    dispatchedNotice t it d s = retireSent t tn it.inst s := by simp only [dispatchedNotice, h]

theorem dispatchedNotice_unmute {s : State} {t : TreeId} {it : Item} {d tn : Nat} (h : it.msg = .unmute tn) :
    dispatchedNotice t it d s = huntClear t tn it.inst d s := by simp only [dispatchedNotice, h]

section
variable {s q : State} {t : TreeId} {tn d : Nat} {inst : BitVec 16} {e : Entry} {n : StateName}

theorem isIn_eq_true (hi : inst = e.inst) (hn : e.state.name = n) : e.isIn inst n = true := by
  simp [Entry.isIn, hi, hn]

theorem isIn_of_other (hi : inst ≠ e.inst) : e.isIn inst n = false := by
  simp [Entry.isIn, Ne.symm hi]

theorem assignSent_of_other (he : q.entry? t tn = some e) (hi : inst ≠ e.inst) : assignSent t tn inst q = q := by
  simp [assignSent, he, isIn_of_other hi]

/-- The ASSIGN of an ASSIGNING entry takes it to RANGING with its deadline (R138). -/
theorem assignSent_ranges {d : Nat} (he : q.entry? t tn = some e) (hst : e.state = .assigning d) :
    ∃ r, Transited t tn (Entry.toRanging (q.budgetEnd t)) q r ∧ r.entry? t tn = some { e with state := .ranging d } ∧
      assignSent t tn e.inst q = (addTask t { tn := tn, inst := e.inst, kind := .range } r).state := by
  have hin : e.isIn e.inst .assigning = true := isIn_eq_true rfl (by rw [hst]; rfl)
  have hranging : e.toRanging (q.budgetEnd t) = { e with state := .ranging d } := by
    simp [Entry.toRanging, Entry.deadlineOr, Entry.activation?, hst]
  have htr := transited_transit (cause := .assignSent) (f := Entry.toRanging (q.budgetEnd t)) he
  exact ⟨_, htr, by rw [htr.self, he, Option.map_some, hranging], by simp [assignSent, he, hin]⟩

/-- Its task is asked for as on the tree before the hand-over, which leaves the sequencer (R138). -/
theorem assignSent_asks {it : Item} {rest : List Item} {d : Nat} (he : s.entry? t tn = some e)
    (hst : e.state = .assigning d) :
    s.TaskAsked (assignSent t tn e.inst (s.handedOver t it rest)) t { tn := tn, inst := e.inst, kind := .range } := by
  obtain ⟨r, htr, hself, hsent⟩ := assignSent_ranges ((entry?_handedOver _ _ it rest tn).trans he) hst
  rw [hsent]
  by_cases hopen : (s.tree t).isClosing = true
  · have hgate : (s.tree t).gateOpen = false := gateOpen_of_closing (by simpa [Tree.isClosing] using hopen)
    exact ⟨fun h => absurd h (by simp [hopen]), fun h => absurd h (by simp [hgate])⟩
  · exact taskAsked_addTask rfl ((htr.seq t).trans seq_handedOver) ((htr.ctl t).trans ctl_handedOver)
      ((htr.light t).trans light_handedOver) he hself rfl rfl rfl (by simpa using hopen)

theorem retireSent_of_other (he : q.entry? t tn = some e) (hi : inst ≠ e.inst) : retireSent t tn inst q = q := by
  simp [retireSent, he, isIn_of_other hi]

theorem retireSent_frees (he : q.entry? t tn = some e) (hst : e.state = .retiring) :
    retireSent t tn e.inst q = freeEntry t tn .retireSent q := by
  have hin : e.isIn e.inst .retiring = true := isIn_eq_true rfl (by rw [hst]; rfl)
  simp [retireSent, he, hin]

/-- Freeing an entry posts nothing: an empty queue stays empty (R51, R107). -/
theorem items_freeEntry_of_empty {cause : Cause} (h : (q.tree t).msgq.items = []) :
    ((freeEntry t tn cause q).tree t).msgq.items = [] := by
  cases he : q.entry? t tn with
  | none => simpa only [freeEntry, he] using h
  | some e =>
    rw [freeEntry_eq he, quiet_withdrawn.posted.1]
    simp [State.probeGone, slotFreed_tree, Tree.itemsKept, h]

/-- TERMINAL_ON is sent as an entry enters OPERATING (R38). -/
theorem grant_transit_on {f : Entry → Entry} {cause : Cause} (he : s.entry? t tn = some e) (ho : e.operating = false)
    (hf : (f e).operating = true) :
    ((transit t tn cause f s).tree t).out.grant =
      (s.tree t).out.grant ++ [.terminalOn tn (f e).profile.pre.value (f e).profile.bp.value] := by
  unfold transit
  rw [he]
  simp [ho, hf, terminalOn, sendLink]

/-- The UNMUTE of a released hunt candidate returns it to OPERATING, on the air (R170). -/
theorem huntClear_operates (he : q.entry? t tn = some e) (hst : e.state = .muted (.hunt true)) :
    (huntClear t tn e.inst d q).entry? t tn =
        some
          { e with
            state := .operating { sum := 0, n := 0, settle := .epoch (d + 2), misses := 0 }
            ever := true, attempts := none } ∧
      tn ∈ ((huntClear t tn e.inst d q).tree t).onAir ∧
      ((huntClear t tn e.inst d q).tree t).out.grant =
        (q.tree t).out.grant ++ [.terminalOn tn e.profile.pre.value e.profile.bp.value] ∧
      ((huntClear t tn e.inst d q).tree t).msgq = (q.tree t).msgq := by
  have hcleared : huntClear t tn e.inst d q = transit t tn .huntClear (Entry.toOperating (d + 2)) q := by
    simp [huntClear, he, Entry.huntMuted, hst]
  have hidle : e.operating = false := by simp [Entry.operating, hst]
  have hon : (e.toOperating (d + 2)).operating = true := rfl
  have htr := transited_transit (cause := .huntClear) (f := Entry.toOperating (d + 2)) he
  have hair := onAir_transit (cause := .huntClear) (f := Entry.toOperating (d + 2)) he
  rw [hcleared]
  refine ⟨by rw [htr.self, he]; rfl, ?_, grant_transit_on he hidle hon, htr.msgq t⟩
  rw [hair, hidle]
  simp [hon, mem_insertTn]

end

end Sys2Proof.Machine
end

section
/-! PROOF. The notices to the posters of a longer queue, and what a slot call tells the Registry (O31). -/

namespace Sys2Proof.Machine

/-! ### The notices of a dispatch, case by case -/

section
variable {q : State} {t : TreeId} {k d : Nat} {inst : BitVec 16} {e : Entry}

theorem inviteDispatched_of_posted {w : Context} {n : Byte} {qs gw : Int} (h : (q.tree t).disc.state = .posted w n qs gw) :
    inviteDispatched t d q = q.setDisc t (.collecting w n qs gw d Collection.empty) := by
  simp only [inviteDispatched, h]

theorem probeDispatched_of_posted {o : ProbeOp} {pl : Placement} {qe qs g : Int} (ho : (q.tree t).seq.op = some o)
    (hp : o.phase = .posted pl qe qs g) (hk : o.tn = k) (hi : o.inst = inst) :
    probeDispatched t k inst q = q.setOp t (some { o with phase := .listening pl qe qs g Echoes.empty }) := by
  have hn : o.named k inst = true := by simp [ProbeOp.named, hk, hi]
  simp only [probeDispatched, ho, hp, hn, if_true]

/-- The verify of an operation that waits for its DELAY is placed La + 2 epochs behind the dispatch (R105, R114). -/
theorem delayDispatched_verifies {o : ProbeOp} (he : q.entry? t k = some e) (hi : e.inst = inst) {dl : Nat}
    (hst : e.state = .verifying dl) (ho : (q.tree t).seq.op = some o) (hp : o.phase = .waitDelay) (hk : o.tn = k)
    (hoi : o.inst = inst) :
    delayDispatched t k inst d q =
      sendProbe t { o with stage := .verify (some d) } (placementOf (q.params t) e ((d : Int) + e.profile.la.value + 2)) q := by
  have hin : e.isIn inst .verifying = true := isIn_eq_true hi.symm (by rw [hst]; rfl)
  have hn : o.named k inst = true := by simp [ProbeOp.named, hk, hoi]
  have he' : q.entry? t o.tn = some e := by rw [hk, he]
  simp only [delayDispatched, he, Option.map_some, hin, Option.getD_some, if_true, ho, hp, hn, beginAttempt, he']

theorem delayDispatched_of_other (h : ∀ e, q.entry? t k = some e → e.inst ≠ inst) : delayDispatched t k inst d q = q := by
  unfold delayDispatched
  cases he : q.entry? t k with
  | none => rfl
  | some e => simp [isIn_of_other (h e he).symm]

theorem nudgeDispatched_settles {x : Drift} (he : q.entry? t k = some e) (hi : e.inst = inst)
    (hst : e.state = .operating x) :
    nudgeDispatched t k inst d q =
      q.modEntry t k fun y =>
        { y with state := .operating { x with settle := .epoch (d + e.profile.la.value + 2) } } := by
  have hin : e.isIn inst .operating = true := isIn_eq_true hi.symm (by rw [hst]; rfl)
  simp only [nudgeDispatched, he, hin, if_true]
  exact modEntry_congr he (modDrift_of_operating hst _)

theorem nudgeDispatched_of_other (h : ∀ e, q.entry? t k = some e → e.inst ≠ inst) : nudgeDispatched t k inst d q = q := by
  unfold nudgeDispatched
  cases he : q.entry? t k with
  | none => rfl
  | some e => simp [isIn_of_other (h e he).symm]

theorem huntMuteDispatched_settles {h : Hunt} (hh : (q.tree t).light.hunt = some h)
    (hc : h.current = { tn := k, inst := inst }) (hm : h.step = .muting) :
    huntMuteDispatched t k inst d q = q.modLight t fun l => { l with hunt := some { h with step := .settling (d + 2) } } := by
  simp only [huntMuteDispatched, hh, hc, hm, and_self, if_true]

theorem huntMuteDispatched_of_other
    (h : ∀ h, (q.tree t).light.hunt = some h → h.current ≠ { tn := k, inst := inst }) :
    huntMuteDispatched t k inst d q = q := by
  unfold huntMuteDispatched
  cases hh : (q.tree t).light.hunt with
  | none => rfl
  | some x => simp [h x hh]

theorem huntClear_of_other (h : ∀ e, q.entry? t k = some e → e.inst ≠ inst) : huntClear t k inst d q = q := by
  unfold huntClear
  cases he : q.entry? t k with
  | none => rfl
  | some e => simp [h e he]

end

section
variable {q : State} {t : TreeId} {it : Item} {d k : Nat}

theorem dispatchedNotice_invite {number : Byte} {span : Nat} {gw : Int} (h : it.msg = .invite number span gw) :
    dispatchedNotice t it d q = inviteDispatched t d q := by simp only [dispatchedNotice, h]

theorem dispatchedNotice_probe {g : Int} (h : it.msg = .probe k g) :
    dispatchedNotice t it d q = probeDispatched t k it.inst q := by simp only [dispatchedNotice, h]

theorem dispatchedNotice_mute (h : it.msg = .mute k) :
    dispatchedNotice t it d q = huntMuteDispatched t k it.inst d q := by simp only [dispatchedNotice, h]

theorem dispatchedNotice_delay {ld : Nat} (h : it.msg = .delay k ld) :
    dispatchedNotice t it d q =
      if it.issuer = .drift then nudgeDispatched t k it.inst d q else delayDispatched t k it.inst d q := by
  cases hi : it.issuer <;> simp only [dispatchedNotice, h, hi] <;> rfl

/-- A NUDGE, or a DELAY that the Drift Tracker posted (R130). -/
theorem dispatchedNotice_drift
    (h : (∃ change, it.msg = .nudge k change) ∨ ∃ ld, it.msg = .delay k ld ∧ it.issuer = .drift) :
    dispatchedNotice t it d q = nudgeDispatched t k it.inst d q := by
  rcases h with ⟨change, h⟩ | ⟨ld, h, hi⟩
  · simp only [dispatchedNotice, h]
  · rw [dispatchedNotice_delay h, if_pos hi]

/-- A notice that names another number, and no hunt's candidate, does nothing (R36). -/
theorem dispatchedNotice_of_other
    (hmsg : (∃ ld, it.msg = .delay k ld) ∨ (∃ change, it.msg = .nudge k change) ∨ it.msg = .mute k ∨ it.msg = .unmute k)
    (he : ∀ e, q.entry? t k = some e → e.inst ≠ it.inst)
    (hh : ∀ h, (q.tree t).light.hunt = some h → h.current ≠ { tn := k, inst := it.inst }) :
    dispatchedNotice t it d q = q := by
  rcases hmsg with ⟨ld, h⟩ | h | h | h
  · rw [dispatchedNotice_delay h]
    split
    · exact nudgeDispatched_of_other he
    · exact delayDispatched_of_other he
  · rw [dispatchedNotice_drift (.inl h), nudgeDispatched_of_other he]
  · rw [dispatchedNotice_mute h, huntMuteDispatched_of_other hh]
  · rw [dispatchedNotice_unmute h, huntClear_of_other he]

end

/-! ### A lone item (R36, R50, R138, R170) -/

section
variable {s : State} {t : TreeId} {it : Item} {tn : Nat} {e : Entry}
  (hs : s.Taking) (hroom : (s.tree t).msgq.countEpoch ≠ s.epoch ∨ (s.tree t).msgq.count < 4)
  (hitems : (s.tree t).msgq.items = [it]) (hob : (s.tree t).msgq.owedBroadcast = false)
  (howed : ∀ k x, s.entry? t k = some x → x.owed = none) (hlate : it.deadline = none) (he : s.entry? t tn = some e)
include hs hroom hitems hob howed hlate he

theorem exec_slotCall_assign {serial : Serial} {d : Nat} (hmsg : it.msg = .assign tn serial)
    (hst : e.state = .assigning d) :
    ∃ s', exec (.slotCall t) s = .next s' ∧
      (s'.entry? t tn).map Entry.identity =
        some (e.inst, e.serial, if it.inst = e.inst then .ranging d else .assigning d) ∧
      (it.inst = e.inst → s.TaskAsked s' t { tn := tn, inst := e.inst, kind := .range }) := by
  have hready := slotReady_of_alone hitems hob howed hlate (by rw [hmsg]; rfl)
  have hq : (s.handedOver t it []).entry? t tn = some e := by rw [entry?_handedOver, he]
  have hempty : ((assignSent t tn it.inst (s.handedOver t it [])).tree t).msgq.items = [] := by
    rw [trafficKept_assignSent.msgq, items_handedOver]
  refine ⟨_, exec_slotCall_alone hs hready hitems hroom (dispatchedNotice_assign hmsg) hempty, ?_⟩
  by_cases hi : it.inst = e.inst
  · obtain ⟨r, -, hself, hsent⟩ := assignSent_ranges hq hst
    rw [if_pos hi, hi]
    refine ⟨?_, fun _ => (assignSent_asks he hst).settle⟩
    have hid := (calm_addTask (s := r) (t := t) { tn := tn, inst := e.inst, kind := .range }).identity t tn
    rw [hself, ← hsent] at hid
    exact hid
  · rw [assignSent_of_other hq hi, if_neg hi]
    refine ⟨?_, fun h => absurd h hi⟩
    rw [← hst]
    exact congrArg (Option.map Entry.identity) hq

theorem exec_slotCall_retire (hmsg : it.msg = .retire tn) (hst : e.state = .retiring) :
    ∃ s', exec (.slotCall t) s = .next s' ∧
      (s'.entry? t tn).map Entry.identity = (if it.inst = e.inst then none else some e.identity) ∧
      (s'.tree t).slotInst tn = (s.tree t).slotInst tn ∧
      (it.inst = e.inst → ∀ d ∈ s'.directory, d.serial ≠ e.serial) := by
  have hready := slotReady_of_alone hitems hob howed hlate (by rw [hmsg]; rfl)
  have hq : (s.handedOver t it []).entry? t tn = some e := by rw [entry?_handedOver, he]
  by_cases hi : it.inst = e.inst
  · have hfreed := freed_freeEntry (s := s.handedOver t it []) (t := t) (tn := tn) (cause := .retireSent)
    have htold : dispatchedNotice t it s.epoch (s.handedOver t it []) = freeEntry t tn .retireSent (s.handedOver t it []) := by
      rw [dispatchedNotice_retire hmsg, hi, retireSent_frees hq hst]
    refine ⟨_, exec_slotCall_alone hs hready hitems hroom htold (items_freeEntry_of_empty (items_handedOver _ _ it [])), ?_⟩
    rw [if_pos hi]
    refine ⟨(hfreed.entries tn).trans (if_pos List.mem_cons_self),
      (hfreed.insts tn).trans (slotInst_handedOver tn), fun _ d hd hser => ?_⟩
    exact ((hfreed.directory d).1 hd).2 tn List.mem_cons_self e hq hser.symm
  · have htold : dispatchedNotice t it s.epoch (s.handedOver t it []) = s.handedOver t it [] := by
      rw [dispatchedNotice_retire hmsg, retireSent_of_other hq hi]
    refine ⟨_, exec_slotCall_alone hs hready hitems hroom htold (items_handedOver _ _ it []), ?_⟩
    rw [if_neg hi]
    exact ⟨congrArg (Option.map Entry.identity) hq, slotInst_handedOver tn, fun h => absurd h hi⟩

theorem exec_slotCall_unmute (hmsg : it.msg = .unmute tn) (hi : it.inst = e.inst) (hst : e.state = .muted (.hunt true)) :
    ∃ s', exec (.slotCall t) s = .next s' ∧
      s'.entry? t tn =
        some
          { e with
            state := .operating { sum := 0, n := 0, settle := .epoch (s.epoch + 2), misses := 0 }
            ever := true, attempts := none } ∧
      tn ∈ (s'.tree t).onAir ∧
      (s'.tree t).out.grant =
        (s.tree t).out.grant ++ [.terminalOn tn e.profile.pre.value e.profile.bp.value] := by
  have hready := slotReady_of_alone hitems hob howed hlate (by rw [hmsg]; rfl)
  have hq : (s.handedOver t it []).entry? t tn = some e := by rw [entry?_handedOver, he]
  obtain ⟨hself, hair, hgrant, hmsgq⟩ := huntClear_operates (d := s.epoch) hq hst
  rw [grant_handedOver] at hgrant
  have hempty : ((huntClear t tn it.inst s.epoch (s.handedOver t it [])).tree t).msgq.items = [] := by
    rw [hi, hmsgq, items_handedOver]
  refine ⟨_, exec_slotCall_alone hs hready hitems hroom (dispatchedNotice_unmute hmsg) hempty, ?_⟩
  rw [hi]
  exact ⟨hself, hair, hgrant⟩

end

/-! ### The head of a longer queue (R84, R110, R114, R130, R169) -/

section
variable {s : State} {t : TreeId} {it : Item} {rest : List Item} {k : Nat}

theorem params_handedOver : (s.handedOver t it rest).params t = s.params t := by
  rw [State.params, ctl_handedOver, State.params]

theorem state_handedOver {d : DiscState} (h : (s.tree t).disc.state = d) :
    ((s.handedOver t it rest).tree t).disc.state = d := by rw [disc_handedOver, h]

theorem op_handedOver {o : ProbeOp} (h : (s.tree t).seq.op = some o) :
    ((s.handedOver t it rest).tree t).seq.op = some o := by rw [seq_handedOver, h]

theorem hunt_handedOver {h : Hunt} (hh : (s.tree t).light.hunt = some h) :
    ((s.handedOver t it rest).tree t).light.hunt = some h := by rw [light_handedOver, hh]

end

/-- Settles O31: the notice to each poster, alone in the queue and at the head of a longer one. -/
theorem slotCallsTellTheRegistry : Obligations.SlotCallsTellTheRegistry := by
  intro s t hs hroom
  refine ⟨fun it tn e hitems hob howed hlate he => ⟨fun serial d hmsg hst => ?_, fun hmsg hst => ?_, fun hmsg hi hst => ?_⟩,
    fun it rest hready hitems => ⟨?_, ?_, ?_, ?_, ?_, ?_⟩⟩
  · exact exec_slotCall_assign hs hroom hitems hob howed hlate he hmsg hst
  · exact exec_slotCall_retire hs hroom hitems hob howed hlate he hmsg hst
  · exact exec_slotCall_unmute hs hroom hitems hob howed hlate he hmsg hi hst
  · intro number span gw w n qs gw' hmsg hd
    exact exec_slotCall_told hready hitems hroom hs
      ((dispatchedNotice_invite hmsg).trans (inviteDispatched_of_posted (state_handedOver hd))) (quiet_modDisc _).posted rfl rfl
  · intro k g o pl qe qs g' hmsg ho hp hk hi
    exact exec_slotCall_told hready hitems hroom hs
      ((dispatchedNotice_probe hmsg).trans (probeDispatched_of_posted (op_handedOver ho) hp hk hi))
      (quiet_setOp _).posted rfl rfl
  · intro k ld e d o hmsg hissuer he hi hst ho hp hk hoi
    have hq := (entry?_handedOver _ _ it rest k).trans he
    have htold := (dispatchedNotice_delay (d := s.epoch) hmsg).trans
      ((if_neg hissuer).trans (delayDispatched_verifies hq hi hst (op_handedOver ho) hp hk hoi))
    rw [params_handedOver] at htold
    exact exec_slotCall_told hready hitems hroom hs htold (quiet_sendProbe _ _).posted rfl rfl
  · intro k e d hmsg he hi hst
    have hq := (entry?_handedOver _ _ it rest k).trans he
    have htold := (dispatchedNotice_drift (d := s.epoch) hmsg).trans (nudgeDispatched_settles hq hi hst)
    refine exec_slotCall_told hready hitems hroom hs htold (Quiet.posted ?_) rfl rfl
    exact quiet_modEntry k fun _ => rfl
  · intro k h hmsg hh hc hm
    exact exec_slotCall_told hready hitems hroom hs
      ((dispatchedNotice_mute hmsg).trans (huntMuteDispatched_settles (hunt_handedOver hh) hc hm))
      (quiet_modLight _).posted rfl rfl
  · intro k hmsg he hh
    exact exec_slotCall_told hready hitems hroom hs
      (dispatchedNotice_of_other hmsg (by simpa using he) (by simpa [light_handedOver] using hh)) (PostedAs_refl _ _) rfl rfl

end Sys2Proof.Machine
end


section
/-! PROOF. The Task Sequencer's own moves at the end of a probe interval (O36): what beginning an attempt and taking a task
leave, and what an interval end is to the operation that listens to it (R105, R108, R111, R143, R144). -/

namespace Sys2Proof.Machine

/-! ### Beginning an attempt (R105, R106) -/

section
variable {s : State} {t : TreeId} {tn : Nat} {e : Entry} {o : ProbeOp}

theorem entry?_setOp {op : Option ProbeOp} : (s.setOp t op).entry? t tn = s.entry? t tn :=
  entry?_of_slots (by rw [State.setOp, tree_modSeq_same]) tn

theorem entry?_sendProbe {pl : Placement} : (sendProbe t o pl s).entry? t tn = s.entry? t tn := by
  have hchan : ((chanSend t .probe { kind := .quiet, length := pl.length, earliest := probeEarliest s.epochInt pl } s).tree
      t).slots = (s.tree t).slots := by simp [chanSend, sendLink]
  exact entry?_setOp.trans (entry?_of_slots hchan tn)

theorem entry?_beginAttempt : (beginAttempt t o s).entry? t tn = s.entry? t tn := by
  unfold beginAttempt
  split
  · exact entry?_setOp
  split
  · exact entry?_sendProbe
  · exact entry?_setOp
  split
  · exact entry?_sendProbe
  split
  · exact entry?_setOp
  · exact entry?_sendProbe

theorem port_beginAttempt : (beginAttempt t o s).port = s.port := by
  unfold beginAttempt
  split
  · rfl
  split
  · rfl
  · rfl
  split
  · rfl
  split
  · rfl
  · rfl

/-- Where a delay message stands, an operation that measures is HELD (R105). -/
theorem beginAttempt_held (he : s.entry? t o.tn = some e) (hstage : o.stage = .measure) (hrrt : e.rrt ≠ none)
    (hd : (s.tree t).delayStands o.tn e = true) :
    beginAttempt t o s = s.setOp t (some { o with phase := .held, waitStart := o.waitFrom s.epoch }) := by
  have hsome : e.rrt.isNone = false := by rwa [Option.isNone_eq_false_iff, Option.isSome_iff_ne_none]
  simp only [beginAttempt, he, hstage, hsome, hd, if_true, Bool.false_eq_true, if_false]

/-- An attempt that waits for no DELAY is HELD or REQUESTING (R105). -/
theorem op_beginAttempt_untimed (he : s.entry? t o.tn = some e) (hstage : o.stage ≠ .verify none) :
    ∃ ph w, ((beginAttempt t o s).tree t).seq.op = some { o with phase := ph, waitStart := w } ∧ ph.timed = false := by
  have hset : ∀ (x : State) (y : ProbeOp), ((x.setOp t (some y)).tree t).seq.op = some y := fun x y => by
    rw [State.setOp, tree_modSeq_same]
  unfold beginAttempt
  simp only [he]
  split
  · exact ⟨_, _, hset _ _, rfl⟩
  · next h => exact absurd h hstage
  split
  · exact ⟨_, _, hset _ _, rfl⟩
  split
  · exact ⟨_, _, hset _ _, rfl⟩
  · exact ⟨_, _, hset _ _, rfl⟩

end

/-! ### Taking a task (R141, R143, R144) -/

section
variable {s : State} {t : TreeId} {o : ProbeOp}

theorem port_refill : (refill t s).port = s.port := by
  have hone : ∀ (x : State) (k : Nat), (refillOne t x k).port = x.port := fun x k => by
    unfold refillOne
    split
    · split
      · rfl
      · rfl
    · rfl
  unfold refill
  generalize (s.tree t).tnsWith _ = l
  induction l generalizing s with
  | nil => rfl
  | cons k l ih => exact ih.trans (hone s k)

theorem port_takeTasks : (takeTasks t s).port = s.port := by
  unfold takeTasks
  generalize takeBound = n
  induction n generalizing s with
  | zero => rfl
  | succ n ih =>
    unfold takeLoop
    split
    · split
      · rfl
      · simp only
        split
        · exact port_beginAttempt.trans port_refill
        · exact ih.trans port_refill
    · rfl

theorem port_discardOp : (discardOp t s).port = s.port := by
  unfold discardOp
  split
  · rfl
  · rfl

theorem port_finishOp : (finishOp t s).port = s.port := port_takeTasks.trans port_discardOp

theorem calm_finishOp : Calm s (finishOp t s) := calm_finish

theorem quiet_finishOp : Quiet t s (finishOp t s) := quiet_discardOp.trans quiet_takeTasks

/-- The state that a task's entry must hold is the one its operation expects (R105, R144). -/
theorem expected_opKind (k : Task) :
    k.kind.opKind.expected.name = if k.urgent then StateName.ranging else StateName.operating := by
  cases h : k.kind <;> simp [Task.urgent, h, TaskKind.urgent, TaskKind.opKind, OpKind.expected, Expected.name]

/-- An operation taken from the list where none stood has an entry of its number in the state it expects, and no interval
yet (R105, R144). -/
theorem op_takeTasks_fits (hop : (s.tree t).seq.op = none) (h : ((takeTasks t s).tree t).seq.op = some o) :
    o.phase.timed = false ∧
      ∃ e, s.entry? t o.tn = some e ∧ e.inst = o.inst ∧ e.state.name = o.expected.name := by
  unfold takeTasks at h
  generalize takeBound = n at h
  induction n generalizing s with
  | zero => exact absurd (hop.symm.trans h) nofun
  | succ n ih =>
    unfold takeLoop at h
    split at h
    · split at h
      · exact absurd (hop.symm.trans h) nofun
      · next k rest hk =>
        simp only at h
        have hcalm : Calm s (refill t (s.setTasks t rest)) := (calm_setTasks rest).trans calm_refill
        have hnone : ((refill t (s.setTasks t rest)).tree t).seq.op = none := by
          rw [op_refill, State.setTasks, tree_modSeq_same]
          exact hop
        have hback : ∀ {n : Nat} {x : Entry}, (refill t (s.setTasks t rest)).entry? t n = some x →
            ∃ e, s.entry? t n = some e ∧ e.inst = x.inst ∧ e.state.name = x.state.name := fun hx => by
          obtain ⟨e, he, hid⟩ := identity_eq_of_map (hcalm.identity t _) hx
          exact ⟨e, he, inst_of_identity hid, congrArg EntryState.name (state_of_identity hid)⟩
        split at h
        · next x hx =>
          obtain ⟨hx, hfits⟩ := Option.filter_eq_some_iff.1 hx
          obtain ⟨ph, w, hstart, htimed⟩ := op_startOp (s := refill t (s.setTasks t rest)) (t := t) k x
          obtain rfl := Option.some.inj (h.symm.trans hstart)
          obtain ⟨hinst, hname⟩ : x.inst = k.inst ∧ x.state.name = if k.urgent then .ranging else .operating := by
            simpa [taskFits] using hfits
          obtain ⟨e, he, hei, hen⟩ := hback hx
          exact ⟨htimed, e, he, hei.trans hinst, (hen.trans hname).trans (expected_opKind k).symm⟩
        · obtain ⟨htimed, x, hx, hxi, hxn⟩ := ih hnone h
          obtain ⟨e, he, hei, hen⟩ := hback hx
          exact ⟨htimed, e, he, hei.trans hxi, hen.trans hxn⟩
    · exact absurd (hop.symm.trans h) nofun

end

/-! ### The end of the interval (R108, R111, R112) -/

section
variable {s : State} {t : TreeId} {o : ProbeOp} {e : Entry} {pl : Placement} {ldp : Nat}

theorem checkEntry_changed
    (h : ∀ e, s.entry? t o.tn = some e → e.inst ≠ o.inst ∨ e.state.name ≠ o.expected.name) :
    checkEntry t o ldp s = .changed := by
  unfold checkEntry
  cases he : s.entry? t o.tn with
  | none => rfl
  | some e =>
    have hnot : e.isIn o.inst o.expected.name = false := by
      simpa [Entry.isIn, imp_iff_not_or] using h e he
    simp only [hnot, Bool.false_eq_true, if_false]

section
variable (he : s.entry? t o.tn = some e) (hi : e.inst = o.inst) (hn : e.state.name = o.expected.name)
include he hi hn

theorem checkEntry_ldChanged (hld : e.ld ≠ ldp) : checkEntry t o ldp s = .ldChanged := by
  have hin : e.isIn o.inst o.expected.name = true := isIn_eq_true hi.symm hn
  simp only [checkEntry, he, hin, if_true, hld, if_false]

theorem checkEntry_fine (hld : e.ld = ldp) : checkEntry t o ldp s = .fine e := by
  have hin : e.isIn o.inst o.expected.name = true := isIn_eq_true hi.symm hn
  simp only [checkEntry, he, hin, if_true, hld]

end

section
variable {qe qs g : Int} {ec : Echoes} (hstale : (s.tree t).seq.stale = 0) (ho : (s.tree t).seq.op = some o)
  (hp : o.phase = .listening pl qe qs g ec)
include hstale ho hp

theorem probeEnd_changed (h : checkEntry t o pl.ldp s = .changed) : probeEnd t s = finishOp t s := by
  simp only [probeEnd, hstale, ho, hp, h, ne_eq, not_true_eq_false, if_false]

theorem probeEnd_ldChanged (h : checkEntry t o pl.ldp s = .ldChanged) : probeEnd t s = beginAttempt t o s := by
  simp only [probeEnd, hstale, ho, hp, h, ne_eq, not_true_eq_false, if_false]

theorem probeEnd_fine (h : checkEntry t o pl.ldp s = .fine e) :
    probeEnd t s = actOnOutcome t o e (attemptOutcome (s.tree t).ctl e o.stage pl.ldp g ec) s := by
  simp only [probeEnd, hstale, ho, hp, h, ne_eq, not_true_eq_false, if_false]

end

theorem exec_probeEnd (hs : s.Taking) (hr : (s.tree t).routesBursts = true) :
    exec (.intervalEnd t .probe) s = .next (probeEnd t s).settle := by
  have hexec : exec (.intervalEnd t .probe) s = s.take (routed t (routeEnd t .probe)) := rfl
  rw [hexec, take_of_taking hs, routed_of_routes hr]
  rfl

/-- An interval end that delivers no report. -/
theorem exec_probeEnd_silent (hs : s.Taking) (hr : (s.tree t).routesBursts = true) {x : State} (hx : probeEnd t s = x)
    (hport : x.port = s.port) : exec (.intervalEnd t .probe) s = .next x := by
  rw [exec_probeEnd hs hr, hx, settle_of_entered (hport ▸ hs.entered)]

/-! ### An operation whose entry has changed (R108) -/

theorem probePosted_of_listening {qe qs g : Int} {ec : Echoes} (ho : (s.tree t).seq.op = some o)
    (hp : o.phase = .listening pl qe qs g ec) {tn : Nat} {inst : BitVec 16} : (s.tree t).probePosted tn inst = false := by
  by_contra hposted
  obtain ⟨o', pl', qe', qs', g', ho', hp', -⟩ := probePosted_iff.mp (by simpa using hposted)
  obtain rfl := Option.some.inj (ho.symm.trans ho')
  exact OpPhase.noConfusion (hp.symm.trans hp')

/-- The operation ends, and one taken behind it is another's. -/
theorem finishOp_changed
    (h : ∀ e, s.entry? t o.tn = some e → e.inst ≠ o.inst ∨ e.state.name ≠ o.expected.name) {o' : ProbeOp}
    (ho' : ((finishOp t s).tree t).seq.op = some o') :
    o'.phase.timed = false ∧ (o'.tn ≠ o.tn ∨ o'.inst ≠ o.inst ∨ o'.expected ≠ o.expected) := by
  obtain ⟨htimed, x, hx, hxi, hxn⟩ := op_takeTasks_fits op_discardOp ho'
  obtain ⟨e, he, hid⟩ := identity_eq_of_map (calm_discardOp.identity t _) hx
  refine ⟨htimed, ?_⟩
  by_contra hsame
  push Not at hsame
  obtain ⟨htn, hinst, hexp⟩ := hsame
  rw [htn] at he
  rcases h e he with hne | hne
  · exact hne ((inst_of_identity hid).trans (hxi.trans hinst))
  · exact hne ((congrArg EntryState.name (state_of_identity hid)).trans (hxn.trans (congrArg Expected.name hexp)))

end

end Sys2Proof.Machine
end

section
/-! PROOF. The outcomes of a probe attempt (O36): a counted failure, a measurement, an audit, a verify within Wout and one
beyond it (R112..R118). -/

namespace Sys2Proof.Machine

/-! ### What the collection decides (R112) -/

section
variable {s : State} {t : TreeId} {o : ProbeOp} {e : Entry} {c : Controller} {ldp : Nat} {g : Int} {ec : Echoes}

section
variable (hg : ec.garbled = 0) (hf : ec.foreign = 0) (hm : ec.matching = 1)
include hg hf hm

theorem attemptOutcome_measured {rrt r : Int} {ld : Nat}
    (h : measure c.params e.profile (ec.first - 16 * (g + ldp) - c.p) = .value rrt ld r) :
    attemptOutcome c e .measure ldp g ec = .measured rrt ld r := by
  simp [attemptOutcome, hg, hf, hm, roundTrip, h]

variable {dispatch : Option Nat}

theorem attemptOutcome_verified (h : (deviation c.params.art c.p (e.r.getD 0) g ec.first).natAbs ≤ c.params.wout) :
    attemptOutcome c e (.verify dispatch) ldp g ec = .verified := by
  simp [attemptOutcome, hg, hf, hm, Entry.deviationOf, h]

theorem attemptOutcome_verifyOff (h : c.params.wout < (deviation c.params.art c.p (e.r.getD 0) g ec.first).natAbs) :
    attemptOutcome c e (.verify dispatch) ldp g ec = .verifyOff (ec.first - 16 * (g + ldp) - c.p) := by
  simp [attemptOutcome, hg, hf, hm, Entry.deviationOf, not_le.mpr h, roundTrip]

end

/-- Without one clean matching ECHO of a usable round trip, the attempt is a counted failure and nothing else. -/
theorem actOnOutcome_counted
    (h : ec.garbled ≠ 0 ∨ ec.foreign ≠ 0 ∨ ec.matching ≠ 1 ∨
      (o.stage = .measure ∧
        ∀ rrt ld r, measure c.params e.profile (ec.first - 16 * (g + ldp) - c.p) ≠ .value rrt ld r)) :
    actOnOutcome t o e (attemptOutcome c e o.stage ldp g ec) s = countedFailure t o e (beginAttempt t o) s := by
  unfold attemptOutcome
  split
  · rfl
  split
  · rfl
  split
  · rfl
  · next hg hfm hm =>
    obtain ⟨hf, hm2⟩ := not_or.1 hfm
    obtain ⟨hstage, hmeasure⟩ : o.stage = .measure ∧
        ∀ rrt ld r, measure c.params e.profile (ec.first - 16 * (g + ldp) - c.p) ≠ .value rrt ld r := by
      rcases h with h | h | h | h
      · exact absurd h hg
      · exact absurd h hf
      · omega
      · exact h
    simp only [hstage]
    cases hres : measure c.params e.profile (roundTrip ec.first g ldp c.p) with
    | outOfReach => rfl
    | beyondTarget => rfl
    | value rrt ld r => exact absurd hres (hmeasure rrt ld r)

end

/-! ### A counted failure (R118) -/

section
variable {s : State} {t : TreeId} {o : ProbeOp} {e : Entry} {next : State → State}

/-- The entry of an operation with its attempts raised to `n` (R118). -/
def attemptsRaised (t : TreeId) (tn n : Nat) (s : State) : State := s.modEntry t tn fun e => { e with attempts := some n }

theorem calm_attemptsRaised {tn n : Nat} : Calm s (attemptsRaised t tn n s) := calm_modEntry _ _ fun _ => rfl

theorem quiet_attemptsRaised {tn n : Nat} : Quiet t s (attemptsRaised t tn n s) := quiet_modEntry _ fun _ => rfl

theorem countedFailure_goesOn (h : ¬(s.params t).probeRetries + 1 ≤ e.attempts.getD 0 + 1) :
    countedFailure t o e next s = next (attemptsRaised t o.tn (e.attempts.getD 0 + 1) s) := if_neg h

/-- At the limit the entry fails with nothing in flight, and nothing is posted but what its failing posts. -/
theorem countedFailure_fails (h : (s.params t).probeRetries + 1 ≤ e.attempts.getD 0 + 1) (he : s.entry? t o.tn = some e)
    (hp : (s.tree t).probePosted o.tn e.inst = false) : Fails t o.tn e s s (countedFailure t o e next s) := by
  have hlast : countedFailure t o e next s =
      loseOrRetire t o.tn .attempts (discardOp t (attemptsRaised t o.tn (e.attempts.getD 0 + 1) s)) := if_pos h
  have hcalm := (calm_attemptsRaised (s := s) (t := t) (tn := o.tn) (n := e.attempts.getD 0 + 1)).trans
    (calm_discardOp (t := t))
  have hquiet := (quiet_attemptsRaised (s := s) (t := t) (tn := o.tn) (n := e.attempts.getD 0 + 1)).trans quiet_discardOp
  rw [hlast]
  exact fails_of_loseOrRetire he hcalm op_discardOp (.of_figures hquiet.posted (hcalm.trees t).entries) hp

/-- What a failure short of the limit leaves: the entry as it was but for its attempts, and the next attempt in its stage. -/
theorem countedFailure_attempts (h : ¬(s.params t).probeRetries + 1 ≤ e.attempts.getD 0 + 1)
    (he : s.entry? t o.tn = some e) :
    ((countedFailure t o e (beginAttempt t o) s).entry? t o.tn).map Entry.identity = some e.identity ∧
      ((countedFailure t o e (beginAttempt t o) s).entry? t o.tn).bind Entry.attempts = some (e.attempts.getD 0 + 1) ∧
      ((countedFailure t o e (beginAttempt t o) s).tree t).seq.op.map (fun x => (x.tn, x.inst, x.expected, x.stage)) =
        some (o.tn, o.inst, o.expected, o.stage) := by
  rw [countedFailure_goesOn h, entry?_beginAttempt, attemptsRaised, State.entry?_modEntry_same, he]
  obtain ⟨ph, w, hop, -⟩ := op_beginAttempt
    (s := s.modEntry t o.tn fun e' => { e' with attempts := some (e.attempts.getD 0 + 1) }) (t := t) o
  rw [hop]
  exact ⟨rfl, rfl, rfl⟩

end

/-! ### A transition off the air, and a DELAY queued -/

section
variable {s q : State} {t : TreeId} {tn ld : Nat} {inst : BitVec 16} {e y : Entry} {o : ProbeOp} {f : Entry → Entry}
  {cause : Cause}

/-- A transition between states that are not OPERATING is the entry's update and its report (R39). -/
theorem transit_idle (he : s.entry? t tn = some e) (hoff : e.operating = false) (hf : (f e).operating = false) :
    transit t tn cause f s =
      (s.modEntry t tn f).report t
        (.terminal tn (f e).inst e.serial (some e.state.name) (some (f e).state.name) cause) := by
  unfold transit
  rw [he]
  simp [hoff, hf]

/-- The DELAY of an entry queued, its resend mark cleared (R27). -/
def delayQueued (t : TreeId) (tn : Nat) (inst : BitVec 16) (ld : Nat) (q : State) : State :=
  (q.modEntry t tn fun x => { x with resend := false }).withItems t
    ((q.tree t).msgq.items ++ [{ msg := .delay tn ld, issuer := .registry, inst := inst, deadline := none }])

theorem postMust_delay (hb : (q.tree t).msgq.broadcastStands = false) (hy : q.entry? t tn = some y) (hn : y.owed = none)
    (hl : (q.tree t).msgq.items.length < 32) :
    (postMust t tn (.delay tn ld) .registry q).state = delayQueued t tn y.inst ld q := by
  have hmark : (y.resend && !(Message.delay tn ld).isDelay) = false := by simp [Message.isDelay]
  rw [postMust_queued hb hy hn hl, hmark]
  rfl

theorem entry?_delayQueued (hy : q.entry? t tn = some y) :
    (delayQueued t tn inst ld q).entry? t tn = some { y with resend := false } := by
  rw [delayQueued, entry?_withItems, State.entry?_modEntry_same, hy]
  rfl

theorem tree_delayQueued : (delayQueued t tn inst ld q).tree t =
    { (q.tree t).modEntry tn fun x => { x with resend := false } with
      msgq := { (q.tree t).msgq with
        items := (q.tree t).msgq.items ++
          [{ msg := .delay tn ld, issuer := .registry, inst := inst, deadline := none }] } } := by
  rw [delayQueued, tree_withItems, tree_modEntry_same]
  simp

theorem delayStands_delayQueued (x : Entry) : ((delayQueued t tn inst ld q).tree t).delayStands tn x = true := by
  rw [tree_delayQueued]
  simp [Tree.delayStands, Message.delaysTn]

/-- An entry's update, its DELAY queued behind all that stands, and the operation that takes the place of another (R113). -/
theorem delayQueued_modEntry (op : Option ProbeOp) :
    (delayQueued t tn inst ld (s.modEntry t tn f)).setOp t op =
      s.modTree t fun T =>
        { T.modEntry tn fun x => { f x with resend := false } with
          msgq := { T.msgq with
            items := T.msgq.items ++
              [{ msg := .delay tn ld, issuer := .registry, inst := inst, deadline := none }] }
          seq := { T.seq with op := op } } := by
  have hitems : ((s.modEntry t tn f).tree t).msgq.items = (s.tree t).msgq.items := by simp
  simp only [delayQueued, hitems, modEntry_modEntry]
  simp only [State.modEntry, State.withItems, State.modMsgq, State.setOp, State.modSeq, modTree_modTree]
  refine modTree_congr ?_
  simp [Function.comp_def]

/-- States that differ in the report port alone. -/
theorem eq_but_port {x z : State} (h : ∀ p, { x with port := p } = { z with port := p }) :
    ∃ p, x = { z with port := p } := ⟨x.port, h x.port⟩

/-! ### A measurement takes the entry to VERIFYING (R113, R117) -/

/-- What the entry becomes when a measurement takes it to VERIFYING (R113). -/
def toVerifyingAs (s : State) (t : TreeId) (rrt : Int) (ld : Nat) (r : Int) (e : Entry) : Entry :=
  (e.measuredAs rrt ld r).toVerifying (s.budgetEnd t)

/-- The entry in VERIFYING until `d` with the figures of a measurement (R113). -/
def Entry.verifyingUntil (d : Nat) (rrt : Int) (ld : Nat) (r : Int) (e : Entry) : Entry :=
  { e with state := .verifying d, rrt := some rrt, c := (rrt + 8) / 16, ld := ld, r := some r }

/-- The DELAY is queued and the operation waits for it. -/
theorem measuredToVerifying_eq {rrt r change : Int} (hs : s.entry? t o.tn = some y) (hn : y.owed = none)
    (hb : (s.tree t).msgq.broadcastStands = false) (hl : (s.tree t).msgq.items.length < 32) :
    measuredToVerifying t o e cause rrt ld r change s =
      (rangedReport t o e .delay rrt ld r change
        (delayQueued t o.tn y.inst ld (transit t o.tn cause (toVerifyingAs s t rrt ld r) s))).setOp t
        (some o.awaitDelay) := by
  have htr := transited_transit (cause := cause) (f := toVerifyingAs s t rrt ld r) hs
  have hself := htr.self
  rw [hs, Option.map_some] at hself
  have hpost := postMust_delay (ld := ld) (htr.msgq t ▸ hb) hself hn (htr.msgq t ▸ hl)
  have hdef : measuredToVerifying t o e cause rrt ld r change s =
      (rangedReport t o e .delay rrt ld r change
        (postMust t o.tn (.delay o.tn ld) .registry (transit t o.tn cause (toVerifyingAs s t rrt ld r) s)).state).setOp t
        (some o.awaitDelay) := rfl
  rw [hdef, hpost]
  rfl

/-- A RANGING or VERIFYING entry keeps its deadline on the way, and no notice goes on the grant link (R37, R113). -/
theorem settle_measuredToVerifying {rrt r change : Int} {d : Nat} (hs : s.entry? t o.tn = some y)
    (hst : y.state = .ranging d) (hn : y.owed = none) (hb : (s.tree t).msgq.broadcastStands = false)
    (hl : (s.tree t).msgq.items.length < 32) :
    ∃ p, (measuredToVerifying t o e cause rrt ld r change s).settle =
      { (s.modTree t fun T =>
          { T.modEntry o.tn fun x =>
              { x with
                state := .verifying d, rrt := some rrt, c := (rrt + 8) / 16, ld := ld, r := some r, resend := false } with
            msgq := { T.msgq with
              items := T.msgq.items ++
                [{ msg := .delay o.tn ld, issuer := .registry, inst := y.inst, deadline := none }] }
            seq := { T.seq with op := some o.awaitDelay } }) with
        port := p } := by
  have hoff : y.operating = false := by simp [Entry.operating, hst]
  have hf : (toVerifyingAs s t rrt ld r y).operating = false := rfl
  have hfig : toVerifyingAs s t rrt ld r y = y.verifyingUntil d rrt ld r := by
    simp [toVerifyingAs, Entry.verifyingUntil, Entry.toVerifying, Entry.measuredAs, Entry.deadlineOr, Entry.activation?,
      hst, roundBt]
  have hstate := delayQueued_modEntry (s := s) (t := t) (tn := o.tn) (ld := ld) (inst := y.inst)
    (f := Entry.verifyingUntil d rrt ld r) (some o.awaitDelay)
  rw [measuredToVerifying_eq hs hn hb hl, transit_idle hs hoff hf, modEntry_congr (g := Entry.verifyingUntil d rrt ld r) hs hfig]
  exact eq_but_port fun p => congrArg (fun x : State => { x with port := p }) hstate

end

end Sys2Proof.Machine
end

section
/-! PROOF. Audits and verifies (O36, R115..R117), and the end of a probe interval. -/

namespace Sys2Proof.Machine

/-! ### What finishing an operation leaves of an entry (R115, R117) -/

section
variable {s : State} {t : TreeId} {tn : Nat} {e : Entry} {o : ProbeOp}

/-- The figures of an entry that an audit sets. -/
def Entry.audited (e : Entry) : (BitVec 16 × Serial × EntryState) × Option Int × Int × Nat × Option Int :=
  (e.identity, e.rrt, e.c, e.ld, e.r)

theorem audited_of_figures {x y : Entry} (h : x.figures = y.figures) : x.audited = y.audited := by
  simpa [Entry.figures, Entry.audited, Entry.identity] using congrArg Entry.audited h

theorem entry?_finishOp (he : s.entry? t tn = some e) :
    ∃ x, (finishOp t s).entry? t tn = some x ∧ x.figures = e.figures :=
  figures_eq_of_map ((calm_finishOp.trees t).entries tn) he

theorem audited_finishOp (he : s.entry? t tn = some e) :
    ((finishOp t s).entry? t tn).map Entry.audited = some e.audited := by
  obtain ⟨x, hx, hfig⟩ := entry?_finishOp he
  rw [hx, Option.map_some, audited_of_figures hfig]

theorem msgq_finishOp : ((finishOp t s).tree t).msgq = (s.tree t).msgq := quiet_finishOp.posted.1

theorem onAir_finishOp : ((finishOp t s).tree t).onAir = (s.tree t).onAir := (calm_finishOp.trees t).onAir

end

/-! ### An audit (R117) -/

section
variable {s : State} {t : TreeId} {e : Entry} {o : ProbeOp} {d : Drift} {rrt r : Int} {ld : Nat}

/-- An audited entry: its round trip and c set, its drift sum cleared (R117). -/
def Entry.auditedAs (rrt : Int) (e : Entry) : Entry :=
  { e with rrt := some rrt, c := roundBt rrt }.modDrift fun d => { d with sum := 0, n := 0 }

/-- An audited entry with the launch delay of a NUDGE on its way (R117, R128). -/
def Entry.nudgedAs (ld : Nat) (r : Int) (e : Entry) : Entry :=
  { e with ld := ld, r := some r }.modDrift fun d => { d with settle := .notYet }

theorem auditedAs_of_operating (h : e.state = .operating d) :
    e.auditedAs rrt =
      { e with rrt := some rrt, c := (rrt + 8) / 16, state := .operating { d with sum := 0, n := 0 } } := by
  simp [Entry.auditedAs, Entry.modDrift, h, roundBt]

theorem nudgedAs_auditedAs (h : e.state = .operating d) :
    (e.auditedAs rrt).nudgedAs ld r =
      { e with
        rrt := some rrt, c := (rrt + 8) / 16, ld := ld, r := some r
        state := .operating { d with sum := 0, n := 0, settle := .notYet } } := by
  simp [auditedAs_of_operating h, Entry.nudgedAs, Entry.modDrift]

/-- The round trip of an audit entered. -/
def auditEntered (t : TreeId) (tn : Nat) (rrt : Int) (s : State) : State := s.modEntry t tn (Entry.auditedAs rrt)

theorem entry?_auditEntered {tn : Nat} (he : s.entry? t tn = some e) :
    (auditEntered t tn rrt s).entry? t tn = some (e.auditedAs rrt) := by
  rw [auditEntered, State.entry?_modEntry_same, he]
  rfl

theorem tree_auditEntered {tn : Nat} :
    (auditEntered t tn rrt s).tree t = (s.tree t).modEntry tn (Entry.auditedAs rrt) := tree_modEntry_same ..

theorem auditResult_kept (h : (ld : Int) - e.ld = 0) :
    auditResult t o e rrt ld r s =
      finishOp t
        (rangedReport t o e .residual rrt e.ld r 0
          ((auditEntered t o.tn rrt s).modEntry t o.tn fun e => { e with r := some r })) := if_pos h

theorem auditResult_nudged (h : (ld : Int) - e.ld ≠ 0) (hn : ((ld : Int) - e.ld).natAbs ≤ (s.params t).n) :
    auditResult t o e rrt ld r s =
      finishOp t
        (rangedReport t o e .nudge rrt ld r ((ld : Int) - e.ld)
          (postNudge t o.tn ld r ((ld : Int) - e.ld) (auditEntered t o.tn rrt s)).state) :=
  (if_neg h).trans (if_pos hn)

theorem auditResult_steps (hn : (s.params t).n < ((ld : Int) - e.ld).natAbs) :
    auditResult t o e rrt ld r s =
      measuredToVerifying t o e .auditStep rrt ld r ((ld : Int) - e.ld) (auditEntered t o.tn rrt s) :=
  (if_neg (by omega)).trans (if_neg (not_le.mpr hn))

variable (he : s.entry? t o.tn = some e) (hst : e.state = .operating d)
include he hst

/-- An audit that finds the launch delay right keeps it, with its residual (R117). -/
theorem auditResult_keeps (h : (ld : Int) - e.ld = 0) :
    ((auditResult t o e rrt ld r s).entry? t o.tn).map Entry.audited =
        some
          ((e.inst, e.serial, .operating { d with sum := 0, n := 0 }), some rrt, (rrt + 8) / 16, e.ld, some r) ∧
      ((auditResult t o e rrt ld r s).tree t).msgq = (s.tree t).msgq ∧
      ((auditResult t o e rrt ld r s).tree t).onAir = (s.tree t).onAir := by
  rw [auditResult_kept h]
  have hentry : (rangedReport t o e .residual rrt e.ld r 0
      ((auditEntered t o.tn rrt s).modEntry t o.tn fun e => { e with r := some r })).entry? t o.tn =
      some { e.auditedAs rrt with r := some r } := by
    refine (State.entry?_modEntry_same (s := auditEntered t o.tn rrt s)).trans ?_
    rw [entry?_auditEntered he]
    rfl
  have htree : (rangedReport t o e .residual rrt e.ld r 0
      ((auditEntered t o.tn rrt s).modEntry t o.tn fun e => { e with r := some r })).tree t =
      ((s.tree t).modEntry o.tn (Entry.auditedAs rrt)).modEntry o.tn fun e => { e with r := some r } := by
    refine (tree_modEntry_same (s := auditEntered t o.tn rrt s) ..).trans ?_
    rw [tree_auditEntered]
  refine ⟨?_, ?_, ?_⟩
  · rw [audited_finishOp hentry, auditedAs_of_operating hst]
    rfl
  · rw [msgq_finishOp, htree]
    simp
  · rw [onAir_finishOp, htree]
    simp

section
variable (hown : e.owed = none) (hb : (s.tree t).msgq.broadcastStands = false) (hl : (s.tree t).msgq.items.length < 32)
include hown hb hl

/-- An audit that finds a change within N posts it as a NUDGE (R117). -/
theorem auditResult_nudges (h : (ld : Int) - e.ld ≠ 0) (hn : ((ld : Int) - e.ld).natAbs ≤ (s.params t).n) :
    ((auditResult t o e rrt ld r s).entry? t o.tn).map Entry.audited =
        some
          ((e.inst, e.serial, .operating { d with sum := 0, n := 0, settle := .notYet }), some rrt, (rrt + 8) / 16, ld,
            some r) ∧
      ((auditResult t o e rrt ld r s).tree t).msgq.items =
        (s.tree t).msgq.items ++
          [{ msg := .nudge o.tn ((ld : Int) - e.ld), issuer := .drift, inst := e.inst, deadline := none }] ∧
      ((auditResult t o e rrt ld r s).tree t).onAir = (s.tree t).onAir := by
  rw [auditResult_nudged h hn]
  generalize (ld : Int) - e.ld = change
  have hset := nudgedAs_auditedAs (rrt := rrt) (ld := ld) (r := r) hst
  have hq : ((auditEntered t o.tn rrt s).modEntry t o.tn (Entry.nudgedAs ld r)).entry? t o.tn =
      some ((e.auditedAs rrt).nudgedAs ld r) := by
    rw [State.entry?_modEntry_same, entry?_auditEntered he]
    rfl
  have hmsgq : (((auditEntered t o.tn rrt s).modEntry t o.tn (Entry.nudgedAs ld r)).tree t).msgq = (s.tree t).msgq := by
    rw [tree_modEntry_same, tree_auditEntered]
    simp
  have hair : (((auditEntered t o.tn rrt s).modEntry t o.tn (Entry.nudgedAs ld r)).tree t).onAir = (s.tree t).onAir := by
    rw [tree_modEntry_same, tree_auditEntered]
    simp
  have hpost : postNudge t o.tn ld r change (auditEntered t o.tn rrt s) =
      postMust t o.tn (.nudge o.tn change) .drift ((auditEntered t o.tn rrt s).modEntry t o.tn (Entry.nudgedAs ld r)) := rfl
  generalize (auditEntered t o.tn rrt s).modEntry t o.tn (Entry.nudgedAs ld r) = q at hq hmsgq hair hpost
  rw [hpost, postMust_queued (hmsgq ▸ hb) hq (by rw [hset]; exact hown) (hmsgq ▸ hl)]
  simp only
  generalize hw : (q.modEntry t o.tn fun x => { x with resend := _ }).withItems t _ = w
  have hwentry : w.entry? t o.tn =
      some { (e.auditedAs rrt).nudgedAs ld r with resend := ((e.auditedAs rrt).nudgedAs ld r).resend && true } := by
    rw [← hw, entry?_withItems, State.entry?_modEntry_same, hq]
    rfl
  have hreport : (rangedReport t o e .nudge rrt ld r change w).entry? t o.tn = w.entry? t o.tn := rfl
  have hreport' : (rangedReport t o e .nudge rrt ld r change w).tree t = w.tree t := rfl
  refine ⟨?_, ?_, ?_⟩
  · rw [audited_finishOp (hreport.trans hwentry), hset]
    rfl
  · rw [msgq_finishOp, hreport', ← hw, tree_withItems]
    simp only [hmsgq, hset]
  · rw [onAir_finishOp, hreport', ← hw, tree_withItems, tree_modEntry_same]
    simp [hair]

/-- An audit that finds a change beyond N takes the entry off the air to VERIFYING, with its DELAY queued (R117). -/
theorem auditResult_verifies (hn : (s.params t).n < ((ld : Int) - e.ld).natAbs) :
    (auditResult t o e rrt ld r s).entry? t o.tn =
        some
          { e with
            state := .verifying (s.epoch + (s.params t).budget), rrt := some rrt, c := (rrt + 8) / 16
            ld := ld, r := some r, resend := false } ∧
      ((auditResult t o e rrt ld r s).tree t).msgq.items =
        (s.tree t).msgq.items ++ [{ msg := .delay o.tn ld, issuer := .registry, inst := e.inst, deadline := none }] ∧
      o.tn ∉ ((auditResult t o e rrt ld r s).tree t).onAir ∧
      ((auditResult t o e rrt ld r s).tree t).out.grant = (s.tree t).out.grant ++ [.terminalOff o.tn] ∧
      ((auditResult t o e rrt ld r s).tree t).seq.op = some o.awaitDelay := by
  rw [auditResult_steps hn]
  have hq := entry?_auditEntered (rrt := rrt) he
  have hqt := tree_auditEntered (s := s) (t := t) (tn := o.tn) (rrt := rrt)
  have hbudget : (auditEntered t o.tn rrt s).budgetEnd t = s.epoch + (s.params t).budget := by
    have hepoch : (auditEntered t o.tn rrt s).epoch = s.epoch := rfl
    rw [State.budgetEnd, hepoch, State.params, hqt, ctl_modEntry]
    rfl
  have haud := auditedAs_of_operating (rrt := rrt) hst
  have hmsgq : ((auditEntered t o.tn rrt s).tree t).msgq = (s.tree t).msgq := by rw [hqt]; simp
  have hgrant : ((auditEntered t o.tn rrt s).tree t).out.grant = (s.tree t).out.grant := by rw [hqt]; simp
  generalize auditEntered t o.tn rrt s = q at *
  have hon : (e.auditedAs rrt).operating = true := by simp [haud, Entry.operating]
  have hoff : (toVerifyingAs q t rrt ld r (e.auditedAs rrt)).operating = false := rfl
  have htr := transited_transit (cause := .auditStep) (f := toVerifyingAs q t rrt ld r) hq
  have hair := onAir_transit (cause := .auditStep) (f := toVerifyingAs q t rrt ld r) hq
  have hsent := grant_transit_off (cause := .auditStep) (f := toVerifyingAs q t rrt ld r) hq hon hoff
  rw [measuredToVerifying_eq hq (by rw [haud]; exact hown) (hmsgq ▸ hb) (hmsgq ▸ hl)]
  generalize transit t o.tn .auditStep (toVerifyingAs q t rrt ld r) q = w at htr hair hsent ⊢
  have hself : w.entry? t o.tn = some (toVerifyingAs q t rrt ld r (e.auditedAs rrt)) := by rw [htr.self, hq]; rfl
  generalize hz : rangedReport t o e .delay rrt ld r ((ld : Int) - e.ld) (delayQueued t o.tn (e.auditedAs rrt).inst ld w) = z
  have hzt : z.tree t = (delayQueued t o.tn (e.auditedAs rrt).inst ld w).tree t := by rw [← hz]; rfl
  have hot : (z.setOp t (some o.awaitDelay)).tree t = { z.tree t with seq := { (z.tree t).seq with op := some o.awaitDelay } } := by
    rw [State.setOp, tree_modSeq_same]
  refine ⟨?_, ?_, ?_, ?_, ?_⟩
  · rw [entry?_setOp, State.entry?, hzt]
    refine (entry?_delayQueued hself).trans ?_
    simp [toVerifyingAs, Entry.toVerifying, Entry.measuredAs, Entry.deadlineOr, Entry.activation?, haud, hbudget, roundBt]
  · rw [hot, hzt, tree_delayQueued]
    simp [htr.msgq, hmsgq, haud]
  · rw [hot, hzt, tree_delayQueued]
    simp [hair, hon, hoff]
  · rw [hot, hzt, tree_delayQueued]
    simp [hsent, hgrant]
  · rw [hot]

end

end

/-! ### A verify within Wout (R115) -/

section
variable {s : State} {t : TreeId} {e : Entry} {o : ProbeOp} {d dispatch : Nat} {rrt : Int}

/-- The entry is OPERATING on the air, with its launch delay and residual, and nothing is posted. -/
theorem verifiedResult_operates (he : s.entry? t o.tn = some e) (hst : e.state = .verifying d)
    (hstage : o.stage = .verify (some dispatch)) :
    ((verifiedResult t o e s).entry? t o.tn).map Entry.identity =
        some
          (e.inst, e.serial,
            .operating { sum := 0, n := 0, settle := .epoch (dispatch + e.profile.la.value + 2), misses := 0 }) ∧
      o.tn ∈ ((verifiedResult t o e s).tree t).onAir ∧
      s.Sends (verifiedResult t o e s) t (.terminalOn o.tn e.profile.pre.value e.profile.bp.value) ∧
      (verifiedResult t o e s).PostedAs s t ∧
      ∀ x, (verifiedResult t o e s).entry? t o.tn = some x → x.ever = true ∧ x.ld = e.ld ∧ x.r = e.r := by
  have hdef : verifiedResult t o e s =
      finishOp t (transit t o.tn .verified (Entry.toOperating (dispatch + e.profile.la.value + 2)) s) := by
    rw [verifiedResult, hstage]
    rfl
  rw [hdef]
  generalize dispatch + e.profile.la.value + 2 = settle
  have hidle : e.operating = false := by simp [Entry.operating, hst]
  have hon : (e.toOperating settle).operating = true := rfl
  have htr := transited_transit (cause := .verified) (f := Entry.toOperating settle) he
  have hair := onAir_transit (cause := .verified) (f := Entry.toOperating settle) he
  have hsent := grant_transit_on (cause := .verified) (f := Entry.toOperating settle) he hidle hon
  have hposts := postsAlike_transit (s := s) (t := t) (tn := o.tn) (cause := .verified) (f := Entry.toOperating settle)
    fun _ => rfl
  generalize transit t o.tn .verified (Entry.toOperating settle) s = q at htr hair hsent hposts ⊢
  obtain ⟨x, hx, hfig⟩ := entry?_finishOp (htr.self.trans (by rw [he]; rfl))
  have hid := identity_of_figures hfig
  have hldr := congrArg (fun y : Entry => (y.ever, y.ld, y.r)) hfig
  simp only [Entry.figures, Entry.toOperating, Prod.mk.injEq] at hldr
  refine ⟨by rw [hx, Option.map_some, hid]; rfl, ?_, sends_of_more hsent quiet_finishOp.sent,
    PostedAs_trans t quiet_finishOp.posted hposts.postedAs, fun y hy => ?_⟩
  · rw [onAir_finishOp, hair, hidle, hon]
    simp [mem_insertTn]
  · obtain rfl := Option.some.inj (hy.symm.trans hx)
    exact hldr

/-! ### A verify beyond Wout (R116) -/

/-- The round trip that a verify beyond Wout leaves in the entry: the attempt's own where it is valid (R116). -/
theorem verifyOffAs_of_rrt {pr : Params} {rrt0 : Int} (h : e.rrt = some rrt0) :
    e.verifyOffAs pr rrt =
      { e with
        rrt := some (if validTrip pr e.profile rrt then rrt else rrt0)
        c := ((if validTrip pr e.profile rrt then rrt else rrt0) + 8) / 16 } := by
  unfold Entry.verifyOffAs
  split
  · rfl
  · simp [h, roundBt]

/-- The entry is RANGING again with its deadline, its DELAY is queued again, and the operation measures anew, HELD. -/
theorem verifyOffResult_measures {y : Entry} {rrt0 : Int} (hy : s.entry? t o.tn = some y) (hst : y.state = .verifying d)
    (hrrt : y.rrt = some rrt0) (hown : y.owed = none) (hb : (s.tree t).msgq.broadcastStands = false)
    (hl : (s.tree t).msgq.items.length < 32) :
    (verifyOffResult t o e rrt s).entry? t o.tn =
        some { y.verifyOffAs (s.params t) rrt with state := .ranging d, resend := false } ∧
      ((verifyOffResult t o e rrt s).tree t).msgq.items =
        (s.tree t).msgq.items ++ [{ msg := .delay o.tn e.ld, issuer := .registry, inst := y.inst, deadline := none }] ∧
      ((verifyOffResult t o e rrt s).tree t).seq.op =
        some { o with expected := .ranging, stage := .measure, phase := .held, waitStart := o.waitFrom s.epoch } ∧
      ((verifyOffResult t o e rrt s).tree t).onAir = (s.tree t).onAir := by
  have hoff : y.operating = false := by simp [Entry.operating, hst]
  have hfig := verifyOffAs_of_rrt (e := y) (pr := s.params t) (rrt := rrt) hrrt
  have hback : (y.verifyOffAs (s.params t) rrt).toRanging (s.budgetEnd t) =
      { y.verifyOffAs (s.params t) rrt with state := .ranging d } := by
    simp [Entry.toRanging, Entry.deadlineOr, Entry.activation?, hfig, hst]
  have hdef : verifyOffResult t o e rrt s =
      beginAttempt t { o with expected := .ranging, stage := .measure }
        (postMust t o.tn (.delay o.tn e.ld) .registry
          (transit t o.tn .verifyDeviation
            (fun x => (x.verifyOffAs (s.params t) rrt).toRanging (s.budgetEnd t)) s)).state := rfl
  rw [hdef]
  have htr := transited_transit (cause := .verifyDeviation)
    (f := fun x => (x.verifyOffAs (s.params t) rrt).toRanging (s.budgetEnd t)) hy
  have hair := onAir_transit (cause := .verifyDeviation)
    (f := fun x => (x.verifyOffAs (s.params t) rrt).toRanging (s.budgetEnd t)) hy
  generalize transit t o.tn .verifyDeviation
    (fun x => (x.verifyOffAs (s.params t) rrt).toRanging (s.budgetEnd t)) s = q at htr hair ⊢
  have hself : q.entry? t o.tn = some { y.verifyOffAs (s.params t) rrt with state := .ranging d } := by
    rw [htr.self, hy, Option.map_some, hback]
  have hmsgq := htr.msgq t
  have hepoch : q.epoch = s.epoch := by simp only [State.epoch, htr.timebase]
  rw [hback] at hair
  have hranging : Entry.operating { y.verifyOffAs (s.params t) rrt with state := .ranging d } = false := rfl
  have hqueued := postMust_delay (ld := e.ld) (hmsgq ▸ hb) hself (by rw [hfig]; exact hown) (hmsgq ▸ hl)
  have hinst : Entry.inst { y.verifyOffAs (s.params t) rrt with state := .ranging d } = y.inst := by rw [hfig]
  rw [hqueued, hinst, beginAttempt_held (o := { o with expected := .ranging, stage := .measure })
    (entry?_delayQueued hself) rfl (by rw [hfig]; exact Option.some_ne_none _)
    (delayStands_delayQueued _)]
  have hepoch' : (delayQueued t o.tn y.inst e.ld q).epoch = s.epoch := hepoch
  refine ⟨?_, ?_, ?_, ?_⟩
  · rw [entry?_setOp, entry?_delayQueued hself]
  · rw [State.setOp, tree_modSeq_same, tree_delayQueued]
    simp [hmsgq]
  · rw [State.setOp, tree_modSeq_same, hepoch']
    rfl
  · rw [State.setOp, tree_modSeq_same, tree_delayQueued]
    simp [hair, hoff, hranging]

end

end Sys2Proof.Machine
end

section
/-! PROOF. The end of a probe interval (O36): the entry check, then the collection's outcome (R108, R112..R118). -/

namespace Sys2Proof.Machine

section
variable {s : State} {t : TreeId} {o : ProbeOp} {pl : Placement} {qe qs g : Int} {ec : Echoes} {e : Entry}

/-- A counted failure at the limit takes the entry to LOST or RETIRING, with no work left for it (R118). -/
theorem countedFailure_ends {next : State → State} (ho : (s.tree t).seq.op = some o)
    (hp : o.phase = .listening pl qe qs g ec) (he : s.entry? t o.tn = some e)
    (h : (s.params t).probeRetries + 1 ≤ e.attempts.getD 0 + 1) :
    ((countedFailure t o e next s).entry? t o.tn).map Entry.identity =
        some (e.inst, e.serial, if e.ever then .lost (s.epoch + (s.params t).lostHold) else .retiring) ∧
      (countedFailure t o e next s).PostedAs (if e.ever then s else s.retirePosted t o.tn) t ∧
      (countedFailure t o e next s).Idles t o.tn o.inst := by
  have hfails := countedFailure_fails (next := next) h he (probePosted_of_listening ho hp)
  exact ⟨hfails.entry, hfails.posted, (hfails.dormant o.inst).idles⟩

/-- A verify beyond Wout short of the limit returns the entry to RANGING, and the operation measures anew (R116). -/
theorem countedFailure_measures {rrt rrt0 rrtv : Int} {d : Nat}
    (hp : o.phase = .listening pl qe qs g ec) (he : s.entry? t o.tn = some e)
    (h : e.attempts.getD 0 + 1 < (s.params t).probeRetries + 1) (hst : e.state = .verifying d) (hrrt : e.rrt = some rrt0)
    (hv : rrtv = if validTrip (s.params t) e.profile rrt then rrt else rrt0) (hown : e.owed = none)
    (hb : (s.tree t).msgq.broadcastStands = false) (hl : (s.tree t).msgq.items.length < 32) :
    (countedFailure t o e (verifyOffResult t o e rrt) s).entry? t o.tn =
        some
          { e with
            state := .ranging d, rrt := some rrtv, c := (rrtv + 8) / 16, attempts := some (e.attempts.getD 0 + 1)
            resend := false } ∧
      ((countedFailure t o e (verifyOffResult t o e rrt) s).tree t).msgq.items =
        (s.tree t).msgq.items ++ [{ msg := .delay o.tn e.ld, issuer := .registry, inst := e.inst, deadline := none }] ∧
      ((countedFailure t o e (verifyOffResult t o e rrt) s).tree t).seq.op =
        some { o with expected := .ranging, stage := .measure, phase := .held, waitStart := s.epoch } ∧
      ((countedFailure t o e (verifyOffResult t o e rrt) s).tree t).onAir = (s.tree t).onAir := by
  rw [countedFailure_goesOn (by omega)]
  have hq : (attemptsRaised t o.tn (e.attempts.getD 0 + 1) s).entry? t o.tn =
      some { e with attempts := some (e.attempts.getD 0 + 1) } := by
    rw [attemptsRaised, State.entry?_modEntry_same, he]
    rfl
  have hcalm := (calm_attemptsRaised (s := s) (t := t) (tn := o.tn) (n := e.attempts.getD 0 + 1))
  have hmsgq := (quiet_attemptsRaised (s := s) (t := t) (tn := o.tn) (n := e.attempts.getD 0 + 1)).posted.1
  have hparams : (attemptsRaised t o.tn (e.attempts.getD 0 + 1) s).params t = s.params t :=
    congrArg Controller.params (hcalm.trees t).ctl
  have hwait : o.waitFrom s.epoch = s.epoch := by simp only [ProbeOp.waitFrom, hp]
  have hmeasures := verifyOffResult_measures (o := o) (e := e) (rrt := rrt) hq hst hrrt hown (hmsgq ▸ hb) (hmsgq ▸ hl)
  have hfig := verifyOffAs_of_rrt (e := { e with attempts := some (e.attempts.getD 0 + 1) }) (pr := s.params t)
    (rrt := rrt) hrrt
  rw [hparams, hfig, hmsgq, hcalm.epoch, (hcalm.trees t).onAir, hwait] at hmeasures
  rw [hv]
  exact hmeasures

end

section
variable {s : State} {t : TreeId} {o : ProbeOp} {pl : Placement} {qe qs g : Int} {ec : Echoes} {e : Entry}
  (hs : s.Taking) (hr : (s.tree t).routesBursts = true) (hstale : (s.tree t).seq.stale = 0)
  (ho : (s.tree t).seq.op = some o) (hp : o.phase = .listening pl qe qs g ec)
include hs hr hstale ho hp

/-- An operation whose entry has changed ends, and nothing else is touched (R108). -/
theorem exec_probeEnd_changed
    (h : ∀ e, s.entry? t o.tn = some e → e.inst ≠ o.inst ∨ e.state.name ≠ o.expected.name) :
    ∃ s', exec (.intervalEnd t .probe) s = .next s' ∧
      (∀ tn, (s'.entry? t tn).map Entry.identity = (s.entry? t tn).map Entry.identity) ∧
      (∀ o', (s'.tree t).seq.op = some o' →
        o'.phase.timed = false ∧ (o'.tn ≠ o.tn ∨ o'.inst ≠ o.inst ∨ o'.expected ≠ o.expected)) ∧
      (s'.tree t).msgq = (s.tree t).msgq ∧
      (s'.tree t).onAir = (s.tree t).onAir ∧ s'.directory = s.directory ∧ s'.port = s.port :=
  ⟨_, exec_probeEnd_silent hs hr (probeEnd_changed hstale ho hp (checkEntry_changed h)) port_finishOp,
    fun tn => calm_finishOp.identity t tn, fun _ => finishOp_changed h, msgq_finishOp, onAir_finishOp,
    calm_finishOp.directory, port_finishOp⟩

variable (he : s.entry? t o.tn = some e) (hi : e.inst = o.inst)
include he hi

/-- An operation whose entry's LD has changed begins its attempt again (R108). -/
theorem exec_probeEnd_ldChanged (hn : e.state.name = o.expected.name) (hld : e.ld ≠ pl.ldp) :
    exec (.intervalEnd t .probe) s = .next (beginAttempt t o s) :=
  exec_probeEnd_silent hs hr (probeEnd_ldChanged hstale ho hp (checkEntry_ldChanged he hi hn hld)) port_beginAttempt

variable (hld : e.ld = pl.ldp)
include hld

/-- An operation whose entry stands acts on the outcome of its collection (R112). -/
theorem exec_probeEnd_fine (hn : e.state.name = o.expected.name) :
    exec (.intervalEnd t .probe) s =
      .next (actOnOutcome t o e (attemptOutcome (s.tree t).ctl e o.stage pl.ldp g ec) s).settle := by
  rw [exec_probeEnd hs hr, probeEnd_fine hstale ho hp (checkEntry_fine he hi hn hld)]

section
variable (hgarbled : ec.garbled = 0) (hforeign : ec.foreign = 0) (hmatching : ec.matching = 1)
include hgarbled hforeign hmatching

theorem exec_probeEnd_measured {rrt r : Int} {ld : Nat} (hn : e.state.name = o.expected.name)
    (hstage : o.stage = .measure)
    (h : measure (s.params t) e.profile (ec.first - 16 * (g + pl.ldp) - (s.tree t).ctl.p) = .value rrt ld r) :
    exec (.intervalEnd t .probe) s = .next (actOnOutcome t o e (.measured rrt ld r) s).settle := by
  rw [exec_probeEnd_fine hs hr hstale ho hp he hi hld hn, hstage, attemptOutcome_measured hgarbled hforeign hmatching h]

variable {dispatch : Nat}

theorem exec_probeEnd_verified (hn : e.state.name = o.expected.name) (hstage : o.stage = .verify (some dispatch))
    (h : (deviation (s.params t).art (s.tree t).ctl.p (e.r.getD 0) g ec.first).natAbs ≤ (s.params t).wout) :
    exec (.intervalEnd t .probe) s = .next (verifiedResult t o e s).settle := by
  rw [exec_probeEnd_fine hs hr hstale ho hp he hi hld hn, hstage, attemptOutcome_verified hgarbled hforeign hmatching h]
  rfl

theorem exec_probeEnd_verifyOff (hn : e.state.name = o.expected.name) (hstage : o.stage = .verify (some dispatch))
    (h : (s.params t).wout < (deviation (s.params t).art (s.tree t).ctl.p (e.r.getD 0) g ec.first).natAbs) :
    exec (.intervalEnd t .probe) s =
      .next
        (countedFailure t o e (verifyOffResult t o e (ec.first - 16 * (g + pl.ldp) - (s.tree t).ctl.p)) s).settle := by
  rw [exec_probeEnd_fine hs hr hstale ho hp he hi hld hn, hstage, attemptOutcome_verifyOff hgarbled hforeign hmatching h]
  rfl

end

end

/-- Settles O36: the entry check, and then each outcome of the collection. -/
theorem probeAttemptsEnd : Obligations.ProbeAttemptsEnd := by
  intro s t o pl qe qs g ec hs hr hstale ho hp
  refine ⟨exec_probeEnd_changed hs hr hstale ho hp, fun e he hi hn hld hstage => ⟨fun hmeasure hrrt hdelay => ?_, ?_⟩,
    fun e he hi hld => ⟨?_, ?_, ?_, ?_, ?_, ?_⟩⟩
  · have hwait : o.waitFrom s.epoch = s.epoch := by simp only [ProbeOp.waitFrom, hp]
    rw [exec_probeEnd_ldChanged hs hr hstale ho hp he hi hn hld, beginAttempt_held he hmeasure hrrt hdelay, hwait]
  · obtain ⟨ph, w, hop, htimed⟩ := op_beginAttempt_untimed he hstage
    refine ⟨_, exec_probeEnd_ldChanged hs hr hstale ho hp he hi hn hld, fun _ => entry?_beginAttempt, ?_,
      (quiet_beginAttempt o).posted.1, port_beginAttempt⟩
    rw [hop, Option.map_some, htimed]
  · intro d rrt ld r hstage hexp hst hg hf hm hmeasure hown hb hl
    have hn : e.state.name = o.expected.name := by rw [hst, hexp]; rfl
    obtain ⟨p, hsettled⟩ := settle_measuredToVerifying (o := o) (e := e) (cause := .ranged) (rrt := rrt) (r := r)
      (change := 0) (ld := ld) he hst hown hb hl
    have hact : actOnOutcome t o e (.measured rrt ld r) s = measuredToVerifying t o e .ranged rrt ld r 0 s := by
      simp only [actOnOutcome, hexp]
    exact ⟨p, by
      rw [exec_probeEnd_measured hs hr hstale ho hp he hi hld hg hf hm hn hstage hmeasure, hact, hsettled]
      rfl⟩
  · intro d rrt ld r change hstage hexp hst hg hf hm hmeasure hchange hown hb hl
    have hn : e.state.name = o.expected.name := by rw [hst, hexp]; rfl
    have hact : actOnOutcome t o e (.measured rrt ld r) s = auditResult t o e rrt ld r s := by
      simp only [actOnOutcome, hexp]
    subst hchange
    rw [exec_probeEnd_measured hs hr hstale ho hp he hi hld hg hf hm hn hstage hmeasure, hact]
    exact ⟨_, rfl, auditResult_keeps he hst, auditResult_nudges he hst hown hb hl,
      auditResult_verifies he hst hown hb hl⟩
  · intro d dispatch hstage hexp hst hg hf hm hdev
    have hn : e.state.name = o.expected.name := by rw [hst, hexp]; rfl
    exact ⟨_, exec_probeEnd_verified hs hr hstale ho hp he hi hld hg hf hm hn hstage hdev,
      verifiedResult_operates he hst hstage⟩
  · intro d dispatch rrt rrtv hstage hexp hst hg hf hm hdev hlimit hrrt hv hown hb hl
    have hn : e.state.name = o.expected.name := by rw [hst, hexp]; rfl
    exact ⟨_, exec_probeEnd_verifyOff hs hr hstale ho hp he hi hld hg hf hm hn hstage hdev,
      countedFailure_measures hp he hlimit hst hrrt hv hown hb hl⟩
  · intro dispatch hstage hn hg hf hm hdev hlimit
    exact ⟨_, exec_probeEnd_verifyOff hs hr hstale ho hp he hi hld hg hf hm hn hstage hdev,
      countedFailure_ends ho hp he hlimit⟩
  · intro hn hout
    rw [exec_probeEnd_fine hs hr hstale ho hp he hi hld hn, actOnOutcome_counted hout]
    refine ⟨_, rfl, ?_⟩
    split
    · next hlimit => exact countedFailure_ends ho hp he hlimit
    · next hmore => exact countedFailure_attempts hmore he

end Sys2Proof.Machine
end

section
/-! PROOF. The catalogue, its lock and the barred list (O49, O50): what CAT_WRITE, CAT_READ, CAT_LOCK, BAR_WRITE and BAR_READ
answer and what they write (R62, R66, R67, R188). -/

namespace Sys2Proof.Machine

/-! ### The fields of the bodies (R62, R66, R188) -/

section
variable {index : Byte}

theorem parseFlag_eq (b : Byte) : parseFlag b = if b.toNat ≤ 1 then some (b == 1) else none := by
  have hzero : b = 0 ↔ b.toNat = 0 := BitVec.toNat_inj.symm
  have hone : b = 1 ↔ b.toNat = 1 := BitVec.toNat_inj.symm
  unfold parseFlag
  split
  · next h => simp [h]
  · next h0 =>
    split
    · next h => simp [h]
    · next h1 =>
      rw [hzero] at h0
      rw [hone] at h1
      rw [if_neg (by omega)]

theorem catIndex_eq {i : Fin 64} (h : index.toNat = i) : catIndex index = some i := by
  have hlt : index.toNat < 64 := h ▸ i.isLt
  simp [catIndex, h]

theorem catIndex_none (h : 64 ≤ index.toNat) : catIndex index = none := dif_neg (by omega)

theorem barIndex_eq {i : Fin 8} (h : index.toNat = i) : barIndex index = some i := by
  have hlt : index.toNat < 8 := h ▸ i.isLt
  simp [barIndex, h]

theorem barIndex_none (h : 8 ≤ index.toNat) : barIndex index = none := dif_neg (by omega)

/-- A catalogue entry is taken where each of its flags is one and each of its numbers lies in its range (R66, R188). -/
theorem parseCatEntry_eq (raw : RawCatEntry) :
    parseCatEntry raw =
      if raw.valid.toNat ≤ 1 ∧ raw.refuse.toNat ≤ 1 ∧ raw.rn.toNat ≤ 131071 ∧ raw.rtol.toNat ≤ 8191 ∧
          raw.la.toNat ≤ 7 ∧ 64 ≤ raw.bp.toNat ∧ raw.bp.toNat ≤ 4096 ∧ raw.pre.toNat ≤ 3 then
        some
          { valid := raw.valid == 1, vendor := raw.vendor, model := raw.model, refuse := raw.refuse == 1
            rn := raw.rn.toNat, rtol := raw.rtol.toNat, la := raw.la.toNat, bp := raw.bp.toNat, pre := raw.pre.toNat }
      else none := by
  unfold parseCatEntry
  rw [parseFlag_eq, parseFlag_eq]
  by_cases hvalid : raw.valid.toNat ≤ 1
  · by_cases hrefuse : raw.refuse.toNat ≤ 1
    · simp only [hvalid, hrefuse, if_true, true_and]
    · simp only [hvalid, hrefuse, if_true, if_false, true_and, false_and]
  · simp only [hvalid, if_false, false_and]

/-- A barred range is taken where its low is not above its high and its flag is one (R62, R188). -/
theorem parseBarRange_eq (raw : RawBarRange) :
    parseBarRange raw =
      if raw.low.toNat ≤ raw.high.toNat ∧ raw.valid.toNat ≤ 1 then
        some { valid := raw.valid == 1, vendor := raw.vendor, low := raw.low, high := raw.high }
      else none := by
  unfold parseBarRange
  rw [parseFlag_eq]
  by_cases hlow : raw.low.toNat ≤ raw.high.toNat
  · rw [if_neg (Nat.not_lt.2 hlow)]
    by_cases hvalid : raw.valid.toNat ≤ 1
    · simp only [hlow, hvalid, true_and, if_true, Option.map_some]
    · simp only [hvalid, and_false, if_false, Option.map_none]
  · rw [if_pos (Nat.lt_of_not_le hlow), if_neg fun h => hlow h.1]

end

/-! ### The answers -/

section
variable {s : State} {tag index : Byte} {f : State → Answer}

/-- A request that writes the Admission Unit's part-wide state alone, answered OK (R186). -/
theorem request_written (hs : s.Taking) {a : Admission} (hf : f s = ok { s with admission := a }) :
    s.request tag f = .next ({ s with admission := a }.reply tag .ok []) := by
  have hsame : { s with admission := a }.settle = { s with admission := a } := settle_of_entered hs.entered
  rw [request_ok hs hf, hsame]

section
variable {i : Fin 64} {raw : RawCatEntry}

theorem catWriteRequest_locked (h : index.toNat = i) (hl : s.admission.lock = true ∧ s.admission.strap = false) :
    catWriteRequest index raw s = refuse s .locked := by
  simp only [catWriteRequest, catIndex_eq h]
  rw [if_pos (by simp [hl])]

variable (h : index.toNat = i) (hl : ¬(s.admission.lock = true ∧ s.admission.strap = false))
include h hl

theorem catWriteRequest_refused (hparse : parseCatEntry raw = none) :
    catWriteRequest index raw s = refuse s .badParam := by
  simp only [catWriteRequest, catIndex_eq h, hparse]
  rw [if_neg (by simpa using hl)]

theorem catWriteRequest_written {e : CatEntry} (hparse : parseCatEntry raw = some e) :
    catWriteRequest index raw s =
      ok { s with admission := { s.admission with cat := s.admission.cat.set i e } } := by
  simp only [catWriteRequest, catIndex_eq h, hparse]
  rw [if_neg (by simpa using hl)]

end

theorem catWriteRequest_outside (h : 64 ≤ index.toNat) (raw : RawCatEntry) :
    catWriteRequest index raw s = refuse s .badParam := by
  simp only [catWriteRequest, catIndex_none h]

theorem catReadRequest_eq {i : Fin 64} (h : index.toNat = i) :
    catReadRequest index s = okWith s s.admission.cat[i].bytes := by
  simp only [catReadRequest, catIndex_eq h]

theorem catReadRequest_outside (h : 64 ≤ index.toNat) : catReadRequest index s = refuse s .badParam := by
  simp only [catReadRequest, catIndex_none h]

section
variable {i : Fin 8} {raw : RawBarRange}

theorem barWriteRequest_locked (h : index.toNat = i) (hl : s.admission.lock = true) :
    barWriteRequest index raw s = refuse s .locked := by
  simp only [barWriteRequest, barIndex_eq h, if_pos hl]

variable (h : index.toNat = i) (hl : ¬s.admission.lock = true)
include h hl

theorem barWriteRequest_refused (hparse : parseBarRange raw = none) :
    barWriteRequest index raw s = refuse s .badParam := by
  simp only [barWriteRequest, barIndex_eq h, if_neg hl, hparse]

theorem barWriteRequest_written {r : BarRange} (hparse : parseBarRange raw = some r) :
    barWriteRequest index raw s =
      ok { s with admission := { s.admission with bars := s.admission.bars.set i r } } := by
  simp only [barWriteRequest, barIndex_eq h, if_neg hl, hparse]

end

theorem barWriteRequest_outside (h : 8 ≤ index.toNat) (raw : RawBarRange) :
    barWriteRequest index raw s = refuse s .badParam := by
  simp only [barWriteRequest, barIndex_none h]

theorem barReadRequest_eq {i : Fin 8} (h : index.toNat = i) :
    barReadRequest index s = okWith s s.admission.bars[i].bytes := by
  simp only [barReadRequest, barIndex_eq h]

theorem barReadRequest_outside (h : 8 ≤ index.toNat) : barReadRequest index s = refuse s .badParam := by
  simp only [barReadRequest, barIndex_none h]

end

/-- Settles O49: the index, the lock and the fields are judged in that order, and the lock is set outright. -/
theorem catalogueRequests : Obligations.CatalogueRequests := by
  refine fun s tag index hs => ⟨fun i raw hi => ⟨?_, request_same hs (catReadRequest_eq hi)⟩, fun raw hout =>
    ⟨request_same hs (catWriteRequest_outside hout raw), request_same hs (catReadRequest_outside hout)⟩,
    request_written hs rfl⟩
  have hparse := parseCatEntry_eq raw
  split
  · next hlocked => exact request_same hs (catWriteRequest_locked hi hlocked)
  · next hopen =>
    split
    · next hranges =>
      rw [if_pos hranges] at hparse
      exact request_written hs (catWriteRequest_written hi hopen hparse)
    · next hranges =>
      rw [if_neg hranges] at hparse
      exact request_same hs (catWriteRequest_refused hi hopen hparse)

/-- Settles O50: the index, the lock and the fields are judged in that order, and the lock keeps no range from being read. -/
theorem barredListRequests : Obligations.BarredListRequests := by
  refine fun s tag index hs => ⟨fun i raw hi => ⟨?_, request_same hs (barReadRequest_eq hi)⟩, fun raw hout =>
    ⟨request_same hs (barWriteRequest_outside hout raw), request_same hs (barReadRequest_outside hout)⟩⟩
  have hparse := parseBarRange_eq raw
  split
  · next hlocked => exact request_same hs (barWriteRequest_locked hi hlocked)
  · next hopen =>
    split
    · next hranges =>
      rw [if_pos hranges] at hparse
      exact request_written hs (barWriteRequest_written hi hopen hparse)
    · next hranges =>
      rw [if_neg hranges] at hparse
      exact request_same hs (barWriteRequest_refused hi hopen hparse)

end Sys2Proof.Machine
end

section
/-! PROOF. The end of an event in which one poster has delivered several records (R191), and the pending records whose hold
ends (O20): their reports are entered in list order (R71). -/

namespace Sys2Proof.Machine

/-! ### Several records of one poster (R191) -/

section
variable {p : Port} {i : Poster} {r : Record} {l : List Record}

/-- Poster `i` alone holds records, and they are these. -/
def Port.holding (p : Port) (i : Poster) (l : List Record) : Port := { p with delivered := p.delivered.set i l }

/-- A record of poster `i` entered by the arbiter, which becomes last served (R191). -/
def Port.served (i : Poster) (p : Port) (r : Record) : Port := { p with lastServed := i }.enterRecord r

theorem delivered_served (i : Poster) (p : Port) (r : Record) : (p.served i r).delivered = p.delivered :=
  enterRecord_delivered _ r

/-- Entering a record does not look at the records that wait. -/
theorem enterRecord_holding (p : Port) (r : Record) : (p.holding i l).enterRecord r = (p.enterRecord r).holding i l := by
  unfold Port.enterRecord Port.holding
  simp only
  split
  · rfl
  · cases p.policy <;> rfl

theorem holding_nil (h : ∀ j : Poster, p.delivered[j] = []) : p.holding i [] = p := by
  have hd : p.delivered.set i [] = p.delivered := by
    ext1 k hk
    rw [Vector.getElem_set]
    split
    · exact (h ⟨k, hk⟩).symm
    · rfl
  rw [Port.holding, hd]

theorem deliveredCount_holding (h : ∀ j : Poster, p.delivered[j] = []) (i : Poster) (l : List Record) :
    (p.holding i l).deliveredCount = l.length := by
  have hempty : p.delivered = Vector.replicate 5 [] := by
    ext1 k hk
    simpa using h ⟨k, hk⟩
  simp only [deliveredCount_eq, Port.holding, hempty]
  fin_cases i <;> simp

/-- The one poster that holds records is the next served (R191). -/
theorem nextPoster_holding (h : ∀ j : Poster, p.delivered[j] = []) : (p.holding i (r :: l)).nextPoster = some i := by
  have hsome : ∃ j, (p.holding i (r :: l)).nextPoster = some j := by
    refine Option.ne_none_iff_exists'.1 fun hnone => ?_
    have hcount := deliveredCount_holding h i (r :: l)
    rw [deliveredCount_eq_zero.2 (delivered_of_nextPoster_none hnone)] at hcount
    cases hcount
  obtain ⟨j, hj⟩ := hsome
  obtain ⟨x, rest, hx⟩ := delivered_of_nextPoster hj
  rw [hj]
  by_cases hji : j = i
  · rw [hji]
  · have hnil : (p.holding i (r :: l)).delivered[j] = [] := by
      simpa [Port.holding, Fin.val_inj, Ne.symm hji] using h j
    rw [hnil] at hx
    cases hx

theorem enterFrom_holding : (p.holding i (r :: l)).enterFrom i = (p.served i r).holding i l := by
  have hhead : (p.holding i (r :: l)).delivered[i] = r :: l := by simp [Port.holding]
  simp only [Port.enterFrom, hhead, Port.served, ← enterRecord_holding]
  simp only [Port.holding, Vector.set_set]

/-- The arbiter enters the records of the one poster that holds any, oldest first (R191). -/
theorem enterUpTo_holding (h : ∀ j : Poster, p.delivered[j] = []) :
    Port.enterUpTo l.length (p.holding i l) = l.foldl (Port.served i) p := by
  induction l generalizing p with
  | nil => rw [holding_nil h]; rfl
  | cons r l ih =>
    rw [List.length_cons, Port.enterUpTo, nextPoster_holding h]
    simp only [enterFrom_holding, List.foldl_cons]
    exact ih (delivered_served i p r ▸ h)

end

section
variable {α : Type} {s : State} {t : TreeId} {i : Poster} (body : α → ReportBody)

/-- Records that one poster delivers wait there in the order of their delivery. -/
theorem foldl_deliver (l : List α) {p : Port} {waiting : List Record} (h : s.port = p.holding i waiting) :
    l.foldl (fun s a => s.deliver i (body a)) s =
      { s with port := p.holding i (waiting ++ l.map fun a => newRecord i s.epoch (body a)) } := by
  induction l generalizing s waiting with
  | nil => simp [← h]
  | cons a l ih =>
    have hport : (s.deliver i (body a)).port = p.holding i (waiting ++ [newRecord i s.epoch (body a)]) := by
      simp [State.deliver, h, Port.holding]
    rw [List.foldl_cons, ih hport, List.map_cons, ← List.append_cons]
    rfl

/-- Records entered one after another are so many entered by the arbiter for their poster. -/
theorem foldl_entering (l : List α) :
    l.foldl (fun s a => s.entering i (body a)) s =
      { s with port := (l.map fun a => newRecord i s.epoch (body a)).foldl (Port.served i) s.port } := by
  induction l generalizing s with
  | nil => rfl
  | cons a l ih => exact ih

/-- Records entered leave none that waits. -/
theorem foldl_entering_entered (l : List α) (h : ∀ j : Poster, s.port.delivered[j] = []) (j : Poster) :
    (l.foldl (fun s a => s.entering i (body a)) s).port.delivered[j] = [] := by
  induction l generalizing s with
  | nil => exact h j
  | cons a l ih => exact ih (delivered_served i s.port (newRecord i s.epoch (body a)) ▸ h)

/-- An event in which one poster delivers several records ends with them entered, oldest first (R191). -/
theorem settle_foldl_deliver (l : List α) (h : ∀ j : Poster, s.port.delivered[j] = []) :
    (l.foldl (fun s a => s.deliver i (body a)) s).settle = l.foldl (fun s a => s.entering i (body a)) s := by
  rw [foldl_deliver body l (holding_nil h).symm, foldl_entering, List.nil_append, State.settle]
  simp only [deliveredCount_holding h, enterUpTo_holding h]

end

/-- The report of a pending record whose hold has ended (R71, R76). -/
def timedOutReport (r : PendingRec) : ReportBody :=
  .admission .timedOut .hold 0 r.serial r.model r.c (some r.profile.origins) 0 none

/-- Tree `t` without the records due, and their reports entered in list order (R71). -/
def holdsEnded (t : TreeId) (s : State) : State :=
  ((s.tree t).pendingList.filter fun r => r.deadline = s.epoch).foldl
    (fun s r => s.entering (treePoster t) (timedOutReport r))
    (s.modPending t fun l => l.filter fun r => r.deadline ≠ s.epoch)

section
variable {s : State} {t : TreeId} (h : ∀ i : Poster, s.port.delivered[i] = [])
include h

/-- The reports that the hold deadline delivers are entered at the end of its event (R71, R191). -/
theorem settle_pendingHolds : (pendingHolds t s).settle = holdsEnded t s :=
  settle_foldl_deliver (s := s.modPending t fun l => l.filter fun r => r.deadline ≠ s.epoch) timedOutReport _ h

theorem settle_holdsEnded : (holdsEnded t s).settle = holdsEnded t s :=
  settle_of_entered
    (foldl_entering_entered (s := s.modPending t fun l => l.filter fun r => r.deadline ≠ s.epoch) timedOutReport _ h)

end

/-- Settles O20: the records whose hold ends leave the list, and their reports, delivered in list order, are entered so. -/
theorem pendingHoldsEnd : Obligations.PendingHoldsEnd := by
  intro s t hs hdue
  have hexec : exec (.pendingHoldDeadline t) s = s.take (takeDelivery (.pendingHoldDeadline t)) :=
    exec_command (.pendingHoldDeadline t) s
  have hentered : ∀ i : Poster, (s.taken (.pendingHoldDeadline t)).port.delivered[i] = [] := hs.entered
  calc exec (.pendingHoldDeadline t) s
    _ = .next (pendingHolds t (s.taken (.pendingHoldDeadline t))).settle.settle := by
      rw [hexec, take_of_taking hs, takeDelivery_of_mem hdue]
      rfl
    _ = .next (holdsEnded t (s.taken (.pendingHoldDeadline t))) := by
      rw [settle_pendingHolds hentered, settle_holdsEnded hentered]

end Sys2Proof.Machine
end

section
/-! PROOF. The host processor's decision on a pending serial (O59): REFUSE, ADMIT of a barred serial, and ADMIT that makes an
entry from the record (R72..R74). -/

namespace Sys2Proof.Machine

/-! ### What the requests answer (R72, R73) -/

section
variable {s x : State} {t : TreeId} {tag tree : Byte} {serial : Serial} {r : PendingRec} {tn : Nat} {f : State → Answer}

/-- A request whose answer delivers one report: it is entered before the reply is placed (R186). -/
theorem request_reported (hs : s.Taking) {b : ReportBody} {code : ReplyCode} {body : List Byte}
    (hf : f s = { state := x.report t b, code := code, body := body }) (hp : x.port = s.port) :
    s.request tag f = .next ((x.entering (treePoster t) b).reply tag code body) := by
  rw [request_of_taking hs, hf, settle_report t b (hp ▸ hs.entered)]

/-- A TN is one byte of a reply (R188). -/
theorem natField_tn (h : tn ≤ 120) : natField 1 tn = [BitVec.ofNat 8 tn] := by
  have hmin : min tn 255 = tn := by omega
  simp [natField, lowBytes, hmin]

section
variable (ht : tree.toNat = t) (ha : (s.tree t).isActive = true)
include ht ha

theorem admitRequest_notPending (h : (s.tree t).pendingOf serial = none) :
    admitRequest tree serial s = refuse s .notPending := by
  simp only [admitRequest, activeTree_of_active ht ha, h]

theorem refuseRequest_notPending (h : (s.tree t).pendingOf serial = none) :
    refuseRequest tree serial s = refuse s .notPending := by
  simp only [refuseRequest, activeTree_of_active ht ha, h]

variable (hr : (s.tree t).pendingOf serial = some r)
include hr

theorem refuseRequest_pending :
    refuseRequest tree serial s =
      ok
        ((removePending t serial s).report t
          (.admission .refused .host 0 r.serial r.model r.c (some r.profile.origins) 0 none)) := by
  simp only [refuseRequest, activeTree_of_active ht ha, hr]
  rfl

theorem admitRequest_barred (hb : s.admission.barred serial = true) :
    admitRequest tree serial s =
      refuse
        ((removePending t serial s).report t
          (.admission .barred .host 0 r.serial r.model r.c (some r.profile.origins) 0 none))
        .barred := by
  simp only [admitRequest, activeTree_of_active ht ha, hr, hb, if_true]
  rfl

theorem admitRequest_created (hb : s.admission.barred serial = false)
    (hc : (createEntry t serial r.model r.c r.profile s).answer = .created tn) :
    admitRequest tree serial s =
      okWith
        (supersede { source := .host, window := 0 } t tn serial
          ((removePending t serial (createEntry t serial r.model r.c r.profile s).state).report t
            (.admission .admitted .host 0 r.serial r.model r.c (some r.profile.origins) tn none)))
        (natField 1 tn) := by
  simp only [admitRequest, activeTree_of_active ht ha, hr, hb, Bool.false_eq_true, if_false, hc]
  rfl

end

/-! ### The entry made from the record, and the records gone (R72, R74) -/

/-- Once tree `t` and every other tree have lost their record of a serial, no tree has one, and no slot has changed. -/
theorem supersede_removed (ev : AdmitEvent) (b : ReportBody) {y : State}
    (hy : supersede ev t tn serial ((removePending t serial x).report t b) = y) :
    (∀ k, y.entry? t k = x.entry? t k) ∧ y.directory = x.directory ∧
      ∀ j, ∀ p ∈ (y.tree j).pendingList, p.serial ≠ serial := by
  obtain ⟨⟨htree, -, hdir⟩, hgone⟩ :=
    supersede_superseded (s := (removePending t serial x).report t b) (t := t) (tn := tn) (serial := serial) ev
  rw [hy] at htree hdir hgone
  have hself : y.tree t =
      { x.tree t with pendingList := (x.tree t).pendingList.filter fun p => p.serial ≠ serial } :=
    htree.trans (tree_modPending_same ..)
  refine ⟨fun k => entry?_of_slots (by rw [hself]) k, hdir, fun j => ?_⟩
  by_cases hj : j = t
  · rw [hj, hself]
    exact fun p hp => by simpa using (List.mem_filter.1 hp).2
  · exact hgone j hj

end

/-- Settles O59: the record is looked up, then the barred list, and the entry is what the creation makes of the record. -/
theorem pendingSerialsDecided : Obligations.PendingSerialsDecided := by
  intro s tag tree t serial hs ht ha
  refine ⟨fun hnone => ⟨?_, ?_⟩, fun r hr => ⟨?_, fun hb => ?_, fun tn hb hnew hfree hbroadcast hroom => ?_⟩⟩
  · exact request_same hs (admitRequest_notPending ht ha hnone)
  · exact request_same hs (refuseRequest_notPending ht ha hnone)
  · exact request_reported hs (refuseRequest_pending ht ha hr) rfl
  · exact request_reported hs (admitRequest_barred ht ha hr hb) rfl
  · obtain ⟨hans, ⟨hentry, -, hother, -, -⟩, hcreated⟩ :=
      createEntry_assigned (serial := serial) (model := r.model) (c := r.c) (prof := r.profile) ha hnew hfree hbroadcast
        hroom
    obtain ⟨i, hi⟩ := Option.isSome_iff_exists.1 (lowestFree_spec hfree).1
    have hbody : natField 1 tn = [BitVec.ofNat 8 tn] := natField_tn (slotIndex_range hi).2
    have hexec : exec (.admitSerial tag tree serial) s = _ := request_of_taking hs tag (admitRequest tree serial)
    rw [admitRequest_created ht ha hr hb hans] at hexec
    obtain ⟨hslots, hdir, hgone⟩ := supersede_removed
      (x := (createEntry t serial r.model r.c r.profile s).state) (t := t) (tn := tn) (serial := serial)
      { source := .host, window := 0 }
      (.admission .admitted .host 0 r.serial r.model r.c (some r.profile.origins) tn none) rfl
    refine ⟨_, hexec, ?_, (hslots tn).trans hentry, fun k hk => (hslots k).trans (hother k hk), hdir.trans hcreated, hgone⟩
    rw [← hbody]
    rfl

end Sys2Proof.Machine
end

section
/-! PROOF. The rules of the discovery family: a delivery taken, updates of one block composed, and the start of a window. With
them, the spacing end (O21), the end of a window (O35) and the context requests (O56). -/

namespace Sys2Proof.Machine

/-! ### Deliveries (R3, R191) -/

section
variable {s x : State} {a : EpochAction}

/-- A delivery's effect, whose records are entered as it ends (R3, R191). -/
theorem exec_delivery_settled (hs : s.Taking) (h : a ∈ s.due) :
    exec a.command s = .next (deliveryEffect a (s.taken a)).settle.settle := by
  rw [exec_command, take_of_taking hs, takeDelivery_of_mem h]

/-- A delivery whose effect is `x`, with no report. -/
theorem exec_delivery (hs : s.Taking) (h : a ∈ s.due) (hx : deliveryEffect a (s.taken a) = x) (hp : x.port = s.port) :
    exec a.command s = .next x := by
  have hentered : ∀ i : Poster, x.port.delivered[i] = [] := hp ▸ hs.entered
  rw [exec_delivery_settled hs h, hx, settle_of_entered hentered, settle_of_entered hentered]

end

/-! ### Blocks updated one after another -/

section
variable {s : State} {t : TreeId}

theorem modDisc_modDisc (f g : Discovery → Discovery) :
    (s.modDisc t f).modDisc t g = s.modDisc t fun d => g (f d) := modTree_modTree _ _

theorem modDisc_congr {f g : Discovery → Discovery} (h : f (s.tree t).disc = g (s.tree t).disc) :
    s.modDisc t f = s.modDisc t g := modTree_congr (by rw [h])

theorem modLight_modLight (f g : LightMonitor → LightMonitor) :
    (s.modLight t f).modLight t g = s.modLight t fun l => g (f l) := modTree_modTree _ _

theorem modLight_congr {f g : LightMonitor → LightMonitor} (h : f (s.tree t).light = g (s.tree t).light) :
    s.modLight t f = s.modLight t g := modTree_congr (by rw [h])

theorem params_modDisc (f : Discovery → Discovery) : (s.modDisc t f).params t = s.params t := by simp [State.params]

theorem gateOpen_modDisc (f : Discovery → Discovery) : ((s.modDisc t f).tree t).gateOpen = (s.tree t).gateOpen := by
  rw [tree_modDisc_same]
  rfl

/-! ### Windows (R81, R82) -/

/-- The tag-0 request of a window with this copy (R82). -/
def windowRequest (t : TreeId) (w : Context) (s : State) : Request :=
  { kind := .quiet, length := windowLength (s.params t) w, earliest := windowEarliest (s.params t) s.epochInt }

/-- A request leaves the Discovery Unit as it is (R151). -/
theorem chanSend_modDisc (tag : Tag) (req : Request) (f : Discovery → Discovery) :
    chanSend t tag req (s.modDisc t f) = (chanSend t tag req s).modDisc t f := by
  have hchan : (s.modDisc t f).chan t tag = s.chan t tag := by
    cases tag <;> simp only [State.chan, tree_modDisc_same] <;> rfl
  have hepoch : (s.modDisc t f).epoch = s.epoch := rfl
  simp only [chanSend, hchan, hepoch]
  simp only [sendLink, State.setChan, State.modOut, State.modDisc, modTree_modTree]
  refine modTree_congr ?_
  cases tag <;> rfl

/-- A window asked for as its unit changes: the request, and the unit's change with the unit REQUESTING (R82). -/
theorem sendWindow_modDisc (w : Context) (f : Discovery → Discovery) :
    sendWindow t w (s.modDisc t f) =
      (chanSend t .window (windowRequest t w s) s).modDisc t fun d =>
        { f d with state := .requesting w (windowEarliest (s.params t) s.epochInt) } := by
  have hepoch : (s.modDisc t f).epochInt = s.epochInt := rfl
  simp only [sendWindow, params_modDisc, hepoch, chanSend_modDisc, State.setDisc, modDisc_modDisc]
  rfl

/-- A unit in DUE on a window copy asks for its window where the gate is open (R81). -/
theorem startWindow_copy {w : Context} (hg : (s.tree t).gateOpen = true) (hd : (s.tree t).disc.state = .due (some w)) :
    startWindow t s = sendWindow t w s := by
  simp only [startWindow, hg, hd, if_true]

/-- A unit in DUE without a copy starts the cycle of the queue's head where the gate is open (R81). -/
theorem startWindow_cycle {h : QueuedContext} {rest : List QueuedContext} (hg : (s.tree t).gateOpen = true)
    (hd : (s.tree t).disc.state = .due none)
    (hq : cycleQueue (s.params t).queueMode (s.tree t).disc.contexts = h :: rest) :
    startWindow t s =
      sendWindow t h.ctx
        (s.modDisc t fun d =>
          { d with contexts := { h with held := false } :: rest, repeatIndex := 0, flushed := false }) := by
  simp only [startWindow, hg, hd, hq, if_true]

/-- With an empty queue no cycle starts (R81). -/
theorem startWindow_of_empty (hd : (s.tree t).disc.state = .due none) (hc : (s.tree t).disc.contexts = []) :
    startWindow t s = s := by
  have hq : cycleQueue (s.params t).queueMode [] = [] := by cases (s.params t).queueMode <;> rfl
  simp only [startWindow, hd, hc, hq, ite_self]

/-! ### The spacing end (R93) -/

theorem spacingDue_reached (hd : (s.tree t).disc.state = .spacing s.epoch) :
    spacingDue t s = startWindow t (s.setDisc t (.due none)) := by
  simp only [spacingDue, hd, if_true]

theorem spacingDue_not_reached (hd : (s.tree t).disc.state ≠ .spacing s.epoch) : spacingDue t s = s := by
  unfold spacingDue
  split
  · next e he => exact if_neg fun h => hd (by rw [he, h])
  all_goals rfl

/-- A spacing that ends with the gate closed, or with no context queued, leaves the unit in DUE (R81, R93). -/
theorem spacingDue_waits (hd : (s.tree t).disc.state = .spacing s.epoch)
    (h : (s.tree t).gateOpen = false ∨ (s.tree t).disc.contexts = []) :
    spacingDue t s = s.setDisc t (.due none) := by
  rw [spacingDue_reached hd, State.setDisc]
  rcases h with hg | hc
  · exact startWindow_of_closed ((gateOpen_modDisc _).trans hg)
  · exact startWindow_of_empty (by rw [tree_modDisc_same]) (by rw [tree_modDisc_same]; exact hc)

/-- A spacing that ends with the gate open starts the cycle of the queue's head (R81, R93). -/
theorem spacingDue_starts {h : QueuedContext} {rest : List QueuedContext}
    (hd : (s.tree t).disc.state = .spacing s.epoch) (hg : (s.tree t).gateOpen = true)
    (hq : cycleQueue (s.params t).queueMode (s.tree t).disc.contexts = h :: rest) :
    spacingDue t s =
      (chanSend t .window (windowRequest t h.ctx s) s).modDisc t fun d =>
        { d with
          contexts := { h with held := false } :: rest, repeatIndex := 0, flushed := false
          state := .requesting h.ctx (windowEarliest (s.params t) s.epochInt) } := by
  rw [spacingDue_reached hd, State.setDisc, startWindow_cycle (h := h) (rest := rest), modDisc_modDisc, sendWindow_modDisc]
  · exact (gateOpen_modDisc _).trans hg
  · rw [tree_modDisc_same]
  · rw [params_modDisc, tree_modDisc_same]
    exact hq

end

/-- Settles O21: the unit is DUE as its spacing ends, and the gate decides whether the next cycle starts. -/
theorem spacingEndsInDue : Obligations.SpacingEndsInDue := by
  intro s t hs hdue
  refine ⟨fun hd h => ?_, fun h rest hd hg hq => ?_, fun hd => ?_⟩
  · exact exec_delivery hs hdue (spacingDue_waits (s := s.taken (.spacingEnd t)) hd h) rfl
  · exact exec_delivery hs hdue (spacingDue_starts (s := s.taken (.spacingEnd t)) hd hg hq) rfl
  · exact exec_delivery hs hdue (spacingDue_not_reached (s := s.taken (.spacingEnd t)) hd) rfl

/-! ### The end of a window (R91, R92) -/

section
variable {s : State} {t : TreeId} {w : Context} {number : Byte} {qs gw : Int} {dispatch : Nat} {coll : Collection}

theorem windowEnd_of_collecting (h0 : (s.tree t).disc.stale = 0)
    (hd : (s.tree t).disc.state = .collecting w number qs gw dispatch coll) :
    windowEnd t s = closeWindow t w number dispatch coll s := by
  rw [windowEnd, if_neg (not_not.mpr h0), hd]

/-- The contexts that a cycle's end leaves, read off the queue mode and the queue (R92). -/
theorem afterCycle_eq (d : Discovery) (m : QueueMode) :
    d.afterCycle m =
      if d.flushed then d.contexts
      else
        match m, d.contexts with
        | .hold, [h] => [{ h with held := true }]
        | _, l => l.tail := by
  unfold Discovery.afterCycle
  split
  · rfl
  · cases m with
    | drain => exact List.drop_one
    | hold =>
      match d.contexts with
      | [] => rfl
      | [_] => rfl
      | _ :: _ :: _ => rfl

/-- A window without a repeat ends its cycle, and its report says whether the unit is STOPPED or SPACING (R91, R92, R94). -/
theorem closeWindow_ends {queue : List QueuedContext} (hr : (s.tree t).disc.repeats w coll = false)
    (hq : (s.tree t).disc.afterCycle (s.params t).queueMode = queue) :
    closeWindow t w number dispatch coll s =
      (s.modDisc t fun d =>
          { d with
            contexts := queue, flushed := false
            state := if queue.isEmpty then .stopped else .spacing (s.epoch + w.spacing) }).report t
        (.window number (s.tree t).disc.repeatIndex .completed
          (some (if queue.isEmpty then .stopped else .spacing)) w.dspan w.mode dispatch coll) := by
  have hfollow : ((endCycle t w s).tree t).disc.follow = if queue.isEmpty then .stopped else .spacing := by
    rw [endCycle, tree_modDisc_same, hq]
    cases queue <;> rfl
  simp only [closeWindow, hr, Bool.false_eq_true, if_false, hfollow, windowReport]
  rw [endCycle, hq]

/-- A window with a repeat left is asked for again, or waits in DUE on its copy for the gate (R81, R91). -/
theorem closeWindow_repeats (hr : (s.tree t).disc.repeats w coll = true) :
    closeWindow t w number dispatch coll s =
      (if (s.tree t).gateOpen then
          sendWindow t w (s.modDisc t fun d => { d with repeatIndex := d.repeatIndex + 1 })
        else s.modDisc t fun d => { d with repeatIndex := d.repeatIndex + 1, state := .due (some w) }).report t
        (.window number (s.tree t).disc.repeatIndex .completed (some .repeated) w.dspan w.mode dispatch coll) := by
  have hstart : startWindow t (s.modDisc t fun d => { d with repeatIndex := d.repeatIndex + 1, state := .due (some w) }) =
      if (s.tree t).gateOpen then
        sendWindow t w (s.modDisc t fun d => { d with repeatIndex := d.repeatIndex + 1 })
      else s.modDisc t fun d => { d with repeatIndex := d.repeatIndex + 1, state := .due (some w) } := by
    split
    · next hg =>
      rw [startWindow_copy ((gateOpen_modDisc _).trans hg) (by rw [tree_modDisc_same]), sendWindow_modDisc,
        sendWindow_modDisc]
    · next hg => exact startWindow_of_closed ((gateOpen_modDisc _).trans (by simpa using hg))
  simp only [closeWindow, hr, if_true, hstart, windowReport]

end

/-- Settles O35: the window is repeated where its bursts collided and a repeat is left, and ends its cycle otherwise. -/
theorem windowsClose : Obligations.WindowsClose := by
  intro s t w number qs gw dispatch coll queue hs hr h0 hd hq
  refine ⟨fun h => ?_, fun hf hc hlt => ?_⟩
  · have hends : (s.tree t).disc.repeats w coll = false := by
      simp only [Discovery.repeats, Bool.and_eq_false_iff, Bool.not_eq_false', decide_eq_false_iff_not, or_assoc]
      exact h.imp_right (Or.imp (by omega) (by omega))
    exact take_routed_report hs hr ((windowEnd_of_collecting h0 hd).trans
      (closeWindow_ends hends ((afterCycle_eq _ _).trans hq.symm))) rfl
  · have hrepeats : (s.tree t).disc.repeats w coll = true := by simp [Discovery.repeats, hf, hc, hlt]
    exact take_routed_report hs hr ((windowEnd_of_collecting h0 hd).trans (closeWindow_repeats hrepeats))
      (by split <;> rfl)

/-! ### CTX_PUSH and CTX_FLUSH (R78, R79) -/

section
variable {s x : State} {t : TreeId} {tag tree : Byte} {raw : RawContext} {c : Context} {f : State → Answer}

theorem openTree_of_open (ht : tree.toNat = t) (h1 : (s.tree t).ctl.state ≠ .closed) (h2 : (s.tree t).ctl.state ≠ .closing) :
    openTree s tree = .ok t := by
  rw [openTree, parseTree_eq ht]
  cases hst : (s.tree t).ctl.state with
  | closed => exact absurd hst h1
  | closing => exact absurd hst h2
  | calibrating | active => simp only [hst]

/-- A request answered OK with a body, which delivers no report (R186). -/
theorem request_answered (hs : s.Taking) {body : List Byte} (hf : f s = okWith x body) (hp : x.port = s.port) :
    s.request tag f = .next (x.reply tag .ok body) := by
  rw [request_of_taking hs, hf]
  exact congrArg (fun y : State => Host.Outcome.next (y.reply tag .ok body)) (settle_of_entered (hp ▸ hs.entered))

section
variable (ho : openTree s tree = .ok t)
include ho

theorem ctxPushRequest_badParam (hc : parseContext raw = none) : ctxPushRequest tree raw s = refuse s .badParam := by
  simp only [ctxPushRequest, ho, hc]

theorem ctxPushRequest_full (hc : parseContext raw = some c) (hl : 4 ≤ (s.tree t).disc.contexts.length) :
    ctxPushRequest tree raw s = refuse s .busy := by
  simp only [ctxPushRequest, ho, hc]
  exact if_pos hl

theorem ctxPushRequest_pushed (hc : parseContext raw = some c) (hl : (s.tree t).disc.contexts.length < 4) :
    ctxPushRequest tree raw s =
      okWith (pushContext t c s) [BitVec.ofNat 8 ((s.tree t).disc.contexts.length + 1)] := by
  simp only [ctxPushRequest, ho, hc]
  rw [if_neg (Nat.not_le_of_lt hl), natField_tn (by omega)]

theorem ctxFlushRequest_eq (hl : (s.tree t).disc.contexts.length ≤ 4) :
    ctxFlushRequest tree s =
      okWith (s.modDisc t Discovery.flush) [BitVec.ofNat 8 (s.tree t).disc.contexts.length] := by
  simp only [ctxFlushRequest, ho]
  rw [natField_tn (by omega)]

end

theorem pushContext_waits (hd : (s.tree t).disc.state ≠ .stopped) :
    pushContext t c s = s.modDisc t fun d => { d with contexts := d.contexts ++ [{ ctx := c, held := false }] } := by
  unfold pushContext
  cases h : (s.tree t).disc.state with
  | stopped => exact absurd h hd
  | spacing | due | requesting | posted | collecting => rfl

/-- A push in STOPPED makes the unit DUE, and its gate is judged (R78). -/
theorem pushContext_of_stopped (hd : (s.tree t).disc.state = .stopped) :
    pushContext t c s =
      startWindow t
        (s.modDisc t fun d =>
          { d with contexts := d.contexts ++ [{ ctx := c, held := false }], state := .due none }) := by
  simp only [pushContext, hd, State.setDisc, modDisc_modDisc]

/-- A push in STOPPED onto an empty queue starts the context's cycle where the gate is open (R78, R81). -/
theorem pushContext_starts (hd : (s.tree t).disc.state = .stopped) (hg : (s.tree t).gateOpen = true)
    (hc : (s.tree t).disc.contexts = []) :
    pushContext t c s =
      sendWindow t c
        (s.modDisc t fun d => { d with contexts := [{ ctx := c, held := false }], repeatIndex := 0, flushed := false }) := by
  have hone : ∀ (m : QueueMode) (h : QueuedContext), cycleQueue m [h] = [h] := fun m h => by cases m <;> rfl
  rw [pushContext_of_stopped hd, startWindow_cycle (h := { ctx := c, held := false }) (rest := [])
    ((gateOpen_modDisc _).trans hg) (by rw [tree_modDisc_same])
    (by rw [tree_modDisc_same, hc]; exact hone _ _)]
  rw [modDisc_modDisc, sendWindow_modDisc, sendWindow_modDisc]

/-- What a flush makes of the unit, by what it flushes (R79). -/
theorem flush_eq :
    Discovery.flush = fun d =>
      match d.state with
      | .stopped | .spacing _ | .due _ => { d with contexts := [], state := .stopped }
      | _ => { d with contexts := [], flushed := true } := by
  funext d
  unfold Discovery.flush
  cases d.state <;> rfl

end

/-- Settles O56: the tree is open, so the context's fields and the queue's room are judged, then the unit's state. -/
theorem contextRequests : Obligations.ContextRequests := by
  intro s tag tree t hs ht h1 h2
  have ho := openTree_of_open ht h1 h2
  refine ⟨fun raw c hc hl => ⟨fun hd => ?_, fun hd hg => ?_, fun hd hg hempty => ?_⟩, fun raw hc => ?_, fun raw c hc hl => ?_,
    fun hl => ?_⟩
  · have hpush := ctxPushRequest_pushed ho hc hl
    rw [pushContext_waits hd] at hpush
    exact request_answered hs (f := ctxPushRequest tree raw) hpush rfl
  · have hpush := ctxPushRequest_pushed ho hc hl
    rw [pushContext_of_stopped hd, startWindow_of_closed ((gateOpen_modDisc _).trans hg)] at hpush
    exact request_answered hs (f := ctxPushRequest tree raw) hpush rfl
  · have hpush := ctxPushRequest_pushed ho hc hl
    rw [pushContext_starts hd hg hempty, hempty] at hpush
    exact request_answered hs (f := ctxPushRequest tree raw) hpush rfl
  · exact request_same hs (f := ctxPushRequest tree raw) (ctxPushRequest_badParam ho hc)
  · exact request_same hs (f := ctxPushRequest tree raw) (ctxPushRequest_full ho hc hl)
  · have hflush := ctxFlushRequest_eq ho hl
    rw [flush_eq] at hflush
    exact request_answered hs (f := ctxFlushRequest tree) hflush rfl

end Sys2Proof.Machine
end

section
/-! PROOF. The grant scheduler's responses as their owners take them: a GRANT judged, kept or returned (O43), and a request
sent again with the figures its owner forms anew (O26). -/

namespace Sys2Proof.Machine

/-! ### A GRANT taken by its channel (R154, R155) -/

section
variable {s r : State} {t : TreeId} {tag : Tag} {number : Byte} {qs : Int}

/-- The part with a grant held on the channel of a tag (R154). -/
def grantHeld (t : TreeId) (tag : Tag) (number : Byte) (qs : Int) (s : State) : State :=
  s.setChan t tag { phase := .granted number qs, number := number }

/-- The part once a GRANT of a tag has been returned, its channel IDLE (R155). -/
def grantReturned (t : TreeId) (tag : Tag) (number : Byte) (s : State) : State :=
  (s.modOut t fun o => { o with grant := o.grant ++ [.release tag number] }).setChan t tag
    { phase := .idle, number := number }

theorem grantTaken_stray (h : ∀ req d, (s.chan t tag).phase = .awaiting req d → number ≠ (s.chan t tag).number) :
    grantTaken t tag number qs s = strayGrant t tag number s := by
  cases hp : (s.chan t tag).phase with
  | awaiting req d => simp only [grantTaken, hp, if_neg (h req d hp)]
  | idle | deferred | backingOff | granted => simp only [grantTaken, hp]

theorem grantTaken_awaited {req : Request} {d : Nat} (hp : (s.chan t tag).phase = .awaiting req d)
    (hn : number = (s.chan t tag).number) :
    grantTaken t tag number qs s = handGrant t tag qs (grantHeld t tag number qs s) := by
  simp only [grantTaken, hp, hn, if_true, grantHeld]

/-- A held grant that its owner releases (R155). -/
theorem chanRelease_grantHeld : chanRelease t tag (grantHeld t tag number qs s) = grantReturned t tag number s := by
  have hchan : (grantHeld t tag number qs s).chan t tag = { phase := .granted number qs, number := number } := by
    rw [State.chan, grantHeld, tree_setChan_same, chan_setChan_same]
  simp only [chanRelease, hchan]
  simp only [grantHeld, grantReturned, sendLink, State.setChan, State.modOut, modTree_modTree]
  cases tag <;> rfl

theorem sameBlocks_grantHeld : SameBlocks (s.tree t) ((grantHeld t tag number qs s).tree t) := by
  rw [grantHeld, tree_setChan_same]
  exact sameBlocks_setChan _ _ _

/-! ### The owners' judgement (R83, R109, R164) -/

/-- A granted start lies within its owner's bounds: not before the earliest start, nor more than 32 epochs behind it. -/
def StartsInBounds (qe qs : Int) : Prop := qe ≤ qs ∧ qs ≤ qe + 32 * 625000

theorem StartsInBounds.not_outside {qe : Int} (h : StartsInBounds qe qs) : ¬(qs < qe ∨ qe + 32 * 625000 < qs) := by
  unfold StartsInBounds at h
  omega

section
variable {w : Context} {qe gw : Int} (hd : (r.tree t).disc.state = .requesting w qe)
  (hgw : gw = qs - (r.params t).frtMin - (r.params t).arMin)
include hd hgw

/-- A window's grant in its bounds, in time and with room has its INVITE queued (R83). -/
theorem windowGranted_kept (hin : StartsInBounds qe qs) (htime : (r.epoch : Int) ≤ gw / 625000 - 2)
    (hb : (r.tree t).msgq.broadcastStands = false) (hl : (r.tree t).msgq.items.length < 24) :
    windowGranted t qs r =
      (enqueue t
        { msg := .invite (r.tree t).disc.nextWindow w.dspan gw, issuer := .discovery, inst := 0
          deadline := some (gw / 625000 - 2) } r).modDisc t fun d =>
        { d with
          state := .posted w (r.tree t).disc.nextWindow qs gw, nextWindow := (r.tree t).disc.nextWindow + 1 } := by
  have hlate : ¬dispatchDeadline gw < r.epochInt := not_lt.mpr htime
  simp only [windowGranted, hd, ← hgw, if_neg hin.not_outside, if_neg hlate, postGated_queued _ hb hl]
  rfl

/-- A window's grant out of its bounds or past its deadline is released and asked for again (R83). -/
theorem windowGranted_returned (h : qs < qe ∨ qe + 32 * 625000 < qs ∨ gw / 625000 - 2 < r.epoch) :
    windowGranted t qs r = sendWindow t w (chanRelease t .window r) := by
  simp only [windowGranted, hd, ← hgw]
  split
  · rfl
  · next hin =>
    have hlate : dispatchDeadline gw < r.epochInt := (or_assoc.mpr h).resolve_left hin
    rw [if_pos hlate]

end

section
variable {o : ProbeOp} {pl : Placement} {qe g : Int} {e : Entry} (ho : (r.tree t).seq.op = some o)
  (hp : o.phase = .requesting pl qe) (hfine : checkEntry t o pl.ldp r = .fine e) (hg : g = qs + pl.half - pl.ldp - pl.cp)
include ho hp hfine hg

/-- An operation's grant in its bounds, in time and with room has its PROBE queued (R109). -/
theorem probeGranted_kept (hin : StartsInBounds qe qs) (htime : (r.epoch : Int) ≤ g / 625000 - 2)
    (hb : (r.tree t).msgq.broadcastStands = false) (hl : (r.tree t).msgq.items.length < 24) :
    probeGranted t qs r =
      (enqueue t
        { msg := .probe o.tn g, issuer := .sequencer, inst := o.inst, deadline := some (g / 625000 - 2) } r).setOp t
        (some { o with phase := .posted pl qe qs g }) := by
  have hlate : ¬dispatchDeadline g < r.epochInt := not_lt.mpr htime
  simp only [probeGranted, ho, hp, hfine, judgeProbeGrant, ← hg, if_neg hin.not_outside, if_neg hlate,
    postGated_queued _ hb hl]
  rfl

/-- An operation's grant out of its bounds or past its deadline is released and asked for again (R109). -/
theorem probeGranted_returned (h : qs < qe ∨ qe + 32 * 625000 < qs ∨ g / 625000 - 2 < r.epoch) :
    probeGranted t qs r = sendProbe t o pl (chanRelease t .probe r) := by
  simp only [probeGranted, ho, hp, hfine, judgeProbeGrant, ← hg]
  split
  · rfl
  · next hin =>
    have hlate : dispatchDeadline g < r.epochInt := (or_assoc.mpr h).resolve_left hin
    rw [if_pos hlate]

end

/-- A check's grant in its bounds is listened to, and any other is released and asked for again (R164). -/
theorem silenceGranted_eq {p : Purpose} {qe : Int}
    (hc : (r.tree t).light.check = some { purpose := p, qe := qe, phase := .requesting }) :
    silenceGranted t qs r =
      if qe ≤ qs ∧ qs ≤ qe + 32 * 625000 then
        r.modLight t fun l => { l with check := some { purpose := p, qe := qe, phase := .listening qs 0 } }
      else sendCheck t p (chanRelease t .silence r) := by
  simp only [silenceGranted, hc]
  by_cases h : qe ≤ qs ∧ qs ≤ qe + 32 * 625000
  · rw [if_pos h, if_neg (StartsInBounds.not_outside h)]
  · rw [if_neg h, if_pos (by omega)]

/-! ### What a kept grant leaves of its tree -/

/-- The tree of a window whose grant is kept: the grant held, the unit POSTED, the INVITE in the queue (R83). -/
theorem windowKept_tree {w : Context} {gw : Int} :
    (enqueue t
        { msg := .invite (s.tree t).disc.nextWindow w.dspan gw, issuer := .discovery, inst := 0
          deadline := some (gw / 625000 - 2) } (grantHeld t .window number qs s)).modDisc t (fun d =>
        { d with
          state := .posted w (s.tree t).disc.nextWindow qs gw, nextWindow := (s.tree t).disc.nextWindow + 1 }) =
      s.modTree t fun T =>
        { T with
          chanWindow := { phase := .granted number qs, number := number }
          disc := { T.disc with
            state := .posted w T.disc.nextWindow qs gw, nextWindow := T.disc.nextWindow + 1 }
          msgq := { T.msgq with
            items := T.msgq.items ++
              [{ msg := .invite T.disc.nextWindow w.dspan gw, issuer := .discovery, inst := 0
                 deadline := some (gw / 625000 - 2) }] } } := by
  simp only [enqueue, grantHeld, State.modMsgq, State.modDisc, State.setChan, modTree_modTree]
  exact modTree_congr rfl

/-- The tree of an operation whose grant is kept: the grant held, the operation POSTED, the PROBE in the queue (R109). -/
theorem probeKept_tree {o : ProbeOp} {pl : Placement} {qe g : Int} :
    (enqueue t
        { msg := .probe o.tn g, issuer := .sequencer, inst := o.inst, deadline := some (g / 625000 - 2) }
        (grantHeld t .probe number qs s)).setOp t (some { o with phase := .posted pl qe qs g }) =
      s.modTree t fun T =>
        { T with
          chanProbe := { phase := .granted number qs, number := number }
          seq := { T.seq with op := some { o with phase := .posted pl qe qs g } }
          msgq := { T.msgq with
            items := T.msgq.items ++
              [{ msg := .probe o.tn g, issuer := .sequencer, inst := o.inst
                 deadline := some (g / 625000 - 2) }] } } := by
  simp only [enqueue, grantHeld, State.modMsgq, State.setOp, State.modSeq, State.setChan, modTree_modTree]
  exact modTree_congr rfl

end

/-- Settles O43: a stray GRANT goes back, and an awaited one is held as its owner judges it by its bounds. -/
theorem grantsJudged : Obligations.GrantsJudged := by
  intro s t tag number start hs
  have htaken : ∀ {x : State}, grantTaken t tag number start.toNat s = x → x.port = s.port →
      exec (.grant t tag number start) s = .next x := fun hx hp => take_of_same_port hs hx hp
  refine ⟨fun h => htaken (grantTaken_stray h) rfl, fun req d hp hn => ?_⟩
  have hheld := grantTaken_awaited (qs := start.toNat) hp hn
  have hblocks := sameBlocks_grantHeld (s := s) (t := t) (tag := tag) (number := number) (qs := start.toNat)
  have hparams : (grantHeld t tag number start.toNat s).params t = s.params t := congrArg Controller.params hblocks.ctl
  refine ⟨fun w qe gw htag hd hgw => ?_, fun o pl qe g e htag ho hph he hi hname hld hg => ?_, fun p qe htag hc => ?_⟩
  · subst htag
    have hdisc : ((grantHeld t .window number start.toNat s).tree t).disc.state = .requesting w qe := hblocks.disc ▸ hd
    refine ⟨fun hlo hhi htime hb hl => ?_, fun hout => ?_⟩
    · refine htaken (hheld.trans ?_) rfl
      rw [← windowKept_tree, ← hblocks.disc]
      exact windowGranted_kept hdisc (hparams ▸ hgw) ⟨hlo, hhi⟩ htime (hblocks.msgq ▸ hb) (hblocks.msgq ▸ hl)
    · refine htaken (hheld.trans ?_) rfl
      exact (windowGranted_returned hdisc (hparams ▸ hgw) hout).trans (congrArg (sendWindow t w) chanRelease_grantHeld)
  · subst htag
    have hentry : (grantHeld t .probe number start.toNat s).entry? t o.tn = some e :=
      (entry?_of_slots hblocks.slots _).trans he
    have hfine := checkEntry_fine hentry hi hname hld
    have hop : ((grantHeld t .probe number start.toNat s).tree t).seq.op = some o := hblocks.seq ▸ ho
    refine ⟨fun hlo hhi htime hb hl => ?_, fun hout => ?_⟩
    · refine htaken (hheld.trans ?_) rfl
      rw [← probeKept_tree]
      exact probeGranted_kept hop hph hfine hg ⟨hlo, hhi⟩ htime (hblocks.msgq ▸ hb) (hblocks.msgq ▸ hl)
    · refine htaken (hheld.trans ?_) rfl
      exact (probeGranted_returned hop hph hfine hg hout).trans (congrArg (sendProbe t o pl) chanRelease_grantHeld)
  · subst htag
    refine htaken (hheld.trans ?_) (by split <;> rfl)
    refine (silenceGranted_eq (hblocks.light ▸ hc)).trans ?_
    rw [chanRelease_grantHeld]
    rfl

/-! ### A request sent again (R156, R158) -/

section
variable {s x : State} {t : TreeId} {tag : Tag} {req : Request} {qe : Int} {record : State → State} {number : Byte}

theorem recordEarliest_window {w : Context} {q : Int} (h : (x.tree t).disc.state = .requesting w q) :
    recordEarliest t .window qe x = x.setDisc t (.requesting w qe) := by
  simp only [recordEarliest, h]

theorem recordEarliest_probe {o : ProbeOp} {pl : Placement} {q : Int} (ho : (x.tree t).seq.op = some o)
    (hp : o.phase = .requesting pl q) :
    recordEarliest t .probe qe x = x.setOp t (some { o with phase := .requesting pl qe }) := by
  simp only [recordEarliest, ho, hp]

theorem recordEarliest_silence {p : Purpose} {q : Int}
    (h : (x.tree t).light.check = some { purpose := p, qe := q, phase := .requesting }) :
    recordEarliest t .silence qe x =
      x.modLight t fun l => { l with check := some { purpose := p, qe := qe, phase := .requesting } } := by
  simp only [recordEarliest, h]

/-- The owner of the requests on a channel is in REQUESTING (R80, R104, R162). -/
def Tree.asks (T : Tree) : Tag → Prop
  | .window => ∃ w q, T.disc.state = .requesting w q
  | .probe => ∃ o pl q, T.seq.op = some o ∧ o.phase = .requesting pl q
  | .silence => ∃ p q, T.light.check = some { purpose := p, qe := q, phase := .requesting }

/-- An owner that is not in REQUESTING records nothing. -/
theorem recordEarliest_of_not_asks (h : ¬(x.tree t).asks tag) : recordEarliest t tag qe x = x := by
  cases tag with
  | window =>
    unfold recordEarliest
    cases hd : (x.tree t).disc.state with
    | requesting w q => exact absurd ⟨w, q, hd⟩ h
    | stopped | spacing | due | posted | collecting => rfl
  | probe =>
    unfold recordEarliest
    cases ho : (x.tree t).seq.op with
    | none => rfl
    | some o =>
      cases hp : o.phase with
      | requesting pl q => exact absurd ⟨o, pl, q, ho, hp⟩ h
      | held | waitDelay | posted | listening => simp only [hp]
  | silence =>
    unfold recordEarliest
    cases hc : (x.tree t).light.check with
    | none => rfl
    | some c =>
      obtain ⟨p, q, phase⟩ := c
      cases phase with
      | requesting => exact absurd ⟨p, q, hc⟩ h
      | listening => rfl

/-- An owner that is not in REQUESTING forms nothing anew. -/
theorem ownerEarliest_of_not_asks (h : ¬(s.tree t).asks tag) : ownerEarliest t tag s = none := by
  cases tag with
  | window =>
    unfold ownerEarliest
    cases hd : (s.tree t).disc.state with
    | requesting w q => exact absurd ⟨w, q, hd⟩ h
    | stopped | spacing | due | posted | collecting => rfl
  | probe =>
    unfold ownerEarliest
    cases ho : (s.tree t).seq.op with
    | none => rfl
    | some o =>
      obtain ⟨tn, inst, serial, kind, expected, stage, phase, waitStart⟩ := o
      cases phase with
      | requesting pl q => exact absurd ⟨_, pl, q, ho, rfl⟩ h
      | held | waitDelay | posted | listening => rfl
  | silence =>
    unfold ownerEarliest
    cases hc : (s.tree t).light.check with
    | none => rfl
    | some c =>
      obtain ⟨p, q, phase⟩ := c
      cases phase with
      | requesting => exact absurd ⟨p, q, hc⟩ h
      | listening => rfl

theorem asks_chanSend {tag' : Tag} : ((chanSend t tag req s).tree t).asks tag' ↔ (s.tree t).asks tag' := by
  have hblocks := sameBlocks_chanSend (s := s) (t := t) tag req
  cases tag' with
  | window => simp only [Tree.asks, hblocks.disc]
  | probe => simp only [Tree.asks, hblocks.seq]
  | silence => simp only [Tree.asks, hblocks.light]

/-- Where no owner asks, a request is sent again as it stands. -/
theorem resend_of_not_asks (h : ¬(s.tree t).asks tag) : resend t tag req s = chanSend t tag req s := by
  rw [resend, ownerEarliest_of_not_asks h, Option.getD_none]
  exact recordEarliest_of_not_asks (mt asks_chanSend.mp h)

/-- A request sent again has the figures that its owner forms anew and records (R82, R106, R158, R164). -/
theorem resend_eq (h : s.FormsAnew t tag req qe record) :
    resend t tag req s = record (chanSend t tag { req with earliest := qe } s) := by
  have hblocks := sameBlocks_chanSend (s := s) (t := t) tag { req with earliest := qe }
  cases tag with
  | window =>
    rcases h with ⟨w, q, hd, rfl, rfl⟩ | ⟨hno, rfl, rfl⟩
    · have howner : ownerEarliest t .window s = some (windowEarliest (s.params t) s.epochInt) := by
        simp only [ownerEarliest, hd]
      rw [resend, howner, Option.getD_some]
      exact recordEarliest_window ((congrArg Discovery.state hblocks.disc).trans hd)
    · exact resend_of_not_asks fun ⟨w, q, hd⟩ => hno w q hd
  | probe =>
    rcases h with ⟨o, pl, q, ho, hp, rfl, rfl⟩ | ⟨hno, rfl, rfl⟩
    · have howner : ownerEarliest t .probe s = some (probeEarliest s.epochInt pl) := by
        obtain ⟨tn, inst, serial, kind, expected, stage, phase, waitStart⟩ := o
        simp only at hp
        subst hp
        simp only [ownerEarliest, ho]
      rw [resend, howner, Option.getD_some]
      exact recordEarliest_probe ((congrArg Sequencer.op hblocks.seq).trans ho) hp
    · exact resend_of_not_asks fun ⟨o, pl, q, ho, hp⟩ => hno o pl q ho hp
  | silence =>
    rcases h with ⟨p, q, hc, rfl, rfl⟩ | ⟨hno, rfl, rfl⟩
    · have howner : ownerEarliest t .silence s = some (silenceEarliest s.epochInt) := by
        simp only [ownerEarliest, hc]
      rw [resend, howner, Option.getD_some]
      exact recordEarliest_silence ((congrArg LightMonitor.check hblocks.light).trans hc)
    · exact resend_of_not_asks fun ⟨p, q, hc⟩ => hno p q hc

theorem port_recordEarliest : (recordEarliest t tag qe x).port = x.port := by
  cases tag with
  | window =>
    unfold recordEarliest
    cases (x.tree t).disc.state <;> rfl
  | probe =>
    unfold recordEarliest
    cases (x.tree t).seq.op with
    | none => rfl
    | some o =>
      dsimp only
      cases o.phase <;> rfl
  | silence =>
    unfold recordEarliest
    cases (x.tree t).light.check with
    | none => rfl
    | some c =>
      dsimp only
      cases c.phase <;> rfl

theorem port_resend : (resend t tag req s).port = s.port := port_recordEarliest

/-- A DEFER of the awaited request waits for a later epoch, or has the request sent again (R156). -/
theorem deferTaken_awaited {d notBefore : Nat} (hp : (s.chan t tag).phase = .awaiting req d) :
    deferTaken t tag number notBefore s =
      if number ≠ (s.chan t tag).number then s
      else if s.epoch < notBefore then s.setChan t tag { phase := .deferred req notBefore, number := number }
      else resend t tag req s := by
  simp only [deferTaken, hp, ite_not]
  split
  · next hn => rw [hn]
  · rfl

theorem deferTaken_not_awaited {notBefore : Nat} (h : ∀ req d, (s.chan t tag).phase ≠ .awaiting req d) :
    deferTaken t tag number notBefore s = s := by
  cases hp : (s.chan t tag).phase with
  | awaiting req d => exact absurd hp (h req d)
  | idle | deferred | backingOff | granted => simp only [deferTaken, hp]

/-- A request that waits is sent again at its re-send epoch (R158). -/
theorem resendDue_waiting {e : Nat}
    (hp : (s.chan t tag).phase = .deferred req e ∨ (s.chan t tag).phase = .backingOff req e) :
    resendDue t tag s = if e = s.epoch then resend t tag req s else s := by
  rcases hp with hp | hp
  · simp only [resendDue, hp]
  · simp only [resendDue, hp]

theorem resendDue_not_waiting
    (h : ∀ req e, (s.chan t tag).phase ≠ .deferred req e ∧ (s.chan t tag).phase ≠ .backingOff req e) :
    resendDue t tag s = s := by
  unfold resendDue
  cases hp : (s.chan t tag).phase with
  | deferred req e => exact absurd hp (h req e).1
  | backingOff req e => exact absurd hp (h req e).2
  | idle | awaiting | granted => rfl

end

/-- Settles O26: a DEFER and a re-send epoch both come to the request sent again, as its owner forms it. -/
theorem requestsSentAgain : Obligations.RequestsSentAgain := by
  intro s t tag hs
  refine ⟨fun number notBefore req d qe record hp hforms => ?_, fun number notBefore hno => ?_,
    fun req e qe record hdue hp hforms => ?_, fun hdue hno => ?_⟩
  · have hdefer := deferTaken_awaited (number := number) (notBefore := notBefore) hp
    rw [← resend_eq hforms]
    refine take_of_same_port hs hdefer ?_
    split
    · rfl
    split
    · rfl
    · exact port_resend
  · exact take_of_same_port hs (deferTaken_not_awaited hno) rfl
  · rw [← resend_eq (s := s.taken (.resendEpoch t tag)) hforms]
    refine exec_delivery hs hdue (resendDue_waiting (s := s.taken (.resendEpoch t tag)) hp) ?_
    split
    · exact port_resend
    · rfl
  · exact exec_delivery hs hdue (resendDue_not_waiting (s := s.taken (.resendEpoch t tag)) hno) rfl

end Sys2Proof.Machine
end

section
/-! PROOF. The epoch starts of a calibration run (O29): a marker placed, and a marker without a record that fails its run (R179,
R180). -/

namespace Sys2Proof.Machine

section
variable {s : State} {t : TreeId} {r : CalRun} {e m : Nat}

/-- The arbiter has nothing left to enter once the one record of an event is entered (R191). -/
theorem settle_entering {p : Poster} {b : ReportBody} (h : ∀ i : Poster, s.port.delivered[i] = []) :
    (s.entering p b).settle = s.entering p b :=
  settle_of_entered fun i => by
    have hkept : (s.entering p b).port.delivered = s.port.delivered := enterRecord_delivered _ _
    simpa only [hkept] using h i

theorem missing_of_unpaired (hm : m ∈ r.markers.drop r.pis.length) (he : m + 4 = e) : r.missing e = true :=
  List.any_eq_true.mpr ⟨m, hm, by simpa using he⟩

theorem not_missing (h : ((r.markers.drop r.pis.length).all fun m => m + 4 ≠ e) = true) : r.missing e = false := by
  simpa [CalRun.missing] using h

theorem loopMarker_of_run (hst : (s.tree t).ctl.state = .calibrating r) :
    loopMarker t s =
      if r.missing s.epoch then runFailed t r .missing s
      else if r.start ≤ s.epoch ∧ r.markers.length < 16 then placeMarker t r s
      else s := by
  simp only [loopMarker, hst]

theorem loopMarker_idle (h : ∀ r, (s.tree t).ctl.state ≠ .calibrating r) : loopMarker t s = s := by
  unfold loopMarker
  cases hst : (s.tree t).ctl.state with
  | calibrating r => exact absurd hst (h r)
  | closed | active | closing => rfl

theorem placeMarker_eq :
    placeMarker t r s =
      s.modTree t fun T =>
        { T with
          ctl := { T.ctl with state := .calibrating { r with markers := r.markers ++ [s.epoch] } }
          out := { T.out with loops := T.out.loops ++ [s.epoch] } } := by
  simp only [placeMarker, State.setTreeState, State.modCtl, State.modOut, modTree_modTree]

/-- A failed opening enters its one report and no other, unless a window was collecting (R184). -/
theorem port_openingFailed (hentered : ∀ i : Poster, s.port.delivered[i] = []) (b : ReportBody)
    (h : ∀ w n qs gw d coll, (s.tree t).disc.state ≠ .collecting w n qs gw d coll) :
    ((openingClosed t s).report t b).settle.settle.port = (s.entering (treePoster t) b).port := by
  have hport := port_openingClosed (s := s) (t := t) h
  have hwithin := within_openingClosed (P := (· = t)) (s := s) rfl
  have hepoch : (openingClosed t s).epoch = s.epoch := by simp only [State.epoch, hwithin.timebase]
  have hclosed : ∀ i : Poster, (openingClosed t s).port.delivered[i] = [] := hport ▸ hentered
  rw [settle_report t b hclosed, settle_entering hclosed]
  simp only [State.entering, hport, hepoch]

/-- With no marker late, the run places its next one while it is short of sixteen (R179). -/
theorem loopMarker_places (hst : (s.tree t).ctl.state = .calibrating r) (hm : r.missing s.epoch = false) :
    loopMarker t s = if r.start ≤ s.epoch ∧ r.markers.length < 16 then placeMarker t r s else s := by
  rw [loopMarker_of_run hst, hm, if_neg Bool.false_ne_true]

/-- A marker without a record for four epochs fails the first run, and the second begins four epochs on (R179, R180). -/
theorem loopMarker_fails_first (hst : (s.tree t).ctl.state = .calibrating r) (hm : r.missing s.epoch = true)
    (hrun : r.run = 1) :
    loopMarker t s =
      s.setTreeState t (.calibrating (CalRun.fresh 2 (s.epoch + 4) r.restarts (some .missing))) := by
  rw [loopMarker_of_run hst, if_pos hm, runFailed, if_pos hrun]

/-- A marker without a record for four epochs fails the second run, and the opening with it (R179, R180, R184). -/
theorem loopMarker_fails_second (hst : (s.tree t).ctl.state = .calibrating r) (hm : r.missing s.epoch = true)
    (hrun : r.run = 2) :
    loopMarker t s =
      (openingClosed t s).report t
        (.tree .calibrating .closed .calFailed (s.tree t).ctl.p 2 r.restarts (some .missing) 0 0) := by
  rw [loopMarker_of_run hst, if_pos hm, runFailed, if_neg (by omega), calFailed_eq, hrun]
  rfl

end

/-- Settles O29: the run's oldest marker without a record is looked at, and where it is not late a marker is placed. -/
theorem loopMarkersPlaced : Obligations.LoopMarkersPlaced := by
  intro s t hs hdue
  refine ⟨fun r hst hall => ?_, fun r m hst hm he hrun => ?_, fun r m hst hm he hrun => ?_, fun hno => ?_⟩
  · have hplaced := loopMarker_places (s := s.taken (.loopMarkerEpoch t)) hst (not_missing hall)
    rw [placeMarker_eq] at hplaced
    exact exec_delivery hs hdue hplaced (by split <;> rfl)
  · exact exec_delivery hs hdue
      (loopMarker_fails_first (s := s.taken (.loopMarkerEpoch t)) hst (missing_of_unpaired hm he) hrun) rfl
  · have hfailed := loopMarker_fails_second (s := s.taken (.loopMarkerEpoch t)) hst (missing_of_unpaired hm he) hrun
    have hothers := (within_openingClosed (P := (· = t)) (s := s.taken (.loopMarkerEpoch t)) rfl).others
    obtain ⟨hctl, hdisc, hptr, hnext⟩ := openingClosed_tree (s := s.taken (.loopMarkerEpoch t)) (t := t)
    have hport := port_openingFailed (s := s.taken (.loopMarkerEpoch t)) (t := t) hs.entered
      (.tree .calibrating .closed .calFailed (s.tree t).ctl.p 2 r.restarts (some .missing) 0 0)
    refine ⟨_, exec_delivery_settled hs hdue, ?_⟩
    rw [show deliveryEffect (.loopMarkerEpoch t) (s.taken (.loopMarkerEpoch t)) = _ from hfailed]
    generalize openingClosed t (s.taken (.loopMarkerEpoch t)) = y at *
    exact ⟨hctl, hdisc, hptr, hnext, hothers, hport⟩
  · exact exec_delivery hs hdue (loopMarker_idle (s := s.taken (.loopMarkerEpoch t)) hno) rfl

end Sys2Proof.Machine
end

section
/-! PROOF. The end of a silence check (O37): a check that passed, a strike that moves the condition to SUSPECT whatever it was,
and a hunt that goes on from a released candidate (R165..R171). -/

namespace Sys2Proof.Machine

/-! ### The end of a check's interval (R165) -/

section
variable {s x : State} {t : TreeId} {p : Purpose} {qe qs : Int} {n : Nat}

/-- Tree `t` with no check in flight. -/
def checkOver (t : TreeId) (s : State) : State := s.modLight t fun l => { l with check := none }

theorem checkOver_tree : (checkOver t s).tree t = { s.tree t with light := { (s.tree t).light with check := none } } :=
  tree_modLight_same ..

theorem params_checkOver : (checkOver t s).params t = s.params t := by rw [State.params, checkOver_tree, State.params]

section
variable (h0 : (s.tree t).light.stale = 0)
  (hc : (s.tree t).light.check = some { purpose := p, qe := qe, phase := .listening qs n })
include h0 hc

theorem silenceEnd_of_listening : silenceEnd t s = checkEnded t p (n == 0) (checkOver t s) := by
  simp only [silenceEnd, h0, hc, ne_eq, not_true_eq_false, if_false]
  rfl

/-- The end of a listening check is acted on by its purpose, and its records are entered. -/
theorem exec_silenceEnd (hs : s.Taking) (hr : (s.tree t).routesBursts = true) :
    exec (.intervalEnd t .silence) s = .next (checkEnded t p (n == 0) (checkOver t s)).settle := by
  have hexec : exec (.intervalEnd t .silence) s = s.take (routed t (routeEnd t .silence)) := rfl
  rw [hexec, take_of_taking hs, routed_of_routes hr, ← silenceEnd_of_listening h0 hc]
  rfl

/-- The end of a listening check that changes the monitor alone. -/
theorem exec_silenceEnd_modLight (hs : s.Taking) (hr : (s.tree t).routesBursts = true) {f : LightMonitor → LightMonitor}
    (hx : checkEnded t p (n == 0) (checkOver t s) = (checkOver t s).modLight t f) :
    exec (.intervalEnd t .silence) s = .next (s.modLight t fun l => f { l with check := none }) := by
  refine take_routed hs hr (((silenceEnd_of_listening h0 hc).trans hx).trans ?_) rfl
  exact modLight_modLight _ _

end

/-! ### A check that passed (R163, R166, R169, R171) -/

/-- The condition becomes QUIET without strikes, whatever it was, and the monitor's other fields stay (R166). -/
theorem light_becomeQuiet_from_any {cause : LightCause} :
    ((becomeQuiet t cause s).tree t).light = { (s.tree t).light with light := .quiet, strikes := 0 } := by
  by_cases hq : (s.tree t).light.light = .quiet
  · have hset : ∃ b, becomeQuiet t cause s = (s.modLight t fun l => { l with light := .quiet, strikes := 0 }).report t b := by
      simp only [becomeQuiet, setLight, hq, ne_eq, not_true_eq_false, and_false, false_and, if_false]
      exact ⟨_, rfl⟩
    obtain ⟨b, hset⟩ := hset
    rw [hset, tree_report, tree_modLight_same]
  · exact light_becomeQuiet hq

/-- A passed check of a purpose other than STRIKE makes the condition QUIET and ends the hunt or the pause that asked. -/
theorem light_checkPassed (hp : p ≠ .strike) (hh : p = .hunt → (s.tree t).light.hunt ≠ none) :
    ∃ l : LightMonitor, ((checkEnded t p true s).tree t).light = { l with light := .quiet, strikes := 0 } ∧
      l.check = (s.tree t).light.check ∧ (p = .hunt → l.hunt = none) ∧ (p = .pause → l.pause = false) := by
  cases p with
  | strike => exact absurd rfl hp
  | opening => exact ⟨_, light_becomeQuiet_from_any, rfl, nofun, nofun⟩
  | pause => exact ⟨_, light_becomeQuiet_from_any, by rw [tree_modLight_same], nofun, fun _ => by rw [tree_modLight_same]⟩
  | hunt =>
    obtain ⟨h, hhunt⟩ := Option.ne_none_iff_exists'.mp (hh rfl)
    simp only [checkEnded, hhunt, if_true, huntFound, huntReport]
    exact ⟨_, light_becomeQuiet_from_any, by rw [tree_report, tree_modLight_same],
      fun _ => by rw [tree_report, tree_modLight_same], nofun⟩

end

/-! ### A failed check of purpose STRIKE (R166, R167) -/

section
variable {s r : State} {t : TreeId} {n : Nat} {cause : LightCause} {raw : Int}

/-- The tree on becoming SUSPECT from any condition. Only from QUIET is there a window to defer (R95). -/
theorem suspected_from_any (hn : n ≤ 15) : Suspected s (setLight t .suspect n cause raw (giveUpCheck t s)) t n := by
  by_cases hq : (s.tree t).light.light = .quiet
  · exact suspected_setLight hq fun _ => hn
  obtain ⟨m, hgiven⟩ := giveUpCheck_tree (s := s) (t := t)
  obtain ⟨more, hmore⟩ := (quiet_giveUpCheck (s := s) (t := t)).sent
  have hepoch : (giveUpCheck t s).epoch = s.epoch := by
    have hwithin : Within (· = t) s (giveUpCheck t s) := within_giveUpCheck rfl
    simp only [State.epoch, hwithin.timebase]
  have hset : ∃ b, setLight t .suspect n cause raw (giveUpCheck t s) =
      ((giveUpCheck t s).modLight t fun l => { l with light := .suspect, strikes := n }).report t b := by
    have hq' : ((giveUpCheck t s).tree t).light.light ≠ .quiet := by rw [hgiven.light]; exact hq
    simp only [setLight, hq', false_and, reduceCtorEq, and_false, if_false]
    exact ⟨_, rfl⟩
  obtain ⟨b, hset⟩ := hset
  rw [hset]
  generalize giveUpCheck t s = g at *
  refine ⟨⟨m, ?_⟩, ?_, ?_, ?_, ?_, ⟨more, ?_⟩, hepoch⟩
  all_goals rw [tree_report, tree_modLight_same]
  · rw [hgiven.light]
  · exact hgiven.ctl
  · exact hgiven.slots
  · exact hgiven.seq
  · have hkept : ((s.tree t).light.light == .quiet && (s.tree t).windowPosted) = false := by simp [hq]
    rw [hkept, itemsKept_none]
    exact hgiven.msgq
  · exact hmore

/-- The check that has ended is none that the condition's change could give up. -/
theorem Suspected.of_checkOver (h : Suspected (checkOver t s) r t n) : Suspected s r t n := by
  obtain ⟨hlight, hctl, hslots, hseq, hmsgq, hsent, hepoch⟩ := h
  rw [checkOver_tree] at hlight hctl hslots hseq hmsgq hsent
  exact ⟨hlight, hctl, hslots, hseq, hmsgq, hsent, hepoch⟩

/-- A tree that has become SUSPECT starts its hunt (R167, R168). -/
theorem Suspected.starts (h : Suspected s r t n) :
    ((startHunt t r).tree t).light.light = .suspect ∧ ((startHunt t r).tree t).light.strikes = n ∧
      ((startHunt t r).tree t).light.check = none ∧ s.HuntStarted (startHunt t r) t := by
  simp only [State.HuntStarted]
  cases hc : (s.tree t).candidates with
  | nil =>
    obtain ⟨hunresolved, hposted, m, hlight⟩ := startHunt_none h hc
    rw [hlight]
    exact ⟨rfl, rfl, rfl, hunresolved, hposted⟩
  | cons x rest =>
    obtain ⟨hbegun, m, hunt, hlight⟩ := startHunt_first h hc
    rw [hlight]
    exact ⟨rfl, rfl, rfl, hbegun⟩

theorem struck_checkOver : ((checkOver t s).tree t).light.struck = min 15 ((s.tree t).light.strikes + 1) := by
  rw [checkOver_tree]
  rfl

/-- A strike below the limit is counted (R166). -/
theorem strikeFailed_below (h : min 15 ((s.tree t).light.strikes + 1) < (s.params t).strikeLimit) :
    checkEnded t .strike false (checkOver t s) =
      (checkOver t s).modLight t fun l => { l with strikes := min 15 (l.strikes + 1) } := by
  have hbelow : ¬(s.params t).strikeLimit ≤ min 15 ((s.tree t).light.strikes + 1) := Nat.not_le_of_lt h
  simp only [checkEnded, strikeFailed, struck_checkOver, params_checkOver, if_neg hbelow]
  exact modLight_congr (by rw [checkOver_tree])

/-- The strike that reaches the limit makes the condition SUSPECT (R166, R167). -/
theorem strikeFailed_at_limit (h : (s.params t).strikeLimit ≤ min 15 ((s.tree t).light.strikes + 1)) :
    checkEnded t .strike false (checkOver t s) =
      startHunt t
        (setLight t .suspect (min 15 ((s.tree t).light.strikes + 1)) .strikes 0 (giveUpCheck t (checkOver t s))) := by
  simp only [checkEnded, strikeFailed, struck_checkOver, params_checkOver, if_pos h, becomeSuspect]

end

/-! ### A failed check of purpose HUNT (R169..R171) -/

section
variable {s r q : State} {t : TreeId} {c x : Candidate} {e : Entry} {h : Hunt} {l skipped rest : List Candidate}

/-- The entry of a candidate is MUTED by the hunt under the candidate's number, its release not yet marked (R170). -/
def mutedByHunt (t : TreeId) (c : Candidate) (s : State) : Bool :=
  ((s.entry? t c.tn).map fun e => decide (e.inst = c.inst ∧ e.state = .muted (.hunt false))).getD false

theorem mutedByHunt_iff :
    mutedByHunt t c s = true ↔ ∃ e, s.entry? t c.tn = some e ∧ e.inst = c.inst ∧ e.state = .muted (.hunt false) := by
  cases he : s.entry? t c.tn with
  | none => simp [mutedByHunt, he]
  | some e => simp [mutedByHunt, he]

/-- A candidate that is no longer muted by the hunt has nothing to be released from (R170). -/
theorem huntRelease_of_not_muted (hm : mutedByHunt t c s = false) : huntRelease t c s = s := by
  unfold huntRelease
  cases he : s.entry? t c.tn with
  | none => rfl
  | some e =>
    refine if_neg fun ⟨hi, hst⟩ => ?_
    have hmuted : mutedByHunt t c s = true := mutedByHunt_iff.mpr ⟨e, he, hi, by simpa [Entry.huntMuted] using hst⟩
    rw [hm] at hmuted
    cases hmuted

/-- The queue and what the entries owe once the UNMUTE of a candidate muted by the hunt has been posted (R170). -/
def releasePosted (t : TreeId) (c : Candidate) (s : State) : State :=
  if mutedByHunt t c s then (postMust t c.tn (.unmute c.tn) .registry s).state else s

/-- What the release of a hunt's candidate, its check over, leaves in `r` of `s`, with what `q` holds posted (R169, R170). -/
structure Released (t : TreeId) (s q r : State) : Prop where
  light  : (r.tree t).light = { (s.tree t).light with check := none }
  ctl    : (r.tree t).ctl = (s.tree t).ctl
  epoch  : r.epoch = s.epoch
  offers : ∀ x, r.offers t x = s.offers t x
  sent   : (r.tree t).out.grant = (s.tree t).out.grant
  posts  : PostsAlike t r q
  op     : (r.tree t).seq.op = (q.tree t).seq.op

theorem entry?_checkOver (k : Nat) : (checkOver t s).entry? t k = s.entry? t k := State.entry?_modLight _ _ _

/-- A release marks its candidate and leaves it MUTED (R170). -/
theorem huntRelease_identity (he : s.entry? t c.tn = some e) (hi : e.inst = c.inst) (hm : e.state = .muted (.hunt false)) :
    ((huntRelease t c (checkOver t s)).entry? t c.tn).map Entry.identity =
      some (e.inst, e.serial, .muted (.hunt true)) := by
  have he' : (checkOver t s).entry? t c.tn = some e := (entry?_checkOver _).trans he
  rw [huntRelease_of_muted he' hi hm]
  exact released_identity he'

theorem idle_of_muted_identity {k : Nat} {i : BitVec 16} {serial : Serial} {cause : MuteCause}
    (hid : (r.entry? t k).map Entry.identity = some (i, serial, .muted cause)) :
    ∀ y, r.entry? t k = some y → y.operating = false := by
  intro y hy
  rw [hy] at hid
  obtain ⟨-, -, hst⟩ : y.inst = i ∧ y.serial = serial ∧ y.state = .muted cause := by
    simpa [Entry.identity] using hid
  simp [Entry.operating, hst]

/-- A released candidate is offered as little as before, and every other as before. -/
theorem offers_huntRelease (he : s.entry? t c.tn = some e) (hi : e.inst = c.inst) (hm : e.state = .muted (.hunt false)) :
    (huntRelease t c (checkOver t s)).offers t x = s.offers t x := by
  by_cases hx : x.tn = c.tn
  · have hbefore : ∀ y, s.entry? t x.tn = some y → y.operating = false := fun y hy => by
      obtain rfl : e = y := Option.some.inj (he.symm.trans (hx ▸ hy))
      simp [Entry.operating, hm]
    rw [offers_of_idle hbefore, offers_of_idle (hx ▸ idle_of_muted_identity (huntRelease_identity he hi hm))]
  · refine offers_of_identity ?_
    rw [huntRelease_of_muted ((entry?_checkOver _).trans he) hi hm, (calm_postMust _ _ _).identity, State.entry?,
      tree_modEntry_same, entry?_modEntry_other _ _ _ _ hx]
    exact congrArg _ (entry?_checkOver _)

theorem postsAlike_checkOver : PostsAlike t (checkOver t s) s :=
  .of_slots (by rw [checkOver_tree]) (by rw [checkOver_tree])

/-- The release of a hunt's candidate whose check is over. -/
theorem released_huntRelease : Released t s (releasePosted t c s) (huntRelease t c (checkOver t s)) := by
  by_cases hm : mutedByHunt t c s = true
  · obtain ⟨e, he, hi, hst⟩ := mutedByHunt_iff.mp hm
    have hrelease := huntRelease_of_muted ((entry?_checkOver (s := s) _).trans he) hi hst
    have hcalm := calm_postMust (s := (checkOver t s).modEntry t c.tn fun e => { e with state := .muted (.hunt true) })
      (t := t) c.tn (.unmute c.tn) .registry
    have hposted : releasePosted t c s = (postMust t c.tn (.unmute c.tn) .registry s).state := if_pos hm
    refine ⟨?_, ?_, ?_, fun x => offers_huntRelease he hi hst, ?_, ?_, ?_⟩
    · rw [light_huntRelease, checkOver_tree]
    · rw [hrelease, (hcalm.trees t).ctl, tree_modEntry_same, ctl_modEntry, checkOver_tree]
    · rw [hrelease, hcalm.epoch]
      rfl
    · rw [hrelease, grant_postMust, tree_modEntry_same, out_modEntry, checkOver_tree]
    · rw [hrelease, hposted]
      exact ((postsAlike_setState _).trans postsAlike_checkOver).postMust _ _
    · rw [hrelease, hposted, seq_postMust, seq_postMust, tree_modEntry_same, seq_modEntry, checkOver_tree]
  · have hm : mutedByHunt t c s = false := by simpa using hm
    have hm' : mutedByHunt t c (checkOver t s) = false := by rw [mutedByHunt, entry?_checkOver]; exact hm
    have hposted : releasePosted t c s = s := if_neg (by simp [hm])
    rw [huntRelease_of_not_muted hm', hposted]
    refine ⟨?_, ?_, rfl, fun x => ?_, ?_, postsAlike_checkOver, ?_⟩
    · rw [checkOver_tree]
    · rw [checkOver_tree]
    · rw [State.offers, entry?_checkOver, State.offers]
    · rw [checkOver_tree]
    · rw [checkOver_tree]

/-- With no candidate left to offer, the hunt ends UNRESOLVED (R171). -/
theorem Released.unresolved (hr : Released t s q r) (hnone : ∀ x ∈ l, s.offers t x = false) :
    s.HuntUnresolved (huntNext t h l r) t ∧ (huntNext t h l r).PostedAs q t := by
  have hskips := huntNext_skips (h := h) (l := []) fun x hx => (hr.offers x).trans (hnone x hx)
  have hparams : r.params t = s.params t := congrArg Controller.params hr.ctl
  rw [List.append_nil] at hskips
  rw [hskips, huntNext, huntUnresolved, huntReport, hr.epoch, hparams]
  refine ⟨⟨?_, ?_, ?_⟩, ?_⟩
  · rw [tree_report, tree_modLight_same]
  · rw [tree_report, tree_modLight_same]
  · rw [tree_report, tree_modLight_same]
  · exact PostedAs_trans t (quiet_report _).posted (PostedAs_trans t (quiet_modLight _).posted hr.posts.postedAs)

/-- The step of the next candidate still OPERATING begins, those before it skipped (R168, R169). -/
theorem Released.begins (hr : Released t s q r) (hskip : ∀ y ∈ skipped, s.offers t y = false)
    (hx : s.offers t x = true) :
    ((huntNext t h (skipped ++ x :: rest) r).tree t).light.check = none ∧
      s.StepBegun q (huntNext t h (skipped ++ x :: rest) r) t
        { h with rest := rest, current := x, step := .muting, skipped := h.skipped + skipped.length } x := by
  have hoffered : r.offers t x = true := (hr.offers x).trans hx
  obtain ⟨e, he, hi, ho⟩ := entry?_of_offers hoffered
  rw [huntNext_skips fun y hy => (hr.offers y).trans (hskip y hy), huntNext_first hoffered]
  generalize hy : r.modLight t _ = y
  have hytree : ∃ m, y.tree t = { r.tree t with light := m } ∧ m.check = none ∧
      m.hunt = some { h with rest := rest, current := x, step := .muting, skipped := h.skipped + skipped.length } :=
    ⟨_, by rw [← hy, tree_modLight_same], by rw [hr.light], rfl⟩
  obtain ⟨m, hytree, hcheck, hhunt⟩ := hytree
  have hye : y.entry? t x.tn = some e := (entry?_of_slots (by rw [hytree]) _).trans he
  refine ⟨?_, huntMute_begun ?_ hye hi ho ⟨[], ?_⟩ ?_ (probePosted_of_op ?_ _)⟩
  · rw [light_huntMute hye, hytree]
    exact hcheck
  · rw [hytree]
    exact hhunt
  · rw [hytree, List.append_nil]
    exact hr.sent
  · exact (PostsAlike.of_slots (by rw [hytree]) (by rw [hytree])).trans hr.posts
  · rw [hytree]
    exact hr.op

/-- A failed check of a hunt releases its candidate and goes on to the next one, with one more checked (R169). -/
theorem huntFailed_eq (hh : (s.tree t).light.hunt = some h) :
    checkEnded t .hunt false (checkOver t s) =
      huntNext t { h with checked := h.checked + 1 } h.rest (huntRelease t h.current (checkOver t s)) := by
  have hh' : ((checkOver t s).tree t).light.hunt = some h := by rw [checkOver_tree]; exact hh
  simp only [checkEnded, hh', Bool.false_eq_true, if_false, huntNotThis]

/-- The candidate that a failed check releases stays MUTED with its release marked, whatever the hunt does next (R170). -/
theorem huntFailed_identity (hh : (s.tree t).light.hunt = some h) (he : s.entry? t h.current.tn = some e)
    (hi : e.inst = h.current.inst) (hm : e.state = .muted (.hunt false)) :
    ((checkEnded t .hunt false (checkOver t s)).entry? t h.current.tn).map Entry.identity =
      some (e.inst, e.serial, .muted (.hunt true)) := by
  have hreleased := huntRelease_identity he hi hm
  rw [huntFailed_eq hh]
  exact (identity_huntNext (idle_of_muted_identity hreleased)).1.trans hreleased

/-- The entry of records reads and writes nothing of a tree (R191). -/
theorem State.StepBegun.settle (hb : s.StepBegun q r t h x) : s.StepBegun q r.settle t h x := by
  obtain ⟨hhunt, hmuted, hair, hidles, hposted⟩ := hb
  exact ⟨hhunt, hmuted, hair, hidles, hposted⟩

theorem State.HuntUnresolved.settle (hu : s.HuntUnresolved r t) : s.HuntUnresolved r.settle t := by
  obtain ⟨hhunt, hpause, hnext⟩ := hu
  exact ⟨hhunt, hpause, hnext⟩

end

/-- Settles O37: the check is over whatever it heard, and its purpose and its outcome say what comes of it. -/
theorem silenceChecksEnd : Obligations.SilenceChecksEnd := by
  intro s t p qe qs n hs hr h0 hc
  have hexec := exec_silenceEnd h0 hc hs hr
  have hmod := fun f => exec_silenceEnd_modLight h0 hc hs hr (f := f)
  have hfailed : n ≠ 0 → (n == 0) = false := beq_eq_false_iff_ne.mpr
  refine ⟨fun hn hp hh => ?_, fun hn hp => ?_, fun hn hp => ?_, fun hn hp hlim => ?_, fun hn hp hlim => ?_, fun hn hp => ?_,
    fun h q hn hp hh hq => ?_⟩
  · subst hn
    have hhunt : p = .hunt → ((checkOver t s).tree t).light.hunt ≠ none := fun hp => by
      rw [checkOver_tree]
      exact hh hp
    obtain ⟨l, hlight, hcheck, hover, hpause⟩ := light_checkPassed hp hhunt
    refine ⟨_, hexec, ?_⟩
    rw [tree_settle, show (0 == 0) = true from rfl, hlight]
    refine ⟨rfl, rfl, ?_, hover, hpause⟩
    rw [hcheck, checkOver_tree]
  · subst hn hp
    have hpassed : checkEnded t .strike (0 == 0) (checkOver t s) =
        (checkOver t s).modLight t fun l => { l with strikes := 0 } := rfl
    exact hmod _ hpassed
  · subst hp
    rw [hfailed hn] at hmod
    have hopening : checkEnded t .opening false (checkOver t s) =
        (checkOver t s).modLight t fun l => { l with nextCheck := some (s.epoch + 16) } := rfl
    exact hmod _ hopening
  · subst hp
    rw [hfailed hn] at hmod
    exact hmod _ (strikeFailed_below hlim)
  · subst hp
    rw [hfailed hn] at hexec
    have hsuspected := suspected_from_any (s := checkOver t s) (t := t) (cause := .strikes) (raw := 0)
      (Nat.min_le_left 15 ((s.tree t).light.strikes + 1))
    obtain ⟨hlight, hstrikes, hcheck, hstarted⟩ := hsuspected.of_checkOver.starts
    rw [strikeFailed_at_limit hlim] at hexec
    generalize startHunt t _ = r at *
    exact ⟨_, hexec, hlight, hstrikes, hcheck, hstarted.settle⟩
  · subst hp
    rw [hfailed hn] at hmod
    have hpaused : checkEnded t .pause false (checkOver t s) =
        (checkOver t s).modLight t fun l => { l with nextCheck := some (s.epoch + (s.params t).huntPause) } := by
      simp only [checkEnded, params_checkOver]
      rfl
    exact hmod _ hpaused
  · subst hp
    obtain rfl : q = releasePosted t h.current s := hq
    rw [hfailed hn] at hexec
    refine ⟨fun e he hi hm => ⟨_, hexec, huntFailed_identity hh he hi hm⟩, fun hnone => ?_,
      fun skipped x rest hrest hskip hx => ?_⟩
    · obtain ⟨hunresolved, hposted⟩ := released_huntRelease.unresolved (h := { h with checked := h.checked + 1 }) hnone
      rw [huntFailed_eq hh] at hexec
      exact ⟨_, hexec, hunresolved.settle, hposted⟩
    · have hbegins := (released_huntRelease (c := h.current)).begins (h := { h with checked := h.checked + 1 }) (rest := rest)
        hskip hx
      rw [← hrest, ← huntFailed_eq hh] at hbegins
      obtain ⟨hcheck, hbegun⟩ := hbegins
      exact ⟨_, hexec, hcheck, hbegun.settle⟩

end Sys2Proof.Machine
end

section
/-! PROOF. Ranging and launch delay: an operation in HELD goes on (O24, R105..R107), and the figures of a measurement and of a
correction (O44, R99..R102). -/

namespace Sys2Proof.Machine

/-! ### An operation in HELD (R105, R106) -/

section
variable {s : State} {t : TreeId} {o : ProbeOp} {e : Entry}

/-- Between HELD and REQUESTING the wait start is kept (R145). -/
theorem waitFrom_of_held (hp : o.phase = .held) (n : Nat) : o.waitFrom n = o.waitStart := by
  simp only [ProbeOp.waitFrom, hp]

/-- The operation in flight put back as it is changes nothing. -/
theorem setOp_self (ho : (s.tree t).seq.op = some o) : s.setOp t (some o) = s := by
  rw [State.setOp, State.modSeq, modTree_self]
  rw [← ho]

/-- Where no delay message stands, an operation that measures an entry with a round trip is requested, its reference floor
behind the entry's apply lag (R105). -/
theorem beginAttempt_requested (he : s.entry? t o.tn = some e) (hstage : o.stage = .measure) (hrrt : e.rrt ≠ none)
    (hd : (s.tree t).delayStands o.tn e = false) :
    beginAttempt t o s = sendProbe t o (placementOf (s.params t) e (s.epochInt + e.profile.la.value + 2)) s := by
  have hsome : e.rrt.isNone = false := by rwa [Option.isNone_eq_false_iff, Option.isSome_iff_ne_none]
  simp only [beginAttempt, he, hstage, hsome, hd, Bool.false_eq_true, if_false]

/-- From HELD an attempt is requested with the wait start it had (R106, R145). -/
theorem sendProbe_of_held (hp : o.phase = .held) (pl : Placement) :
    sendProbe t o pl s =
      (chanSend t .probe { kind := .quiet, length := pl.length, earliest := probeEarliest s.epochInt pl } s).setOp t
        (some { o with phase := .requesting pl (probeEarliest s.epochInt pl) }) := by
  simp only [sendProbe, waitFrom_of_held hp]

theorem heldRecheck_of_held (ho : (s.tree t).seq.op = some o) (hp : o.phase = .held) :
    heldRecheck t s = beginAttempt t o s := by
  simp only [heldRecheck, ho, hp]

/-- While a delay message stands, the operation stays in HELD, its wait start kept (R105, R145). -/
theorem heldRecheck_stays (ho : (s.tree t).seq.op = some o) (hp : o.phase = .held) (hstage : o.stage = .measure)
    (he : s.entry? t o.tn = some e) (hrrt : e.rrt ≠ none) (hd : (s.tree t).delayStands o.tn e = true) :
    heldRecheck t s = s := by
  have hsame : { o with phase := .held, waitStart := o.waitStart } = o := by rw [← hp]
  rw [heldRecheck_of_held ho hp, beginAttempt_held he hstage hrrt hd, waitFrom_of_held hp, hsame, setOp_self ho]

/-- Once no delay message stands, the attempt is placed from the epoch just started and requested (R105, R106). -/
theorem heldRecheck_requests (ho : (s.tree t).seq.op = some o) (hp : o.phase = .held) (hstage : o.stage = .measure)
    (he : s.entry? t o.tn = some e) (hrrt : e.rrt ≠ none) (hd : (s.tree t).delayStands o.tn e = false) :
    heldRecheck t s = sendProbe t o (placementOf (s.params t) e (s.epochInt + e.profile.la.value + 2)) s := by
  rw [heldRecheck_of_held ho hp, beginAttempt_requested he hstage hrrt hd]

theorem heldRecheck_of_not_held (h : ∀ o, (s.tree t).seq.op = some o → o.phase ≠ .held) : heldRecheck t s = s := by
  unfold heldRecheck
  cases ho : (s.tree t).seq.op with
  | none => rfl
  | some o =>
    cases hp : o.phase with
    | held => exact absurd hp (h o ho)
    | waitDelay | requesting | posted | listening => simp only [hp]

end

/-- Settles O24: a delay message that stands keeps the operation in HELD, and without one its attempt is requested. -/
theorem heldOperationsGoOn : Obligations.HeldOperationsGoOn := by
  intro s t hs hdue
  refine ⟨fun o e ho hp hstage he hrrt => ?_, fun hno => ?_⟩
  · split
    · next hd => exact exec_delivery hs hdue (heldRecheck_stays (s := s.taken (.heldRecheck t)) ho hp hstage he hrrt hd) rfl
    · next hd =>
      have hrequests := heldRecheck_requests (s := s.taken (.heldRecheck t)) ho hp hstage he hrrt (eq_false_of_ne_true hd)
      rw [sendProbe_of_held hp] at hrequests
      exact exec_delivery hs hdue hrequests rfl
  · exact exec_delivery hs hdue (heldRecheck_of_not_held (s := s.taken (.heldRecheck t)) hno) rfl

/-! ### Launch delay and residual (R99..R102) -/

/-- A launch delay that is not below the near limit rounds to no negative bt (R98, R100). -/
theorem roundBt_nonneg {x : Int} (h : -8 ≤ x) : 0 ≤ roundBt x := by
  simp only [roundBt]
  omega

/-- A measurement is of the round trip it was given, and its launch delay and residual bring that round trip to ART exactly
(R100). -/
theorem measure_aligns {pr : Params} {prof : Profile} {rrt x : Int} {ld : Nat} {r : Int}
    (h : measure pr prof rrt = .value x ld r) : x = rrt ∧ 16 * (ld : Int) + r + rrt = 16 * (pr.art : Int) := by
  unfold measure at h
  split at h
  · simp only at h
    split at h
    · cases h
    · next hnear =>
      simp only [Measured.value.injEq] at h
      obtain ⟨rfl, rfl, rfl⟩ := h
      rw [Int.toNat_of_nonneg (roundBt_nonneg (not_lt.mp hnear))]
      exact ⟨rfl, by omega⟩
  · cases h

/-- A correction takes the average from 16·LD + r and nothing more (R102). -/
theorem correct_moves (ld r a : Int) : 16 * (correct ld r a).ld + (correct ld r a).r = 16 * ld + r - a :=
  add_sub_cancel _ _

/-- A correction by an average within 16·N - 8 changes the launch delay by at most N: both residuals lie in -8..7 (R102). -/
theorem correct_change_le {ld r a : Int} {n : Nat} (hr : -8 ≤ r ∧ r ≤ 7) (ha : (a.natAbs : Int) ≤ 16 * n - 8) :
    (correct ld r a).change.natAbs ≤ n := by
  have hmoves := correct_moves ld r a
  have hresidual := correct_residual ld r a
  have hchange : (correct ld r a).change = (correct ld r a).ld - ld := rfl
  omega

/-- Settles O44: the rounding leaves a residual in -8..7 and loses nothing. -/
theorem rangingAligns : Obligations.RangingAligns := by
  refine ⟨fun pr prof rrt x ld r h => ?_, fun ld r a wout n hlo hhi ha hwout => ?_⟩
  · obtain ⟨hx, haligned⟩ := measure_aligns h
    obtain ⟨hleast, hmost⟩ := measure_residual h
    exact ⟨hx, haligned, hleast, hmost, measure_ld_le h⟩
  · obtain ⟨hleast, hmost⟩ := correct_residual ld r a
    have hwithin : (a.natAbs : Int) ≤ 16 * n - 8 := (Int.ofNat_le.mpr ha).trans hwout
    exact ⟨correct_moves ld r a, hleast, hmost, rfl, correct_change_le ⟨hlo, hhi⟩ hwithin⟩

end Sys2Proof.Machine
end

section
/-! PROOF. The task queue family: Law 10 through every step (O7), the audits that a sweep queues (O23, R148), and the
suspension of a tree (O57, R147). -/

namespace Sys2Proof.Machine

/-! ### The task list (R137, Law 10) -/

/-- Settles O7: Law 10 is one of the laws of a tree that every step keeps. -/
theorem taskLawKept : Obligations.TaskLawKept := fun _ _ hlawful h => (step_lawsKept h).tasks hlawful

/-! ### An AUDIT asked for where it stays in the list (R139, R143) -/

/-- A tree on which an AUDIT asked for stays in the list: it is not CLOSING, takes no task now, and no entry of it waits for
room (R139, R141, R143). -/
structure Tree.HoldsAudits (T : Tree) : Prop where
  notClosing : T.isClosing = false
  busy       : T.gateOpen = false ∨ T.seq.op ≠ none
  settled    : ∀ tn e, T.entry? tn = some e → e.waiting = false

/-- The task that a sweep asks for (R148). -/
def auditOf (x : Nat × BitVec 16) : Task := { tn := x.1, inst := x.2, kind := .audit }

/-- The sequencer once a sweep has queued an audit for each target, its pointer at the last of them (R148). -/
def Sequencer.swept (targets : List (Nat × BitVec 16)) (q : Sequencer) : Sequencer :=
  { q with tasks := q.tasks ++ targets.map auditOf, sweepPtr := (targets.map Prod.fst).getLastD q.sweepPtr }

/-- The TNs of a list that a sweep does not pass over, with the instances of their entries (R148). -/
def Tree.sweepTargets (T : Tree) (l : List Nat) : List (Nat × BitVec 16) :=
  l.filterMap fun tn => (T.sweepable tn).map fun e => (tn, e.inst)

section
variable {s : State} {t : TreeId} {T : Tree} {tn : Nat} {e : Entry} {l : List Nat} {x : Nat × BitVec 16}
  {targets : List (Nat × BitVec 16)}

/-- An entry that the sweep does not pass over stands in the table, and no task stands for its TN (R148). -/
theorem entry?_of_sweepable (h : T.sweepable tn = some e) :
    T.entry? tn = some e ∧ T.seq.tasks.find? (fun k => k.tn = tn) = none := by
  unfold Tree.sweepable at h
  split at h
  · cases h
  · next y hy =>
    split at h
    · next hfree =>
      simp only [Bool.and_eq_true, Bool.not_eq_true', List.any_eq_false] at hfree
      obtain ⟨⟨-, htasks⟩, -⟩ := hfree
      exact ⟨hy.trans h, List.find?_eq_none.mpr (by simpa using htasks)⟩
    · cases h

/-- With room in the list a NORMAL task for an entry without a task is added at the tail and stays there (R139, R143). -/
theorem addTask_normal {k : Task} (hT : (s.tree t).HoldsAudits) (hk : k.urgent = false)
    (he : (s.tree t).sweepable k.tn = some e) (hroom : (s.tree t).seq.tasks.length < 16) :
    addTask t k s = { state := s.setTasks t ((s.tree t).seq.tasks ++ [k]), answer := .added } := by
  obtain ⟨hentry, hnone⟩ := entry?_of_sweepable he
  have hwaits : ((s.entry? t k.tn).map (·.waiting)).getD false = false := by
    rw [State.entry?, hentry]
    exact hT.settled k.tn e hentry
  have hjudged : judgeTask t k s = { state := s.setTasks t ((s.tree t).seq.tasks ++ [k]), answer := .added } := by
    simp only [judgeTask, hT.notClosing, hwaits, hnone, if_pos hroom, hk, Bool.false_eq_true, if_false]
  have hstays : ((s.setTasks t ((s.tree t).seq.tasks ++ [k])).tree t).mayTake = false := by
    rw [State.setTasks, tree_modSeq_same]
    exact mayTake_of_busy hT.busy
  rw [addTask, hjudged, takeTasks_of_not_mayTake hstays]

/-! ### The visits of a sweep (R148) -/

theorem swept_nil (q : Sequencer) : q.swept [] = q := by simp [Sequencer.swept]

theorem swept_cons (q : Sequencer) : (q.swept [x]).swept targets = q.swept (x :: targets) := by
  simp only [Sequencer.swept, List.map_cons, List.map_nil, List.append_assoc, List.singleton_append, List.getLastD_cons,
    List.getLastD_nil]

/-- A queued audit leaves the tree one that holds what is asked of it next. -/
theorem Tree.HoldsAudits.swept (h : T.HoldsAudits) : Tree.HoldsAudits { T with seq := T.seq.swept targets } :=
  ⟨h.notClosing, h.busy, h.settled⟩

/-- An audit queued for one TN leaves the choice of every other TN as it was. -/
theorem sweepable_swept (h : tn ≠ x.1) : Tree.sweepable { T with seq := T.seq.swept [x] } tn = T.sweepable tn := by
  have hentry : Tree.entry? { T with seq := T.seq.swept [x] } tn = T.entry? tn := entry?_of_slots rfl tn
  have htasks : (T.seq.swept [x]).tasks.any (fun k => k.tn == tn) = T.seq.tasks.any fun k => k.tn == tn := by
    simp [Sequencer.swept, auditOf, h.symm]
  have hop : (T.seq.swept [x]).op = T.seq.op := rfl
  simp only [Tree.sweepable, hentry, htasks, hop]

theorem sweepTargets_swept (h : x.1 ∉ l) :
    Tree.sweepTargets { T with seq := T.seq.swept [x] } l = T.sweepTargets l :=
  List.filterMap_congr fun tn htn => by rw [sweepable_swept (ne_of_mem_of_not_mem htn h)]

theorem modSeq_swept_nil : s.modSeq t (Sequencer.swept []) = s := modTree_self (by rw [swept_nil])

theorem modSeq_swept_cons :
    (s.modSeq t (Sequencer.swept [x])).modSeq t (Sequencer.swept targets) =
      s.modSeq t (Sequencer.swept (x :: targets)) := by
  rw [State.modSeq, State.modSeq, modTree_modTree]
  exact modTree_congr (by simp only [swept_cons])

/-- A visit of a TN that is not passed over queues its audit and goes on with one audit fewer to queue (R148). -/
theorem sweepVisit_chosen (hT : (s.tree t).HoldsAudits) (he : (s.tree t).sweepable tn = some e)
    (hroom : (s.tree t).seq.tasks.length < 16) (n : Nat) :
    sweepVisit t (tn :: l) (n + 1) s = sweepVisit t l n (s.modSeq t (Sequencer.swept [(tn, e.inst)])) := by
  have hadded : addTask t { tn := tn, inst := e.inst, kind := .audit } s =
      { state := s.setTasks t ((s.tree t).seq.tasks ++ [auditOf (tn, e.inst)]), answer := .added } :=
    addTask_normal hT rfl he hroom
  have hqueued : (s.setTasks t ((s.tree t).seq.tasks ++ [auditOf (tn, e.inst)])).modSeq t
      (fun q => { q with sweepPtr := tn }) = s.modSeq t (Sequencer.swept [(tn, e.inst)]) := by
    rw [State.setTasks, State.modSeq, State.modSeq, modTree_modTree]
    exact modTree_congr rfl
  simp only [sweepVisit, he, hadded, hqueued]

/-- The visits queue an audit for each of the first `n` TNs that are not passed over (R148). -/
theorem sweepVisit_eq (hT : (s.tree t).HoldsAudits) (hl : l.Nodup) {n : Nat}
    (hroom : (s.tree t).seq.tasks.length + n ≤ 16) :
    sweepVisit t l n s = s.modSeq t (Sequencer.swept (((s.tree t).sweepTargets l).take n)) := by
  induction l generalizing n s with
  | nil => simp [sweepVisit, Tree.sweepTargets, modSeq_swept_nil]
  | cons tn rest ih =>
    obtain ⟨hfresh, hrest⟩ := List.nodup_cons.mp hl
    cases n with
    | zero => simp [sweepVisit, modSeq_swept_nil]
    | succ n =>
      cases he : (s.tree t).sweepable tn with
      | none =>
        have htargets : (s.tree t).sweepTargets (tn :: rest) = (s.tree t).sweepTargets rest := by
          simp [Tree.sweepTargets, he]
        simp only [sweepVisit, he, htargets]
        exact ih hT hrest hroom
      | some e =>
        have htargets : (s.tree t).sweepTargets (tn :: rest) = (tn, e.inst) :: (s.tree t).sweepTargets rest := by
          simp [Tree.sweepTargets, he]
        have htree := tree_modSeq_same s t (Sequencer.swept [(tn, e.inst)])
        have hlater := ih (n := n) (s := s.modSeq t (Sequencer.swept [(tn, e.inst)])) (htree ▸ hT.swept) hrest
          (by rw [htree]; simp [Sequencer.swept]; omega)
        rw [sweepVisit_chosen hT he (by omega), hlater, htree, sweepTargets_swept hfresh, htargets, List.take_succ_cons,
          modSeq_swept_cons]

/-- Every TN is visited once (R148). -/
theorem nodup_sweepOrder (ptr : Nat) : (sweepOrder ptr).Nodup := by
  have hall : allTns.Nodup := List.nodup_range.map fun _ _ h => by simpa using h
  refine (hall.filter _).append (hall.filter _) fun tn hbehind hbefore => ?_
  simp only [List.mem_filter, decide_eq_true_eq] at hbehind hbefore
  omega

theorem sweepDue_of_other (h : (s.tree t).seq.nextSweep ≠ some s.epoch) : sweepDue t s = s := if_neg h

/-- At the next sweep epoch the sweep queues its audits, moves its pointer and is due again a period later (R148). -/
theorem sweepDue_reached (h : (s.tree t).seq.nextSweep = some s.epoch) (hT : (s.tree t).HoldsAudits)
    (hroom : (s.tree t).seq.tasks.length + (s.params t).batch ≤ 16) :
    sweepDue t s =
      s.modSeq t fun q =>
        { q.swept (((s.tree t).sweepTargets (sweepOrder (s.tree t).seq.sweepPtr)).take (s.params t).batch) with
          nextSweep := some (s.epoch + (s.params t).sweepPeriod) } := by
  have htree := tree_modSeq_same s t fun q => { q with nextSweep := some (s.epoch + (s.params t).sweepPeriod) }
  rw [sweepDue, if_pos h, sweepVisit_eq (by rw [htree]; exact ⟨hT.notClosing, hT.busy, hT.settled⟩) (nodup_sweepOrder _)
    (by rw [htree]; exact hroom), htree, State.modSeq, State.modSeq, modTree_modTree]
  rfl

end

/-- Settles O23: where nothing is taken and the list has room, every visit that is not passed over adds its audit. -/
theorem sweepsQueueAudits : Obligations.SweepsQueueAudits := by
  intro s t hs hdue
  refine ⟨fun targets hnext hopen hbusy hwait hroom htargets => ?_, fun hother => ?_⟩
  · subst htargets
    exact exec_delivery hs hdue (sweepDue_reached (s := s.taken (.auditSweep t)) hnext ⟨hopen, hbusy, hwait⟩ hroom) rfl
  · exact exec_delivery hs hdue (sweepDue_of_other (s := s.taken (.auditSweep t)) hother) rfl

/-! ### TREE_SUSPEND and TREE_RESUME (R147) -/

/-- The part once tree `t` has been resumed: the suspended flag cleared, then window starting and task taking judged
(R147). -/
def resumed (t : TreeId) (s : State) : State := takeTasks t (startWindow t (setSuspended t false s))

section
variable {s : State} {t : TreeId} {tag tree : Byte}

theorem gateOpen_of_stopped {T : Tree} (h : T.isActive = false ∨ T.light.light ≠ .quiet) : T.gateOpen = false := by
  rcases h with h | h <;> simp [Tree.gateOpen, h]

/-- A resumed tree whose gate stays closed starts nothing (R81, R143). -/
theorem resumed_waits (h : (s.tree t).isActive = false ∨ (s.tree t).light.light ≠ .quiet) :
    resumed t s = s.modCtl t fun c => { c with suspended := false } := by
  have hgate : ((setSuspended t false s).tree t).gateOpen = false := by
    rw [setSuspended, tree_modCtl_same]
    exact gateOpen_of_stopped h
  rw [resumed, startWindow_of_closed hgate, takeTasks_of_not_mayTake (mayTake_of_busy (.inl hgate))]
  rfl

/-- Of the Tree Controller a resumed tree clears the suspended flag alone, whatever it starts (R147). -/
theorem ctl_resumed :
    ((resumed t s).tree t).ctl = { (s.tree t).ctl with suspended := false } := by
  obtain ⟨d, hwindow⟩ := startWindow_blocks (s := setSuspended t false s) (t := t)
  rw [resumed, (calm_takeTasks.trees t).ctl, hwindow.ctl, setSuspended, tree_modCtl_same]

/-- A resumed tree keeps what each of its entries is, whatever it starts (R147). -/
theorem identity_resumed (tn : Nat) :
    ((resumed t s).entry? t tn).map Entry.identity = (s.entry? t tn).map Entry.identity := by
  obtain ⟨d, hwindow⟩ := startWindow_blocks (s := setSuspended t false s) (t := t)
  have hslots : ((startWindow t (setSuspended t false s)).tree t).slots = (s.tree t).slots := by
    rw [hwindow.slots, setSuspended, tree_modCtl_same]
  rw [resumed, calm_takeTasks.identity, State.entry?, entry?_of_slots hslots, State.entry?]

theorem within_resumed {P : TreeId → Prop} (ht : P t) : Within P s (resumed t s) :=
  ((within_setSuspended ht false).trans (within_startWindow ht)).trans (within_takeTasks ht)

theorem treeSuspendRequest_open (ho : openTree s tree = .ok t) :
    treeSuspendRequest tree s = ok (setSuspended t true s) := by
  simp only [treeSuspendRequest, ho]

theorem treeResumeRequest_idle (ho : openTree s tree = .ok t) (h : (s.tree t).ctl.suspended = false) :
    treeResumeRequest tree s = ok s := by
  simp only [treeResumeRequest, ho, h, Bool.false_eq_true, if_false]

theorem treeResumeRequest_suspended (ho : openTree s tree = .ok t) (h : (s.tree t).ctl.suspended = true) :
    treeResumeRequest tree s = ok (resumed t s) := by
  simp only [treeResumeRequest, ho, h, if_true, resumed]

end

/-- Settles O57: either request writes the suspended flag alone, and what a resumed tree starts keeps its entries. -/
theorem suspendAndResume : Obligations.SuspendAndResume := by
  intro s tag tree t hs htree hclosed hclosing
  have ho := openTree_of_open htree hclosed hclosing
  refine ⟨request_answered hs (f := treeSuspendRequest tree) (treeSuspendRequest_open ho) rfl,
    fun hidle => request_same hs (f := treeResumeRequest tree) (treeResumeRequest_idle ho hidle),
    fun hsusp hwaits => ?_, ?_⟩
  · have hresumed := treeResumeRequest_suspended ho hsusp
    rw [resumed_waits hwaits] at hresumed
    exact request_answered hs (f := treeResumeRequest tree) hresumed rfl
  cases hsusp : (s.tree t).ctl.suspended with
  | false =>
    refine ⟨_, request_same hs (f := treeResumeRequest tree) (treeResumeRequest_idle ho hsusp), ?_, rfl, fun _ => rfl,
      fun _ _ => rfl⟩
    rw [tree_reply, ← hsusp]
  | true =>
    have hresumed := treeResumeRequest_suspended ho hsusp
    have hctl := ctl_resumed (s := s) (t := t)
    have hidentity := identity_resumed (s := s) (t := t)
    have hothers := (within_resumed (P := (· = t)) (s := s) rfl).others
    generalize resumed t s = r at *
    exact ⟨_, request_ok hs (f := treeResumeRequest tree) hresumed, hctl, rfl, hidentity, hothers⟩

end Sys2Proof.Machine
end

section
/-! PROOF. A request channel by itself: what its owner does to it (O27, R152, R153, R155), and the wait of a request that is
refused or left unanswered (O25, R157). -/

namespace Sys2Proof.Machine

section
variable {s : State} {t : TreeId} {tag : Tag} {number : Byte} {req : Request}

/-! ### Rules of the grant link and of a channel's replacement (R151, R159) -/

theorem chan_sendLink (m : GrantMsg) (tag : Tag) : (sendLink t m s).chan t tag = s.chan t tag :=
  chan_modTree (fun _ => rfl) tag

theorem grant_sendLink (m : GrantMsg) : ((sendLink t m s).tree t).out.grant = (s.tree t).out.grant ++ [m] := by
  rw [sendLink, tree_modOut_same]

theorem State.chan_setChan_same (c : Channel) : (s.setChan t tag c).chan t tag = c := by
  rw [State.chan, tree_setChan_same, Machine.chan_setChan_same]

theorem State.out_setChan (c : Channel) : ((s.setChan t tag c).tree t).out = (s.tree t).out := by
  rw [tree_setChan_same, Machine.out_setChan]

/-- A channel replaced by itself. -/
theorem setChan_self {c : Channel} (h : s.chan t tag = c) : s.setChan t tag c = s := by
  subst h
  exact modTree_self (by cases tag <;> rfl)

/-! ### An owner's operations (R152, R153, R155) -/

theorem chan_chanSend :
    (chanSend t tag req s).chan t tag =
      { phase := .awaiting req (s.epoch + 8), number := (s.chan t tag).number + 1 } := by
  rw [chanSend, chan_sendLink, State.chan_setChan_same]

theorem grant_chanSend :
    ((chanSend t tag req s).tree t).out.grant =
      (s.tree t).out.grant ++ [.request tag ((s.chan t tag).number + 1) req.kind req.length req.earliest] := by
  rw [chanSend, grant_sendLink, State.out_setChan]

theorem withdrawn_of_outstanding {p : ChannelPhase} (h : p.outstanding = true) : p.withdrawn = .idle := by
  cases p with
  | awaiting | deferred | backingOff => rfl
  | idle | granted => contradiction

theorem withdrawn_of_not_outstanding {p : ChannelPhase} (h : p.outstanding = false) : p.withdrawn = p := by
  cases p with
  | awaiting | deferred | backingOff => contradiction
  | idle | granted => rfl

theorem phase_chanWithdraw : ((chanWithdraw t tag s).chan t tag).phase = (s.chan t tag).phase.withdrawn := by
  rw [chanWithdraw, State.chan_setChan_same]

theorem out_chanWithdraw : ((chanWithdraw t tag s).tree t).out = (s.tree t).out := State.out_setChan _

/-- Without an outstanding request there is nothing to withdraw (R153). -/
theorem chanWithdraw_of_not_outstanding (h : (s.chan t tag).phase.outstanding = false) : chanWithdraw t tag s = s := by
  rw [chanWithdraw, withdrawn_of_not_outstanding h]
  exact setChan_self rfl

theorem chanRelease_granted {start : Int} (hp : (s.chan t tag).phase = .granted number start) :
    chanRelease t tag s =
      sendLink t (.release tag number) (s.setChan t tag { phase := .idle, number := (s.chan t tag).number }) := by
  simp only [chanRelease, hp]

theorem chanRelease_not_granted (h : ∀ number start, (s.chan t tag).phase ≠ .granted number start) :
    chanRelease t tag s = s := by
  cases hp : (s.chan t tag).phase with
  | granted number start => exact absurd hp (h number start)
  | idle | awaiting | deferred | backingOff => simp only [chanRelease, hp]

/-! ### A request refused or left unanswered (R157) -/

theorem refuseTaken_awaited {d : Nat} (hp : (s.chan t tag).phase = .awaiting req d) :
    refuseTaken t tag number s =
      if number = (s.chan t tag).number then
        s.setChan t tag { phase := .backingOff req (s.epoch + 4), number := number }
      else s := by
  simp only [refuseTaken, hp]
  split
  · next hn => rw [backOff, hn]
  · rfl

theorem refuseTaken_not_awaited (h : ∀ req d, (s.chan t tag).phase ≠ .awaiting req d) : refuseTaken t tag number s = s := by
  cases hp : (s.chan t tag).phase with
  | awaiting req d => exact absurd hp (h req d)
  | idle | deferred | backingOff | granted => simp only [refuseTaken, hp]

theorem responseLapsed_awaiting {d : Nat} (hp : (s.chan t tag).phase = .awaiting req d) :
    responseLapsed t tag s =
      if d = s.epoch then
        s.setChan t tag { phase := .backingOff req (s.epoch + 4), number := (s.chan t tag).number }
      else s := by
  simp only [responseLapsed, hp, backOff]

theorem responseLapsed_not_awaiting (h : ∀ req d, (s.chan t tag).phase ≠ .awaiting req d) : responseLapsed t tag s = s := by
  cases hp : (s.chan t tag).phase with
  | awaiting req d => exact absurd hp (h req d)
  | idle | deferred | backingOff | granted => simp only [responseLapsed, hp]

end

/-- Settles O27: each operation by its rule, a withdrawal by whether a request is outstanding, a release by whether a grant is
held. -/
theorem channelOperations : Obligations.ChannelOperations := by
  intro s t tag
  refine ⟨fun req => ⟨chan_chanSend, grant_chanSend⟩, number_chanWithdraw tag tag,
    fun h => phase_chanWithdraw.trans (withdrawn_of_outstanding h), out_chanWithdraw, chanWithdraw_of_not_outstanding,
    fun number start hp => ?_, chanRelease_not_granted⟩
  rw [chanRelease_granted hp]
  refine ⟨(chan_sendLink _ _).trans (State.chan_setChan_same _), ?_⟩
  rw [grant_sendLink, State.out_setChan]

/-- Settles O25: a REFUSE and a response deadline each leave the awaited request waiting, and neither reports. -/
theorem unansweredRequestsBackOff : Obligations.UnansweredRequestsBackOff := by
  intro s t tag hs
  refine ⟨fun number req d hp => ?_, fun number hno => ?_, fun req d hdue hp => ?_, fun hdue hno => ?_⟩
  · refine take_of_same_port hs (refuseTaken_awaited hp) ?_
    split <;> rfl
  · exact take_of_same_port hs (refuseTaken_not_awaited hno) rfl
  · refine exec_delivery hs hdue (responseLapsed_awaiting (s := s.taken (.responseDeadline t tag)) hp) ?_
    split <;> rfl
  · exact exec_delivery hs hdue (responseLapsed_not_awaiting (s := s.taken (.responseDeadline t tag)) hno) rfl

end Sys2Proof.Machine
end

section
/-! PROOF. The silence checks sent at an epoch start (O28): the next check of an UNKNOWN light or of an unresolved hunt, and the
check of a settling hunt step (R163, R164, R169, R171). -/

namespace Sys2Proof.Machine

section
variable {s : State} {t : TreeId}

theorem params_modLight (f : LightMonitor → LightMonitor) : (s.modLight t f).params t = s.params t := by
  rw [State.params, tree_modLight_same, State.params]

/-- A check sent as its block changes: the tag-2 request, and the block's change with the check in flight (R164). -/
theorem sendCheck_modLight (p : Purpose) (f : LightMonitor → LightMonitor) :
    sendCheck t p (s.modLight t f) =
      (chanSend t .silence
          { kind := .silence, length := (s.params t).silenceLen, earliest := silenceEarliest s.epochInt } s).modLight
        t fun l => { f l with check := some { purpose := p, qe := silenceEarliest s.epochInt, phase := .requesting } } := by
  have hepoch : (s.modLight t f).epochInt = s.epochInt := rfl
  simp only [sendCheck, params_modLight, hepoch, chanSend_modLight, modLight_modLight]

/-- At the next check epoch a check is sent and the next check cleared, of purpose PAUSE behind an unresolved hunt and OPEN
otherwise (R163, R171). -/
theorem nextCheckDue_reached (h : (s.tree t).light.nextCheck = some s.epoch) :
    nextCheckDue t s =
      sendCheck t (if (s.tree t).light.pause then .pause else .opening)
        (s.modLight t fun l => { l with nextCheck := none }) := if_pos h

theorem nextCheckDue_not_reached (h : (s.tree t).light.nextCheck ≠ some s.epoch) : nextCheckDue t s = s := if_neg h

/-- A hunt step that settles until the current epoch has its check sent (R169). -/
theorem huntCheckDue_settled {h : Hunt} (hh : (s.tree t).light.hunt = some h) (hstep : h.step = .settling s.epoch) :
    huntCheckDue t s =
      sendCheck t .hunt (s.modLight t fun l => { l with hunt := some { h with step := .checking } }) := by
  simp only [huntCheckDue, hh, hstep, if_true]

theorem huntCheckDue_not_settled {h : Hunt} (hh : (s.tree t).light.hunt = some h) (hstep : h.step ≠ .settling s.epoch) :
    huntCheckDue t s = s := by
  simp only [huntCheckDue, hh, hstep, if_false]

theorem huntCheckDue_no_hunt (hh : (s.tree t).light.hunt = none) : huntCheckDue t s = s := by
  simp only [huntCheckDue, hh]

end

/-- Settles O28: either delivery sends its check where its epoch is reached, and no record is entered in any case. -/
theorem silenceChecksSent : Obligations.SilenceChecksSent := by
  intro s t hs
  refine ⟨fun hdue => ?_, fun h hdue hh => ?_, fun hdue hh => ?_⟩
  · by_cases hnext : (s.tree t).light.nextCheck = some s.epoch
    · rw [if_pos hnext]
      exact exec_delivery hs hdue
        ((nextCheckDue_reached (s := s.taken (.nextCheckEpoch t)) hnext).trans (sendCheck_modLight _ _)) rfl
    · rw [if_neg hnext]
      exact exec_delivery hs hdue (nextCheckDue_not_reached (s := s.taken (.nextCheckEpoch t)) hnext) rfl
  · by_cases hstep : h.step = .settling s.epoch
    · rw [if_pos hstep]
      exact exec_delivery hs hdue
        ((huntCheckDue_settled (s := s.taken (.huntCheckEpoch t)) hh hstep).trans (sendCheck_modLight _ _)) rfl
    · rw [if_neg hstep]
      exact exec_delivery hs hdue (huntCheckDue_not_settled (s := s.taken (.huntCheckEpoch t)) hh hstep) rfl
  · exact exec_delivery hs hdue (huntCheckDue_no_hunt (s := s.taken (.huntCheckEpoch t)) hh) rfl

end Sys2Proof.Machine
end

section
/-! PROOF. A CLOSED tree's parameters and its opening: TREE_CONFIG takes a set just where every field lies in its range (O51,
R176), and TREE_OPEN begins calibration run 1 (O52, R178). -/

namespace Sys2Proof.Machine

/-! ### The fields of a parameter set (R176) -/

section
variable {raw : RawParams} {n : Nat}

theorem parseQueueMode_isSome {b : Byte} : (parseQueueMode b).isSome = true ↔ b = 1 ∨ b = 2 := by
  unfold parseQueueMode
  split
  · next h => exact iff_of_true rfl (.inl h)
  split
  · next h => exact iff_of_true rfl (.inr h)
  · next h1 h2 => exact iff_of_false nofun fun h => h.elim h1 h2

/-- The field checks and the cross-check on ART pass just where the queue mode is one and every other field lies in its
range. -/
theorem checks_pass_iff :
    ((∀ b ∈ paramChecks raw, b = true) ∧ raw.frtMax.toNat + raw.arMin.toNat + raw.arSpread.toNat ≤ raw.art.toNat) ↔
      (raw.queueMode = 1 ∨ raw.queueMode = 2) ∧ (paramsOf raw).InRange := by
  simp only [paramChecks, List.forall_mem_cons, List.not_mem_nil, false_implies, implies_true, Bool.and_eq_true,
    decide_eq_true_eq, parseQueueMode_isSome, Nat.zero_le, true_and, and_true]
  constructor
  · rintro ⟨⟨hart, hfrtMin, ⟨⟨hfrtMax, htop⟩, hreach⟩, harMin, harSpread, hbla, hu, hk, hn, hwin, ⟨hover, hwout⟩, hwgross,
      hmiss, hlost, hbudget, hask, hretries, hwait, hsweep, hbatch, hstrike, hsilence, hpause, hcal, hmode, hrn, hrtol, hla,
      hbp, hpre⟩, hcross⟩
    refine ⟨hmode, hart, hfrtMin, ⟨hfrtMax, htop, ?_⟩, harMin, harSpread, hbla, hu, hk, hn, hwin, ⟨hover, ?_⟩, hwgross,
      hmiss, hlost, hbudget, hask, hretries, hwait, hsweep, hbatch, hstrike, hsilence, hpause, hcal, hrn, hrtol, hla, hbp,
      hpre, hcross⟩
    · simp only [paramsOf]
      omega
    · simp only [paramsOf]
      omega
  · rintro ⟨hmode, hart, hfrtMin, ⟨hfrtMax, htop, hreach⟩, harMin, harSpread, hbla, hu, hk, hn, hwin, ⟨hover, hwout⟩,
      hwgross, hmiss, hlost, hbudget, hask, hretries, hwait, hsweep, hbatch, hstrike, hsilence, hpause, hcal, hrn, hrtol, hla,
      hbp, hpre, hcross⟩
    refine ⟨⟨hart, hfrtMin, ⟨⟨hfrtMax, htop⟩, ?_⟩, harMin, harSpread, hbla, hu, hk, hn, hwin, ⟨hover, ?_⟩, hwgross,
      hmiss, hlost, hbudget, hask, hretries, hwait, hsweep, hbatch, hstrike, hsilence, hpause, hcal, hmode, hrn, hrtol, hla,
      hbp, hpre⟩, hcross⟩
    · simp only [paramsOf] at hreach
      omega
    · simp only [paramsOf] at hwout
      omega

/-- No field fails just where every check passes and the cross-check holds (R176). -/
theorem failingParam_eq_none_iff :
    failingParam raw = none ↔
      (∀ b ∈ paramChecks raw, b = true) ∧
        raw.frtMax.toNat + raw.arMin.toNat + raw.arSpread.toNat ≤ raw.art.toNat := by
  have hchecks : (paramChecks raw).findIdx? (!·) = none ↔ ∀ b ∈ paramChecks raw, b = true := by
    simp only [List.findIdx?_eq_none_iff, Bool.not_eq_false']
  rw [← hchecks, failingParam]
  split
  · next i hi => exact iff_of_false nofun fun h => nomatch hi.symm.trans h.1
  · next hnone =>
    rw [hnone]
    simp

/-- A failing field has a number of R176's table, 1..30. -/
theorem failingParam_le (h : failingParam raw = some n) : n ≤ 30 := by
  unfold failingParam at h
  split at h
  · next i hi =>
    obtain ⟨hlt, -⟩ := List.findIdx?_eq_some_iff_getElem.1 hi
    obtain rfl : i + 1 = n := Option.some.inj h
    exact hlt
  · split at h <;> cases h
    decide

end

/-! ### What the requests answer -/

section
variable {s : State} {t : TreeId} {tree : Byte}

theorem parseTree_eq_none (h : 4 ≤ tree.toNat) : parseTree tree = none := dif_neg (by omega)

/-- BAD_PARAM names a field of R176's table, or field 0, in one byte (R188). -/
theorem badField_eq {n : Nat} (h : n ≤ 30) :
    badField s n = { state := s, code := .badParam, body := [BitVec.ofNat 8 n] } := by
  rw [badField, natField_tn (by omega)]

/-- A CLOSED tree is opened where it is configured and the timebase runs (R178). -/
theorem treeOpenRequest_of_closed (hparse : parseTree tree = some t) (hst : (s.tree t).ctl.state = .closed) :
    treeOpenRequest tree s =
      if s.timebase.status = .running ∧ (s.tree t).ctl.configured = true then
        ok (treeReport t .closed .calibrating .opened 0 0 none 0 0
          (s.setTreeState t (.calibrating (CalRun.fresh 1 (s.epoch + 1) 0 none))))
      else refuse s .wrongState := by
  have hready : (s.timebase.status = .waiting ∨ (s.tree t).ctl.configured = false) ↔
      ¬(s.timebase.status = .running ∧ (s.tree t).ctl.configured = true) := by
    cases s.timebase.status <;> simp
  simp only [treeOpenRequest, hparse, hst, hready, ite_not]

end

/-- Settles O51: a set is taken just where no field fails, and a refusal names the field that does. -/
theorem treesConfigured : Obligations.TreesConfigured := by
  refine ⟨fun raw => failingParam_eq_none_iff.trans checks_pass_iff,
    fun s tag tree raw hs => ⟨fun htree => ?_, fun t htree => ?_⟩⟩
  · refine request_same hs (f := treeConfigRequest tree raw) ?_
    rw [treeConfigRequest, parseTree_eq_none htree]
    exact badField_eq (Nat.zero_le _)
  · have hparse := parseTree_eq htree
    cases hst : (s.tree t).ctl.state with
    | closing =>
      refine request_same hs (f := treeConfigRequest tree raw) ?_
      simp only [treeConfigRequest, hparse, hst, refuse]
    | calibrating r =>
      refine request_same hs (f := treeConfigRequest tree raw) ?_
      simp only [treeConfigRequest, hparse, hst, refuse]
    | active =>
      refine request_same hs (f := treeConfigRequest tree raw) ?_
      simp only [treeConfigRequest, hparse, hst, refuse]
    | closed =>
      cases hfail : failingParam raw with
      | some n =>
        refine request_same hs (f := treeConfigRequest tree raw) ?_
        simp only [treeConfigRequest, hparse, hst, hfail, badField_eq (failingParam_le hfail)]
      | none =>
        refine request_answered hs (f := treeConfigRequest tree raw) ?_ rfl
        simp only [treeConfigRequest, hparse, hst, hfail, ok]

/-- Settles O52: a tree that may open enters CALIBRATING with its report, and every other one is refused by its state. -/
theorem treesOpened : Obligations.TreesOpened := by
  intro s tag tree t hs htree
  have hparse := parseTree_eq htree
  cases hst : (s.tree t).ctl.state with
  | closing =>
    refine request_same hs (f := treeOpenRequest tree) ?_
    simp only [treeOpenRequest, hparse, hst, refuse]
  | calibrating r =>
    refine request_same hs (f := treeOpenRequest tree) ?_
    simp only [treeOpenRequest, hparse, hst, refuse]
  | active =>
    refine request_same hs (f := treeOpenRequest tree) ?_
    simp only [treeOpenRequest, hparse, hst, refuse]
  | closed =>
    have hrequest := treeOpenRequest_of_closed hparse hst
    split at hrequest
    · next hready =>
      rw [treeReport, State.setTreeState, tree_modCtl_same] at hrequest
      simp only [if_pos hready]
      exact request_reported hs (f := treeOpenRequest tree) hrequest rfl
    · next hready =>
      simp only [if_neg hready]
      exact request_same hs (f := treeOpenRequest tree) hrequest

end Sys2Proof.Machine
end

section
/-! PROOF. Law 12 block by block (O11): the law of a tree as laws of its blocks, each by the name of the tree's state, and the
operations of the Grant Link, the downstream queue and the Task Sequencer, which keep them. `ClosedKept` says that an operation
keeps Law 12 of every tree and leaves every tree in its state; `ActiveKept` says it of work that only an ACTIVE tree does. -/

namespace Sys2Proof.Machine

/-! ### The law of a tree as laws of its blocks -/

/-- The tree states in which a tree may hold entries and queued messages (R183). -/
def TreeName.opened : TreeName → Bool
  | .active | .closing => true
  | .closed | .calibrating => false

/-- The name of a tree's state. -/
def Tree.stage (T : Tree) : TreeName := T.ctl.state.name

/-- The Discovery Unit and its channel: a request has the unit asking, and outside ACTIVE no window stands (R97, R151). -/
structure WindowLaw (x : TreeName) (d : Discovery) (p : ChannelPhase) : Prop where
  owned : p.outstanding = true → ∃ w qe, d.state = .requesting w qe
  rests : x ≠ .active → d.Without (x == .calibrating)

/-- The Task Sequencer and its channel: a request has the operation asking, and outside ACTIVE it has no work (R121, R150,
R151). -/
structure ProbeLaw (x : TreeName) (q : Sequencer) (p : ChannelPhase) : Prop where
  owned : p.outstanding = true → ∃ o pl qe, q.op = some o ∧ o.phase = .requesting pl qe
  rests : x ≠ .active → q.op = none ∧ q.tasks = [] ∧ q.nextSweep = none

/-- The Light Monitor and its channel: a request has the check asking, and outside ACTIVE the unit is reset (R151, R173). -/
structure SilenceLaw (x : TreeName) (l : LightMonitor) (p : ChannelPhase) : Prop where
  owned : p.outstanding = true → ∃ c qe, l.check = some ⟨c, qe, .requesting⟩
  rests : x ≠ .active → l = LightMonitor.reset

/-- An entry: it stands on a tree that may hold it, waits on an ACTIVE one alone, and owes no broadcast (R30, R150, R183). -/
structure EntryLaw (x : TreeName) (e : Entry) : Prop where
  stands : x.opened = true
  waits  : e.waiting = true → x = .active
  owes   : ∀ o, e.owed = some o → o.msg.isBroadcast = false

/-- The downstream queue: nothing stands on a tree that holds no entry, and no broadcast on an ACTIVE one (R182, R183). -/
structure QueueLaw (x : TreeName) (q : MsgQueue) : Prop where
  empty : x.opened = false → q.items = [] ∧ q.owedBroadcast = false
  plain : x = .active → q.broadcastStands = false

/-- The laws of a tree's blocks by the name of a tree state. -/
structure Tree.LawsAt (x : TreeName) (T : Tree) : Prop where
  window  : WindowLaw x T.disc T.chanWindow.phase
  probe   : ProbeLaw x T.seq T.chanProbe.phase
  silence : SilenceLaw x T.light T.chanSilence.phase
  entries : ∀ tn e, T.entry? tn = some e → EntryLaw x e
  queue   : QueueLaw x T.msgq
  pending : x ≠ .active → T.pendingList = []

section
variable {T : Tree} {x : TreeName}

/-- A tree at rest has no request outstanding, since nothing in it asks for one. -/
theorem Tree.LawsAt.atRest (h : T.LawsAt x) (hx : x ≠ .active) : T.AtRest := by
  obtain ⟨hop, htasks, hsweep⟩ := h.probe.rests hx
  have hlight := h.silence.rests hx
  refine ⟨hop, htasks, hsweep, fun tn e he => ?_, h.pending hx, hlight, fun tag => ?_⟩
  · exact Bool.eq_false_iff.2 fun hw => hx ((h.entries tn e he).waits hw)
  · refine Bool.eq_false_iff.2 fun hout => ?_
    cases tag with
    | window =>
      obtain ⟨w, qe, hd⟩ := h.window.owned hout
      rcases h.window.rests hx with ⟨hs, -⟩ | ⟨-, hs | hs⟩
      all_goals cases hd.symm.trans hs
    | probe =>
      obtain ⟨o, pl, qe, ho, -⟩ := h.probe.owned hout
      cases ho.symm.trans hop
    | silence =>
      obtain ⟨c, qe, hc⟩ := h.silence.owned hout
      rw [hlight] at hc
      cases hc

/-- Without an open tree state there is no entry and no message. -/
theorem Tree.LawsAt.isEmpty (h : T.LawsAt x) (hx : x.opened = false) : T.Empty := by
  obtain ⟨hitems, howed⟩ := h.queue.empty hx
  refine ⟨fun tn => ?_, hitems, howed⟩
  cases he : T.entry? tn with
  | none => rfl
  | some e => exact absurd (h.entries tn e he).stands (by simp [hx])

/-- The blocks of a tree at rest, whose entries and messages stand only where its state has any. -/
theorem lawsAt_of_atRest (hx : x ≠ .active) (hrest : T.AtRest) (hd : T.disc.Without (x == .calibrating))
    (hempty : x.opened = false → T.Empty)
    (howes : ∀ tn e o, T.entry? tn = some e → e.owed = some o → o.msg.isBroadcast = false) : T.LawsAt x where
  window := ⟨fun h => (nomatch (hrest.requests .window).symm.trans h), fun _ => hd⟩
  probe := ⟨fun h => (nomatch (hrest.requests .probe).symm.trans h), fun _ => ⟨hrest.op, hrest.tasks, hrest.sweep⟩⟩
  silence := ⟨fun h => (nomatch (hrest.requests .silence).symm.trans h), fun _ => hrest.light⟩
  entries tn e he := by
    refine ⟨Bool.of_not_eq_false fun hno => ?_, fun hw => ?_, fun o => howes tn e o he⟩
    · cases ((hempty hno).entries tn).symm.trans he
    · rw [hrest.waiting tn e he] at hw
      cases hw
  queue := ⟨fun hno => ⟨(hempty hno).items, (hempty hno).owed⟩, fun ha => absurd ha hx⟩
  pending _ := hrest.pending

/-- Law 12 of a tree is the laws of its blocks in its state. -/
theorem closedLawful_iff : T.ClosedLawful ↔ T.LawsAt T.stage := by
  constructor
  · rintro ⟨howned, howes, hstate⟩
    rw [Tree.stage]
    cases hx : T.ctl.state with
    | closed =>
      simp only [hx] at hstate
      obtain ⟨hrest, hempty, hd⟩ := hstate
      exact lawsAt_of_atRest nofun hrest hd (fun _ => hempty) howes
    | calibrating r =>
      simp only [hx] at hstate
      obtain ⟨hrest, hempty, hd⟩ := hstate
      exact lawsAt_of_atRest nofun hrest hd (fun _ => hempty) howes
    | closing =>
      simp only [hx] at hstate
      obtain ⟨hrest, hd⟩ := hstate
      exact lawsAt_of_atRest nofun hrest hd nofun howes
    | active =>
      simp only [hx] at hstate
      exact ⟨⟨howned.window, fun h => absurd rfl h⟩, ⟨howned.probe, fun h => absurd rfl h⟩,
        ⟨howned.silence, fun h => absurd rfl h⟩, fun tn e he => ⟨rfl, fun _ => rfl, fun o => howes tn e o he⟩,
        ⟨nofun, fun _ => hstate⟩, fun h => absurd rfl h⟩
  · intro h
    refine ⟨⟨h.window.owned, h.probe.owned, h.silence.owned⟩, fun tn e o he => (h.entries tn e he).owes o, ?_⟩
    rw [Tree.stage] at h
    cases hx : T.ctl.state with
    | closed =>
      rw [hx] at h
      exact ⟨h.atRest nofun, h.isEmpty rfl, h.window.rests nofun⟩
    | calibrating r =>
      rw [hx] at h
      exact ⟨h.atRest nofun, h.isEmpty rfl, h.window.rests nofun⟩
    | closing =>
      rw [hx] at h
      exact ⟨h.atRest nofun, h.window.rests nofun⟩
    | active =>
      rw [hx] at h
      exact h.queue.plain rfl

end

/-! ### What every operation keeps -/

/-- From one state to another Law 12 is kept, and every tree stays in its state. -/
def ClosedKept (s s' : State) : Prop :=
  s.ClosedLawful → s'.ClosedLawful ∧ ∀ j, (s'.tree j).stage = (s.tree j).stage

/-- The same of work that tree `t` does in ACTIVE alone. -/
def ActiveKept (t : TreeId) (s s' : State) : Prop := (s.tree t).stage = .active → ClosedKept s s'

section
variable {s s' s'' : State} {t j : TreeId} {tn : Nat} {tag : Tag}

@[refl] theorem ClosedKept.refl (s : State) : ClosedKept s s := fun hl => ⟨hl, fun _ => rfl⟩

theorem ClosedKept.trans (h : ClosedKept s s') (k : ClosedKept s' s'') : ClosedKept s s'' := fun hl => by
  obtain ⟨hl', hst⟩ := h hl
  obtain ⟨hl'', hst'⟩ := k hl'
  exact ⟨hl'', fun j => (hst' j).trans (hst j)⟩

/-- Law 12 may be used to show that it is kept. -/
theorem ClosedKept.given (h : s.ClosedLawful → ClosedKept s s') : ClosedKept s s' := fun hl => h hl hl

theorem ClosedKept.foldl {α : Type} (f : State → α → State) (h : ∀ s a, ClosedKept s (f s a)) (l : List α) :
    ∀ s, ClosedKept s (l.foldl f s) := by
  induction l with
  | nil => exact fun s => ClosedKept.refl s
  | cons a l ih => exact fun s => (h s a).trans (ih _)

theorem ClosedKept.active (h : ClosedKept s s') : ActiveKept t s s' := fun _ => h

theorem ActiveKept.trans (h : ActiveKept t s s') (k : ActiveKept t s' s'') : ActiveKept t s s'' := fun ha hl => by
  obtain ⟨hl', hst⟩ := h ha hl
  obtain ⟨hl'', hst'⟩ := k ((hst t).trans ha) hl'
  exact ⟨hl'', fun j => (hst' j).trans (hst j)⟩

theorem ClosedKept.of_trees (h : s'.trees = s.trees) : ClosedKept s s' := by
  have ht : ∀ j, s'.tree j = s.tree j := fun j => congrArg (fun v : Vector Tree 4 => v[j]) h
  exact fun hl => ⟨fun j => ht j ▸ hl j, fun j => congrArg Tree.stage (ht j)⟩

/-- The laws of a tree's blocks, in a part that keeps Law 12. -/
theorem lawsAt_of_lawful (hl : s.ClosedLawful) (t : TreeId) : (s.tree t).LawsAt (s.tree t).stage :=
  closedLawful_iff.1 (hl t)

/-- Law 12 is kept where one tree alone changes, and its blocks are lawful in the state it has then. -/
theorem closedLawful_modTree {f : Tree → Tree} (hl : s.ClosedLawful) (h : (f (s.tree t)).LawsAt (f (s.tree t)).stage) :
    (s.modTree t f).ClosedLawful := by
  intro j
  rw [tree_modTree]
  split
  · exact closedLawful_iff.2 h
  · exact hl j

theorem closedKept_modTree {f : Tree → Tree} (hs : (f (s.tree t)).stage = (s.tree t).stage)
    (h : (s.tree t).LawsAt (s.tree t).stage → (f (s.tree t)).LawsAt (s.tree t).stage) :
    ClosedKept s (s.modTree t f) := by
  refine fun hl => ⟨closedLawful_modTree hl ?_, fun j => ?_⟩
  · rw [hs]
    exact h (lawsAt_of_lawful hl t)
  · rw [tree_modTree]
    split
    · next hj => exact hj ▸ hs
    · rfl

theorem closedKept_deliver (p : Poster) (b : ReportBody) : ClosedKept s (s.deliver p b) := .of_trees rfl

theorem closedKept_report (b : ReportBody) : ClosedKept s (s.report t b) := .of_trees rfl

theorem closedKept_freeIndex (n : Nat) : ClosedKept s { s with freeIndex := n } := .of_trees rfl

/-- The Tree Controller alone changes, and the tree stays in its state. -/
theorem closedKept_modCtl (f : Controller → Controller) (h : (f (s.tree t).ctl).state.name = (s.tree t).stage) :
    ClosedKept s (s.modCtl t f) :=
  closedKept_modTree h fun hT => ⟨hT.window, hT.probe, hT.silence, hT.entries, hT.queue, hT.pending⟩

theorem closedKept_modMsgq (f : MsgQueue → MsgQueue)
    (h : QueueLaw (s.tree t).stage (s.tree t).msgq → QueueLaw (s.tree t).stage (f (s.tree t).msgq)) :
    ClosedKept s (s.modMsgq t f) :=
  closedKept_modTree rfl fun hT => ⟨hT.window, hT.probe, hT.silence, hT.entries, h hT.queue, hT.pending⟩

theorem closedKept_modDisc (f : Discovery → Discovery)
    (h : WindowLaw (s.tree t).stage (s.tree t).disc (s.tree t).chanWindow.phase →
      WindowLaw (s.tree t).stage (f (s.tree t).disc) (s.tree t).chanWindow.phase) : ClosedKept s (s.modDisc t f) :=
  closedKept_modTree rfl fun hT => ⟨h hT.window, hT.probe, hT.silence, hT.entries, hT.queue, hT.pending⟩

theorem closedKept_modSeq (f : Sequencer → Sequencer)
    (h : ProbeLaw (s.tree t).stage (s.tree t).seq (s.tree t).chanProbe.phase →
      ProbeLaw (s.tree t).stage (f (s.tree t).seq) (s.tree t).chanProbe.phase) : ClosedKept s (s.modSeq t f) :=
  closedKept_modTree rfl fun hT => ⟨hT.window, h hT.probe, hT.silence, hT.entries, hT.queue, hT.pending⟩

theorem closedKept_modLight (f : LightMonitor → LightMonitor)
    (h : SilenceLaw (s.tree t).stage (s.tree t).light (s.tree t).chanSilence.phase →
      SilenceLaw (s.tree t).stage (f (s.tree t).light) (s.tree t).chanSilence.phase) : ClosedKept s (s.modLight t f) :=
  closedKept_modTree rfl fun hT => ⟨hT.window, hT.probe, h hT.silence, hT.entries, hT.queue, hT.pending⟩

theorem closedKept_modPending (f : List PendingRec → List PendingRec)
    (h : (s.tree t).stage ≠ .active → (s.tree t).pendingList = [] → f [] = []) : ClosedKept s (s.modPending t f) :=
  closedKept_modTree rfl fun hT =>
    ⟨hT.window, hT.probe, hT.silence, hT.entries, hT.queue, fun hx => (congrArg f (hT.pending hx)).trans (h hx (hT.pending hx))⟩

theorem closedKept_modAir (f : List Nat → List Nat) : ClosedKept s (s.modAir t f) :=
  closedKept_modTree rfl fun hT => ⟨hT.window, hT.probe, hT.silence, hT.entries, hT.queue, hT.pending⟩

theorem closedKept_modOut (f : LinkOut → LinkOut) : ClosedKept s (s.modOut t f) :=
  closedKept_modTree rfl fun hT => ⟨hT.window, hT.probe, hT.silence, hT.entries, hT.queue, hT.pending⟩

/-- A channel replaced by one that is outstanding only where its owner asks. -/
theorem closedKept_setChan {c : Channel}
    (h : (s.tree t).LawsAt (s.tree t).stage → c.phase.outstanding = true → (s.tree t).asks tag) :
    ClosedKept s (s.setChan t tag c) := by
  cases tag with
  | window =>
    exact closedKept_modTree rfl fun hT =>
      ⟨⟨h hT, hT.window.rests⟩, hT.probe, hT.silence, hT.entries, hT.queue, hT.pending⟩
  | probe =>
    exact closedKept_modTree rfl fun hT =>
      ⟨hT.window, ⟨h hT, hT.probe.rests⟩, hT.silence, hT.entries, hT.queue, hT.pending⟩
  | silence =>
    exact closedKept_modTree rfl fun hT =>
      ⟨hT.window, hT.probe, ⟨h hT, hT.silence.rests⟩, hT.entries, hT.queue, hT.pending⟩

theorem closedKept_setUnasked {c : Channel} (h : c.phase.outstanding = false) : ClosedKept s (s.setChan t tag c) :=
  closedKept_setChan fun _ ho => nomatch h.symm.trans ho

/-! ### Entries that change -/

/-- An entry changes without a wait begun or a message newly owed. -/
structure Entry.Milder (e e' : Entry) : Prop where
  waits : e'.waiting = true → e.waiting = true
  owes  : ∀ o, e'.owed = some o → e.owed = some o

theorem EntryLaw.milder {x : TreeName} {e e' : Entry} (h : EntryLaw x e) (k : e.Milder e') : EntryLaw x e' :=
  ⟨h.stands, fun hw => h.waits (k.waits hw), fun o ho => h.owes o (k.owes o ho)⟩

theorem Entry.Milder.of_eq {e e' : Entry} (hw : e'.waiting = e.waiting) (ho : e'.owed = e.owed) : e.Milder e' :=
  ⟨fun h => hw ▸ h, fun _ h => ho ▸ h⟩

theorem stage_modEntry (T : Tree) (tn : Nat) (f : Entry → Entry) : (T.modEntry tn f).stage = T.stage := by
  rw [Tree.stage, ctl_modEntry, Tree.stage]

/-- Entries alone change, each lawfully. -/
theorem Tree.LawsAt.of_entries {T U : Tree} {x : TreeName} (h : T.LawsAt x) (hb : SameBlocks { T with slots := U.slots } U)
    (hc : ∀ tag, U.chan tag = T.chan tag) (hp : U.pendingList = T.pendingList)
    (he : ∀ tn e, U.entry? tn = some e → EntryLaw x e) : U.LawsAt x := by
  have hwindow : U.chanWindow = T.chanWindow := hc .window
  have hprobe : U.chanProbe = T.chanProbe := hc .probe
  have hsilence : U.chanSilence = T.chanSilence := hc .silence
  refine ⟨?_, ?_, ?_, he, ?_, fun hx => hp.trans (h.pending hx)⟩
  · rw [hb.disc, hwindow]
    exact h.window
  · rw [hb.seq, hprobe]
    exact h.probe
  · rw [hb.light, hsilence]
    exact h.silence
  · rw [hb.msgq]
    exact h.queue

theorem closedKept_modEntry (tn : Nat) (f : Entry → Entry)
    (h : ∀ e, s.entry? t tn = some e → EntryLaw (s.tree t).stage e → EntryLaw (s.tree t).stage (f e)) :
    ClosedKept s (s.modEntry t tn f) := by
  refine closedKept_modTree (stage_modEntry _ _ _) fun hT => hT.of_entries ⟨by simp, rfl, by simp, by simp, by simp, by simp⟩
    (by simp) (by simp) fun k e' he' => ?_
  by_cases hk : k = tn
  · subst hk
    rw [entry?_modEntry_same] at he'
    obtain ⟨e, he, rfl⟩ := Option.map_eq_some_iff.1 he'
    exact h e he (hT.entries k e he)
  · rw [entry?_modEntry_other _ _ _ _ hk] at he'
    exact hT.entries k e' he'

theorem closedKept_milder (tn : Nat) (f : Entry → Entry) (h : ∀ e : Entry, e.Milder (f e)) : ClosedKept s (s.modEntry t tn f) :=
  closedKept_modEntry tn f fun e _ hlaw => hlaw.milder (h e)

theorem closedKept_mapEntries (f : Entry → Entry) (h : ∀ e : Entry, e.Milder (f e)) :
    ClosedKept s (s.modTree t fun T => T.mapEntries f) := by
  refine closedKept_modTree rfl fun hT => hT.of_entries (SameBlocks.refl _) (fun tag => by cases tag <;> rfl) rfl
    fun k e' he' => ?_
  rw [entry?_mapEntries] at he'
  obtain ⟨e, he, rfl⟩ := Option.map_eq_some_iff.1 he'
  exact (hT.entries k e he).milder (h e)

/-- A slot is replaced by one whose entry, if any, is lawful. -/
theorem closedKept_setSlot (tn : Nat) (sl : Tree → Slot)
    (h : (s.tree t).LawsAt (s.tree t).stage → ∀ e, (sl (s.tree t)).entry = some e → EntryLaw (s.tree t).stage e) :
    ClosedKept s (s.modTree t fun T => T.setSlot tn (sl T)) := by
  have hstage : ((s.tree t).setSlot tn (sl (s.tree t))).stage = (s.tree t).stage := by
    rw [Tree.stage, ctl_setSlot, Tree.stage]
  refine closedKept_modTree hstage fun hT => hT.of_entries ⟨by simp, rfl, by simp, by simp, by simp, by simp⟩
    (fun tag => chan_setSlot tag) (by simp) fun k e he => ?_
  by_cases hk : k = tn
  · subst hk
    cases hi : slotIndex k with
    | none =>
      rw [Tree.setSlot, hi] at he
      exact hT.entries k e he
    | some i =>
      rw [entry?_setSlot_same _ _ _ hi] at he
      exact h hT e he
  · rw [entry?_setSlot_other _ _ _ _ hk] at he
    exact hT.entries k e he

/-! ### What Law 12 says where work stands -/

theorem stage_of_isActive (h : (s.tree t).isActive = true) : (s.tree t).stage = .active := by
  have hst : (s.tree t).ctl.state = .active := by simpa [Tree.isActive] using h
  rw [Tree.stage, hst]
  rfl

/-- An open gate is that of an ACTIVE tree (R81). -/
theorem stage_of_gateOpen (h : (s.tree t).gateOpen = true) : (s.tree t).stage = .active := by
  rw [Tree.gateOpen, Bool.and_eq_true, Bool.and_eq_true] at h
  exact stage_of_isActive h.1.1

theorem opened_of_active (h : (s.tree t).stage = .active) : (s.tree t).stage.opened = true := by rw [h]; rfl

theorem active_of_op {o : ProbeOp} (hl : s.ClosedLawful) (h : (s.tree t).seq.op = some o) : (s.tree t).stage = .active := by
  by_contra hx
  obtain ⟨hop, -⟩ := (lawsAt_of_lawful hl t).probe.rests hx
  cases h.symm.trans hop

theorem active_of_light (hl : s.ClosedLawful) (h : (s.tree t).light ≠ LightMonitor.reset) : (s.tree t).stage = .active := by
  by_contra hx
  exact h ((lawsAt_of_lawful hl t).silence.rests hx)

theorem active_of_window {d : DiscState} (hl : s.ClosedLawful) (hd : (s.tree t).disc.state = d) (h1 : d ≠ .stopped)
    (h2 : d ≠ .due none) : (s.tree t).stage = .active := by
  by_contra hx
  rcases (lawsAt_of_lawful hl t).window.rests hx with ⟨h, -⟩ | ⟨-, h | h⟩
  · exact h1 (hd.symm.trans h)
  · exact h1 (hd.symm.trans h)
  · exact h2 (hd.symm.trans h)

theorem opened_of_entry {e : Entry} (hl : s.ClosedLawful) (h : s.entry? t tn = some e) :
    (s.tree t).stage.opened = true := ((lawsAt_of_lawful hl t).entries tn e h).stands

/-- An outstanding request has its owner asking (R151). -/
theorem Tree.RequestsOwned.asks {T : Tree} (h : T.RequestsOwned) (ho : (T.chan tag).phase.outstanding = true) :
    T.asks tag := by
  cases tag with
  | window => exact h.window ho
  | probe => exact h.probe ho
  | silence => exact h.silence ho

theorem Tree.LawsAt.asks {T : Tree} {x : TreeName} (h : T.LawsAt x) (ho : (T.chan tag).phase.outstanding = true) :
    T.asks tag := Tree.RequestsOwned.asks ⟨h.window.owned, h.probe.owned, h.silence.owned⟩ ho

/-- The channel of a tag has no request outstanding. -/
def State.Unasked (s : State) (t : TreeId) (tag : Tag) : Prop := (s.chan t tag).phase.outstanding = false

/-- The channel of a tag has a request outstanding only where its owner asks. -/
def State.Owned (s : State) (t : TreeId) (tag : Tag) : Prop :=
  (s.chan t tag).phase.outstanding = true → (s.tree t).asks tag

theorem State.ClosedLawful.requestsOwned (hl : s.ClosedLawful) : s.Owned t tag := (hl t).owned.asks

/-- Where no owner asks, no request is outstanding. -/
theorem unasked_of_not_asks (h : s.Owned t tag) (hno : ¬(s.tree t).asks tag) : s.Unasked t tag :=
  Bool.eq_false_iff.2 fun ho => hno (h ho)

theorem unasked_of_chan (h : s.Unasked t tag) (hc : s'.chan t tag = s.chan t tag) : s'.Unasked t tag := by
  rw [State.Unasked, hc]
  exact h

/-- An operation in another phase than REQUESTING has no request outstanding. -/
theorem unasked_of_phase {o : ProbeOp} {p : OpPhase} (h : s.Owned t .probe) (ho : (s.tree t).seq.op = some o)
    (hp : o.phase = p) (hno : ∀ pl qe, p ≠ .requesting pl qe) : s.Unasked t .probe := by
  refine unasked_of_not_asks h ?_
  rintro ⟨o', pl, qe, ho', hp'⟩
  cases ho.symm.trans ho'
  exact hno pl qe (hp.symm.trans hp')

/-- A Discovery Unit in another state than REQUESTING has no request outstanding. -/
theorem unasked_of_window {d : DiscState} (h : s.Owned t .window) (hd : (s.tree t).disc.state = d)
    (hno : ∀ w qe, d ≠ .requesting w qe) : s.Unasked t .window :=
  unasked_of_not_asks h fun ⟨w, qe, hq⟩ => hno w qe (hd.symm.trans hq)

/-- A check that listens has no request outstanding. -/
theorem unasked_of_listening {p : Purpose} {qe qs : Int} {n : Nat} (h : s.Owned t .silence)
    (hc : (s.tree t).light.check = some ⟨p, qe, .listening qs n⟩) : s.Unasked t .silence :=
  unasked_of_not_asks h fun ⟨p', q', hq⟩ => by
    rw [hc] at hq
    cases hq

/-! ### Grant Link (chapter 9) -/

theorem closedKept_sendLink (m : GrantMsg) : ClosedKept s (sendLink t m s) := closedKept_modOut _

theorem closedKept_chanSend (req : Request) (h : (s.tree t).asks tag) : ClosedKept s (chanSend t tag req s) :=
  (closedKept_setChan fun _ _ => h).trans (closedKept_sendLink _)

theorem outstanding_withdrawn (p : ChannelPhase) : p.withdrawn.outstanding = false := by cases p <;> rfl

theorem closedKept_chanWithdraw (tag : Tag) : ClosedKept s (chanWithdraw t tag s) :=
  closedKept_setUnasked (outstanding_withdrawn _)

theorem unasked_chanWithdraw : (chanWithdraw t tag s).Unasked t tag := by
  rw [State.Unasked, phase_chanWithdraw, outstanding_withdrawn]

theorem closedKept_chanRelease (tag : Tag) : ClosedKept s (chanRelease t tag s) := by
  unfold chanRelease
  split
  · exact (closedKept_setUnasked rfl).trans (closedKept_sendLink _)
  all_goals exact ClosedKept.refl s

theorem unasked_chanRelease (h : s.Unasked t tag) : (chanRelease t tag s).Unasked t tag := by
  unfold chanRelease
  split
  · rw [State.Unasked, chan_sendLink, State.chan_setChan_same]
    rfl
  all_goals exact h

/-- ALL_OFF leaves every channel IDLE (R161). -/
theorem closedKept_allOff : ClosedKept s (allOff t s) := by
  unfold allOff
  refine ClosedKept.trans (closedKept_modTree rfl fun hT => ?_) (closedKept_sendLink _)
  exact ⟨⟨nofun, hT.window.rests⟩, ⟨nofun, hT.probe.rests⟩, ⟨nofun, hT.silence.rests⟩, hT.entries, hT.queue, hT.pending⟩

/-! ### Downstream Message Queue (section 2.5) -/

theorem QueueLaw.filter {x : TreeName} {q : MsgQueue} (h : QueueLaw x q) (p : Item → Bool) :
    QueueLaw x { q with items := q.items.filter p } := by
  refine ⟨fun hx => ?_, fun hx => ?_⟩
  · obtain ⟨hitems, howed⟩ := h.empty hx
    exact ⟨by rw [hitems]; rfl, howed⟩
  · have hplain := h.plain hx
    simp only [MsgQueue.broadcastStands, Bool.or_eq_false_iff, List.any_eq_false] at hplain ⊢
    exact ⟨hplain.1, fun it hit => hplain.2 it (List.mem_of_mem_filter hit)⟩

theorem closedKept_filterItems (p : Item → Bool) :
    ClosedKept s (s.modMsgq t fun q => { q with items := q.items.filter p }) :=
  closedKept_modMsgq _ fun h => h.filter p

theorem closedKept_withdrawItems (by_ : Issuer) : ClosedKept s (withdrawItems t by_ s) := closedKept_filterItems _

/-- A tree that may hold messages takes one that is no broadcast. -/
theorem closedKept_enqueue {it : Item} (ho : (s.tree t).stage.opened = true) (hm : it.msg.isBroadcast = false) :
    ClosedKept s (enqueue t it s) := by
  refine closedKept_modMsgq _ fun h => ⟨fun hx => ?_, fun hx => ?_⟩
  · rw [ho] at hx
    cases hx
  · have hplain := h.plain hx
    simp only [MsgQueue.broadcastStands, Bool.or_eq_false_iff] at hplain ⊢
    simp [hplain.1, hplain.2, hm]

theorem closedKept_postGated {it : Item} (ho : (s.tree t).stage.opened = true) (hm : it.msg.isBroadcast = false) :
    ClosedKept s (postGated t it s).state := by
  unfold postGated
  split
  · exact ClosedKept.refl s
  · split
    · exact closedKept_enqueue ho hm
    · exact ClosedKept.refl s

theorem chan_enqueue (it : Item) : (enqueue t it s).chan t tag = s.chan t tag := chan_modTree (fun _ => rfl) tag

theorem chan_postGated (it : Item) : (postGated t it s).state.chan t tag = s.chan t tag := by
  unfold postGated
  split
  · rfl
  · split
    · exact chan_enqueue it
    · rfl

/-- Of two messages that are no broadcast R27 makes none (R27). -/
theorem isBroadcast_mergeOwed {o : OwedMsg} {ld : Nat} {mark : Bool} {m : Message} {by_ : Issuer}
    (ho : o.msg.isBroadcast = false) (hm : m.isBroadcast = false) :
    (mergeOwed o tn ld mark m by_).owed.msg.isBroadcast = false := by
  unfold mergeOwed
  split
  · exact ho
  split
  · rfl
  split
  · exact hm
  · exact hm

/-- Posting a message that is no broadcast (R26, R27, R30). -/
theorem closedKept_postMust (tn : Nat) {m : Message} (by_ : Issuer) (hm : m.isBroadcast = false) :
    ClosedKept s (postMust t tn m by_ s).state := by
  refine .given fun hl => ?_
  unfold postMust
  split
  · exact ClosedKept.refl s
  split
  · exact ClosedKept.refl s
  next e he =>
  have howe : ∀ o mark, o.msg.isBroadcast = false →
      ClosedKept s (s.modEntry t tn fun e => { e with owed := some o, resend := mark }) := fun o mark ho =>
    closedKept_modEntry tn _ fun e _ hlaw => ⟨hlaw.stands, hlaw.waits, fun o' ho' => Option.some.inj ho' ▸ ho⟩
  simp only
  split
  · next o ho =>
    exact howe _ _ (isBroadcast_mergeOwed (((lawsAt_of_lawful hl t).entries tn e he).owes o ho) hm)
  · split
    · refine ClosedKept.trans ?_ (closedKept_enqueue ?_ hm)
      · exact closedKept_milder tn _ fun _ => .of_eq rfl rfl
      · rw [tree_modEntry_same, stage_modEntry]
        exact opened_of_entry hl he
    · exact howe ⟨m, by_⟩ _ hm

theorem chan_postMust (m : Message) (by_ : Issuer) : (postMust t tn m by_ s).state.chan t tag = s.chan t tag := by
  unfold postMust
  split
  · rfl
  split
  · rfl
  simp only
  split
  · exact State.chan_modEntry _ _
  split
  · rw [chan_enqueue, State.chan_modEntry]
  · exact State.chan_modEntry _ _

/-! ### Task Sequencer (chapters 6 and 8) -/

theorem closedKept_raiseDiscStale : ClosedKept s (s.raiseDiscStale t) :=
  ClosedKept.trans (s' := s.modDisc t _) (closedKept_modDisc _ fun h => ⟨h.owned, h.rests⟩) (closedKept_freeIndex _)

theorem closedKept_raiseSeqStale : ClosedKept s (s.raiseSeqStale t) :=
  ClosedKept.trans (s' := s.modSeq t _) (closedKept_modSeq _ fun h => ⟨h.owned, h.rests⟩) (closedKept_freeIndex _)

/-- An operation is replaced while no request is outstanding. -/
theorem activeKept_setOp (o : Option ProbeOp) (h : s.Unasked t .probe) : ActiveKept t s (s.setOp t o) := fun ha =>
  closedKept_modSeq _ fun _ => ⟨fun ho => (nomatch h.symm.trans ho), fun hx => absurd ha hx⟩

theorem chanSend_modSeq (req : Request) (f : Sequencer → Sequencer) :
    chanSend t tag req (s.modSeq t f) = (chanSend t tag req s).modSeq t f := by
  have hchan : (s.modSeq t f).chan t tag = s.chan t tag := chan_modTree (fun _ => rfl) tag
  have hepoch : (s.modSeq t f).epoch = s.epoch := rfl
  simp only [chanSend, hchan, hepoch]
  simp only [sendLink, State.setChan, State.modOut, State.modSeq, modTree_modTree]
  refine modTree_congr ?_
  cases tag <;> rfl

/-- An operation that asks, and its request with it, replace what stood before (R106). -/
theorem activeKept_sendProbe (o : ProbeOp) (pl : Placement) : ActiveKept t s (sendProbe t o pl s) := fun ha => by
  have hsend : sendProbe t o pl s =
      chanSend t .probe { kind := .quiet, length := pl.length, earliest := probeEarliest s.epochInt pl }
        (s.setOp t
          (some { o with phase := .requesting pl (probeEarliest s.epochInt pl), waitStart := o.waitFrom s.epoch })) := by
    rw [State.setOp, chanSend_modSeq]
    rfl
  rw [hsend]
  have hasks : ClosedKept s (s.setOp t
      (some { o with phase := .requesting pl (probeEarliest s.epochInt pl), waitStart := o.waitFrom s.epoch })) :=
    closedKept_modSeq _ fun _ => ⟨fun _ => ⟨_, _, _, rfl, rfl⟩, fun hx => absurd ha hx⟩
  refine hasks.trans (closedKept_chanSend _ ?_)
  rw [State.setOp, tree_modSeq_same]
  exact ⟨_, _, _, rfl, rfl⟩

theorem activeKept_beginAttempt (o : ProbeOp) (h : s.Unasked t .probe) : ActiveKept t s (beginAttempt t o s) := by
  unfold beginAttempt
  split
  · exact activeKept_setOp _ h
  split
  · exact activeKept_sendProbe _ _
  · exact activeKept_setOp _ h
  split
  · exact activeKept_sendProbe _ _
  split
  · exact activeKept_setOp _ h
  · exact activeKept_sendProbe _ _

theorem activeKept_startOp (k : Task) (e : Entry) (h : s.Unasked t .probe) : ActiveKept t s (startOp t k e s) := by
  unfold startOp
  refine ActiveKept.trans ?_ (activeKept_beginAttempt _ (unasked_of_chan h (State.chan_modEntry _ _)))
  refine ClosedKept.active ?_
  exact closedKept_milder k.tn _ fun _ => .of_eq rfl rfl

theorem closedKept_giveUpProbe (o : ProbeOp) : ClosedKept s (giveUpProbe t o s) := by
  unfold giveUpProbe
  split
  · exact ClosedKept.refl s
  · exact ClosedKept.refl s
  · exact closedKept_chanWithdraw _
  · exact (closedKept_withdrawItems _).trans (closedKept_chanRelease _)
  · exact closedKept_raiseSeqStale

theorem chan_raiseSeqStale : (s.raiseSeqStale t).chan t tag = s.chan t tag := by
  rw [State.chan, raiseSeqStale_tree]
  cases tag <;> rfl

/-- An operation that has given up its interval work has no request outstanding (R107). -/
theorem unasked_giveUpProbe {o : ProbeOp} (h : s.Owned t .probe) (ho : (s.tree t).seq.op = some o) :
    (giveUpProbe t o s).Unasked t .probe := by
  cases hp : o.phase with
  | held | waitDelay =>
    simp only [giveUpProbe, hp]
    exact unasked_of_phase h ho hp nofun
  | requesting pl qe =>
    simp only [giveUpProbe, hp]
    exact unasked_chanWithdraw
  | posted pl qe qs g =>
    simp only [giveUpProbe, hp]
    exact unasked_chanRelease (unasked_of_chan (unasked_of_phase h ho hp nofun) (chan_withdrawItems _ _))
  | listening pl qe qs g ec =>
    simp only [giveUpProbe, hp]
    exact unasked_of_chan (unasked_of_phase h ho hp nofun) chan_raiseSeqStale

theorem closedKept_discardOp (h : s.Unasked t .probe) : ClosedKept s (discardOp t s) := by
  unfold discardOp
  split
  · exact ClosedKept.refl s
  · next o _ =>
    refine ClosedKept.trans (s' := s.modEntry t o.tn _) (closedKept_milder o.tn _ fun e => ?_)
      (closedKept_modSeq _ fun hlaw => ⟨fun hout => ?_, fun hx => ⟨rfl, (hlaw.rests hx).2⟩⟩)
    · split
      · exact .of_eq rfl rfl
      · exact .of_eq rfl rfl
    · exact nomatch (unasked_of_chan h (State.chan_modEntry _ _)).symm.trans hout

theorem closedKept_abandonOp : ClosedKept s (abandonOp t s) := by
  refine .given fun hl => ?_
  unfold abandonOp
  split
  · exact ClosedKept.refl s
  · next o ho => exact (closedKept_giveUpProbe o).trans (closedKept_discardOp (unasked_giveUpProbe hl.requestsOwned ho))

theorem closedKept_setTasks (l : List Task) (h : (s.tree t).seq.tasks = [] → l = []) : ClosedKept s (s.setTasks t l) :=
  closedKept_modSeq _ fun hlaw => ⟨hlaw.owned, fun hx => by
    obtain ⟨hop, htasks, hsweep⟩ := hlaw.rests hx
    exact ⟨hop, h htasks, hsweep⟩⟩

theorem activeKept_setTasks (l : List Task) : ActiveKept t s (s.setTasks t l) := fun ha =>
  closedKept_modSeq _ fun hlaw => ⟨hlaw.owned, fun hx => absurd ha hx⟩

/-- A waiting entry stands on an ACTIVE tree, which alone is given tasks (R141). -/
theorem closedKept_refill : ClosedKept s (refill t s) := by
  refine ClosedKept.foldl _ (fun s tn => .given fun hl => ?_) _ _
  unfold refillOne
  split
  · split
    · next e he =>
      obtain ⟨he, hw⟩ := Option.filter_eq_some_iff.1 he
      have ha := ((lawsAt_of_lawful hl t).entries tn e he).waits hw
      have hqueued : ClosedKept s (s.modEntry t tn fun e => { e with waiting := false }) :=
        closedKept_milder tn _ fun e => ⟨nofun, fun _ => id⟩
      exact hqueued.active.trans (activeKept_setTasks _) ha
    · exact ClosedKept.refl s
  · exact ClosedKept.refl s

theorem unasked_refill (h : s.Unasked t .probe) : (refill t s).Unasked t .probe := unasked_of_chan h (chan_refill _)

/-- Tasks are taken behind an open gate with no operation in flight (R143, R144). -/
theorem closedKept_takeTasks : ClosedKept s (takeTasks t s) := by
  unfold takeTasks
  generalize takeBound = n
  induction n generalizing s with
  | zero => exact ClosedKept.refl s
  | succ n ih =>
    unfold takeLoop
    split
    · next hmay =>
      split
      · exact ClosedKept.refl s
      · next k rest _ =>
        obtain ⟨⟨hidle, -⟩, hgate⟩ := by simpa only [Tree.mayTake, Bool.and_eq_true] using hmay
        have ha := stage_of_gateOpen hgate
        refine .given fun hl => ?_
        have hunasked : (refill t (s.setTasks t rest)).Unasked t .probe := by
          refine unasked_refill (unasked_of_chan (unasked_of_not_asks hl.requestsOwned ?_) (chan_setTasks _ _))
          rintro ⟨o, -, -, ho, -⟩
          rw [ho] at hidle
          cases hidle
        have htaken : ActiveKept t s (refill t (s.setTasks t rest)) :=
          (activeKept_setTasks rest).trans closedKept_refill.active
        simp only
        split
        · exact htaken.trans (activeKept_startOp _ _ hunasked) ha
        · exact htaken.trans ih.active ha
    · exact ClosedKept.refl s

theorem closedKept_withdrawn (tn : Nat) (inst : BitVec 16) : ClosedKept s (withdrawn t tn inst s) := by
  have htasks : ClosedKept s (s.setTasks t ((s.tree t).seq.tasks.filter fun k => k.tn ≠ tn)) :=
    closedKept_setTasks _ fun h => by rw [h]; rfl
  unfold withdrawn
  simp only
  refine ClosedKept.trans ?_ (closedKept_refill.trans closedKept_takeTasks)
  split
  · split
    · exact htasks.trans closedKept_abandonOp
    · exact htasks
  · exact htasks

/-- A tree that may hold entries and is not CLOSING, where a task is refused, is ACTIVE (R139). -/
theorem closedKept_judgeTask (k : Task) (h : (s.tree t).stage.opened = true) : ClosedKept s (judgeTask t k s).state := by
  unfold judgeTask
  simp only
  split
  · exact ClosedKept.refl s
  next hclosing =>
  have ha : (s.tree t).stage = .active := by
    rw [Tree.stage] at h ⊢
    cases hst : (s.tree t).ctl.state with
    | active => rfl
    | closing => exact absurd (by simp [Tree.isClosing, hst]) hclosing
    | closed | calibrating => rw [hst] at h; cases h
  split
  · exact ClosedKept.refl s
  split
  · split
    · exact activeKept_setTasks _ ha
    · exact ClosedKept.refl s
  split
  · exact activeKept_setTasks _ ha
  split
  · split
    · exact closedKept_modEntry k.tn _ fun e _ hlaw => ⟨hlaw.stands, fun _ => ha, hlaw.owes⟩
    · exact (activeKept_setTasks _).trans closedKept_refill.active ha
  · exact ClosedKept.refl s

theorem closedKept_addTask (k : Task) (h : (s.tree t).stage.opened = true) : ClosedKept s (addTask t k s).state :=
  (closedKept_judgeTask k h).trans closedKept_takeTasks

theorem closedKept_finishOp (h : s.Unasked t .probe) : ClosedKept s (finishOp t s) :=
  (closedKept_discardOp h).trans closedKept_takeTasks

end

end Sys2Proof.Machine
end

section
/-! PROOF. Law 12 through the blocks of a tree (O11): the Discovery Unit, the Terminal Registry, the Light Monitor, the Admission
Unit, the Drift Tracker, the probe operation, and the responses on the request channels. -/

namespace Sys2Proof.Machine

section
variable {s s' s'' : State} {t : TreeId} {tn : Nat} {tag : Tag}

/-- The second of two operations may use that the first has left the tree in its state. -/
theorem ClosedKept.andThen (t : TreeId) (h : ClosedKept s s')
    (k : (s'.tree t).stage = (s.tree t).stage → ClosedKept s' s'') : ClosedKept s s'' := fun hl =>
  h.trans (k ((h hl).2 t)) hl

/-! ### Discovery Unit (chapter 5) -/

/-- The Discovery Unit changes while no window is asked for. -/
theorem activeKept_modDisc (f : Discovery → Discovery) (h : s.Unasked t .window) : ActiveKept t s (s.modDisc t f) :=
  fun ha => closedKept_modDisc _ fun _ => ⟨fun ho => (nomatch h.symm.trans ho), fun hx => absurd ha hx⟩

theorem activeKept_setDisc (d : DiscState) (h : s.Unasked t .window) : ActiveKept t s (s.setDisc t d) :=
  activeKept_modDisc _ h

/-- A window that asks, and its request with it, replace what stood before (R82). -/
theorem activeKept_sendWindow (w : Context) : ActiveKept t s (sendWindow t w s) := fun ha => by
  have hsend : sendWindow t w s =
      chanSend t .window (windowRequest t w s)
        (s.setDisc t (.requesting w (windowEarliest (s.params t) s.epochInt))) := by
    rw [State.setDisc, chanSend_modDisc]
    rfl
  have hasks : ClosedKept s (s.setDisc t (.requesting w (windowEarliest (s.params t) s.epochInt))) :=
    closedKept_modDisc _ fun _ => ⟨fun _ => ⟨_, _, rfl⟩, fun hx => absurd ha hx⟩
  rw [hsend]
  refine hasks.trans (closedKept_chanSend _ ?_)
  rw [State.setDisc, tree_modDisc_same]
  exact ⟨_, _, rfl⟩

/-- A window starts behind an open gate (R81). -/
theorem closedKept_startWindow : ClosedKept s (startWindow t s) := by
  unfold startWindow
  split
  · next hgate =>
    have ha := stage_of_gateOpen hgate
    split
    · exact activeKept_sendWindow _ ha
    · split
      · exact ClosedKept.refl s
      · refine ActiveKept.trans ?_ (activeKept_sendWindow _) ha
        exact fun _ => closedKept_modDisc _ fun h => ⟨h.owned, fun hx => absurd ha hx⟩
    all_goals exact ClosedKept.refl s
  · exact ClosedKept.refl s

theorem activeKept_endCycle (w : Context) (h : s.Unasked t .window) : ActiveKept t s (endCycle t w s) := by
  unfold endCycle
  exact activeKept_modDisc _ h

theorem activeKept_deferWindow (w : Context) (h : s.Unasked t .window) : ActiveKept t s (deferWindow t w s) := by
  unfold deferWindow
  split
  · exact activeKept_endCycle w h
  · exact activeKept_setDisc _ h

theorem activeKept_discLeavesQuiet : ActiveKept t s (discLeavesQuiet t s) := fun ha => .given fun hl => by
  unfold discLeavesQuiet
  split
  · exact (closedKept_chanWithdraw _).active.trans (activeKept_deferWindow _ unasked_chanWithdraw) ha
  · next w _ _ _ hd =>
    have hidle := unasked_of_window hl.requestsOwned hd nofun
    exact ((closedKept_withdrawItems _).trans (closedKept_chanRelease _)).active.trans
      (activeKept_deferWindow _ (unasked_chanRelease (unasked_of_chan hidle (chan_withdrawItems _ _)))) ha
  all_goals exact ClosedKept.refl s

theorem chan_raiseDiscStale : (s.raiseDiscStale t).chan t tag = s.chan t tag :=
  chan_modTree (f := fun T => { T with disc := { T.disc with stale := s.raisedStale T.disc.stale } }) (fun _ => rfl) tag

/-- A window that stands on a slip is that of an ACTIVE tree (R96). -/
theorem closedKept_discSlip : ClosedKept s (discSlip t s) := by
  refine .given fun hl => ?_
  unfold discSlip
  split
  · next hd =>
    have ha := active_of_window hl hd nofun nofun
    exact (closedKept_chanWithdraw _).active.trans (activeKept_sendWindow _) ha
  · next hd =>
    have ha := active_of_window hl hd nofun nofun
    exact ((closedKept_withdrawItems _).trans (closedKept_chanRelease _)).active.trans (activeKept_sendWindow _) ha
  · next hd =>
    have ha := active_of_window hl hd nofun nofun
    have hidle := unasked_of_window hl.requestsOwned hd nofun
    simp only
    split
    · exact (closedKept_raiseDiscStale.trans (closedKept_report _)).active.trans (activeKept_sendWindow _) ha
    · exact (closedKept_raiseDiscStale.trans (closedKept_report _)).active.trans
        (activeKept_setDisc _ (unasked_of_chan hidle chan_raiseDiscStale)) ha
  all_goals exact ClosedKept.refl s

theorem closedKept_inviteDispatched (d : Nat) : ClosedKept s (inviteDispatched t d s) := by
  refine .given fun hl => ?_
  unfold inviteDispatched
  split
  · next hd =>
    exact activeKept_setDisc _ (unasked_of_window hl.requestsOwned hd nofun)
      (active_of_window hl hd nofun nofun)
  all_goals exact ClosedKept.refl s

theorem closedKept_inviteExpired : ClosedKept s (inviteExpired t s) := by
  refine .given fun hl => ?_
  unfold inviteExpired
  split
  · next hd =>
    exact closedKept_raiseDiscStale.active.trans (activeKept_sendWindow _)
      (active_of_window hl hd nofun nofun)
  all_goals exact ClosedKept.refl s

/-- A grant is judged while its channel holds it, with no request outstanding (R83). -/
theorem closedKept_windowGranted (qs : Int) (h : s.Unasked t .window) : ClosedKept s (windowGranted t qs s) := by
  refine .given fun hl => ?_
  unfold windowGranted
  split
  · next w qe hd =>
    have ha := active_of_window hl hd nofun nofun
    have hagain : ClosedKept s (sendWindow t w (chanRelease t .window s)) :=
      (closedKept_chanRelease _).active.trans (activeKept_sendWindow _) ha
    simp only
    split
    · exact hagain
    split
    · exact hagain
    split
    · exact (closedKept_postGated (opened_of_active ha) rfl).active.trans
        (activeKept_modDisc _ (unasked_of_chan h (chan_postGated _))) ha
    all_goals exact hagain
  all_goals exact ClosedKept.refl s

theorem closedKept_windowEnd : ClosedKept s (windowEnd t s) := by
  refine .given fun hl => ?_
  unfold windowEnd
  split
  · exact closedKept_modDisc _ fun h => ⟨h.owned, h.rests⟩
  split
  · next hd =>
    have ha := active_of_window hl hd nofun nofun
    have hidle := unasked_of_window hl.requestsOwned hd nofun
    unfold closeWindow
    simp only
    split
    · exact ((activeKept_modDisc _ hidle).trans (closedKept_startWindow.trans (closedKept_report _)).active) ha
    · exact (activeKept_endCycle _ hidle).trans (closedKept_report _).active ha
  all_goals exact ClosedKept.refl s

/-! ### The Admission Unit's lists (R69..R75) -/

theorem closedKept_removePending (serial : Serial) : ClosedKept s (removePending t serial s) :=
  closedKept_modPending _ fun _ _ => rfl

theorem closedKept_pendingReport (ev : AdmitEvent) (o : AdmitOutcome) (r : PendingRec) (tn : Nat) (other : Option TreeId) :
    ClosedKept s (pendingReport t ev o r tn other s) := closedKept_report _

theorem closedKept_admissionReport (ev : AdmitEvent) (o : AdmitOutcome) (serial : Serial) (model : BitVec 16) (c : Int)
    (origins : Option Origins) (tn : Nat) (other : Option TreeId) :
    ClosedKept s (admissionReport t ev o serial model c origins tn other s) := closedKept_report _

theorem closedKept_supersede (ev : AdmitEvent) (tn : Nat) (serial : Serial) : ClosedKept s (supersede ev t tn serial s) := by
  refine ClosedKept.foldl _ (fun s o => ?_) _ _
  unfold supersedeOne
  split
  · exact ClosedKept.refl s
  · split
    · exact (closedKept_removePending _).trans (closedKept_pendingReport _ _ _ _ _)
    · exact ClosedKept.refl s

theorem closedKept_pendingHolds : ClosedKept s (pendingHolds t s) := by
  unfold pendingHolds
  refine ClosedKept.trans ?_ (ClosedKept.foldl _ (fun _ _ => closedKept_pendingReport _ _ _ _ _) _ _)
  exact closedKept_modPending _ fun _ _ => rfl

/-! ### Terminal Registry (chapter 3) -/

theorem closedKept_terminalOff (tn : Nat) : ClosedKept s (terminalOff t tn s) :=
  (closedKept_modAir _).trans (closedKept_sendLink _)

theorem closedKept_terminalOn (tn : Nat) (prof : Profile) : ClosedKept s (terminalOn t tn prof s) :=
  (closedKept_modAir _).trans (closedKept_sendLink _)

theorem ClosedKept.ite {c : Prop} [Decidable c] (h : ClosedKept s s') : ClosedKept s (if c then s' else s) := by
  split
  · exact h
  · exact ClosedKept.refl s

theorem closedKept_transit (tn : Nat) (cause : Cause) {f : Entry → Entry} (h : ∀ e : Entry, e.Milder (f e)) :
    ClosedKept s (transit t tn cause f s) := by
  unfold transit
  split
  · exact ClosedKept.refl s
  · simp only
    refine ClosedKept.trans ?_ (closedKept_report _)
    refine ClosedKept.trans ?_ (closedKept_terminalOn _ _).ite
    refine ClosedKept.trans ?_ (closedKept_milder tn f h)
    exact (closedKept_terminalOff _).ite

theorem chan_ite {c : Prop} [Decidable c] (h : s'.chan t tag = s.chan t tag) :
    (if c then s' else s).chan t tag = s.chan t tag := by
  split
  · exact h
  · rfl

theorem chan_modAir (f : List Nat → List Nat) : (s.modAir t f).chan t tag = s.chan t tag := chan_modTree (fun _ => rfl) tag

theorem chan_transit (cause : Cause) (f : Entry → Entry) : (transit t tn cause f s).chan t tag = s.chan t tag := by
  unfold transit
  split
  · rfl
  · next e _ =>
    refine (chan_ite ?_).trans ((State.chan_modEntry f tag).trans (chan_ite ?_))
    · rw [terminalOn, chan_sendLink, chan_modAir]
    · rw [terminalOff, chan_sendLink, chan_modAir]

theorem milder_toRetiring (e : Entry) : e.Milder e.toRetiring := ⟨nofun, fun _ => id⟩

theorem milder_toLost (hold : Nat) (e : Entry) : e.Milder (e.toLost hold) := ⟨nofun, fun _ => id⟩

theorem milder_toMuted (c : MuteCause) (e : Entry) : e.Milder (e.toMuted c) := ⟨nofun, fun _ => id⟩

theorem milder_toRanging (fresh : Nat) (e : Entry) : e.Milder (e.toRanging fresh) := .of_eq rfl rfl

theorem milder_toOperating (settle : Nat) (e : Entry) : e.Milder (e.toOperating settle) := .of_eq rfl rfl

theorem milder_reactivated (inst : BitVec 16) (d : Nat) (c : Int) (e : Entry) : e.Milder (e.reactivated inst d c) :=
  ⟨id, nofun⟩

theorem milder_modDrift (e : Entry) (g : Drift → Drift) : e.Milder (e.modDrift g) := by
  unfold Entry.modDrift
  split
  · exact .of_eq rfl rfl
  · exact .of_eq rfl rfl

theorem closedKept_enterRetiring (tn : Nat) (cause : Cause) : ClosedKept s (enterRetiring t tn cause s) := by
  unfold enterRetiring
  split
  · exact ClosedKept.refl s
  · exact ((closedKept_transit tn cause milder_toRetiring).trans (closedKept_withdrawn _ _)).trans
      (closedKept_postMust _ _ rfl)

theorem closedKept_enterLost (tn : Nat) (cause : Cause) : ClosedKept s (enterLost t tn cause s) := by
  unfold enterLost
  split
  · exact ClosedKept.refl s
  · exact (closedKept_transit tn cause (milder_toLost _)).trans (closedKept_withdrawn _ _)

theorem closedKept_loseOrRetire (tn : Nat) (cause : Cause) : ClosedKept s (loseOrRetire t tn cause s) := by
  unfold loseOrRetire
  split
  · exact ClosedKept.refl s
  · split
    · exact closedKept_enterLost tn cause
    · exact closedKept_enterRetiring tn cause

theorem closedKept_freeEntry (tn : Nat) (cause : Cause) : ClosedKept s (freeEntry t tn cause s) := by
  cases he : s.entry? t tn with
  | none => rw [freeEntry, he]
  | some e =>
    rw [freeEntry_eq he]
    refine ClosedKept.trans ?_ (closedKept_withdrawn _ _)
    have hfreed : ClosedKept (s.report t (.terminal tn e.inst e.serial (some e.state.name) none cause))
        ((s.report t (.terminal tn e.inst e.serial (some e.state.name) none cause)).modTree t fun T =>
          T.setSlot tn { inst := T.slotInst tn, entry := none }) :=
      closedKept_setSlot tn _ fun _ _ he => nomatch he
    exact ((closedKept_report _).trans hfreed).trans (.of_trees rfl)

theorem closedKept_slotFilled {e : Entry} (h : EntryLaw (s.tree t).stage e) : ClosedKept s (slotFilled t tn e s) := by
  have hset : ClosedKept s (s.modTree t fun T => T.setSlot tn { inst := e.inst, entry := some e }) :=
    closedKept_setSlot tn _ fun _ x hx => Option.some.inj hx ▸ h
  exact hset.trans (.of_trees rfl)

/-- An entry is created on an ACTIVE tree alone (R41). -/
theorem closedKept_createEntry (serial : Serial) (model : BitVec 16) (c : Int) (prof : Profile) :
    ClosedKept s (createEntry t serial model c prof s).state := by
  unfold createEntry
  split
  · exact ClosedKept.refl s
  next hactive =>
  have ha : (s.tree t).stage = .active := stage_of_isActive (by simpa using hactive)
  split
  · exact ClosedKept.refl s
  split
  · exact ClosedKept.refl s
  next tn _ =>
  simp only
  split
  · refine ClosedKept.trans ?_ (closedKept_report _)
    have hassigned := closedKept_postGated (it := assignItem tn serial ((s.tree t).slotInst tn + 1)) (opened_of_active ha) rfl
    refine hassigned.andThen t fun hstage => ?_
    exact closedKept_slotFilled (e := newEntry ((s.tree t).slotInst tn + 1) (s.budgetEnd t) serial model c prof)
      ⟨opened_of_active (hstage.trans ha), nofun, nofun⟩
  all_goals exact ClosedKept.refl s

/-- A serial found LOST on its own tree has an entry there (R45). -/
theorem closedKept_reactivate (tn : Nat) (serial : Serial) (c : Int) (h : (s.tree t).stage.opened = true) :
    ClosedKept s (reactivate t tn serial c s).state := by
  unfold reactivate
  simp only
  split
  · refine ClosedKept.trans ?_ (closedKept_setSlot tn _ fun hT e he => hT.entries tn e he)
    exact (closedKept_postGated h rfl).trans (closedKept_transit tn _ (milder_reactivated _ _ _))
  all_goals exact ClosedKept.refl s

theorem closedKept_serialCheck (serial : Serial) (c : Int) : ClosedKept s (serialCheck t serial c s).state := by
  refine .given fun hl => ?_
  unfold serialCheck
  split
  · exact ClosedKept.refl s
  · next d _ =>
    split
    · next hlost =>
      obtain ⟨e, he, -⟩ := Option.map_eq_some_iff.1 hlost
      split
      · next ht => exact closedKept_reactivate _ _ _ (opened_of_entry hl (ht ▸ he))
      · exact closedKept_freeEntry _ _
    · exact ClosedKept.refl s

theorem closedKept_huntMute (c : Candidate) : ClosedKept s (huntMute t c s) :=
  ((closedKept_transit _ _ (milder_toMuted _)).trans (closedKept_withdrawn _ _)).trans (closedKept_postMust _ _ rfl)

theorem closedKept_huntRelease (c : Candidate) : ClosedKept s (huntRelease t c s) := by
  unfold huntRelease
  split
  · exact ClosedKept.refl s
  split
  · refine ClosedKept.trans ?_ (closedKept_postMust _ _ rfl)
    exact closedKept_milder _ _ fun _ => .of_eq rfl rfl
  · exact ClosedKept.refl s

theorem closedKept_huntClear (tn : Nat) (inst : BitVec 16) (d : Nat) : ClosedKept s (huntClear t tn inst d s) := by
  unfold huntClear
  split
  · exact ClosedKept.refl s
  split
  · exact closedKept_transit _ _ (milder_toOperating _)
  · exact ClosedKept.refl s

/-! ### Light Monitor (chapter 10) -/

/-- The Light Monitor of an ACTIVE tree changes beside its check. -/
theorem activeKept_modLight (f : LightMonitor → LightMonitor) (h : ∀ l, (f l).check = l.check) :
    ActiveKept t s (s.modLight t f) := fun ha =>
  closedKept_modLight _ fun hlaw => ⟨fun ho => (h _).symm ▸ hlaw.owned ho, fun hx => absurd ha hx⟩

/-- A check is replaced while no request is outstanding. -/
theorem activeKept_setCheck (c : Option Check) (h : s.Unasked t .silence) :
    ActiveKept t s (s.modLight t fun l => { l with check := c }) := fun ha =>
  closedKept_modLight _ fun _ => ⟨fun ho => (nomatch h.symm.trans ho), fun hx => absurd ha hx⟩

/-- A check that asks, and its request with it, replace what stood before (R164). -/
theorem activeKept_sendCheck (p : Purpose) : ActiveKept t s (sendCheck t p s) := fun ha => by
  have hsend : sendCheck t p s =
      chanSend t .silence
        { kind := .silence, length := (s.params t).silenceLen, earliest := silenceEarliest s.epochInt }
        (s.modLight t fun l =>
          { l with check := some { purpose := p, qe := silenceEarliest s.epochInt, phase := .requesting } }) := by
    rw [chanSend_modLight]
    rfl
  have hasks : ClosedKept s (s.modLight t fun l =>
      { l with check := some { purpose := p, qe := silenceEarliest s.epochInt, phase := .requesting } }) :=
    closedKept_modLight _ fun _ => ⟨fun _ => ⟨_, _, rfl⟩, fun hx => absurd ha hx⟩
  rw [hsend]
  refine hasks.trans (closedKept_chanSend _ ?_)
  rw [tree_modLight_same]
  exact ⟨_, _, rfl⟩

theorem active_of_check {c : Check} (hl : s.ClosedLawful) (h : (s.tree t).light.check = some c) :
    (s.tree t).stage = .active :=
  active_of_light hl fun hreset => by
    rw [hreset] at h
    cases h

theorem active_of_hunt {h : Hunt} (hl : s.ClosedLawful) (hh : (s.tree t).light.hunt = some h) :
    (s.tree t).stage = .active :=
  active_of_light hl fun hreset => by
    rw [hreset] at hh
    cases hh

theorem activeKept_raiseLightStale : ActiveKept t s (s.raiseLightStale t) := by
  unfold State.raiseLightStale
  refine ActiveKept.trans ?_ (closedKept_freeIndex _).active
  exact activeKept_modLight _ fun _ => rfl

theorem chan_raiseLightStale : (s.raiseLightStale t).chan t tag = s.chan t tag :=
  chan_modTree (f := fun T => { T with light := { T.light with stale := s.raisedStale T.light.stale } }) (fun _ => rfl) tag

theorem closedKept_giveUpCheck : ClosedKept s (giveUpCheck t s) := by
  refine .given fun hl => ?_
  unfold giveUpCheck
  split
  · exact ClosedKept.refl s
  · next c hc =>
    obtain ⟨p, qe, phase⟩ := c
    have ha := active_of_check hl hc
    cases phase with
    | requesting =>
      exact (closedKept_chanWithdraw _).active.trans (activeKept_setCheck none unasked_chanWithdraw) ha
    | listening qs n =>
      exact activeKept_raiseLightStale.trans
        (activeKept_setCheck none (unasked_of_chan (unasked_of_listening hl.requestsOwned hc) chan_raiseLightStale)) ha

theorem activeKept_setLight (new : Light) (strikes : Nat) (cause : LightCause) (raw : Int) :
    ActiveKept t s (setLight t new strikes cause raw s) := by
  have hset : ActiveKept t s (s.modLight t fun l => { l with light := new, strikes := strikes }) :=
    activeKept_modLight _ fun _ => rfl
  unfold setLight
  simp only
  refine ActiveKept.trans ?_ (closedKept_report _).active
  split
  · exact hset.trans activeKept_discLeavesQuiet
  · split
    · exact hset.trans (closedKept_startWindow.trans closedKept_takeTasks).active
    · exact hset

theorem closedKept_huntReport (o : HuntOutcome) (h : Hunt) (tn : Nat) (inst : BitVec 16) :
    ClosedKept s (huntReport t o h tn inst s) := closedKept_report _

theorem activeKept_huntUnresolved (h : Hunt) : ActiveKept t s (huntUnresolved t h s) := by
  unfold huntUnresolved
  refine ActiveKept.trans ?_ (closedKept_huntReport _ _ _ _).active
  exact activeKept_modLight _ fun _ => rfl

theorem activeKept_huntNext (l : List Candidate) (h : Hunt) : ActiveKept t s (huntNext t h l s) := by
  induction l generalizing h s with
  | nil => exact activeKept_huntUnresolved h
  | cons c rest ih =>
    unfold huntNext
    split
    · refine ActiveKept.trans ?_ (closedKept_huntMute c).active
      exact activeKept_modLight _ fun _ => rfl
    · exact ih _

theorem activeKept_startHunt : ActiveKept t s (startHunt t s) := by
  unfold startHunt
  simp only
  refine ActiveKept.trans ?_ (activeKept_huntNext _ _)
  refine ActiveKept.trans ?_ (closedKept_huntReport _ _ _ _).active
  exact activeKept_modLight _ fun _ => rfl

theorem activeKept_becomeSuspect (strikes : Nat) (cause : LightCause) (raw : Int) :
    ActiveKept t s (becomeSuspect t strikes cause raw s) :=
  (closedKept_giveUpCheck.active.trans (activeKept_setLight _ _ _ _)).trans activeKept_startHunt

theorem active_of_quiet (hl : s.ClosedLawful) (h : (s.tree t).light.light = .quiet) : (s.tree t).stage = .active :=
  active_of_light hl fun hreset => by
    rw [hreset] at h
    cases h

theorem activeKept_strike (raw : Int) : ActiveKept t s (strike t raw s) := by
  have hstruck : ∀ n, ActiveKept t s (s.modLight t fun l => { l with strikes := n }) := fun n =>
    activeKept_modLight _ fun _ => rfl
  unfold strike
  simp only
  split
  · exact activeKept_becomeSuspect _ _ _
  split
  · exact (hstruck _).trans (activeKept_sendCheck _)
  · exact hstruck _

theorem closedKept_unexplained (raw : Int) : ClosedKept s (unexplained t raw s) := by
  refine .given fun hl => ?_
  unfold unexplained
  split
  · next hq => exact activeKept_strike raw (active_of_quiet hl hq)
  · exact ClosedKept.refl s

theorem closedKept_continuous (raw : Int) : ClosedKept s (continuous t raw s) := by
  refine .given fun hl => ?_
  unfold continuous
  split
  · next hq => exact activeKept_becomeSuspect _ _ _ (active_of_quiet hl hq)
  · exact ClosedKept.refl s

theorem activeKept_becomeQuiet (cause : LightCause) : ActiveKept t s (becomeQuiet t cause s) := activeKept_setLight _ _ _ _

theorem activeKept_strikeFailed : ActiveKept t s (strikeFailed t s) := by
  unfold strikeFailed
  simp only
  split
  · exact activeKept_becomeSuspect _ _ _
  · exact activeKept_modLight _ fun _ => rfl

theorem activeKept_huntFound (h : Hunt) : ActiveKept t s (huntFound t h s) := by
  unfold huntFound
  refine ActiveKept.trans ?_ (activeKept_becomeQuiet _)
  refine ActiveKept.trans ?_ (closedKept_huntReport _ _ _ _).active
  exact activeKept_modLight _ fun _ => rfl

theorem activeKept_checkEnded (p : Purpose) (passed : Bool) : ActiveKept t s (checkEnded t p passed s) := by
  unfold checkEnded
  split
  · exact activeKept_becomeQuiet _
  · exact activeKept_modLight _ fun _ => rfl
  · exact activeKept_modLight _ fun _ => rfl
  · exact activeKept_strikeFailed
  · split
    · split
      · exact activeKept_huntFound _
      · exact (closedKept_huntRelease _).active.trans (activeKept_huntNext _ _)
    · exact (ClosedKept.refl s).active
  · refine ActiveKept.trans ?_ (activeKept_becomeQuiet _)
    exact activeKept_modLight _ fun _ => rfl
  · exact activeKept_modLight _ fun _ => rfl

theorem closedKept_silenceBurst : ClosedKept s (silenceBurst t s) := by
  refine .given fun hl => ?_
  unfold silenceBurst
  simp only
  split
  · exact ClosedKept.refl s
  split
  · next hc => exact activeKept_setCheck _ (unasked_of_listening hl.requestsOwned hc) (active_of_check hl hc)
  · exact ClosedKept.refl s

theorem closedKept_silenceEnd : ClosedKept s (silenceEnd t s) := by
  refine .given fun hl => ?_
  unfold silenceEnd
  simp only
  split
  · next hstale =>
    refine activeKept_modLight _ (fun _ => rfl) (active_of_light hl fun hreset => hstale ?_)
    rw [hreset]
    rfl
  split
  · next hc =>
    exact (activeKept_setCheck none (unasked_of_listening hl.requestsOwned hc)).trans (activeKept_checkEnded _ _) (active_of_check hl hc)
  · exact ClosedKept.refl s

theorem closedKept_silenceGranted (qs : Int) (h : s.Unasked t .silence) : ClosedKept s (silenceGranted t qs s) := by
  refine .given fun hl => ?_
  unfold silenceGranted
  split
  · next hc =>
    have ha := active_of_check hl hc
    split
    · exact (closedKept_chanRelease _).active.trans (activeKept_sendCheck _) ha
    · exact activeKept_setCheck _ h ha
  · exact ClosedKept.refl s

theorem closedKept_huntMuteDispatched (tn : Nat) (inst : BitVec 16) (d : Nat) :
    ClosedKept s (huntMuteDispatched t tn inst d s) := by
  refine .given fun hl => ?_
  unfold huntMuteDispatched
  split
  · next hh =>
    split
    · exact activeKept_modLight _ (fun _ => rfl) (active_of_hunt hl hh)
    · exact ClosedKept.refl s
  · exact ClosedKept.refl s

theorem closedKept_giveUpHuntCheck : ClosedKept s (giveUpHuntCheck t s) := by
  unfold giveUpHuntCheck
  split
  · exact closedKept_giveUpCheck.ite
  · exact ClosedKept.refl s

theorem closedKept_candidateLeft (tn : Nat) (inst : BitVec 16) : ClosedKept s (candidateLeft t tn inst s) := by
  refine .given fun hl => ?_
  unfold candidateLeft
  split
  · next hh =>
    split
    · exact closedKept_giveUpHuntCheck.active.trans (activeKept_huntNext _ _) (active_of_hunt hl hh)
    · exact ClosedKept.refl s
  · exact ClosedKept.refl s

theorem closedKept_lightSlip : ClosedKept s (lightSlip t s) := by
  refine .given fun hl => ?_
  unfold lightSlip
  split
  · next hc => exact closedKept_giveUpCheck.active.trans (activeKept_sendCheck _) (active_of_check hl hc)
  · exact ClosedKept.refl s

/-! ### Drift Tracker (chapter 7) -/

/-- An entry that moves has its tree open to entries, so its task is judged there (R129). -/
theorem closedKept_moveToRanging (tn : Nat) (cause : Cause) (kind : TaskKind) :
    ClosedKept s (moveToRanging t tn cause kind s) := by
  refine .given fun hl => ?_
  unfold moveToRanging
  split
  · exact ClosedKept.refl s
  · next e he =>
    exact (closedKept_transit tn cause (milder_toRanging _)).andThen t fun hstage =>
      closedKept_addTask _ (hstage ▸ opened_of_entry hl he)

theorem closedKept_postNudge (tn ld : Nat) (r change : Int) : ClosedKept s (postNudge t tn ld r change s).state := by
  unfold postNudge
  refine ClosedKept.trans ?_ (closedKept_postMust _ _ rfl)
  refine closedKept_milder tn _ fun e => ?_
  obtain ⟨hwaits, howes⟩ := milder_modDrift { e with ld := ld, r := some r } fun d => { d with settle := .notYet }
  exact ⟨hwaits, howes⟩

theorem closedKept_driftCorrection (tn : Nat) (e : Entry) (a : Int) : ClosedKept s (driftCorrection t tn e a s) := by
  unfold driftCorrection
  simp only
  split
  · exact closedKept_moveToRanging _ _ _
  split
  · exact closedKept_moveToRanging _ _ _
  split
  · refine ClosedKept.trans ?_ (closedKept_report _)
    exact closedKept_milder tn _ fun _ => .of_eq rfl rfl
  · exact (closedKept_postNudge _ _ _ _).trans (closedKept_report _)

theorem closedKept_modDrift (tn : Nat) (g : Drift → Drift) : ClosedKept s (s.modEntry t tn fun e => e.modDrift g) :=
  closedKept_milder tn _ fun e => milder_modDrift e g

theorem closedKept_judgeAverage (tn : Nat) (e : Entry) (a : Int) : ClosedKept s (judgeAverage t tn e a s) := by
  unfold judgeAverage
  split
  · exact ClosedKept.refl s
  split
  · exact closedKept_driftCorrection _ _ _
  · exact closedKept_moveToRanging _ _ _

theorem closedKept_driftSample (tn : Nat) (e : Entry) (d : Drift) (x : Int) : ClosedKept s (driftSample t tn e d x s) := by
  unfold driftSample
  split
  · exact closedKept_moveToRanging _ _ _
  split
  · exact closedKept_modDrift tn _
  · exact (closedKept_modDrift tn _).trans (closedKept_judgeAverage _ _ _)

theorem closedKept_driftBurst (tn : Nat) (e : Entry) (g a : Int) : ClosedKept s (driftBurst t tn e g a s) := by
  unfold driftBurst
  split
  · exact ClosedKept.refl s
  split
  · exact ClosedKept.refl s
  · simp only
    split
    · exact (closedKept_modDrift tn _).trans (closedKept_driftSample _ _ _ _)
    · exact closedKept_modDrift tn _

theorem closedKept_driftMiss (tn : Nat) (e : Entry) : ClosedKept s (driftMiss t tn e s) := by
  unfold driftMiss
  split
  · exact ClosedKept.refl s
  split
  · exact ClosedKept.refl s
  split
  · exact closedKept_enterLost _ _
  · exact closedKept_modDrift tn _

theorem closedKept_nudgeDispatched (tn : Nat) (inst : BitVec 16) (d : Nat) :
    ClosedKept s (nudgeDispatched t tn inst d s) := by
  unfold nudgeDispatched
  split
  · exact ClosedKept.refl s
  split
  · exact closedKept_milder tn _ fun e => milder_modDrift e _
  · exact ClosedKept.refl s

theorem closedKept_driftSlip : ClosedKept s (driftSlip t s) := closedKept_mapEntries _ fun e => milder_modDrift e _

/-! ### The probe operation (chapter 6) -/

theorem activeKept_judgeProbeGrant (o : ProbeOp) (pl : Placement) (qe qs : Int) (h : s.Unasked t .probe) :
    ActiveKept t s (judgeProbeGrant t o pl qe qs s) := by
  have hagain : ActiveKept t s (sendProbe t o pl (chanRelease t .probe s)) :=
    (closedKept_chanRelease _).active.trans (activeKept_sendProbe _ _)
  unfold judgeProbeGrant
  simp only
  split
  · exact hagain
  split
  · exact hagain
  split
  · exact fun ha => (closedKept_postGated (opened_of_active ha) rfl).active.trans
      (activeKept_setOp _ (unasked_of_chan h (chan_postGated _))) ha
  all_goals exact hagain

theorem closedKept_probeGranted (qs : Int) (h : s.Unasked t .probe) : ClosedKept s (probeGranted t qs s) := by
  refine .given fun hl => ?_
  unfold probeGranted
  split
  · exact ClosedKept.refl s
  next o ho =>
  have ha := active_of_op hl ho
  split
  · split
    · exact ((closedKept_chanRelease _).trans closedKept_abandonOp).trans closedKept_takeTasks
    · exact (closedKept_chanRelease _).active.trans (activeKept_beginAttempt _ (unasked_chanRelease h)) ha
    · exact activeKept_judgeProbeGrant _ _ _ _ h ha
  all_goals exact ClosedKept.refl s

theorem closedKept_probeDispatched (tn : Nat) (inst : BitVec 16) : ClosedKept s (probeDispatched t tn inst s) := by
  refine .given fun hl => ?_
  unfold probeDispatched
  split
  · exact ClosedKept.refl s
  next o ho =>
  split
  · next hp =>
    split
    · exact activeKept_setOp _ (unasked_of_phase hl.requestsOwned ho hp nofun) (active_of_op hl ho)
    · exact ClosedKept.refl s
  all_goals exact ClosedKept.refl s

theorem closedKept_probeExpired (tn : Nat) (inst : BitVec 16) : ClosedKept s (probeExpired t tn inst s) := by
  refine .given fun hl => ?_
  unfold probeExpired
  split
  · exact ClosedKept.refl s
  next o ho =>
  split
  · split
    · exact closedKept_raiseSeqStale.active.trans (activeKept_sendProbe _ _) (active_of_op hl ho)
    · exact ClosedKept.refl s
  all_goals exact ClosedKept.refl s

theorem closedKept_delayDispatched (tn : Nat) (inst : BitVec 16) (d : Nat) :
    ClosedKept s (delayDispatched t tn inst d s) := by
  refine .given fun hl => ?_
  unfold delayDispatched
  split
  · split
    · exact ClosedKept.refl s
    next o ho =>
    split
    · next hp =>
      split
      · exact activeKept_beginAttempt _ (unasked_of_phase hl.requestsOwned ho hp nofun) (active_of_op hl ho)
      · exact ClosedKept.refl s
    all_goals exact ClosedKept.refl s
  · exact ClosedKept.refl s

theorem closedKept_probeBurst (a : Int) (q : Quality) (p : List Byte) : ClosedKept s (probeBurst t a q p s) := by
  refine .given fun hl => ?_
  unfold probeBurst
  split
  · exact ClosedKept.refl s
  split
  · exact ClosedKept.refl s
  next o ho =>
  split
  · next hp => exact activeKept_setOp _ (unasked_of_phase hl.requestsOwned ho hp nofun) (active_of_op hl ho)
  all_goals exact ClosedKept.refl s

/-- A counted failure, where the next attempt begins with no request outstanding (R118). -/
theorem activeKept_countedFailure (o : ProbeOp) (e : Entry) {next : State → State} (h : s.Unasked t .probe)
    (hnext : ∀ s : State, s.Unasked t .probe → ActiveKept t s (next s)) :
    ActiveKept t s (countedFailure t o e next s) := by
  have hraised : ClosedKept s (s.modEntry t o.tn fun x => { x with attempts := some (e.attempts.getD 0 + 1) }) :=
    closedKept_milder _ _ fun _ => .of_eq rfl rfl
  have hunasked : (s.modEntry t o.tn fun x => { x with attempts := some (e.attempts.getD 0 + 1) }).Unasked t .probe :=
    unasked_of_chan h (State.chan_modEntry _ _)
  unfold countedFailure
  simp only
  split
  · exact ((hraised.trans (closedKept_discardOp hunasked)).trans (closedKept_loseOrRetire _ _)).active
  · exact hraised.active.trans (hnext _ hunasked)

theorem milder_measured (rrt : Int) (ld : Nat) (r : Int) (d : Nat) (e : Entry) :
    e.Milder ((e.measuredAs rrt ld r).toVerifying d) := .of_eq rfl rfl

theorem activeKept_measuredToVerifying (o : ProbeOp) (e : Entry) (cause : Cause) (rrt : Int) (ld : Nat) (r change : Int)
    (h : s.Unasked t .probe) : ActiveKept t s (measuredToVerifying t o e cause rrt ld r change s) := by
  unfold measuredToVerifying
  simp only
  refine ActiveKept.trans ?_ (activeKept_setOp _ ?_)
  · refine ClosedKept.active (ClosedKept.trans ?_ (closedKept_report _))
    exact (closedKept_transit _ _ (milder_measured _ _ _ _)).trans (closedKept_postMust _ _ rfl)
  · exact unasked_of_chan h ((chan_postMust _ _).trans (chan_transit _ _))

theorem activeKept_auditResult (o : ProbeOp) (e : Entry) (rrt : Int) (ld : Nat) (r : Int) (h : s.Unasked t .probe) :
    ActiveKept t s (auditResult t o e rrt ld r s) := by
  have hfigures : ClosedKept s (s.modEntry t o.tn fun e =>
      { e with rrt := some rrt, c := roundBt rrt }.modDrift fun d => { d with sum := 0, n := 0 }) := by
    refine closedKept_milder _ _ fun e => ?_
    obtain ⟨hwaits, howes⟩ :=
      milder_modDrift { e with rrt := some rrt, c := roundBt rrt } fun d => { d with sum := 0, n := 0 }
    exact ⟨hwaits, howes⟩
  have hunasked := unasked_of_chan h (State.chan_modEntry (s := s) (t := t) (tn := o.tn) (fun e =>
    { e with rrt := some rrt, c := roundBt rrt }.modDrift fun d => { d with sum := 0, n := 0 }) .probe)
  unfold auditResult
  simp only
  split
  · refine ClosedKept.active (hfigures.trans (ClosedKept.trans ?_ (closedKept_finishOp ?_)))
    · refine ClosedKept.trans ?_ (closedKept_report _)
      exact closedKept_milder _ _ fun _ => .of_eq rfl rfl
    · exact unasked_of_chan hunasked (State.chan_modEntry _ _)
  split
  · refine ClosedKept.active (hfigures.trans (ClosedKept.trans ?_ (closedKept_finishOp ?_)))
    · exact (closedKept_postNudge _ _ _ _).trans (closedKept_report _)
    · exact unasked_of_chan hunasked ((chan_postMust _ _).trans (State.chan_modEntry _ _))
  · exact hfigures.active.trans (activeKept_measuredToVerifying _ _ _ _ _ _ _ hunasked)

theorem closedKept_verifiedResult (o : ProbeOp) (e : Entry) (h : s.Unasked t .probe) :
    ClosedKept s (verifiedResult t o e s) :=
  (closedKept_transit _ _ (milder_toOperating _)).trans (closedKept_finishOp (unasked_of_chan h (chan_transit _ _)))

theorem milder_verifyOff (pr : Params) (rrt : Int) (d : Nat) (e : Entry) : e.Milder ((e.verifyOffAs pr rrt).toRanging d) := by
  unfold Entry.verifyOffAs
  split
  · exact .of_eq rfl rfl
  · exact .of_eq rfl rfl

theorem activeKept_verifyOffResult (o : ProbeOp) (e : Entry) (rrt : Int) (h : s.Unasked t .probe) :
    ActiveKept t s (verifyOffResult t o e rrt s) := by
  unfold verifyOffResult
  simp only
  refine ActiveKept.trans ?_ (activeKept_beginAttempt _ ?_)
  · exact ((closedKept_transit _ _ (milder_verifyOff _ _ _)).trans (closedKept_postMust _ _ rfl)).active
  · exact unasked_of_chan h ((chan_postMust _ _).trans (chan_transit _ _))

theorem activeKept_actOnOutcome (o : ProbeOp) (e : Entry) (out : AttemptOutcome) (h : s.Unasked t .probe) :
    ActiveKept t s (actOnOutcome t o e out s) := by
  have hfailed : ActiveKept t s (countedFailure t o e (beginAttempt t o) s) :=
    activeKept_countedFailure o e h fun _ hu => activeKept_beginAttempt _ hu
  unfold actOnOutcome
  split
  · exact hfailed
  · exact hfailed
  · exact hfailed
  · exact hfailed
  · exact hfailed
  · split
    · exact activeKept_auditResult _ _ _ _ _ h
    all_goals exact activeKept_measuredToVerifying _ _ _ _ _ _ _ h
  · exact (closedKept_verifiedResult _ _ h).active
  · exact activeKept_countedFailure o e h fun _ hu => activeKept_verifyOffResult _ _ _ hu

theorem closedKept_probeEnd : ClosedKept s (probeEnd t s) := by
  refine .given fun hl => ?_
  unfold probeEnd
  split
  · exact closedKept_modSeq _ fun h => ⟨h.owned, h.rests⟩
  split
  · exact ClosedKept.refl s
  next o ho =>
  split
  · next hp =>
    have ha := active_of_op hl ho
    have hidle := unasked_of_phase hl.requestsOwned ho hp nofun
    split
    · exact closedKept_finishOp hidle
    · exact activeKept_beginAttempt _ hidle ha
    · exact activeKept_actOnOutcome _ _ _ hidle ha
  all_goals exact ClosedKept.refl s

theorem closedKept_heldRecheck : ClosedKept s (heldRecheck t s) := by
  refine .given fun hl => ?_
  unfold heldRecheck
  split
  · exact ClosedKept.refl s
  next o ho =>
  split
  · next hp =>
    exact activeKept_beginAttempt _ (unasked_of_phase hl.requestsOwned ho hp nofun) (active_of_op hl ho)
  all_goals exact ClosedKept.refl s

theorem closedKept_probeWaitExpired : ClosedKept s (probeWaitExpired t s) := by
  unfold probeWaitExpired
  split
  · exact ClosedKept.refl s
  split
  · simp only
    split
    · exact (closedKept_abandonOp.trans (closedKept_loseOrRetire _ _)).trans closedKept_takeTasks
    · exact closedKept_abandonOp.trans closedKept_takeTasks
  · exact ClosedKept.refl s

theorem closedKept_probeSlip : ClosedKept s (probeSlip t s) := by
  refine .given fun hl => ?_
  unfold probeSlip
  split
  · exact ClosedKept.refl s
  next o ho =>
  have ha := active_of_op hl ho
  split
  · exact ClosedKept.refl s
  · exact ClosedKept.refl s
  · exact (closedKept_chanWithdraw _).active.trans (activeKept_sendProbe _ _) ha
  · exact ((closedKept_withdrawItems _).trans (closedKept_chanRelease _)).active.trans (activeKept_sendProbe _ _) ha
  · exact closedKept_raiseSeqStale.active.trans (activeKept_sendProbe _ _) ha

/-! ### Responses on the request channels (R154, R156..R158) -/

/-- A GRANT ends the request, so its owner judges it with none outstanding (R154). -/
theorem closedKept_grantTaken (tag : Tag) (number : Byte) (qs : Int) : ClosedKept s (grantTaken t tag number qs s) := by
  have hstray : ClosedKept s (strayGrant t tag number s) := closedKept_sendLink _
  have hhanded : ∀ r : State, r.Unasked t tag → ClosedKept r (handGrant t tag qs r) := by
    intro r hr
    cases tag with
    | window => exact closedKept_windowGranted qs hr
    | probe => exact closedKept_probeGranted qs hr
    | silence => exact closedKept_silenceGranted qs hr
  unfold grantTaken
  simp only
  split
  · split
    · refine (closedKept_setUnasked rfl).trans (hhanded _ ?_)
      rw [State.Unasked, State.chan_setChan_same]
      rfl
    · exact hstray
  all_goals exact hstray

theorem closedKept_recordEarliest (tag : Tag) (qe : Int) : ClosedKept s (recordEarliest t tag qe s) := by
  refine .given fun hl => ?_
  unfold recordEarliest
  split
  · split
    · next hd =>
      have ha := active_of_window hl hd nofun nofun
      exact closedKept_modDisc _ fun _ => ⟨fun _ => ⟨_, _, rfl⟩, fun hx => absurd ha hx⟩
    all_goals exact ClosedKept.refl s
  · split
    · next o ho =>
      have ha := active_of_op hl ho
      split
      · exact closedKept_modSeq _ fun _ => ⟨fun _ => ⟨_, _, _, rfl, rfl⟩, fun hx => absurd ha hx⟩
      all_goals exact ClosedKept.refl s
    · exact ClosedKept.refl s
  · split
    · next c hc =>
      have ha := active_of_check hl hc
      split
      · next hp =>
        exact closedKept_modLight _ fun _ => ⟨fun _ => ⟨c.purpose, qe, by rw [← hp]⟩, fun hx => absurd ha hx⟩
      · exact ClosedKept.refl s
    · exact ClosedKept.refl s

/-- A request that stands is sent again for the owner that asks (R158). -/
theorem closedKept_resend (tag : Tag) (req : Request) (h : (s.chan t tag).phase.outstanding = true) :
    ClosedKept s (resend t tag req s) :=
  .given fun hl =>
    (closedKept_chanSend _ (hl.requestsOwned h)).trans (closedKept_recordEarliest _ _)

/-- A request goes on to stand in another phase (R156, R157). -/
theorem closedKept_setStanding {c : Channel} (h : (s.chan t tag).phase.outstanding = true) :
    ClosedKept s (s.setChan t tag c) := closedKept_setChan fun hT _ => hT.asks h

theorem closedKept_deferTaken (tag : Tag) (number : Byte) (e : Nat) : ClosedKept s (deferTaken t tag number e s) := by
  unfold deferTaken
  simp only
  split
  · next hp =>
    have hout : (s.chan t tag).phase.outstanding = true := by rw [hp]; rfl
    split
    · split
      · exact closedKept_setStanding hout
      · exact closedKept_resend _ _ hout
    · exact ClosedKept.refl s
  all_goals exact ClosedKept.refl s

theorem closedKept_refuseTaken (tag : Tag) (number : Byte) : ClosedKept s (refuseTaken t tag number s) := by
  unfold refuseTaken
  simp only
  split
  · next hp => exact (closedKept_setStanding (by rw [hp]; rfl)).ite
  all_goals exact ClosedKept.refl s

theorem closedKept_responseLapsed (tag : Tag) : ClosedKept s (responseLapsed t tag s) := by
  unfold responseLapsed
  split
  · next hp => exact (closedKept_setStanding (by rw [hp]; rfl)).ite
  all_goals exact ClosedKept.refl s

theorem closedKept_resendDue (tag : Tag) : ClosedKept s (resendDue t tag s) := by
  unfold resendDue
  split
  · next hp => exact (closedKept_resend _ _ (by rw [hp]; rfl)).ite
  · next hp => exact (closedKept_resend _ _ (by rw [hp]; rfl)).ite
  all_goals exact ClosedKept.refl s

end

end Sys2Proof.Machine
end

section
/-! PROOF. Law 12 through the opening and closing of a tree and through every command (O11): the tree states change where a
calibration begins, passes or fails (R178..R181), where a close begins and where it completes (R182, R183), and each of these
finds the tree as its new state has it; every other event keeps the law with the trees in their states. -/

namespace Sys2Proof.Machine

section
variable {s s' s'' : State} {t : TreeId} {tn : Nat} {tag : Tag}

theorem ClosedKept.lawful (h : ClosedKept s s') (hl : s.ClosedLawful) : s'.ClosedLawful := (h hl).1

/-! ### Admission Unit (chapter 4) -/

theorem closedKept_admitOpen (a : Handed) (prof : Profile) : ClosedKept s (admitOpen t a prof s) := by
  have hcreated := closedKept_createEntry (s := s) (t := t) a.serial a.model a.c prof
  unfold admitOpen
  simp only
  split
  · exact (hcreated.trans (closedKept_admissionReport _ _ _ _ _ _ _ _)).trans (closedKept_supersede _ _ _)
  · exact hcreated.trans (closedKept_admissionReport _ _ _ _ _ _ _ _)
  · exact hcreated.trans (closedKept_admissionReport _ _ _ _ _ _ _ _)
  · exact hcreated.trans (closedKept_admissionReport _ _ _ _ _ _ _ _)
  · exact hcreated

theorem activeKept_admitAsk (a : Handed) (prof : Profile) : ActiveKept t s (admitAsk t a prof s) := fun ha => by
  unfold admitAsk
  simp only
  split
  · exact closedKept_admissionReport _ _ _ _ _ _ _ _
  · refine ClosedKept.trans ?_ (closedKept_admissionReport _ _ _ _ _ _ _ _)
    exact closedKept_modPending _ fun hx => absurd ha hx

theorem activeKept_judgeNew (a : Handed) : ActiveKept t s (judgeNew t a s) := by
  unfold judgeNew
  simp only
  split
  · exact ((closedKept_removePending _).trans (closedKept_admissionReport _ _ _ _ _ _ _ _)).active
  split
  · refine ClosedKept.active (ClosedKept.trans ?_ (closedKept_pendingReport _ _ _ _ _))
    exact closedKept_modPending _ fun _ _ => rfl
  split
  · exact (closedKept_admissionReport _ _ _ _ _ _ _ _).active
  split
  · exact (closedKept_admitOpen _ _).active
  · exact activeKept_admitAsk _ _

theorem activeKept_judgeAnnounce (a : Handed) : ActiveKept t s (judgeAnnounce t a s) := by
  have hchecked := closedKept_serialCheck (s := s) (t := t) a.serial a.c
  unfold judgeAnnounce
  simp only
  split
  · exact (hchecked.trans (closedKept_admissionReport _ _ _ _ _ _ _ _)).active
  · exact (hchecked.trans (closedKept_admissionReport _ _ _ _ _ _ _ _)).active
  · exact (hchecked.trans (closedKept_admissionReport _ _ _ _ _ _ _ _)).active
  · exact hchecked.active.trans (activeKept_judgeNew _)

/-! ### Calibration (R178..R181) -/

theorem closedKept_treeReport (old new : TreeName) (cause : TreeCause) (runs restarts : Nat) (reason : Option CalFailure)
    (spread : Int) (entries : Nat) :
    ClosedKept s (treeReport t old new cause runs restarts reason spread entries s) := closedKept_report _

/-- A CALIBRATING tree goes on in another run, or in the same one with more of it taken (R179, R180). -/
theorem closedKept_setRun (r : CalRun) (h : (s.tree t).stage = .calibrating) :
    ClosedKept s (s.setTreeState t (.calibrating r)) := closedKept_modCtl _ h.symm

theorem stage_of_calibrating {r : CalRun} (h : (s.tree t).ctl.state = .calibrating r) :
    (s.tree t).stage = .calibrating := by
  rw [Tree.stage, h]
  rfl

/-- A Discovery Unit with no window in hand closes without a word on its channel (R97). -/
theorem closeDiscovery_of_idle (h : (s.tree t).disc.state = .stopped ∨ (s.tree t).disc.state = .due none) :
    closeDiscovery t s = s.modDisc t Discovery.closed := by
  rcases h with h | h
  · simp only [closeDiscovery, h]
  · simp only [closeDiscovery, h]

/-- A failed calibration leaves the tree CLOSED, its waiting contexts given up (R97, R180). -/
theorem closedLawful_calFailed (r : CalRun) (why : CalFailure) (hl : s.ClosedLawful)
    (hst : (s.tree t).stage = .calibrating) : (calFailed t r why s).ClosedLawful := by
  have hT := lawsAt_of_lawful hl t
  rw [hst] at hT
  have hrest := hT.atRest nofun
  have hempty := hT.isEmpty rfl
  have hidle : (s.tree t).disc.state = .stopped ∨ (s.tree t).disc.state = .due none := by
    rcases hT.window.rests nofun with ⟨h, -⟩ | ⟨-, h⟩
    · exact .inl h
    · exact h
  unfold calFailed
  refine (closedKept_treeReport _ _ _ _ _ _ _ _).lawful ?_
  rw [closeDiscovery_of_idle (by rw [tree_modCtl_same]; exact hidle)]
  simp only [sweepOff, State.modCtl, State.modDisc, State.modSeq, modTree_modTree]
  refine closedLawful_modTree hl (lawsAt_of_atRest nofun ?_ (.inl ⟨rfl, rfl⟩) (fun _ => ?_) fun tn e o he => ?_)
  · exact ⟨hrest.op, hrest.tasks, rfl, hrest.waiting, hrest.pending, hrest.light,
      fun | .window => hrest.requests .window | .probe => hrest.requests .probe | .silence => hrest.requests .silence⟩
  · exact ⟨hempty.entries, hempty.items, hempty.owed⟩
  · exact absurd ((hempty.entries tn).symm.trans he) nofun

theorem closedLawful_runFailed (r : CalRun) (why : CalFailure) (hl : s.ClosedLawful)
    (hst : (s.tree t).stage = .calibrating) : (runFailed t r why s).ClosedLawful := by
  unfold runFailed
  split
  · exact (closedKept_setRun _ hst).lawful hl
  · exact closedLawful_calFailed r why hl hst

/-- A CALIBRATING tree is ready to be ACTIVE: it asks for nothing and has no message (R181). -/
theorem closedLawful_becomesActive (hl : s.ClosedLawful) (hst : (s.tree t).stage = .calibrating) :
    (s.setTreeState t .active).ClosedLawful := by
  have hT := lawsAt_of_lawful hl t
  rw [hst] at hT
  obtain ⟨hnone, hitems, howed⟩ := hT.isEmpty rfl
  refine closedLawful_modTree hl ⟨⟨hT.window.owned, fun h => absurd rfl h⟩, ⟨hT.probe.owned, fun h => absurd rfl h⟩,
    ⟨hT.silence.owned, fun h => absurd rfl h⟩, fun tn e he => ?_, ⟨nofun, fun _ => ?_⟩, fun h => absurd rfl h⟩
  · exact absurd ((hnone tn).symm.trans he) nofun
  · simp [MsgQueue.broadcastStands, hitems, howed]

theorem activeKept_sweepOn : ActiveKept t s (sweepOn t s) := fun ha =>
  closedKept_modSeq _ fun h => ⟨h.owned, fun hx => absurd ha hx⟩

theorem activeKept_lightOpened : ActiveKept t s (lightOpened t s) :=
  (activeKept_setLight _ _ _ _).trans (activeKept_sendCheck _)

theorem closedLawful_runPassed (r : CalRun) (hl : s.ClosedLawful) (hst : (s.tree t).stage = .calibrating) :
    (runPassed t r s).ClosedLawful := by
  have hcleared : ClosedKept s (allOff t (s.modCtl t fun c => { c with p := pathOffset r.pis })) := by
    refine ClosedKept.trans ?_ closedKept_allOff
    exact closedKept_modCtl _ rfl
  obtain ⟨hl', hst'⟩ := hcleared hl
  unfold runPassed
  simp only
  generalize allOff t (s.modCtl t fun c => { c with p := pathOffset r.pis }) = x at hl' hst' ⊢
  have hopened : ActiveKept t (x.setTreeState t .active)
      (takeTasks t (startWindow t (sweepOn t (lightOpened t
        (treeReport t .calibrating .active .calibrated r.run r.restarts r.first (r.spread none) 0
          (x.setTreeState t .active)))))) := by
    refine ActiveKept.trans ?_ (closedKept_startWindow.trans closedKept_takeTasks).active
    refine ActiveKept.trans ?_ activeKept_sweepOn
    exact (closedKept_treeReport _ _ _ _ _ _ _ _).active.trans activeKept_lightOpened
  refine (hopened ?_).lawful (closedLawful_becomesActive hl' ((hst' t).trans hst))
  rw [State.setTreeState, tree_modCtl_same]
  rfl

theorem closedLawful_loopTaken (a : Int) (hl : s.ClosedLawful) : (loopTaken t a s).ClosedLawful := by
  unfold loopTaken
  split
  · next r hr =>
    have hst := stage_of_calibrating hr
    unfold loopRecord
    split
    · exact hl
    split
    · exact hl
    simp only
    split
    · unfold judgeRun
      split
      · exact closedLawful_runPassed _ hl hst
      · exact closedLawful_runFailed _ _ hl hst
    · exact (closedKept_setRun _ hst).lawful hl
  all_goals exact hl

theorem closedLawful_loopMarker (hl : s.ClosedLawful) : (loopMarker t s).ClosedLawful := by
  unfold loopMarker
  split
  · next r hr =>
    have hst := stage_of_calibrating hr
    split
    · exact closedLawful_runFailed _ _ hl hst
    split
    · exact ((closedKept_setRun _ hst).trans (closedKept_modOut _)).lawful hl
    · exact hl
  all_goals exact hl

theorem closedKept_calibrationSlip : ClosedKept s (calibrationSlip t s) := by
  unfold calibrationSlip
  split
  · next r hr => exact closedKept_setRun _ (stage_of_calibrating hr)
  all_goals exact ClosedKept.refl s

/-- A CLOSED tree is as a CALIBRATING one without contexts (R178). -/
theorem closedLawful_opens (r : CalRun) (hl : s.ClosedLawful) (hst : (s.tree t).ctl.state = .closed) :
    (s.setTreeState t (.calibrating r)).ClosedLawful := by
  have hT := lawsAt_of_lawful hl t
  rw [Tree.stage, hst] at hT
  have hrest := hT.atRest nofun
  have hempty := hT.isEmpty rfl
  have hstopped : (s.tree t).disc.state = .stopped ∧ (s.tree t).disc.contexts = [] := by
    rcases hT.window.rests nofun with h | ⟨h, -⟩
    · exact h
    · cases h
  refine closedLawful_modTree hl (lawsAt_of_atRest nofun ?_ (.inl hstopped) (fun _ => ?_) fun tn e o he => ?_)
  · exact ⟨hrest.op, hrest.tasks, hrest.sweep, hrest.waiting, hrest.pending, hrest.light,
      fun | .window => hrest.requests .window | .probe => hrest.requests .probe | .silence => hrest.requests .silence⟩
  · exact ⟨hempty.entries, hempty.items, hempty.owed⟩
  · exact absurd ((hempty.entries tn).symm.trans he) nofun

/-! ### A close begins (R182) -/

/-- From `s` to `s'` no channel of tree `t` gets a request outstanding. -/
def AsksNoMore (t : TreeId) (s s' : State) : Prop := ∀ tag, s.Unasked t tag → s'.Unasked t tag

theorem AsksNoMore.trans (h : AsksNoMore t s s') (k : AsksNoMore t s' s'') : AsksNoMore t s s'' :=
  fun tag hu => k tag (h tag hu)

theorem asksNoMore_of_chan (h : ∀ tag, s'.chan t tag = s.chan t tag) : AsksNoMore t s s' :=
  fun tag hu => unasked_of_chan hu (h tag)

theorem asksNoMore_setChan {c : Channel} (h : c.phase.outstanding = false) : AsksNoMore t s (s.setChan t tag c) := by
  intro tag' hu
  by_cases ht : tag' = tag
  · subst ht
    rw [State.Unasked, State.chan_setChan_same]
    exact h
  · rw [State.Unasked, State.chan, tree_setChan_same, chan_setChan_other _ _ _ _ ht]
    exact hu

theorem asksNoMore_chanWithdraw (tag : Tag) : AsksNoMore t s (chanWithdraw t tag s) :=
  asksNoMore_setChan (outstanding_withdrawn _)

theorem asksNoMore_chanRelease (tag : Tag) : AsksNoMore t s (chanRelease t tag s) := by
  unfold chanRelease
  split
  · exact (asksNoMore_setChan rfl).trans (asksNoMore_of_chan fun _ => chan_sendLink _ _)
  all_goals exact fun _ hu => hu

theorem asksNoMore_modTree {f : Tree → Tree} (h : ∀ tag, (f (s.tree t)).chan tag = (s.tree t).chan tag) :
    AsksNoMore t s (s.modTree t f) := asksNoMore_of_chan (chan_modTree h)

theorem chan_discardOp : (discardOp t s).chan t tag = s.chan t tag := by
  unfold discardOp
  split
  · rfl
  · rw [chan_setOp, State.chan_modEntry]

theorem asksNoMore_abandonOp : AsksNoMore t s (abandonOp t s) := by
  unfold abandonOp
  split
  · exact fun _ hu => hu
  · refine AsksNoMore.trans ?_ (asksNoMore_of_chan fun _ => chan_discardOp)
    unfold giveUpProbe
    split
    · exact fun _ hu => hu
    · exact fun _ hu => hu
    · exact asksNoMore_chanWithdraw _
    · exact (asksNoMore_of_chan fun _ => chan_withdrawItems _ _).trans (asksNoMore_chanRelease _)
    · exact asksNoMore_of_chan fun _ => chan_raiseSeqStale

/-- A closing Discovery Unit leaves no window asked for (R97). -/
theorem closeDiscovery_unasked (h : s.Owned t .window) :
    AsksNoMore t s (closeDiscovery t s) ∧ (closeDiscovery t s).Unasked t .window := by
  have hdone : ∀ x : State, AsksNoMore t x (x.modDisc t Discovery.closed) := fun x => asksNoMore_modTree fun _ => rfl
  cases hd : (s.tree t).disc.state with
  | requesting w qe =>
    simp only [closeDiscovery, hd]
    exact ⟨(asksNoMore_chanWithdraw _).trans (hdone _), hdone _ _ unasked_chanWithdraw⟩
  | posted w number qs gw =>
    simp only [closeDiscovery, hd]
    exact ⟨(asksNoMore_chanRelease _).trans (hdone _), hdone _ _ (unasked_chanRelease (unasked_of_window h hd nofun))⟩
  | collecting w number qs gw dispatch coll =>
    simp only [closeDiscovery, hd]
    have hreported : AsksNoMore t s
        (windowReport t number (s.tree t).disc.repeatIndex .close none w dispatch coll s) := fun _ hu => hu
    exact ⟨hreported.trans (hdone _), hdone _ _ (hreported _ (unasked_of_window h hd nofun))⟩
  | stopped | spacing e | due w =>
    simp only [closeDiscovery, hd]
    exact ⟨hdone _, hdone _ _ (unasked_of_window h hd nofun)⟩

/-- A closing Task Sequencer leaves no probe asked for (R121). -/
theorem closeSequencer_unasked (h : s.Owned t .probe) :
    AsksNoMore t s (closeSequencer t s) ∧ (closeSequencer t s).Unasked t .probe := by
  have hdone : ∀ x : State, AsksNoMore t x
      ((x.modSeq t fun q => { q with tasks := [], stale := 0, sweepPtr := 0, nextSweep := none }).modTree t
        fun T => T.mapEntries fun e => { e with waiting := false }) := by
    intro x
    have htasks : AsksNoMore t x (x.modSeq t fun q => { q with tasks := [], stale := 0, sweepPtr := 0, nextSweep := none }) :=
      asksNoMore_modTree fun _ => rfl
    exact htasks.trans (asksNoMore_modTree fun tag => by cases tag <;> rfl)
  have habandoned : ∀ o, (s.tree t).seq.op = some o → (abandonOp t s).Unasked t .probe := by
    intro o ho
    simp only [abandonOp, ho]
    exact unasked_of_chan (unasked_giveUpProbe h ho) chan_discardOp
  unfold closeSequencer
  simp only
  split
  · next o ho =>
    split
    · next hp =>
      have hdiscarded : AsksNoMore t s (discardOp t (chanRelease t .probe s)) :=
        (asksNoMore_chanRelease _).trans (asksNoMore_of_chan fun _ => chan_discardOp)
      exact ⟨hdiscarded.trans (hdone _), hdone _ _ (hdiscarded _ (unasked_of_phase h ho hp nofun))⟩
    all_goals exact ⟨asksNoMore_abandonOp.trans (hdone _), hdone _ _ (habandoned o ho)⟩
  · next ho =>
    refine ⟨hdone _, hdone _ _ (unasked_of_not_asks h ?_)⟩
    rintro ⟨o, -, -, hop, -⟩
    cases ho.symm.trans hop

/-- A closing Light Monitor leaves no check asked for (R173). -/
theorem closeLight_unasked (h : s.Owned t .silence) :
    AsksNoMore t s (closeLight t s) ∧ (closeLight t s).Unasked t .silence := by
  have hdone : ∀ x : State, AsksNoMore t x (x.modLight t fun _ => LightMonitor.reset) := fun x =>
    asksNoMore_modTree fun _ => rfl
  cases hc : (s.tree t).light.check with
  | none =>
    simp only [closeLight, hc]
    refine ⟨hdone _, hdone _ _ (unasked_of_not_asks h ?_)⟩
    rintro ⟨p, qe, hcheck⟩
    cases hc.symm.trans hcheck
  | some c =>
    obtain ⟨p, qe, phase⟩ := c
    cases phase with
    | requesting =>
      simp only [closeLight, hc]
      exact ⟨(asksNoMore_chanWithdraw _).trans (hdone _), hdone _ _ unasked_chanWithdraw⟩
    | listening qs n =>
      simp only [closeLight, hc]
      exact ⟨(asksNoMore_chanRelease _).trans (hdone _), hdone _ _ (unasked_chanRelease (unasked_of_listening h hc))⟩

/-- An owner that stands as before, on a channel with no new request, is still the one that asks. -/
theorem State.Owned.keeps (h : s.Owned t tag) (hn : AsksNoMore t s s') (ha : (s.tree t).asks tag → (s'.tree t).asks tag) :
    s'.Owned t tag := fun ho =>
  ha (h (Bool.of_not_eq_false fun hu => (nomatch (hn tag hu).symm.trans ho)))

/-- A tree that begins to close has withdrawn every request (R97, R121, R173). -/
theorem unasked_beginClose (h : (s.tree t).RequestsOwned) (tag : Tag) : (beginClose t s).Unasked t tag := by
  simp only [beginClose]
  generalize hx : treeReport t .active .closing .hostClose 0 0 none 0 (s.tree t).entries.length (s.setTreeState t .closing) = x
  have hxtree : x.tree t = { s.tree t with ctl := { (s.tree t).ctl with state := .closing } } := by
    rw [← hx, treeReport, tree_report, State.setTreeState, tree_modCtl_same]
  have howned : ∀ tag, x.Owned t tag := by
    intro tag ho
    rw [State.chan, hxtree] at ho
    rw [hxtree]
    cases tag with
    | window => exact h.window ho
    | probe => exact h.probe ho
    | silence => exact h.silence ho
  obtain ⟨hdn, hdu⟩ := closeDiscovery_unasked (howned .window)
  obtain ⟨hdb, -⟩ := closeDiscovery_blocks (s := x) (t := t)
  generalize closeDiscovery t x = d at hdn hdu hdb ⊢
  have hdprobe : d.Owned t .probe := (howned .probe).keeps hdn fun ⟨o, ho⟩ => ⟨o, by rwa [hdb.seq]⟩
  have hdsilence : d.Owned t .silence := (howned .silence).keeps hdn fun ⟨p, hp⟩ => ⟨p, by rwa [hdb.light]⟩
  obtain ⟨hqn, hqu⟩ := closeSequencer_unasked hdprobe
  obtain ⟨⟨_, hqb⟩, -⟩ := closeSequencer_blocks (s := d) (t := t)
  generalize closeSequencer t d = q at hqn hqu hqb ⊢
  have hqsilence : q.Owned t .silence := hdsilence.keeps hqn fun ⟨p, hp⟩ => ⟨p, by rwa [hqb.light]⟩
  obtain ⟨hln, hlu⟩ := closeLight_unasked hqsilence
  generalize closeLight t q = l at hln hlu ⊢
  have hrest : AsksNoMore t l (closeQueue t (closePending t l)) := by
    refine asksNoMore_of_chan fun tag => ?_
    rw [State.chan, closeQueue_tree, closePending_tree.1]
    cases tag <;> rfl
  cases tag with
  | window => exact hrest _ (hln _ (hqn _ hdu))
  | probe => exact hrest _ (hln _ hqu)
  | silence => exact hrest _ hlu

/-- An entry of a tree that begins to close waits for nothing and owes what it owed (R150). -/
theorem entries_beginClose {e : Entry} (he : (beginClose t s).entry? t tn = some e) :
    e.waiting = false ∧ ∃ x, s.entry? t tn = some x ∧ x.owed = e.owed := by
  simp only [beginClose] at he
  generalize hx : treeReport t .active .closing .hostClose 0 0 none 0 (s.tree t).entries.length (s.setTreeState t .closing) = x
    at he
  have hxtree : x.tree t = { s.tree t with ctl := { (s.tree t).ctl with state := .closing } } := by
    rw [← hx, treeReport, tree_report, State.setTreeState, tree_modCtl_same]
  obtain ⟨hdb, -⟩ := closeDiscovery_blocks (s := x) (t := t)
  generalize closeDiscovery t x = d at hdb he
  obtain ⟨y, hq, -, hquiet, -⟩ := closeSequencer_eq t d
  generalize closeSequencer t d = q at hq he
  obtain ⟨hlb, -⟩ := closeLight_blocks (s := q) (t := t)
  generalize closeLight t q = l at hlb he
  have hslots : ((closeQueue t (closePending t l)).tree t).slots = (q.tree t).slots := by
    rw [closeQueue_tree, closePending_tree.1]
    exact hlb.slots
  rw [State.entry?, entry?_of_slots hslots, hq, tree_modTree_same, tree_modSeq_same, entry?_mapEntries] at he
  obtain ⟨z, hz, rfl⟩ := Option.map_eq_some_iff.1 he
  have hsame : (d.tree t).slots = (s.tree t).slots := by
    rw [hdb.slots, hxtree]
  have howing := hquiet.posted.2 tn
  rw [State.entry?, State.entry?, entry?_of_slots hsame, show (y.tree t).entry? tn = some z from hz] at howing
  obtain ⟨e, he, hoe⟩ := Option.map_eq_some_iff.1 howing.symm
  exact ⟨rfl, e, he, congrArg Prod.fst hoe⟩

/-- A tree that begins to close is at rest (R182). -/
theorem closedLawful_beginClose (hl : s.ClosedLawful) : (beginClose t s).ClosedLawful := by
  have hothers := (within_beginClose (P := (· = t)) (s := s) rfl).others
  obtain ⟨hctl, hdisc, hseq, hlight, hpending, -, -⟩ := beginClose_begun (s := s) (t := t)
  have hunasked := unasked_beginClose (hl t).owned
  have hentries := fun tn e => entries_beginClose (s := s) (t := t) (tn := tn) (e := e)
  generalize beginClose t s = r at *
  intro j
  by_cases hj : j = t
  · subst hj
    have hstage : (r.tree j).stage = .closing := by
      rw [Tree.stage, hctl]
      rfl
    rw [closedLawful_iff, hstage]
    refine lawsAt_of_atRest nofun ⟨?_, ?_, ?_, fun tn e he => (hentries tn e he).1, hpending, hlight, hunasked⟩ ?_ nofun ?_
    · rw [hseq]
    · rw [hseq]
    · rw [hseq]
    · rw [hdisc]
      exact .inl ⟨rfl, rfl⟩
    · intro tn e o he ho
      obtain ⟨-, x, hx, hxo⟩ := hentries tn e he
      exact (hl j).owes tn x o hx (hxo.trans ho)
  · rw [hothers j hj]
    exact hl j

/-! ### A close completes (R183) -/

theorem closedKept_freeAll : ClosedKept s (freeAll t s) := ClosedKept.foldl _ (fun _ tn => closedKept_freeEntry tn _) _ _

/-- A CLOSING tree that the broadcast RETIRE leaves is CLOSED and empty (R183). -/
theorem closedLawful_completeClose (hl : s.ClosedLawful) (hst : (s.tree t).stage = .closing) :
    (completeClose t s).ClosedLawful := by
  have hfreed : ClosedKept s (allOff t (freeAll t s)) := closedKept_freeAll.trans closedKept_allOff
  obtain ⟨hl', hst'⟩ := hfreed hl
  have hnone : ∀ k, (allOff t (freeAll t s)).entry? t k = none := fun k => (entry?_allOff _ _ _ _).trans (entry?_freeAll k)
  unfold completeClose
  simp only
  refine (closedKept_treeReport _ _ _ _ _ _ _ _).lawful ?_
  generalize allOff t (freeAll t s) = r at hl' hst' hnone ⊢
  have hT := lawsAt_of_lawful hl' t
  rw [hst', hst] at hT
  have hrest := hT.atRest nofun
  have hstopped : (r.tree t).disc.state = .stopped ∧ (r.tree t).disc.contexts = [] := by
    rcases hT.window.rests nofun with h | ⟨h, -⟩
    · exact h
    · cases h
  simp only [State.modMsgq, State.modCtl, modTree_modTree]
  refine closedLawful_modTree hl' (lawsAt_of_atRest nofun ?_ (.inl hstopped) (fun _ => ?_) fun tn e o he => ?_)
  · exact ⟨hrest.op, hrest.tasks, hrest.sweep, hrest.waiting, hrest.pending, hrest.light,
      fun | .window => hrest.requests .window | .probe => hrest.requests .probe | .silence => hrest.requests .silence⟩
  · exact ⟨hnone, rfl, rfl⟩
  · exact absurd ((hnone tn).symm.trans he) nofun

/-! ### Slot calls (R28) -/

theorem closedKept_slotExpiry : ClosedKept s (slotExpiry t s) := by
  unfold slotExpiry
  refine ClosedKept.trans (closedKept_filterItems _) (ClosedKept.foldl _ (fun s it => ?_) _ _)
  unfold expiredNotice
  split
  · exact closedKept_inviteExpired
  · exact closedKept_probeExpired _ _
  all_goals exact ClosedKept.refl s

/-- No entry owes a broadcast, so none enters the queue from an entry (R27, R28). -/
theorem closedKept_enterOwed (tn : Nat) : ClosedKept s (enterOwed t s tn) := by
  refine .given fun hl => ?_
  unfold enterOwed
  split
  · exact ClosedKept.refl s
  next e he =>
  split
  · exact ClosedKept.refl s
  next o ho =>
  split
  · have hentered : ClosedKept s
        (enqueue t { msg := o.msg, issuer := o.issuer, inst := e.inst, deadline := none }
          (s.modEntry t tn fun e => { e with owed := none })) := by
      refine ClosedKept.trans ?_ (closedKept_enqueue ?_ ((hl t).owes tn e o he ho))
      · exact closedKept_milder tn _ fun _ => ⟨id, nofun⟩
      · rw [tree_modEntry_same, stage_modEntry]
        exact opened_of_entry hl he
    simp only
    split
    · exact hentered.trans (closedKept_postMust _ _ rfl)
    · exact hentered
  · exact ClosedKept.refl s

/-- A broadcast is owed on a CLOSING tree alone (R182). -/
theorem closedKept_enterBroadcast : ClosedKept s (enterBroadcast t s) := by
  unfold enterBroadcast
  split
  · next howed =>
    rw [Bool.and_eq_true] at howed
    refine closedKept_modMsgq _ fun h => ⟨fun hx => ?_, fun hx => ?_⟩
    · exact nomatch (h.empty hx).2.symm.trans howed.1
    · have hplain := h.plain hx
      simp [MsgQueue.broadcastStands, howed.1] at hplain
  · exact ClosedKept.refl s

theorem closedKept_slotOwed : ClosedKept s (slotOwed t s) := by
  unfold slotOwed
  simp only
  split
  · exact closedKept_enterBroadcast
  · exact closedKept_enterBroadcast.trans (ClosedKept.foldl _ (fun _ tn => closedKept_enterOwed tn) _ _)

theorem closedKept_assignSent (tn : Nat) (inst : BitVec 16) : ClosedKept s (assignSent t tn inst s) := by
  refine .given fun hl => ?_
  unfold assignSent
  split
  · next hassigning =>
    obtain ⟨e, he⟩ : ∃ e, s.entry? t tn = some e := by
      cases he : s.entry? t tn with
      | none => simp [he] at hassigning
      | some e => exact ⟨e, rfl⟩
    exact (closedKept_transit tn _ (milder_toRanging _)).andThen t fun hstage =>
      closedKept_addTask _ (hstage ▸ opened_of_entry hl he)
  · exact ClosedKept.refl s

/-- The notice of any message but the broadcast RETIRE (R28). -/
theorem closedKept_dispatchedNotice {it : Item} (d : Nat) (hm : it.msg.isBroadcast = false) :
    ClosedKept s (dispatchedNotice t it d s) := by
  unfold dispatchedNotice
  split
  · exact closedKept_inviteDispatched d
  · exact closedKept_assignSent _ _
  · exact closedKept_probeDispatched _ _
  · split
    · exact closedKept_nudgeDispatched _ _ _
    all_goals exact closedKept_delayDispatched _ _ _
  · exact closedKept_nudgeDispatched _ _ _
  · exact closedKept_huntMuteDispatched _ _ _
  · exact closedKept_huntClear _ _ _
  · unfold retireSent
    exact (closedKept_freeEntry _ _).ite
  · next hmsg =>
    rw [hmsg] at hm
    cases hm

theorem closedKept_handOver {it : Item} {rest : List Item} (h : (s.tree t).msgq.items = it :: rest) :
    ClosedKept s (handOver t it rest s) := by
  refine closedKept_modTree rfl fun hT =>
    ⟨hT.window, hT.probe, hT.silence, hT.entries, ⟨fun hx => ?_, fun hx => ?_⟩, hT.pending⟩
  · exact nomatch h.symm.trans (hT.queue.empty hx).1
  · have hplain := hT.queue.plain hx
    simp only [MsgQueue.broadcastStands, h, List.any_cons, Bool.or_eq_false_iff] at hplain ⊢
    exact ⟨hplain.1, hplain.2.2⟩

/-- A queued broadcast is that of a CLOSING tree (R182). -/
theorem closing_of_broadcast {it : Item} {rest : List Item} (hl : s.ClosedLawful)
    (h : (s.tree t).msgq.items = it :: rest) (hm : it.msg.isBroadcast = true) : (s.tree t).stage = .closing := by
  have hqueue := (lawsAt_of_lawful hl t).queue
  cases hst : (s.tree t).stage with
  | closing => rfl
  | active =>
    have hplain := hqueue.plain hst
    simp [MsgQueue.broadcastStands, h, hm] at hplain
  | closed | calibrating =>
    rw [hst] at hqueue
    exact nomatch h.symm.trans (hqueue.empty rfl).1

theorem closedLawful_dispatchLoop (n : Nat) (hl : s.ClosedLawful) : (dispatchLoop t n s).ClosedLawful := by
  induction n generalizing s with
  | zero => exact hl
  | succ n ih =>
    unfold dispatchLoop
    split
    · exact hl
    · next it rest hitems =>
      obtain ⟨hl', hst'⟩ := closedKept_handOver hitems hl
      refine ih ?_
      cases hm : it.msg.isBroadcast with
      | false => exact (closedKept_dispatchedNotice _ hm).lawful hl'
      | true =>
        have hretire : it.msg = .retireAll := by
          cases hmsg : it.msg with
          | retireAll => rfl
          | invite | assign | probe | delay | nudge | mute | unmute | retire => rw [hmsg] at hm; cases hm
        simp only [dispatchedNotice, hretire]
        exact closedLawful_completeClose hl' ((hst' t).trans (closing_of_broadcast hl hitems hm))

theorem closedLawful_slotCall (hl : s.ClosedLawful) : (slotCall t s).ClosedLawful := by
  have hfresh : ∀ r, ClosedKept r (freshCount t r) := by
    intro r
    unfold freshCount
    split
    · exact ClosedKept.refl r
    · exact closedKept_modMsgq _ fun h => ⟨h.empty, h.plain⟩
  exact closedLawful_dispatchLoop _ (((closedKept_slotExpiry.trans closedKept_slotOwed).trans (hfresh _)).lawful hl)

/-! ### Burst Report Intake (R20, R21) -/

theorem closedKept_windowBurst (arrival : Int) (q : Quality) (p : List Byte) :
    ClosedKept s (windowBurst t arrival q p s) := by
  refine .given fun hl => ?_
  unfold windowBurst
  split
  · exact ClosedKept.refl s
  split
  · next hd =>
    have ha := active_of_window hl hd nofun nofun
    have hcollected : ∀ w coll, ActiveKept t s (setCollection t w coll s) := fun w coll =>
      activeKept_setDisc _ (unasked_of_window hl.requestsOwned hd nofun)
    simp only
    split
    · exact hcollected _ _ ha
    · unfold windowAnnounce
      split
      · exact (hcollected _ _).trans (closedKept_report _).active ha
      split
      · exact hcollected _ _ ha
      split
      · exact hcollected _ _ ha
      · unfold announceHeard
        simp only
        split
        · exact (hcollected _ _).trans (activeKept_judgeAnnounce _) ha
        · exact (hcollected _ _).trans (closedKept_report _).active ha
  all_goals exact ClosedKept.refl s

theorem closedKept_routeBurst (tag : Tag) (arrival : Int) (q : Quality) (p : List Byte) :
    ClosedKept s (routeBurst t tag arrival q p s) := by
  cases tag with
  | window => exact closedKept_windowBurst _ _ _
  | probe => exact closedKept_probeBurst _ _ _
  | silence => exact closedKept_silenceBurst

theorem closedKept_routeEnd (tag : Tag) : ClosedKept s (routeEnd t tag s) := by
  cases tag with
  | window => exact closedKept_windowEnd
  | probe => exact closedKept_probeEnd
  | silence => exact closedKept_silenceEnd

theorem closedKept_routeGranted (tn : Nat) (g a : Int) : ClosedKept s (routeGranted t tn g a s) := by
  unfold routeGranted
  split
  · exact closedKept_driftBurst _ _ _ _
  · exact closedKept_unexplained _

theorem closedKept_routeMiss (tn : Nat) : ClosedKept s (routeMiss t tn s) := by
  unfold routeMiss
  split
  · exact closedKept_driftMiss _ _
  · exact ClosedKept.refl s

theorem closedKept_routed {f : State → State} (h : ClosedKept s (f s)) : ClosedKept s (routed t f s) := by
  unfold routed
  exact h.ite

/-! ### The host processor's requests on a terminal, a context queue and the light condition -/

theorem closedKept_toldMuted (x : Named) : ClosedKept s (toldMuted x s) := by
  unfold toldMuted
  exact (closedKept_candidateLeft _ _).ite

theorem closedKept_retireTn (x : Named) : ClosedKept s (retireTn x s) := by
  unfold retireTn
  split
  · exact ClosedKept.refl s
  · exact (closedKept_enterRetiring _ _).trans (closedKept_toldMuted x)

theorem closedKept_muteTn (x : Named) : ClosedKept s (muteTn x s) :=
  ((closedKept_transit _ _ (milder_toMuted _)).trans (closedKept_withdrawn _ _)).trans (closedKept_postMust _ _ rfl)

theorem activeKept_unmuteTn (x : Named) : ActiveKept x.tree s (unmuteTn x s) := fun ha => by
  have hposted := (closedKept_transit (s := s) (t := x.tree) x.tn .hostUnmute (milder_toRanging (s.budgetEnd x.tree))).trans
    (closedKept_postMust (t := x.tree) x.tn (m := .unmute x.tn) .registry rfl)
  exact (hposted.andThen x.tree fun hstage => closedKept_addTask _ (opened_of_active (hstage.trans ha))).trans
    (closedKept_toldMuted x)

/-- A context waits on a CALIBRATING tree and starts a window behind an open gate alone (R78, R81). -/
theorem closedKept_pushContext (c : Context) (h : (s.tree t).stage = .calibrating ∨ (s.tree t).stage = .active) :
    ClosedKept s (pushContext t c s) := by
  have hpushed : ClosedKept s (s.modDisc t fun d => { d with contexts := d.contexts ++ [{ ctx := c, held := false }] }) := by
    refine closedKept_modDisc _ fun hlaw => ⟨hlaw.owned, fun hx => ?_⟩
    have hst := h.resolve_right hx
    rw [hst] at hlaw ⊢
    rcases hlaw.rests nofun with ⟨hstopped, -⟩ | ⟨-, hd⟩
    · exact .inr ⟨rfl, .inl hstopped⟩
    · exact .inr ⟨rfl, hd⟩
  unfold pushContext
  simp only
  split
  · next hd =>
    refine ClosedKept.trans ?_ closedKept_startWindow
    refine .given fun hl => hpushed.andThen t fun hstage => closedKept_modDisc _ fun hlaw => ⟨fun ho => ?_, fun hx => ?_⟩
    · obtain ⟨w, qe, hq⟩ := hlaw.owned ho
      rw [tree_modDisc_same] at hq
      cases hd.symm.trans hq
    · rw [hstage] at hx ⊢
      rw [h.resolve_right hx]
      exact .inr ⟨rfl, .inr rfl⟩
  all_goals exact hpushed

theorem closedKept_flush : ClosedKept s (s.modDisc t Discovery.flush) := by
  refine closedKept_modDisc _ fun hlaw => ?_
  have hflushed : (∀ w qe, (s.tree t).disc.state ≠ .requesting w qe) →
      WindowLaw (s.tree t).stage { (s.tree t).disc with contexts := [], state := .stopped } (s.tree t).chanWindow.phase := by
    refine fun hno => ⟨fun ho => ?_, fun _ => .inl ⟨rfl, rfl⟩⟩
    obtain ⟨w, qe, hq⟩ := hlaw.owned ho
    exact absurd hq (hno w qe)
  unfold Discovery.flush
  split
  · next hd => exact hflushed fun w qe hq => nomatch hd.symm.trans hq
  · next hd => exact hflushed fun w qe hq => nomatch hd.symm.trans hq
  · next hd => exact hflushed fun w qe hq => nomatch hd.symm.trans hq
  all_goals
    next hd =>
    refine ⟨hlaw.owned, fun hx => ?_⟩
    rcases hlaw.rests hx with ⟨h, -⟩ | ⟨-, h | h⟩
    all_goals cases hd.symm.trans h

theorem activeKept_forceQuiet : ActiveKept t s (forceQuiet t s) := by
  have habort : ∀ r, ActiveKept t r (abortHunt t r) := by
    intro r
    unfold abortHunt
    split
    · exact (ClosedKept.refl r).active
    · simp only
      refine ActiveKept.trans ?_ ((closedKept_huntRelease _).trans (closedKept_huntReport _ _ _ _)).active
      exact activeKept_modLight _ fun _ => rfl
  unfold forceQuiet
  simp only
  refine ActiveKept.trans ?_ (activeKept_becomeQuiet _)
  refine ActiveKept.trans (ActiveKept.trans ?_ (habort _)) (activeKept_modLight _ fun _ => rfl)
  exact closedKept_giveUpCheck.active.trans (activeKept_modLight _ fun _ => rfl)

/-! ### Deliveries of an epoch start (R3) -/

theorem closedKept_spacingDue : ClosedKept s (spacingDue t s) := by
  refine .given fun hl => ?_
  unfold spacingDue
  split
  · next hd =>
    refine ClosedKept.ite (ClosedKept.trans ?_ closedKept_startWindow)
    exact activeKept_setDisc _ (unasked_of_window hl.requestsOwned hd nofun) (active_of_window hl hd nofun nofun)
  all_goals exact ClosedKept.refl s

/-- The sweep visits the entries of an ACTIVE tree (R148). -/
theorem activeKept_sweepVisit (l : List Nat) (n : Nat) : ActiveKept t s (sweepVisit t l n s) := by
  induction l generalizing n s with
  | nil => unfold sweepVisit; exact (ClosedKept.refl s).active
  | cons tn rest ih =>
    cases n with
    | zero => unfold sweepVisit; exact (ClosedKept.refl s).active
    | succ n =>
      have hadd : ∀ k, ActiveKept t s (addTask t k s).state := fun k ha => closedKept_addTask k (opened_of_active ha)
      have hptr : ∀ x : State, ClosedKept x (x.modSeq t fun q => { q with sweepPtr := tn }) := fun x =>
        closedKept_modSeq _ fun h => ⟨h.owned, h.rests⟩
      unfold sweepVisit
      split
      · exact ih _
      · simp only
        split
        · exact ((hadd _).trans (hptr _).active).trans (ih _)
        · exact hadd _
        all_goals exact (hadd _).trans (ih _)

theorem closedKept_sweepDue : ClosedKept s (sweepDue t s) := by
  refine .given fun hl => ?_
  unfold sweepDue
  split
  · next hnext =>
    have ha : (s.tree t).stage = .active := by
      by_contra hx
      obtain ⟨-, -, hsweep⟩ := (lawsAt_of_lawful hl t).probe.rests hx
      cases hsweep.symm.trans hnext
    refine ActiveKept.trans (fun _ => ?_) (activeKept_sweepVisit _ _) ha
    exact closedKept_modSeq _ fun h => ⟨h.owned, fun hx => absurd ha hx⟩
  · exact ClosedKept.refl s

theorem closedKept_nextCheckDue : ClosedKept s (nextCheckDue t s) := by
  refine .given fun hl => ?_
  unfold nextCheckDue
  split
  · next hnext =>
    refine ActiveKept.trans ?_ (activeKept_sendCheck _) (active_of_light hl fun hreset => ?_)
    · exact activeKept_modLight _ fun _ => rfl
    · rw [hreset] at hnext
      cases hnext
  · exact ClosedKept.refl s

theorem closedKept_huntCheckDue : ClosedKept s (huntCheckDue t s) := by
  refine .given fun hl => ?_
  unfold huntCheckDue
  split
  · exact ClosedKept.refl s
  next hh =>
  split
  · refine ActiveKept.trans ?_ (activeKept_sendCheck _) (active_of_hunt hl hh)
    exact activeKept_modLight _ fun _ => rfl
  · exact ClosedKept.refl s

theorem closedLawful_deliveryEffect (a : EpochAction) (hl : s.ClosedLawful) : (deliveryEffect a s).ClosedLawful := by
  cases a with
  | activationDeadline t => exact (ClosedKept.foldl _ (fun _ tn => closedKept_enterRetiring tn _) _ _).lawful hl
  | lostHoldDeadline t => exact (ClosedKept.foldl _ (fun _ tn => closedKept_freeEntry tn _) _ _).lawful hl
  | pendingHoldDeadline t => exact closedKept_pendingHolds.lawful hl
  | spacingEnd t => exact closedKept_spacingDue.lawful hl
  | probeWaitExpiry t => exact closedKept_probeWaitExpired.lawful hl
  | auditSweep t => exact closedKept_sweepDue.lawful hl
  | heldRecheck t => exact closedKept_heldRecheck.lawful hl
  | responseDeadline t tag => exact (closedKept_responseLapsed _).lawful hl
  | resendEpoch t tag => exact (closedKept_resendDue _).lawful hl
  | nextCheckEpoch t => exact closedKept_nextCheckDue.lawful hl
  | huntCheckEpoch t => exact closedKept_huntCheckDue.lawful hl
  | loopMarkerEpoch t => exact closedLawful_loopMarker hl

theorem closedKept_slipTrees : ClosedKept s (slipTrees s) :=
  ClosedKept.foldl _ (fun _ _ =>
    (((closedKept_calibrationSlip.trans closedKept_discSlip).trans closedKept_probeSlip).trans closedKept_driftSlip).trans
      closedKept_lightSlip) _ _

/-! ### Epochs -/

theorem closedKept_settle : ClosedKept s s.settle := .of_trees rfl

theorem closedLawful_takeDelivery (a : EpochAction) (hl : s.ClosedLawful) : (takeDelivery a s).ClosedLawful := by
  by_cases h : a ∈ s.due
  · have htaken : ClosedKept s (s.taken a) := .of_trees rfl
    rw [takeDelivery_of_mem h]
    exact closedKept_settle.lawful (closedLawful_deliveryEffect a (htaken.lawful hl))
  · rwa [takeDelivery_of_not_mem h]

theorem closedLawful_takeDeliveries (l : List EpochAction) (hl : s.ClosedLawful) : (takeDeliveries l s).ClosedLawful := by
  induction l generalizing s with
  | nil => exact hl
  | cons a l ih => exact ih (closedLawful_takeDelivery a hl)

theorem closedKept_setCount (n : Nat) : ClosedKept s (s.setCount n) := by
  unfold State.setCount
  split
  · exact .of_trees rfl
  · exact .of_trees rfl

theorem closedLawful_beginEpoch (k : Nat) (hl : s.ClosedLawful) : (beginEpoch k s).ClosedLawful := by
  have hdue : ∀ x : State, ClosedKept x { x with due := allDeliveries } := fun _ => .of_trees rfl
  exact ((closedKept_setCount _).trans (hdue _)).lawful (closedLawful_takeDeliveries s.due hl)

theorem closedLawful_epochStart (hl : s.ClosedLawful) : (epochStart s).ClosedLawful := by
  unfold epochStart
  split
  · exact hl
  · exact closedLawful_beginEpoch _ hl

theorem closedKept_afterRealignment (m : BitVec 64) (f : Nat) (x : Int) : ClosedKept s (afterRealignment m f x s) :=
  closedKept_slipTrees.trans (closedKept_deliver _ _)

theorem closedKept_raiseSlips (n : Nat) : ClosedKept s (raiseSlips { s with freeIndex := n }) := .of_trees rfl

theorem closedLawful_epochMarker (f : Nat) (early : List EpochAction) (hl : s.ClosedLawful) :
    (epochMarker f early s).ClosedLawful := by
  unfold epochMarker
  split
  · exact (ClosedKept.of_trees (s := s) (s' := startTimebase s) rfl).lawful hl
  split
  · exact hl
  split
  · exact (((closedKept_raiseSlips _).trans (closedKept_setCount _)).trans (closedKept_afterRealignment _ _ _)).lawful hl
  · exact (closedKept_afterRealignment _ _ _).lawful
      (closedLawful_takeDeliveries _ (closedLawful_beginEpoch _ ((closedKept_raiseSlips _).lawful hl)))

/-! ### Requests -/

section
variable {b n : Byte}

theorem closedLawful_treeConfigRequest (raw : RawParams) (hl : s.ClosedLawful) :
    (treeConfigRequest b raw s).state.ClosedLawful := by
  unfold treeConfigRequest
  split
  · exact hl
  split
  · exact hl
  · exact hl
  · exact hl
  split
  · exact hl
  · rw [state_ok]
    exact (closedKept_modCtl _ rfl).lawful hl

theorem closedLawful_treeOpenRequest (hl : s.ClosedLawful) : (treeOpenRequest b s).state.ClosedLawful := by
  unfold treeOpenRequest
  split
  · exact hl
  split
  · exact hl
  · exact hl
  · exact hl
  next hst =>
  split
  · exact hl
  · exact (closedKept_treeReport _ _ _ _ _ _ _ _).lawful (closedLawful_opens _ hl hst)

theorem closedLawful_treeCloseRequest (hl : s.ClosedLawful) : (treeCloseRequest b s).state.ClosedLawful := by
  unfold treeCloseRequest
  split
  · exact hl
  split
  · exact hl
  · exact hl
  · exact hl
  · rw [state_ok]
    exact closedLawful_beginClose hl

theorem closedKept_treeReadConfigRequest : ClosedKept s (treeReadConfigRequest b s).state := by
  unfold treeReadConfigRequest
  split
  · exact ClosedKept.refl s
  · split <;> exact ClosedKept.refl s

theorem closedKept_treeStatusRequest : ClosedKept s (treeStatusRequest b s).state := by
  unfold treeStatusRequest
  split <;> exact ClosedKept.refl s

theorem closedKept_setSuspended (x : Bool) : ClosedKept s (setSuspended t x s) := closedKept_modCtl _ rfl

theorem closedKept_treeSuspendRequest : ClosedKept s (treeSuspendRequest b s).state := by
  unfold treeSuspendRequest
  split
  · exact ClosedKept.refl s
  · exact closedKept_setSuspended _

theorem closedKept_treeResumeRequest : ClosedKept s (treeResumeRequest b s).state := by
  unfold treeResumeRequest
  split
  · exact ClosedKept.refl s
  split
  · exact ((closedKept_setSuspended _).trans closedKept_startWindow).trans closedKept_takeTasks
  · exact ClosedKept.refl s

theorem stage_of_openTree (h : openTree s b = .ok t) :
    (s.tree t).stage = .calibrating ∨ (s.tree t).stage = .active := by
  unfold openTree at h
  split at h
  · cases h
  split at h
  · cases h
  · cases h
  · next hst =>
    cases h
    exact .inl (stage_of_calibrating hst)
  · next hst =>
    cases h
    exact .inr (by rw [Tree.stage, hst]; rfl)

theorem stage_of_activeTree (h : activeTree s b = .ok t) : (s.tree t).stage = .active := by
  unfold activeTree at h
  split at h
  · cases h
  split at h
  · cases h
  · cases h
  · cases h
  · next hst =>
    cases h
    rw [Tree.stage, hst]
    rfl

theorem closedKept_ctxPushRequest (raw : RawContext) : ClosedKept s (ctxPushRequest b raw s).state := by
  unfold ctxPushRequest
  split
  · exact ClosedKept.refl s
  next ht =>
  split
  · exact ClosedKept.refl s
  split
  · exact ClosedKept.refl s
  · exact closedKept_pushContext _ (stage_of_openTree ht)

theorem closedKept_ctxFlushRequest : ClosedKept s (ctxFlushRequest b s).state := by
  unfold ctxFlushRequest
  split
  · exact ClosedKept.refl s
  · exact closedKept_flush

theorem closedKept_forceQuietRequest : ClosedKept s (forceQuietRequest b s).state := by
  unfold forceQuietRequest
  split
  · exact ClosedKept.refl s
  next ht =>
  split
  · exact ClosedKept.refl s
  · exact activeKept_forceQuiet (stage_of_activeTree ht)

theorem closedKept_refuseRequest (serial : Serial) : ClosedKept s (refuseRequest b serial s).state := by
  unfold refuseRequest
  split
  · exact ClosedKept.refl s
  split
  · exact ClosedKept.refl s
  · exact (closedKept_removePending _).trans (closedKept_pendingReport _ _ _ _ _)

theorem closedKept_admitRequest (serial : Serial) : ClosedKept s (admitRequest b serial s).state := by
  unfold admitRequest
  split
  · exact ClosedKept.refl s
  split
  · exact ClosedKept.refl s
  · next t _ _ r _ =>
    have hcreated : ClosedKept s (createEntry t serial r.model r.c r.profile s).state := closedKept_createEntry _ _ _ _
    split
    · exact (closedKept_removePending _).trans (closedKept_pendingReport _ _ _ _ _)
    simp only
    split
    · exact ((hcreated.trans (closedKept_removePending _)).trans (closedKept_pendingReport _ _ _ _ _)).trans
        (closedKept_supersede _ _ _)
    · exact (hcreated.trans (closedKept_removePending _)).trans (closedKept_pendingReport _ _ _ _ _)
    all_goals exact ClosedKept.refl s

theorem stage_of_namedEntry {x : Named} (h : namedEntry s b n = .ok x) : (s.tree x.tree).stage = .active := by
  unfold namedEntry at h
  split at h
  · split at h
    · cases h
    · cases h
    · cases h
    · next hst =>
      split at h
      · cases h
      · cases h
        rw [Tree.stage, hst]
        rfl
  · cases h

theorem closedKept_terminalRequest {accepts : EntryState → Bool} {act : Named → State → State}
    (hact : ∀ x, ActiveKept x.tree s (act x s)) : ClosedKept s (terminalRequest b n accepts act s).state := by
  unfold terminalRequest
  split
  · exact ClosedKept.refl s
  next hx =>
  split
  · exact hact _ (stage_of_namedEntry hx)
  · exact ClosedKept.refl s

theorem closedKept_readEntryRequest : ClosedKept s (readEntryRequest b n s).state := by
  unfold readEntryRequest
  split <;> exact ClosedKept.refl s

theorem closedKept_findSerialRequest (serial : Serial) : ClosedKept s (findSerialRequest serial s).state := by
  unfold findSerialRequest
  split
  · exact ClosedKept.refl s
  · split <;> exact ClosedKept.refl s

end

/-! ### Every command -/

/-- From one state to another Law 12 is kept, whichever trees change their state. -/
def LawTwelveKept (s s' : State) : Prop := s.ClosedLawful → s'.ClosedLawful

theorem lawTwelveKept_take {f : State → State} (hf : LawTwelveKept s (f s)) (h : s.take f = .next s') :
    LawTwelveKept s s' := by
  obtain rfl : s.event f = s' := by simpa [State.take] using h
  unfold State.event
  split
  · exact id
  · exact fun hl => closedKept_settle.lawful (hf hl)

theorem lawTwelveKept_request {tag : Byte} {f : State → Answer} (hf : LawTwelveKept s (f s).state)
    (h : s.request tag f = .next s') : LawTwelveKept s s' := by
  simp only [State.request, Host.Outcome.next.injEq] at h
  subst h
  split
  · exact id
  · exact fun hl => (ClosedKept.of_trees (s := (f s).state) rfl).lawful (hf hl)

theorem lawTwelveKept_command {a : EpochAction} (h : exec a.command s = .next s') : LawTwelveKept s s' := by
  rw [exec_command] at h
  exact lawTwelveKept_take (closedLawful_takeDelivery a) h

/-- Trees that have all just been reset are CLOSED and empty. -/
theorem lawTwelveKept_reset (h : ∀ j, ∃ out, s'.tree j = Tree.resetWith out) : LawTwelveKept s s' := fun _ j => by
  obtain ⟨out, hj⟩ := h j
  exact hj ▸ closedLawful_resetWith out

theorem lawTwelveKept_partReset (adm : Admission) (pin : Bool) :
    LawTwelveKept s { partReset adm s with resetPin := pin } := by
  refine lawTwelveKept_reset fun j => ?_
  fin_cases j <;> exact ⟨_, rfl⟩

theorem lawTwelveKept_trees (h : s'.trees = s.trees) : LawTwelveKept s s' := (ClosedKept.of_trees h).lawful

/-- Every command keeps Law 12: the resets leave the trees CLOSED, the commands that open and close a tree leave it as its new
state has it, and all other work leaves the trees in their states. -/
theorem exec_lawTwelveKept {c : Instr} (h : exec c s = .next s') : LawTwelveKept s s' := by
  cases c with
  | powerOn strap => cases h; exact lawTwelveKept_reset fun j => ⟨_, tree_reset j⟩
  | resetPinAssert => cases h; exact lawTwelveKept_trees (s' := assertReset s) rfl
  | resetPinRelease strap => cases h; exact lawTwelveKept_partReset _ _
  | partReset tag => exact lawTwelveKept_request (lawTwelveKept_partReset _ _) h
  | epochMarker f early => exact lawTwelveKept_take (closedLawful_epochMarker _ _) h
  | epochStart => exact lawTwelveKept_take closedLawful_epochStart h
  | activationDeadline t => exact lawTwelveKept_command (a := .activationDeadline t) h
  | lostHoldDeadline t => exact lawTwelveKept_command (a := .lostHoldDeadline t) h
  | pendingHoldDeadline t => exact lawTwelveKept_command (a := .pendingHoldDeadline t) h
  | spacingEnd t => exact lawTwelveKept_command (a := .spacingEnd t) h
  | probeWaitExpiry t => exact lawTwelveKept_command (a := .probeWaitExpiry t) h
  | auditSweep t => exact lawTwelveKept_command (a := .auditSweep t) h
  | heldRecheck t => exact lawTwelveKept_command (a := .heldRecheck t) h
  | responseDeadline t tag => exact lawTwelveKept_command (a := .responseDeadline t tag) h
  | resendEpoch t tag => exact lawTwelveKept_command (a := .resendEpoch t tag) h
  | nextCheckEpoch t => exact lawTwelveKept_command (a := .nextCheckEpoch t) h
  | huntCheckEpoch t => exact lawTwelveKept_command (a := .huntCheckEpoch t) h
  | loopMarkerEpoch t => exact lawTwelveKept_command (a := .loopMarkerEpoch t) h
  | slotCall t => exact lawTwelveKept_take closedLawful_slotCall h
  | quietIntervalBurst t tag arrival q payload =>
    exact lawTwelveKept_take (closedKept_routed (closedKept_routeBurst tag _ q payload)).lawful h
  | intervalEnd t tag => exact lawTwelveKept_take (closedKept_routed (closedKept_routeEnd tag)).lawful h
  | grantedBurst t tn g arrival => exact lawTwelveKept_take (closedKept_routed (closedKept_routeGranted _ _ _)).lawful h
  | miss t tn g => exact lawTwelveKept_take (closedKept_routed (closedKept_routeMiss _)).lawful h
  | ungrantedLight t arrival => exact lawTwelveKept_take (closedKept_routed (closedKept_unexplained _)).lawful h
  | continuousLight t arrival => exact lawTwelveKept_take (closedKept_routed (closedKept_continuous _)).lawful h
  | loop t arrival => exact lawTwelveKept_take (closedLawful_loopTaken _) h
  | grant t tag number start => exact lawTwelveKept_take (closedKept_grantTaken _ _ _).lawful h
  | defer t tag number e => exact lawTwelveKept_take (closedKept_deferTaken _ _ _).lawful h
  | schedulerRefuse t tag number => exact lawTwelveKept_take (closedKept_refuseTaken _ _).lawful h
  | malformedFrame => exact lawTwelveKept_request (f := fun s => Machine.refuse s .malformed) (lawTwelveKept_trees rfl) h
  | readTransaction clocked => exact lawTwelveKept_take (lawTwelveKept_trees rfl) h
  | identify tag => exact lawTwelveKept_request (lawTwelveKept_trees rfl) h
  | partSetup tag settings => exact lawTwelveKept_request (lawTwelveKept_trees (trees_partSetupRequest _)) h
  | fetchReports tag n => exact lawTwelveKept_request (lawTwelveKept_trees trees_fetchReportsRequest) h
  | catWrite tag index raw => exact lawTwelveKept_request (lawTwelveKept_trees (trees_catWriteRequest _)) h
  | catRead tag index => exact lawTwelveKept_request (lawTwelveKept_trees trees_catReadRequest) h
  | catLock tag => exact lawTwelveKept_request (lawTwelveKept_trees rfl) h
  | barWrite tag index raw => exact lawTwelveKept_request (lawTwelveKept_trees (trees_barWriteRequest _)) h
  | barRead tag index => exact lawTwelveKept_request (lawTwelveKept_trees trees_barReadRequest) h
  | treeConfig tag b raw => exact lawTwelveKept_request (closedLawful_treeConfigRequest raw) h
  | treeReadConfig tag b => exact lawTwelveKept_request closedKept_treeReadConfigRequest.lawful h
  | treeOpen tag b => exact lawTwelveKept_request closedLawful_treeOpenRequest h
  | treeClose tag b => exact lawTwelveKept_request closedLawful_treeCloseRequest h
  | treeStatus tag b => exact lawTwelveKept_request closedKept_treeStatusRequest.lawful h
  | ctxPush tag b raw => exact lawTwelveKept_request (closedKept_ctxPushRequest _).lawful h
  | ctxFlush tag b => exact lawTwelveKept_request closedKept_ctxFlushRequest.lawful h
  | treeSuspend tag b => exact lawTwelveKept_request closedKept_treeSuspendRequest.lawful h
  | treeResume tag b => exact lawTwelveKept_request closedKept_treeResumeRequest.lawful h
  | forceQuiet tag b => exact lawTwelveKept_request closedKept_forceQuietRequest.lawful h
  | admitSerial tag b serial => exact lawTwelveKept_request (closedKept_admitRequest _).lawful h
  | refuse tag b serial => exact lawTwelveKept_request (closedKept_refuseRequest _).lawful h
  | rangeNow tag b n =>
    exact lawTwelveKept_request
      (closedKept_terminalRequest fun _ => (closedKept_moveToRanging _ _ _).active).lawful h
  | retireTn tag b n =>
    exact lawTwelveKept_request (closedKept_terminalRequest fun x => (closedKept_retireTn x).active).lawful h
  | muteTn tag b n =>
    exact lawTwelveKept_request (closedKept_terminalRequest fun x => (closedKept_muteTn x).active).lawful h
  | unmuteTn tag b n => exact lawTwelveKept_request (closedKept_terminalRequest activeKept_unmuteTn).lawful h
  | readEntry tag b n => exact lawTwelveKept_request closedKept_readEntryRequest.lawful h
  | findSerial tag serial => exact lawTwelveKept_request (closedKept_findSerialRequest _).lawful h

/-- A step takes the command at the front of the queue, which Law 12 does not read, or idles. -/
theorem step_lawTwelveKept (h : step s = .next s') : LawTwelveKept s s' := by
  unfold step at h
  split at h
  · cases h
    exact id
  · next c rest _ =>
    have hfront : LawTwelveKept s { s with pending := rest } := lawTwelveKept_trees rfl
    exact fun hl => exec_lawTwelveKept h (hfront hl)

end

/-- Settles O11: every command keeps Law 12, and a step runs one command or none. -/
theorem closedLawKept : Obligations.ClosedLawKept := fun _ _ hl h => step_lawTwelveKept h hl

end Sys2Proof.Machine
end

section
/-! PROOF. The report queue (O47): a record meets room or one of the two policies, the arbiter takes the posters in cycle order,
and FETCH_REPORTS takes records from the head (R191..R193). -/

namespace Sys2Proof.Machine

/-! ### A record entered (R191..R193) -/

/-- The port within an event: Law 13 with the counter, the watermark and the attention line of a part out of reset, whichever
delivered records wait for the arbiter. -/
structure Port.Sound (p : Port) : Prop where
  queue     : p.queue.length ≤ 64
  lost      : p.lost ≤ 255
  watermark : 1 ≤ p.watermark ∧ p.watermark ≤ 64
  attention : p.attention = attentionOf p.queue p.watermark

section
variable {p : Port} {i : Poster} {r : Record} {rest : List Record}

theorem Port.Lawful.sound (h : p.Lawful false) : p.Sound := ⟨h.queue, h.lost, h.watermark, h.attention⟩

theorem Port.Sound.lawful (h : p.Sound) (hd : ∀ i : Poster, p.delivered[i] = []) : p.Lawful false :=
  ⟨h.queue, h.lost, h.watermark, hd, h.attention⟩

theorem enterRecord_of_room (r : Record) (h : p.queue.length < 64) :
    p.enterRecord r =
      { p with
        queue := p.queue ++ [{ r with lostBefore := p.lost }], lost := 0
        attention := attentionOf (p.queue ++ [{ r with lostBefore := p.lost }]) p.watermark } := if_pos h

theorem enterRecord_of_keepOldest (r : Record) (h : ¬p.queue.length < 64) (hp : p.policy = .keepOldest) :
    p.enterRecord r =
      { p with lost := raiseTo 255 p.lost, attention := attentionOf p.queue p.watermark } := by
  rw [Port.enterRecord, if_neg h, hp]

theorem enterRecord_of_keepNewest (r : Record) (h : ¬p.queue.length < 64) (hp : p.policy = .keepNewest) :
    p.enterRecord r =
      { p with
        queue := p.queue.tail ++ [{ r with lostBefore := raiseTo 255 p.lost }], lost := 0
        attention :=
          attentionOf (p.queue.tail ++ [{ r with lostBefore := raiseTo 255 p.lost }]) p.watermark } := by
  rw [Port.enterRecord, if_neg h, hp]

/-- Entering a record judges the attention line, and leaves the settings and the reply holder (R193). -/
theorem enterRecord_settings (p : Port) (r : Record) :
    (p.enterRecord r).attention = attentionOf (p.enterRecord r).queue (p.enterRecord r).watermark ∧
      (p.enterRecord r).policy = p.policy ∧ (p.enterRecord r).watermark = p.watermark ∧
      (p.enterRecord r).holder = p.holder := by
  unfold Port.enterRecord
  split
  · exact ⟨rfl, rfl, rfl, rfl⟩
  · split <;> exact ⟨rfl, rfl, rfl, rfl⟩

/-- Law 13 and the bound of the counter survive a record, whether the queue has room or either policy meets it full (R192). -/
theorem Port.Sound.enterRecord (h : p.Sound) (r : Record) : (p.enterRecord r).Sound := by
  obtain ⟨hattention, -, hmark, -⟩ := enterRecord_settings p r
  have hbounds : (p.enterRecord r).queue.length ≤ 64 ∧ (p.enterRecord r).lost ≤ 255 := by
    have hqueue := h.queue
    by_cases hroom : p.queue.length < 64
    · simp only [enterRecord_of_room r hroom, List.length_append, List.length_singleton]
      omega
    · cases hpolicy : p.policy with
      | keepOldest =>
        simp only [enterRecord_of_keepOldest r hroom hpolicy, raiseTo]
        omega
      | keepNewest =>
        simp only [enterRecord_of_keepNewest r hroom hpolicy, List.length_append, List.length_tail, List.length_singleton]
        omega
  exact ⟨hbounds.1, hbounds.2, hmark ▸ h.watermark, hattention⟩

/-! ### The arbiter (R191) -/

theorem enterFrom_of_head (h : p.delivered[i] = r :: rest) :
    p.enterFrom i = { p with delivered := p.delivered.set i rest, lastServed := i }.enterRecord r := by
  rw [Port.enterFrom, h]

theorem Port.Sound.enterFrom (h : p.Sound) (i : Poster) : (p.enterFrom i).Sound := by
  cases hd : p.delivered[i] with
  | nil =>
    rw [Port.enterFrom, hd]
    exact h
  | cons r rest =>
    have hserved : Port.Sound { p with delivered := p.delivered.set i rest, lastServed := i } :=
      ⟨h.queue, h.lost, h.watermark, h.attention⟩
    exact enterFrom_of_head hd ▸ hserved.enterRecord r

theorem Port.Sound.enterUpTo (n : Nat) (h : p.Sound) : (Port.enterUpTo n p).Sound := by
  induction n generalizing p with
  | zero => exact h
  | succ n ih =>
    rw [Port.enterUpTo]
    split
    · exact h
    · exact ih (h.enterFrom _)

/-- The posters before `i` in cycle order are those nearer behind the last-served one (R191). -/
theorem cycleAfter_split (last i : Poster) :
    ∃ before after, cycleAfter last = before ++ i :: after ∧ ∀ j ∈ before, j - (last + 1) < i - (last + 1) := by
  refine ⟨(cycleAfter last).take (i - (last + 1)).val, (cycleAfter last).drop ((i - (last + 1)).val + 1), ?_⟩
  revert last i
  decide

/-- The arbiter serves the first poster after the last-served one that holds a record (R191). -/
theorem nextPoster_of_first (hi : p.delivered[i] = r :: rest)
    (hfirst : ∀ j : Poster, j - (p.lastServed + 1) < i - (p.lastServed + 1) → p.delivered[j] = []) :
    p.nextPoster = some i := by
  obtain ⟨before, after, hcycle, hbefore⟩ := cycleAfter_split p.lastServed i
  refine List.find?_eq_some_iff_append.2 ⟨by simp [hi], before, after, hcycle, fun j hj => ?_⟩
  simp [hfirst j (hbefore j hj)]

/-- The arbiter goes on until no poster holds a record (R191). -/
theorem delivered_enterUpTo (n : Nat) (hn : p.deliveredCount = n) (j : Poster) :
    (Port.enterUpTo n p).delivered[j] = [] := by
  induction n generalizing p with
  | zero => exact deliveredCount_eq_zero.1 hn j
  | succ n ih =>
    rw [Port.enterUpTo]
    split
    · next hnone => exact delivered_of_nextPoster_none hnone j
    · next i hi =>
      obtain ⟨r, rest, hd⟩ := delivered_of_nextPoster hi
      have hcount : (p.enterFrom i).deliveredCount + 1 = p.deliveredCount := by
        rw [enterFrom_of_head hd, ← deliveredCount_set hd]
        simp only [Port.deliveredCount, enterRecord_delivered]
      exact ih (Nat.succ.inj (hcount.trans hn))

theorem delivered_settle (s : State) (j : Poster) : s.settle.port.delivered[j] = [] := delivered_enterUpTo _ rfl j

end

/-! ### FETCH_REPORTS (R193) -/

section
variable {s : State} {n : Byte}

theorem fetchReportsRequest_of_count (h : 1 ≤ n.toNat ∧ n.toNat ≤ 8) :
    fetchReportsRequest n s =
      okWith
        { s with
          port :=
            { s.port with
              queue := s.port.queue.drop n.toNat
              attention := decide (s.port.watermark ≤ s.port.queue.length - n.toNat) } }
        ((s.port.queue.take n.toNat).flatMap Record.bytes) := by
  simp only [fetchReportsRequest, if_pos h, attentionOf, List.length_drop]

theorem fetchReportsRequest_refused (h : ¬(1 ≤ n.toNat ∧ n.toNat ≤ 8)) :
    fetchReportsRequest n s = refuse s .badParam := if_neg h

/-- A request answered OK that sets what the port holds beside the delivered records (R189, R193). -/
theorem request_setsPort (hs : s.Taking) {tag : Byte} {f : State → Answer} {p : Port} {body : List Byte}
    (hf : f s = okWith { s with port := p } body) (hp : p.delivered = s.port.delivered) :
    s.request tag f = .next ({ s with port := p }.reply tag .ok body) := by
  have hsame : { s with port := p }.settle = { s with port := p } := settle_of_entered (hp ▸ hs.entered)
  rw [request_of_taking hs, hf, okWith, hsame]

end

/-- Settles O47: a record meets room or one of the two policies, and the arbiter takes the posters in cycle order. -/
theorem reportsQueuedAndFetched : Obligations.ReportsQueuedAndFetched := by
  refine ⟨fun p r _ => ⟨fun hroom => ?_, fun hfull hp => ?_, fun hfull hp => ?_, ?_⟩,
    fun p i r rest n hi hfirst => ?_, fun p n h => enterUpTo_of_entered h n, delivered_settle,
    fun s tag n hs => ⟨fun h1 h8 => ?_, fun hout => ?_⟩⟩
  · rw [enterRecord_of_room r hroom]
    exact ⟨rfl, rfl⟩
  · rw [enterRecord_of_keepOldest r (by omega) hp]
    exact ⟨rfl, rfl⟩
  · rw [enterRecord_of_keepNewest r (by omega) hp]
    exact ⟨rfl, rfl⟩
  · obtain ⟨hattention, hpolicy, hmark, hholder⟩ := enterRecord_settings p r
    exact ⟨hmark ▸ hattention, hpolicy, hmark, hholder, enterRecord_delivered p r⟩
  · rw [Port.enterUpTo, nextPoster_of_first hi hfirst]
    exact congrArg (Port.enterUpTo n) (enterFrom_of_head hi)
  · exact request_setsPort hs (fetchReportsRequest_of_count ⟨h1, h8⟩) rfl
  · exact request_same hs (fetchReportsRequest_refused (by omega))

end Sys2Proof.Machine
end

section
/-! PROOF. What a command does to the port: the commands that the reset pin holds off (O5), and Law 13 through every command
(O6). -/

namespace Sys2Proof.Machine

/-! ### What a command leaves of the port -/

/-- From one state to another within an event, the port stays sound. -/
def PortKept (s s' : State) : Prop := s.port.Sound → s'.port.Sound

section
variable {s s' s'' : State} {P : TreeId → Prop} {tag b : Byte}

theorem PortKept.trans (h : PortKept s s') (k : PortKept s' s'') : PortKept s s'' := k ∘ h

theorem PortKept.of_port (h : s'.port = s.port) : PortKept s s' := fun hp => h ▸ hp

@[refl] theorem PortKept.refl (s : State) : PortKept s s := id

/-- The tree blocks deliver records to the port and touch nothing else of it (R191). -/
theorem Beside.portKept (h : Beside P s s') : PortKept s s' := fun hp => by
  obtain ⟨d, hd⟩ := h.port
  rw [hd]
  exact ⟨hp.queue, hp.lost, hp.watermark, hp.attention⟩

theorem Within.portKept (h : Within P s s') : PortKept s s' := h.toBeside.portKept

theorem portKept_settle : PortKept s s.settle := fun hp => hp.enterUpTo _

/-! ### Epochs -/

theorem portKept_takeDelivery (a : EpochAction) : PortKept s (takeDelivery a s) := by
  by_cases h : a ∈ s.due
  · have htaken : PortKept s (s.taken a) := .of_port rfl
    rw [takeDelivery_of_mem h]
    exact (htaken.trans within_deliveryEffect_self.portKept).trans portKept_settle
  · rw [takeDelivery_of_not_mem h]

theorem portKept_takeDeliveries (l : List EpochAction) : PortKept s (takeDeliveries l s) := by
  induction l generalizing s with
  | nil => exact PortKept.refl s
  | cons a l ih => exact (portKept_takeDelivery a).trans ih

theorem portKept_setCount (n : Nat) : PortKept s (s.setCount n) := by
  unfold State.setCount
  split <;> exact .of_port rfl

theorem portKept_beginEpoch (k : Nat) : PortKept s (beginEpoch k s) :=
  (portKept_takeDeliveries s.due).trans (portKept_setCount _)

theorem portKept_epochStart : PortKept s (epochStart s) := by
  unfold epochStart
  split
  · exact PortKept.refl s
  · exact portKept_beginEpoch _

theorem portKept_afterRealignment (m : BitVec 64) (f : Nat) (x : Int) : PortKept s (afterRealignment m f x s) :=
  ((within_slipTrees anyTree_any).trans (within_deliver _ _)).portKept

theorem portKept_raiseSlips (n : Nat) : PortKept s (raiseSlips { s with freeIndex := n }) := .of_port rfl

theorem portKept_epochMarker (f : Nat) (early : List EpochAction) : PortKept s (epochMarker f early s) := by
  unfold epochMarker
  split
  · exact .of_port rfl
  split
  · exact PortKept.refl s
  split
  · exact ((portKept_raiseSlips _).trans (portKept_setCount _)).trans (portKept_afterRealignment _ _ _)
  · exact (((portKept_raiseSlips _).trans (portKept_beginEpoch _)).trans (portKept_takeDeliveries _)).trans
      (portKept_afterRealignment _ _ _)

/-! ### Requests of the port itself, and of the Admission Unit's lists -/

/-- A new watermark lies in its range and is judged against the queue at once (R189, R193). -/
theorem portKept_partSetupRequest (settings : Option (Byte × Byte)) :
    PortKept s (partSetupRequest settings s).state := by
  unfold partSetupRequest
  split
  · exact PortKept.refl s
  split
  · exact PortKept.refl s
  split
  · next hmark => exact fun hp => ⟨hp.queue, hp.lost, hmark, rfl⟩
  · exact PortKept.refl s

theorem portKept_fetchReportsRequest : PortKept s (fetchReportsRequest b s).state := by
  unfold fetchReportsRequest
  split
  · exact fun hp => ⟨(List.drop_sublist _ _).length_le.trans hp.queue, hp.lost, hp.watermark, rfl⟩
  · exact PortKept.refl s

theorem portKept_catWriteRequest (raw : RawCatEntry) : PortKept s (catWriteRequest b raw s).state := by
  unfold catWriteRequest
  split
  · exact PortKept.refl s
  split
  · exact PortKept.refl s
  split <;> exact .of_port rfl

theorem portKept_catReadRequest : PortKept s (catReadRequest b s).state := by
  unfold catReadRequest
  split <;> exact PortKept.refl s

theorem portKept_barWriteRequest (raw : RawBarRange) : PortKept s (barWriteRequest b raw s).state := by
  unfold barWriteRequest
  split
  · exact PortKept.refl s
  split
  · exact PortKept.refl s
  split <;> exact .of_port rfl

theorem portKept_barReadRequest : PortKept s (barReadRequest b s).state := by
  unfold barReadRequest
  split <;> exact PortKept.refl s

theorem portKept_treeConfigRequest (raw : RawParams) : PortKept s (treeConfigRequest b raw s).state := by
  unfold treeConfigRequest
  split
  · exact PortKept.refl s
  split
  · exact PortKept.refl s
  · exact PortKept.refl s
  · exact PortKept.refl s
  · split
    · exact PortKept.refl s
    · exact .of_port rfl

/-! ### Every command -/

theorem portKept_partReset (adm : Admission) : PortKept s (partReset adm s) := fun _ => portLawful_reset.sound

/-- The outcome of a command that the reset pin holds off: an event, or a judged request, whose work keeps the port's laws. -/
inductive HeldOff (s : State) : Host.Outcome State Fault Refusal → Prop where
  | event {f : State → State} (hf : PortKept s (f s)) : HeldOff s (s.take f)
  | request {tag : Byte} {f : State → Answer} (hf : PortKept s (f s).state) : HeldOff s (s.request tag f)

section
variable {o : Host.Outcome State Fault Refusal}

/-- While the reset pin is asserted, neither an event nor a request is taken (R190). -/
theorem HeldOff.asserted (h : HeldOff s o) (hpin : s.resetPin = true) : o = .next s := by
  cases h with
  | event _ => simp only [State.take, State.event, if_pos hpin]
  | request _ => simp only [State.request, if_pos hpin]

/-- Out of reset, the arbiter ends an event or a request with the port lawful; the reply placed is no part of its laws. -/
theorem HeldOff.lawful (h : HeldOff s o) (hpin : s.resetPin = false) (hs : s.port.Sound) (ho : o = .next s') :
    s'.port.Lawful false := by
  have hoff : ¬s.resetPin = true := by simp [hpin]
  cases h with
  | event hf =>
    simp only [State.take, State.event, if_neg hoff, Host.Outcome.next.injEq] at ho
    subst ho
    exact (portKept_settle (hf hs)).lawful (delivered_settle _)
  | request hf =>
    simp only [State.request, if_neg hoff, Host.Outcome.next.injEq] at ho
    subst ho
    have hsettled := (portKept_settle (hf hs)).lawful (delivered_settle _)
    exact ⟨hsettled.queue, hsettled.lost, hsettled.watermark, hsettled.delivered, hsettled.attention⟩

end

theorem heldOff_command (a : EpochAction) : HeldOff s (exec a.command s) :=
  exec_command a s ▸ .event (portKept_takeDelivery a)

/-- Every command but the two of the reset pin and power-on is an event or a judged request. -/
theorem exec_heldOff {c : Instr} (hc : c.alwaysTaken = false) : HeldOff s (exec c s) := by
  have any : ∀ t : TreeId, anyTree t := anyTree_any
  cases c with
  | powerOn strap => cases hc
  | resetPinAssert => cases hc
  | resetPinRelease strap => cases hc
  | epochMarker f early => exact .event (portKept_epochMarker _ _)
  | epochStart => exact .event portKept_epochStart
  | activationDeadline t => exact heldOff_command (.activationDeadline t)
  | lostHoldDeadline t => exact heldOff_command (.lostHoldDeadline t)
  | pendingHoldDeadline t => exact heldOff_command (.pendingHoldDeadline t)
  | spacingEnd t => exact heldOff_command (.spacingEnd t)
  | probeWaitExpiry t => exact heldOff_command (.probeWaitExpiry t)
  | auditSweep t => exact heldOff_command (.auditSweep t)
  | heldRecheck t => exact heldOff_command (.heldRecheck t)
  | responseDeadline t tag => exact heldOff_command (.responseDeadline t tag)
  | resendEpoch t tag => exact heldOff_command (.resendEpoch t tag)
  | nextCheckEpoch t => exact heldOff_command (.nextCheckEpoch t)
  | huntCheckEpoch t => exact heldOff_command (.huntCheckEpoch t)
  | loopMarkerEpoch t => exact heldOff_command (.loopMarkerEpoch t)
  | slotCall t => exact .event (slotCall_keeps (any t)).1.portKept
  | quietIntervalBurst t tag arrival q payload =>
    exact .event (within_routed t _ (within_routeBurst (any t) tag (fun _ => any) _ _ _)).portKept
  | intervalEnd t tag => exact .event (within_routed t _ (within_routeEnd (any t) tag)).portKept
  | grantedBurst t tn g arrival => exact .event (within_routed t _ (within_routeGranted (any t) _ _ _)).portKept
  | miss t tn g => exact .event (within_routed t _ (within_routeMiss (any t) _)).portKept
  | ungrantedLight t arrival => exact .event (within_routed t _ (within_unexplained (any t) _)).portKept
  | continuousLight t arrival => exact .event (within_routed t _ (within_continuous (any t) _)).portKept
  | loop t arrival => exact .event (within_loopTaken (any t) _).portKept
  | grant t tag number start => exact .event (within_grantTaken (any t) _ _ _).portKept
  | defer t tag number e => exact .event (within_deferTaken (any t) _ _ _).portKept
  | schedulerRefuse t tag number => exact .event (within_refuseTaken (any t) _ _).portKept
  | malformedFrame => exact .request (f := fun s => Machine.refuse s .malformed) (PortKept.refl s)
  | readTransaction clocked => exact .event fun hp => ⟨hp.queue, hp.lost, hp.watermark, hp.attention⟩
  | identify tag => exact .request (PortKept.refl s)
  | partSetup tag settings => exact .request (portKept_partSetupRequest _)
  | partReset tag => exact .request (portKept_partReset _)
  | fetchReports tag n => exact .request portKept_fetchReportsRequest
  | catWrite tag index raw => exact .request (portKept_catWriteRequest _)
  | catRead tag index => exact .request portKept_catReadRequest
  | catLock tag => exact .request (.of_port rfl)
  | barWrite tag index raw => exact .request (portKept_barWriteRequest _)
  | barRead tag index => exact .request portKept_barReadRequest
  | treeConfig tag b raw => exact .request (portKept_treeConfigRequest raw)
  | treeReadConfig tag b => exact .request (within_treeReadConfigRequest (P := anyTree)).portKept
  | treeOpen tag b => exact .request (within_treeOpenRequest fun t _ => any t).portKept
  | treeClose tag b => exact .request (within_treeCloseRequest fun t _ => any t).portKept
  | treeStatus tag b => exact .request (within_treeStatusRequest (P := anyTree)).portKept
  | ctxPush tag b raw => exact .request (within_ctxPushRequest (fun t _ => any t) _).portKept
  | ctxFlush tag b => exact .request (within_ctxFlushRequest fun t _ => any t).portKept
  | treeSuspend tag b => exact .request (within_treeSuspendRequest fun t _ => any t).portKept
  | treeResume tag b => exact .request (within_treeResumeRequest fun t _ => any t).portKept
  | forceQuiet tag b => exact .request (within_forceQuietRequest fun t _ => any t).portKept
  | admitSerial tag b serial => exact .request (within_admitRequest any _).portKept
  | refuse tag b serial => exact .request (within_refuseRequest (fun t _ => any t) _).portKept
  | rangeNow tag b n => exact .request (within_terminalRequest (fun t _ => any t) fun x => within_rangeNow x).portKept
  | retireTn tag b n => exact .request (within_terminalRequest (fun t _ => any t) fun x => within_retireTn x).portKept
  | muteTn tag b n => exact .request (within_terminalRequest (fun t _ => any t) fun x => within_muteTn x).portKept
  | unmuteTn tag b n => exact .request (within_terminalRequest (fun t _ => any t) fun x => within_unmuteTn x).portKept
  | readEntry tag b n => exact .request (within_readEntryRequest (P := anyTree)).portKept
  | findSerial tag serial => exact .request (within_findSerialRequest (P := anyTree) _).portKept

end

/-- Settles O5: an event and a judged request both look at the reset pin first. -/
theorem nothingTakenInReset : Obligations.NothingTakenInReset := fun _ _ hpin hc => (exec_heldOff hc).asserted hpin

/-! ### Law 13 through every command -/

/-- The initial values of the port are lawful whether or not the reset pin is asserted (R190). -/
theorem lawful_reset (pin : Bool) : Port.reset.Lawful pin :=
  ⟨portLawful_reset.queue, portLawful_reset.lost, portLawful_reset.watermark, delivered_reset, (Bool.and_false _).symm⟩

section
variable {c : Instr} {s s' : State}

/-- A command that the reset pin holds off changes nothing while it does, and otherwise leaves the pin and a lawful port. -/
theorem portLawful_of_heldOff (hc : c.alwaysTaken = false) (hmoves : c.movesPin = false) (hs : s.PortLawful)
    (h : exec c s = .next s') : s'.PortLawful := by
  have hheld : HeldOff s (exec c s) := exec_heldOff hc
  cases hpin : s.resetPin with
  | true =>
    obtain rfl : s = s' := Host.Outcome.next.inj ((hheld.asserted hpin).symm.trans h)
    exact hs
  | false =>
    have hpin' : s'.resetPin = false := ((exec_framed h).resetPin hmoves).trans hpin
    rw [State.PortLawful, hpin] at hs
    rw [State.PortLawful, hpin']
    exact hheld.lawful hpin hs.sound h

/-- Every command keeps Law 13: power-on and the pin's release leave the initial values, and the pin's assertion releases the
attention line (R190). -/
theorem exec_portLawful (hs : s.PortLawful) (h : exec c s = .next s') : s'.PortLawful := by
  cases c with
  | powerOn strap =>
    cases h
    exact lawful_reset s.resetPin
  | resetPinAssert =>
    cases h
    exact ⟨hs.queue, hs.lost, hs.watermark, hs.delivered, rfl⟩
  | resetPinRelease strap =>
    cases h
    exact lawful_reset false
  | _ => exact portLawful_of_heldOff rfl rfl hs h

end

/-- Settles O6: a step takes the command at the front of the queue, which Law 13 does not read, or idles. -/
theorem portLawKept : Obligations.PortLawKept := by
  intro s s' hs h
  unfold step at h
  split at h
  · cases h
    exact hs
  · next c rest _ =>
    have hfront : State.PortLawful { s with pending := rest } := hs
    exact exec_portLawful hfront h

end Sys2Proof.Machine
end

section
/-! PROOF. The answers of the Command Port: malformed frames and read transactions (O45), IDENTIFY and PART_SETUP (O46). -/

namespace Sys2Proof.Machine

/-! ### Read transactions (R187) -/

/-- A read clocks out as many bytes as it is long. -/
theorem length_clockedBytes (n : Nat) (frame : List Byte) : (clockedBytes n frame).length = n := by
  simp only [clockedBytes, List.length_take, List.length_append, List.length_replicate]
  omega

/-- However many zeros stand behind a frame, a read that ends among them shifts out the same bytes. -/
theorem clockedBytes_eq (n : Nat) (frame : List Byte) :
    clockedBytes n frame = (frame ++ List.replicate n 0).take n := by
  simp only [clockedBytes, List.take_append, List.take_replicate, Nat.min_self, Nat.min_eq_left (Nat.sub_le ..)]

/-- An empty holder's frame is zeros, and so is what follows it (R187). -/
theorem clockedBytes_empty (n : Nat) : clockedBytes n (replyFrame none) = List.replicate n 0 := by
  have hzeros : replyFrame none = List.replicate 5 0 := rfl
  rw [clockedBytes_eq, hzeros, List.replicate_append_replicate, List.take_replicate, Nat.min_eq_left (Nat.le_add_left ..)]

theorem exec_readTransaction {s : State} (hs : s.Taking) (n : Nat) :
    exec (.readTransaction n) s =
      .next { s with port := { s.port with holder := none, miso := .frame (clockedBytes n (replyFrame s.port.holder)) } } := by
  have hentered : ∀ i : Poster, (readReply n s).port.delivered[i] = [] := hs.entered
  exact (take_of_taking hs (readReply n)).trans (congrArg Host.Outcome.next (settle_of_entered hentered))

/-- Settles O45: what a read shifts out is the holder's frame, cut or filled with zeros to the bytes clocked. -/
theorem framesAnswered : Obligations.FramesAnswered := by
  refine fun s hs => ⟨request_same (tag := 0) (f := fun s => refuse s .malformed) hs rfl, fun n hnone => ?_,
    fun n r hsome => ?_⟩
  · rw [exec_readTransaction hs, hnone, clockedBytes_empty]
  · refine ⟨_, exec_readTransaction hs n, length_clockedBytes _ _, ?_⟩
    rw [clockedBytes_eq, hsome]
    rfl

/-! ### PART_SETUP (R189) -/

section
variable {s : State} {policy mark : Byte} {p : Policy}

theorem parsePolicy_eq (b : Byte) :
    parsePolicy b = if b = 1 ∨ b = 2 then some (if b = 1 then .keepOldest else .keepNewest) else none := by
  unfold parsePolicy
  by_cases h1 : b = 1
  · simp only [h1, if_true, true_or]
  · simp only [h1, if_false, false_or]

/-- A policy in force is spelled by the byte that set it. -/
theorem code_of_parsePolicy (h : parsePolicy policy = some p) : p.code = policy := by
  unfold parsePolicy at h
  split at h
  · next h1 => cases h; exact h1.symm
  split at h
  · next h2 => cases h; exact h2.symm
  · cases h

theorem code_eq (p : Policy) : p.code = if p = .keepOldest then 1 else 2 := by cases p <;> rfl

/-- A watermark in force is spelled by the byte that set it. -/
theorem natField_mark (h : mark.toNat ≤ 64) : natField 1 mark.toNat = [mark] := by
  rw [natField_tn (by omega), BitVec.ofNat_toNat, BitVec.setWidth_eq]

theorem partSetupRequest_set (hp : parsePolicy policy = some p) (hmark : 1 ≤ mark.toNat ∧ mark.toNat ≤ 64) :
    partSetupRequest (some (policy, mark)) s =
      okWith
        { s with
          port :=
            { s.port with
              policy := p, watermark := mark.toNat, attention := attentionOf s.port.queue mark.toNat } }
        [policy, mark] := by
  simp only [partSetupRequest, hp, if_pos hmark, Port.settings, code_of_parsePolicy hp, natField_mark hmark.2]
  rfl

theorem partSetupRequest_badMark (hmark : ¬(1 ≤ mark.toNat ∧ mark.toNat ≤ 64)) :
    partSetupRequest (some (policy, mark)) s = refuse s .badParam := by
  cases hp : parsePolicy policy with
  | none => simp only [partSetupRequest, hp]
  | some p => simp only [partSetupRequest, hp, if_neg hmark]

theorem partSetupRequest_badPolicy (hp : parsePolicy policy = none) :
    partSetupRequest (some (policy, mark)) s = refuse s .badParam := by simp only [partSetupRequest, hp]

end

/-- Settles O46: a body is judged by its policy byte, then by its watermark, and both are set or neither. -/
theorem identifyAndSetup : Obligations.IdentifyAndSetup := by
  refine fun s tag hs => ⟨request_same hs rfl, ?_, fun policy mark => ?_⟩
  · refine request_same hs (f := partSetupRequest none) ?_
    simp only [partSetupRequest, okWith, Port.settings, code_eq]
  · have hparse := parsePolicy_eq policy
    split
    · next hranges =>
      rw [if_pos hranges.1] at hparse
      exact request_setsPort hs (partSetupRequest_set hparse hranges.2) rfl
    · next hout =>
      by_cases hpolicy : policy = 1 ∨ policy = 2
      · exact request_same hs (partSetupRequest_badMark fun hmark => hout ⟨hpolicy, hmark⟩)
      · rw [if_neg hpolicy] at hparse
        exact request_same hs (partSetupRequest_badPolicy hparse)

end Sys2Proof.Machine
end

section
/-! PROOF. Frames (O4): the bytes of each field spell the field again, the fields of each body spell its operands, and the
frame of each request spells its command (R186, R188, R194). -/

namespace Sys2Proof

/-! ### Fields (R188) -/

/-- The bytes of a two-byte field, put together, are the field. -/
theorem append_bytes16 (v : BitVec 16) : v.extractLsb' 8 8 ++ v.extractLsb' 0 8 = v := by
  rw [BitVec.extractLsb'_append_extractLsb'_eq_extractLsb' (by decide), BitVec.extractLsb'_eq_self]

theorem append_bytes24 (v : BitVec 24) : v.extractLsb' 16 8 ++ (v.extractLsb' 8 8 ++ v.extractLsb' 0 8) = v := by
  rw [BitVec.extractLsb'_append_extractLsb'_eq_extractLsb' (by decide),
    BitVec.extractLsb'_append_extractLsb'_eq_extractLsb' (by decide), BitVec.extractLsb'_eq_self]

theorem append_bytes32 (v : BitVec 32) :
    v.extractLsb' 24 8 ++ (v.extractLsb' 16 8 ++ (v.extractLsb' 8 8 ++ v.extractLsb' 0 8)) = v := by
  rw [BitVec.extractLsb'_append_extractLsb'_eq_extractLsb' (by decide),
    BitVec.extractLsb'_append_extractLsb'_eq_extractLsb' (by decide),
    BitVec.extractLsb'_append_extractLsb'_eq_extractLsb' (by decide), BitVec.extractLsb'_eq_self]

/-! ### Bodies (R61, R66, R77, R176) -/

theorem serialField_serialBytes (s : Serial) : serialField (serialBytes s) 0 = s :=
  (Serial.mk.injEq ..).mpr ⟨append_bytes32 s.vendor, append_bytes32 s.unit⟩

theorem catEntryField_catEntryBytes (i : Byte) (e : RawCatEntry) : catEntryField (i :: catEntryBytes e) = e :=
  (RawCatEntry.mk.injEq ..).mpr
    ⟨rfl, append_bytes32 e.vendor, append_bytes16 e.model, rfl, append_bytes24 e.rn, append_bytes16 e.rtol, rfl,
      append_bytes16 e.bp, rfl⟩

theorem barRangeField_barRangeBytes (i : Byte) (r : RawBarRange) : barRangeField (i :: barRangeBytes r) = r :=
  (RawBarRange.mk.injEq ..).mpr ⟨rfl, append_bytes32 r.vendor, append_bytes32 r.low, append_bytes32 r.high⟩

theorem contextField_contextBytes (t : Byte) (c : RawContext) : contextField (t :: contextBytes c) = c :=
  (RawContext.mk.injEq ..).mpr ⟨append_bytes16 c.dspan, rfl, rfl, append_bytes16 c.spacing⟩

section
variable (l : List Byte) (p : RawParams)

theorem bytes16_append (v : BitVec 16) : bytes16 v ++ l = v.extractLsb' 8 8 :: v.extractLsb' 0 8 :: l := rfl

theorem bytes24_append (v : BitVec 24) :
    bytes24 v ++ l = v.extractLsb' 16 8 :: v.extractLsb' 8 8 :: v.extractLsb' 0 8 :: l := rfl

theorem length_paramsBytes : (paramsBytes p).length = 56 := by
  delta paramsBytes
  simp only [bytes16_append, bytes24_append, List.cons_append, List.nil_append, List.length_cons, List.length_nil]

/-- The parameter bytes are flattened once into a list of 57, where each field stands at its place. -/
theorem paramsField_paramsBytes (t : Byte) : paramsField (t :: paramsBytes p) = p := by
  delta paramsBytes
  simp only [bytes16_append, bytes24_append, List.cons_append, List.nil_append]
  exact (RawParams.mk.injEq ..).mpr
    ⟨append_bytes24 p.art, append_bytes24 p.frtMin, append_bytes24 p.frtMax, append_bytes24 p.arMin,
      append_bytes16 p.arSpread, append_bytes16 p.bla, append_bytes16 p.u, rfl, rfl, append_bytes16 p.win,
      append_bytes16 p.wout, append_bytes16 p.wgross, rfl, append_bytes16 p.lostHold, append_bytes16 p.budget,
      append_bytes16 p.askHold, rfl, append_bytes16 p.probeWait, append_bytes16 p.sweepPeriod, rfl, rfl,
      append_bytes24 p.silenceLen, append_bytes16 p.huntPause, rfl, rfl, append_bytes24 p.defRn, append_bytes16 p.defRtol,
      rfl, append_bytes16 p.defBp, rfl⟩

end

/-! ### Frames (R186, R194) -/

/-- No kind accepts a body of more than 60 bytes. -/
theorem le_of_mem_bodyLengths {kind n : Nat} (h : n ∈ bodyLengths kind) : n ≤ 60 := by
  unfold bodyLengths at h
  split at h <;> simp only [List.mem_cons, List.not_mem_nil, or_false] at h <;> omega

/-- A frame whose kind accepts its body's length spells the request of that kind. -/
theorem decodeFrame_requestFrame {kind tag : Byte} {body : List Byte} {n : Nat} (hn : body.length = n)
    (haccepts : (bodyLengths kind.toNat).contains n = true) :
    decodeFrame (requestFrame kind tag body) = decodeRequest kind.toNat tag body := by
  have hmem : body.length ∈ bodyLengths kind.toNat := hn ▸ List.contains_iff_mem.1 haccepts
  have hle : body.length ≤ 60 := le_of_mem_bodyLengths hmem
  have hlen : (BitVec.ofNat 8 body.length).toNat = body.length := by
    rw [BitVec.toNat_ofNat, Nat.mod_eq_of_lt (by omega)]
  have hsync : syncByte ≠ readByte := by decide
  simp only [requestFrame, decodeFrame, if_neg hsync, if_pos, hlen, true_and]
  exact if_pos ⟨hle, hmem⟩

/-- A read spells itself by the number of bytes it clocks. -/
theorem decodeFrame_read (n : Nat) : decodeFrame (readByte :: List.replicate n 0) = .readTransaction n := by
  simp only [decodeFrame, if_pos, List.length_replicate]

/-- Settles O4: most bodies are the operands byte for byte; in the others the fields spell them. -/
theorem frameRoundTrip : Obligations.FrameRoundTrip := by
  intro c f h
  cases c with
  | readTransaction n => cases h; exact decodeFrame_read n
  | identify | partReset | fetchReports | catRead | catLock | barRead | treeReadConfig | treeOpen | treeClose | treeStatus
  | ctxFlush | treeSuspend | treeResume | forceQuiet | rangeNow | retireTn | muteTn | unmuteTn | readEntry =>
    cases h
    exact decodeFrame_requestFrame rfl rfl
  | partSetup tag settings => cases settings <;> cases h <;> exact decodeFrame_requestFrame rfl rfl
  | catWrite tag i e =>
    cases h
    exact (decodeFrame_requestFrame rfl rfl).trans (congrArg (Instr.catWrite tag i) (catEntryField_catEntryBytes i e))
  | barWrite tag i r =>
    cases h
    exact (decodeFrame_requestFrame rfl rfl).trans (congrArg (Instr.barWrite tag i) (barRangeField_barRangeBytes i r))
  | treeConfig tag t p =>
    cases h
    exact (decodeFrame_requestFrame (congrArg (· + 1) (length_paramsBytes p)) rfl).trans
      (congrArg (Instr.treeConfig tag t) (paramsField_paramsBytes p t))
  | ctxPush tag t ctx =>
    cases h
    exact (decodeFrame_requestFrame rfl rfl).trans (congrArg (Instr.ctxPush tag t) (contextField_contextBytes t ctx))
  | admitSerial tag t serial =>
    cases h
    exact (decodeFrame_requestFrame rfl rfl).trans (congrArg (Instr.admitSerial tag t) (serialField_serialBytes serial))
  | refuse tag t serial =>
    cases h
    exact (decodeFrame_requestFrame rfl rfl).trans (congrArg (Instr.refuse tag t) (serialField_serialBytes serial))
  | findSerial tag serial =>
    cases h
    exact (decodeFrame_requestFrame rfl rfl).trans (congrArg (Instr.findSerial tag) (serialField_serialBytes serial))
  | _ => cases h

end Sys2Proof
end

section
/-! PROOF. What one step runs (O1). -/

namespace Sys2Proof.Machine

variable {s : State}

/-- A waiting command is taken off the queue before it runs, so that it finds only the commands behind it. -/
theorem step_of_pending_cons {c : Instr} {rest : List Instr} (h : s.pending = c :: rest) :
    step s = exec c { s with pending := rest } := by
  simp only [step, h]

/-- With no command waiting the part idles. -/
theorem step_of_pending_nil (h : s.pending = []) : step s = .next s := by
  simp only [step, h]

/-- Settles O1: the two shapes of the queue; taking the front off discards the queue it was put in front of. -/
theorem stepRunsFront : Obligations.StepRunsFront :=
  ⟨fun _ _ _ => step_of_pending_cons rfl, fun _ => step_of_pending_nil⟩

end Sys2Proof.Machine
end
